-- ==== Sys2Proof/Word.lean ====
section
/-! DEFINITION. The word types of the LSC-3224: registers and report words have 32 bits, arrival stamps 16, and
lines, remote sources and pins are numbered. -/

namespace Sys2Proof

/-- A register word, a report word, a bus address (00, Principal numbers). -/
abbrev Word := BitVec 32

/-- An arrival stamp; ARRIVALS and APPLIED count in the same modulus 65536 (R15). -/
abbrev Stamp := BitVec 16

/-- A line, 0 to 31 (R61). -/
abbrev LineId := Fin 32

/-- A remote source, 0 to 23 (R35). The local source is source code 24 and has no stored entry (R38). -/
abbrev RemoteId := Fin 24

/-- An entry of the pin table: 0 to 7 for SNS0 to SNS7, 8 for the event pseudo-pin (R124). -/
abbrev PinId := Fin 9

/-- A sense pin SNS0 to SNS7 (R125). -/
abbrev SenseId := Fin 8

/-- A set of sources 0 to 24: source `n` is a member when bit `n` is set (R61, R175). -/
abbrev SourceSet := BitVec 25

/-- A set of lines: line `n` is a member when bit `n` is set (R175). -/
abbrev LineSet := BitVec 32

end Sys2Proof
end

