-- ==== Sys2Proof/Syntax.lean ====
section
/-! DEFINITION. The commands of the LSC-3224: one constructor of `Instr` for each row of spec/opcode_table.json, with
the operands the row's rule speaks of. -/

namespace Sys2Proof

/-- A quiet-timer tier: the unit in which a quiet timer counts (section 3.6). -/
inductive Tier where
  | t0 | t1 | t2 | t3
  deriving DecidableEq, Repr

/-- One bus access as the part sees it (R9, R160): whether CS_N is asserted, the full bus address, the direction,
the active byte lanes and the data of a write. -/
structure Access where
  /-- CS_N is asserted: the access is decoded in the register window whatever its address (R9). -/
  select : Bool
  addr : Word
  /-- A write; otherwise a read. -/
  write : Bool
  /-- The active byte lanes; a full-width access has all four (R10, R160). -/
  lanes : BitVec 4
  data : Word
  deriving DecidableEq, Repr

/-- A full-width access is a 32-bit transfer with all four byte lanes active (R10, R160). -/
def Access.full (a : Access) : Bool := a.lanes == 0xF#4

/-- The commands: bus accesses, and the events that the clock, the pins, the supply and the report engine bring about
(the rows of opcode_table.json; 95, What each step holds).

The rows that are writes of one register carry the whole written word, because a write sets every field of its
register whatever field it is meant for (R19, R105, R114; log entry 7). -/
inductive Instr where
  /-- ADMISSION (R11): a full-width write of `word` at `addr`, CS_N not asserted. -/
  | admission (addr word : Word)
  /-- FAULT_ACCESS (R163): an access of either window. -/
  | faultAccess (a : Access)
  /-- REPORT_BASE (R8): a full-width write of REPORT_BASE. -/
  | reportBase (w : Word)
  /-- APPLICATION_COMPLETION (R25). -/
  | applicationCompletion
  /-- PAUSE_SET (R21): a CONTROL write that carries PAUSE 1. -/
  | pauseSet (w : Word)
  /-- PAUSE_CLEAR (R21): a CONTROL write that carries PAUSE 0. -/
  | pauseClear (w : Word)
  /-- STACK_CLEAR (R106): a CONTROL write that carries STACK_CLEAR 1. -/
  | stackClear (w : Word)
  /-- SOFT_RESET (R167): a CONTROL write that carries SOFT_RESET 1. -/
  | softReset (w : Word)
  /-- QUIET_EXPIRY (R56): the quiet timer of one source reaches 0. -/
  | quietExpiry (src : RemoteId)
  /-- LOAD (R150): a TCMD write with command code 1. -/
  | load
  /-- COMMIT (R151): a TCMD write with command code 2. -/
  | commit
  /-- BAR (R47): a TCMD write with command code 3. -/
  | bar
  /-- UNBAR (R49): a TCMD write with command code 4. -/
  | unbar
  /-- CLEAR_COUNTERS (R51): a TCMD write with command code 5. -/
  | clearCounters
  /-- TAKE (R87): a full-width read of TAKE. -/
  | take
  /-- EOS (R93): a full-width write of EOS. -/
  | eos (w : Word)
  /-- CLOSE_TIMER_EXPIRY (R103): the close timer of the entry of one line reaches 0. -/
  | closeTimerExpiry (line : LineId)
  /-- URGENT_CLEAR (R112): a full-width write of URGENT_CLEAR that names lines. -/
  | urgentClear (w : Word)
  /-- DEADLINE_BIT_CLEAR (R116): a full-width write of URGENT_CLEAR with the deadline bit set. -/
  | deadlineBitClear (w : Word)
  /-- INTERVAL_EXPIRY (R117): the running deadline interval expires. -/
  | intervalExpiry
  /-- RSTOUT_PULSE_END (R119): the 64 µs pulse ends. -/
  | rstoutPulseEnd
  /-- MODE_WRITE (R117): a full-width write of DEADLINE_CTRL. -/
  | modeWrite (w : Word)
  /-- RECORD_CLEAR (R121): a DEADLINE_CTRL write with the record-clear bit at 1. -/
  | recordClear (w : Word)
  /-- FILTERED_TRANSITION (R125) of one sense pin. -/
  | filteredTransition (pin : SenseId)
  /-- SETTLING (R125, R126) of one sense pin. -/
  | settling (pin : SenseId)
  /-- EVENT_FLAG_CLEAR (R137): a full-width write of EVENT_FLAGS. -/
  | eventFlagClear (w : Word)
  /-- EVENT_ENABLE (R138): a full-width write of EVENT_ENABLE. -/
  | eventEnable (w : Word)
  /-- LOG_POP (R142): a full-width read of LOG_POP. -/
  | logPop
  /-- CHECK_CLEAR (R144): a COUNTS write with CHECK_CLEAR at 1. -/
  | checkClear (w : Word)
  /-- FAULT_CLEAR (R144): a COUNTS write with FAULT_CLEAR at 1. -/
  | faultClear (w : Word)
  /-- RESET_CAUSE_CLEAR (R169): a full-width write of RESET_CAUSE. -/
  | resetCauseClear (w : Word)
  /-- REGISTER_WRITE (R161): a full-width write of the register that A[6:2] = `index` names. -/
  | registerWrite (index : BitVec 5) (w : Word)
  /-- POWER_ON_RESET (R166): power is applied, or the supply is below its operating range. -/
  | powerOnReset
  /-- SYSTEM_RESET (R166): RESET_N is sampled low at the latest tick. -/
  | systemReset
  /-- RESET_RELEASE (R168): the last reset hold ends. -/
  | resetRelease
  /-- REFCLK_STOP (R164). -/
  | refclkStop
  /-- REFCLK_START (R164). -/
  | refclkStart
  /-- TIER_BOUNDARY (R55): a unit boundary of one tier reaches the quiet timers. -/
  | tierBoundary (t : Tier)
  /-- CLOSE_UNIT_BOUNDARY (R101): an 8 µs boundary reaches the close timers. -/
  | closeUnitBoundary
  /-- TICK (R125, R164, R165): a 1 µs tick; bit `n` of `sns` is the level of SNS`n` at the sample instant. -/
  | tick (sns : BitVec 8)
  /-- CLOSE_LIMIT_WRITE (R105): a CONTROL write with neither action bit. -/
  | closeLimitWrite (w : Word)
  deriving DecidableEq, Repr

end Sys2Proof
end

