-- ==== Sys2Proof/WellFormed.lean ====
section
/-! DEFINITION. Which commands say what their row says: a row that is a write of one register carries the bit that
makes the write that row. An ill-formed command is still a bus write, and runs as the write it is. -/

namespace Sys2Proof

/-- The register offsets whose writes have no row of their own (R161): TSEL at 0x40 and TDATA0 to TDATA3 at 0x48 to
0x54 (R172), as A[6:2]. -/
def Instr.plainRegister (index : BitVec 5) : Bool :=
  index == 0x10#5 || index == 0x12#5 || index == 0x13#5 || index == 0x14#5 || index == 0x15#5

/-- No state answers a full-width read of the register window with FAULT (R160), so such an access is no
FAULT_ACCESS. -/
def Access.canFault (a : Access) : Bool := !(a.select && a.full && !a.write)

/-- The command is the event its row names (R171, R173 for the bit positions). -/
def Instr.wellFormed : Instr → Bool
  | .pauseSet w => w.getLsbD 0
  | .pauseClear w => !w.getLsbD 0
  | .stackClear w => w.getLsbD 1
  | .softReset w => w.getLsbD 2
  | .closeLimitWrite w => !w.getLsbD 1 && !w.getLsbD 2
  | .urgentClear w => (w &&& 0x7FFFFFFF#32) != 0#32
  | .deadlineBitClear w => w.getLsbD 31
  | .recordClear w => w.getLsbD 31
  | .checkClear w => w.getLsbD 30
  | .faultClear w => w.getLsbD 31
  | .registerWrite index _ => Instr.plainRegister index
  | .faultAccess a => a.canFault
  | .admission _ _ | .reportBase _ | .applicationCompletion | .quietExpiry _ | .load | .commit | .bar | .unbar
  | .clearCounters | .take | .eos _ | .closeTimerExpiry _ | .intervalExpiry | .rstoutPulseEnd | .modeWrite _
  | .filteredTransition _ | .settling _ | .eventFlagClear _ | .eventEnable _ | .logPop | .resetCauseClear _
  | .powerOnReset | .systemReset | .resetRelease | .refclkStop | .refclkStart | .tierBoundary _
  | .closeUnitBoundary | .tick _ => true

end Sys2Proof
end

