-- ==== Sys2Proof/Config.lean ====
section
/-! DEFINITION. What the spec fixes for every LSC-3224 (00, Principal numbers). The spec leaves no value open, so
there is no free value here. -/

namespace Sys2Proof.Config

/-- The report queue holds at most 16 entries (R16). -/
def queueCapacity : Nat := 16

/-- The reject log holds at most 8 entries (R140). -/
def logCapacity : Nat := 8

/-- The source code of the local source (R38). -/
def localCode : Nat := 24

/-- The code that stands for "no source" in take records and line entries (R61, R88). -/
def noSource : BitVec 5 := 31

/-- IDENT: part number 0x3224, vendor code 0xA1, revision 0x01 (R160). -/
def ident : Word := 0x3224A101

/-- Ticks that a power-on reset is held once the supply is within range and REFCLK runs (R166). -/
def powerHoldTicks : Nat := 100

/-- A SOFT_RESET hold ends at the fourth tick after the write (R167). -/
def softHoldTicks : Nat := 4

/-- The RSTOUT pulse ends at the 64th tick after the trip (R119, R164). -/
def pulseTicks : Nat := 64

/-- Ticks of one millisecond of a deadline interval (R115). -/
def ticksPerMs : Nat := 1000

end Sys2Proof.Config
end

