-- ==== Sys2Proof/Machine/State.lean ====
section
/-! DEFINITION. Everything the spec gives the LSC-3224 to hold, as plain data, the queue of waiting commands, and the
state right after reset. -/

namespace Sys2Proof.Machine

/-! ### Report queue (chapter 2) -/

/-- One entry of the report queue: the admitted word, unchanged, and its arrival stamp (R16). -/
structure QueueEntry where
  word : Word
  stamp : Stamp
  deriving DecidableEq, Repr

/-- The states of the report engine (R20). The engine's state is read off the pause request and whether an application
is in flight (`State.engine`). -/
inductive EngineState where
  | idle | applying | pausing | paused
  deriving DecidableEq, Repr

/-! ### Source table (chapter 3) -/

/-- The five states of a remote source (R36). -/
inductive SourceState where
  | vacant | awaiting | live | silent | barred
  deriving DecidableEq, Repr

/-- A remote source entry (R35). -/
@[ext]
structure SourceEntry where
  ownership : LineSet
  state : SourceState
  lastSeq : BitVec 3
  seqKnown : Bool
  quietReload : BitVec 8
  tier : Tier
  timerTier : Tier
  quietRemaining : BitVec 8
  barThreshold : BitVec 4
  foreignStreak : BitVec 4
  accepted : BitVec 16
  rejected : BitVec 8
  duplicates : BitVec 8
  gaps : BitVec 8
  silences : BitVec 8
  /-- The model's own: bit `k` is set while a T`k` boundary of the latest tick has not yet reached this entry (R55:
  a boundary reaches each armed timer as one event per source; log entry 4). -/
  boundaryDue : BitVec 4
  deriving DecidableEq, Repr

/-- A remote source entry after every reset (R60). -/
def SourceEntry.reset : SourceEntry where
  ownership := 0
  state := .vacant
  lastSeq := 0
  seqKnown := false
  quietReload := 0
  tier := .t0
  timerTier := .t0
  quietRemaining := 0
  barThreshold := 0
  foreignStreak := 0
  accepted := 0
  rejected := 0
  duplicates := 0
  gaps := 0
  silences := 0
  boundaryDue := 0

/-! ### Line table (chapter 4) -/

/-- The modes of a line (R61). -/
inductive LineMode where
  | off | edge | shared | sole
  deriving DecidableEq, Repr

/-- The routes of a line (R61). -/
inductive Route where
  | service | urgent
  deriving DecidableEq, Repr

/-- A line entry (R61). The owner set and requesting are derived (R64, R73). -/
@[ext]
structure LineEntry where
  mode : LineMode
  priority : BitVec 3
  route : Route
  masked : Bool
  contributors : SourceSet
  latch : Bool
  repeatCount : BitVec 4
  lastEdge : BitVec 5
  deriving DecidableEq, Repr

/-- A line entry after every reset (R62). -/
def LineEntry.reset : LineEntry where
  mode := .off
  priority := 7
  route := .service
  masked := false
  contributors := 0
  latch := false
  repeatCount := 0
  lastEdge := Config.noSource

/-! ### Service unit (chapter 5) -/

/-- The kind of a stack entry (R86). -/
inductive Kind where
  | level | edge
  deriving DecidableEq, Repr

/-- What a CLOSING entry holds (R86): its watermark and its close timer. -/
structure Closing where
  watermark : Stamp
  remaining : BitVec 4
  /-- The model's own: the 8 µs boundary of the latest tick found the timer at 1, and the expiry has not been taken
  yet (R101, R103; log entry 4). -/
  expiring : Bool
  deriving DecidableEq, Repr

/-- One entry of the service stack (R86): OPEN when `closing` is none, else CLOSING. -/
structure StackEntry where
  line : LineId
  priority : BitVec 3
  kind : Kind
  closing : Option Closing
  deriving DecidableEq, Repr

/-- The outcomes of an EOS (R94). -/
inductive EosOutcome where
  | notInService | alreadyClosing | closed | deferred
  deriving DecidableEq, Repr

/-- EOS_RESULT (R98): the outcome, the line (0-31, or 63) and the stack depth of the latest EOS. -/
structure EosResult where
  outcome : EosOutcome
  line : BitVec 6
  depth : BitVec 4
  deriving DecidableEq, Repr

/-! ### Deadline monitor (chapter 6) -/

/-- The stored modes of DEADLINE_CTRL (R114). -/
inductive DeadlineMode where
  | off | warn | warnReset
  deriving DecidableEq, Repr

/-- The states of the deadline monitor with what they time (R115): `left` is the number of ticks after which the
running interval expires, or the RSTOUT pulse ends. WARNED has no running interval after an expiry in mode WARN. -/
inductive Monitor where
  | idle
  | counting (left : Nat)
  | warned (left : Option Nat)
  | tripped (left : Nat)
  deriving DecidableEq, Repr

/-- The deadline record (R120). -/
structure DeadlineRecord where
  valid : Bool
  line : BitVec 5
  priority : BitVec 3
  depth : BitVec 4
  deriving DecidableEq, Repr

/-- The cleared deadline record (R121). -/
def DeadlineRecord.cleared : DeadlineRecord := ⟨false, 0, 0, 0⟩

/-! ### Sense block (chapter 7) -/

/-- The modes of a pin entry (R124). -/
inductive PinMode where
  | off | levelLow | levelHigh | rising | falling | anyChange
  deriving DecidableEq, Repr

/-- The committed fields of a pin entry (R124). -/
structure PinEntry where
  mode : PinMode
  target : LineId
  deriving DecidableEq, Repr

/-- A filtered level (R124). -/
inductive Level where
  | unset | low | high
  deriving DecidableEq, Repr

/-- The filter of one sense pin (R125): the filtered level and the previous sample, none before the first sample after
a release (R126). -/
structure PinFilter where
  level : Level
  previous : Option Bool
  /-- The model's own: the sample of the latest tick makes a settling or a filtered transition that has not been taken
  yet (R125; log entry 4). -/
  due : Bool
  deriving DecidableEq, Repr

/-! ### Event block and reject log (chapter 8) -/

/-- The rejection reasons (R26, R140). -/
inductive RejectReason where
  | check | kind | unknownSource | vacant | barred | foreign
  deriving DecidableEq, Repr

/-- One entry of the reject log (R140). -/
structure LogEntry where
  word : Word
  reason : RejectReason
  stamp : Stamp
  deriving DecidableEq, Repr

/-! ### Table port (chapter 9) -/

/-- TSEL (R146). -/
structure TableSelect where
  table : BitVec 2
  index : BitVec 5
  deriving DecidableEq, Repr

/-- The staging record TDATA0 to TDATA3 (R147). -/
structure Staging where
  w0 : Word
  w1 : Word
  w2 : Word
  w3 : Word
  deriving DecidableEq, Repr

/-- The commands of TCMD (R148). -/
inductive TableCommand where
  | load | commit | bar | unbar | clearCounters
  deriving DecidableEq, Repr

/-- The results of TSTAT (R149). -/
inductive TableResult where
  | ok | busy | notPaused | badIndex | badValue | soleConflict | inService | pinMismatch | notEnrolled | wrongTable
  deriving DecidableEq, Repr

/-- TSTAT (R149): the result of the latest command and the command it answered. -/
structure TableStatus where
  result : TableResult
  command : Option TableCommand
  deriving DecidableEq, Repr

/-! ### Bus answers -/

/-- The three terminations of a claimed access (00, Bus terminations). -/
inductive Termination where
  | done | retry | fault
  deriving DecidableEq, Repr

/-- What the master of the latest bus access saw (log entry 8): nothing yet; no termination, because the part did not
claim the access (R9, R160); or a termination with the word a read returned (0 for a write). -/
inductive Reply where
  | none
  | unclaimed
  | answered (t : Termination) (data : Word)
  deriving DecidableEq, Repr

/-! ### The state -/

/-- Everything the LSC-3224 holds, and the commands that wait for it. -/
@[ext]
structure State where
  /-- REPORT_BASE (R8). -/
  reportBase : Word
  /-- The report queue, head first (R16). -/
  queue : List QueueEntry
  /-- ARRIVALS (R15). -/
  arrivals : Stamp
  /-- APPLIED (R17). -/
  applied : Stamp
  /-- CONTROL.PAUSE (R19). -/
  pauseRequest : Bool
  /-- An application is in flight (R20, R23). -/
  applying : Bool
  /-- The model's own: a tick has fallen since the application in flight started (R25; log entry 6). -/
  appTicked : Bool
  /-- The remote entries of the source table (R35). -/
  sources : Vector SourceEntry 24
  /-- The line table (R61). -/
  lines : Vector LineEntry 32
  /-- The service stack, bottom first (R86). -/
  stack : List StackEntry
  /-- CONTROL.CLOSE_LIMIT (R105). -/
  closeLimit : BitVec 4
  /-- The model's own: the 8 µs boundary of the latest tick has not been taken yet (R101; log entry 4). -/
  closeUnitDue : Bool
  /-- EOS_RESULT (R98). -/
  eosResult : EosResult
  /-- DEADLINE_CTRL.MODE (R114). -/
  deadlineMode : DeadlineMode
  /-- DEADLINE_CTRL.INTERVAL (R114). -/
  deadlineInterval : BitVec 8
  /-- The deadline monitor (R115). -/
  monitor : Monitor
  /-- The warning latch (R116). -/
  warning : Bool
  /-- The deadline record (R120). -/
  record : DeadlineRecord
  /-- The pin table (R124). -/
  pins : Vector PinEntry 9
  /-- The filters of SNS0 to SNS7 (R125). -/
  filters : Vector PinFilter 8
  /-- EVENT_FLAGS (R136), bits as in R173. -/
  eventFlags : BitVec 8
  /-- EVENT_ENABLE (R138), bits as in R173. -/
  eventEnables : BitVec 8
  /-- The reject log, oldest first (R140). -/
  log : List LogEntry
  /-- The check-failure counter (R143). -/
  checkFailures : BitVec 16
  /-- The bus-fault counter (R143). -/
  busFaults : BitVec 8
  /-- TSEL (R146). -/
  tsel : TableSelect
  /-- TDATA0 to TDATA3 (R147). -/
  staging : Staging
  /-- TSTAT (R149). -/
  tstat : TableStatus
  /-- REFCLK runs (R164). -/
  refclk : Bool
  /-- The time-base count (R165). -/
  timeBase : BitVec 20
  /-- RESET_CAUSE (R169): POWER, PIN, SOFT, DEADLINE in bits 0 to 3 (R173). -/
  resetCause : BitVec 4
  /-- The ticks left of a power-on hold, or none (R166). -/
  powerHold : Option Nat
  /-- The ticks left of a SOFT_RESET hold, or none (R167). -/
  softHold : Option Nat
  /-- A system reset by RESET_N is held (R166). -/
  pinHold : Bool
  /-- The model's own: RESET_N was sampled low at the latest tick (R166; log entry 10). -/
  resetLow : Bool
  /-- The model's own: the answer of the latest bus access (log entry 8). -/
  reply : Reply
  /-- The commands that wait, first in, first out (log entry 2). -/
  pending : List Instr
  deriving DecidableEq, Repr

/-- The part right after the release of a power-on reset, REFCLK running (R172; log entry 1): every block in its reset
state (R8, R22, R60, R62, R109, R123, R134, R139, R145, R159), RESET_CAUSE showing POWER alone (R169), no hold. -/
def State.reset : State where
  reportBase := 0
  queue := []
  arrivals := 0
  applied := 0
  pauseRequest := true
  applying := false
  appTicked := false
  sources := Vector.replicate 24 SourceEntry.reset
  lines := Vector.replicate 32 LineEntry.reset
  stack := []
  closeLimit := 0
  closeUnitDue := false
  eosResult := ⟨.notInService, 63, 0⟩
  deadlineMode := .off
  deadlineInterval := 0
  monitor := .idle
  warning := false
  record := DeadlineRecord.cleared
  pins := Vector.replicate 9 ⟨.off, 0⟩
  filters := Vector.replicate 8 ⟨.unset, none, false⟩
  eventFlags := 0
  eventEnables := 0
  log := []
  checkFailures := 0
  busFaults := 0
  tsel := ⟨0, 0⟩
  staging := ⟨0, 0, 0, 0⟩
  tstat := ⟨.ok, none⟩
  refclk := true
  timeBase := 0
  resetCause := 1
  powerHold := none
  softHold := none
  pinHold := false
  resetLow := false
  reply := .none
  pending := []

/-! ### Stops -/

/-- What stops the machine: nothing does. The spec's FAULT is a bus termination after which the part goes on (R163),
so no constructor is needed (log entry 17). Safe: no behaviour of the part is cut short. -/
inductive Fault where
  deriving DecidableEq, Repr

/-- What the model refuses. -/
inductive Refusal where
  /-- Raised by a dispatch arm whose command has no meaning yet; no arm is left so. Safe. -/
  | notModelled (mnemonic : String)
  deriving DecidableEq, Repr

end Sys2Proof.Machine
end

