-- ==== Sys2Proof/Machine/Operands.lean ====
section
/-! DEFINITION. The fields of every word the part reads or shows: report words (R174), register words (R172, R173) and
staging records (R175), with the codes of the enumerated values. -/

namespace Sys2Proof.Machine

/-! ### Placing fields -/

/-- The value `v` as a field whose lowest bit stands at `pos` of a word; the other bits are 0 (R171). -/
def place {n : Nat} (v : BitVec n) (pos : Nat) : Word := v.setWidth 32 <<< pos

/-- A one-bit field. -/
def placeBool (b : Bool) (pos : Nat) : Word := if b then BitVec.twoPow 32 pos else 0

/-- The line that a 5-bit line field names. -/
def lineOf (b : BitVec 5) : LineId := ⟨b.toNat, b.isLt⟩

/-- The 5-bit code of a line. -/
def lineCode (l : LineId) : BitVec 5 := BitVec.ofNat 5 l.val

/-! ### Report words (R1, R174) -/

/-- The kinds of a report word; code 3 is no kind (R4). -/
inductive ReportKind where
  | state | refresh | release | noKind
  deriving DecidableEq, Repr

/-- The source field, bits 31:27 (R174). -/
def wordSource (w : Word) : BitVec 5 := w.extractLsb' 27 5

/-- The sequence field, bits 26:24 (R174). -/
def wordSeq (w : Word) : BitVec 3 := w.extractLsb' 24 3

/-- The kind field, bits 23:22 (R174), by the codes of R4. -/
def wordKind (w : Word) : ReportKind :=
  if w.extractLsb' 22 2 = 0#2 then .state
  else if w.extractLsb' 22 2 = 1#2 then .refresh
  else if w.extractLsb' 22 2 = 2#2 then .release
  else .noKind

/-- The octet field, bits 21:20 (R174). -/
def wordOctet (w : Word) : BitVec 2 := w.extractLsb' 20 2

/-- The valid field, bits 19:12 (R174). -/
def wordValid (w : Word) : BitVec 8 := w.extractLsb' 12 8

/-- The level field, bits 11:4 (R174). -/
def wordLevel (w : Word) : BitVec 8 := w.extractLsb' 4 8

/-- The XOR of the eight nibbles of a word (R7). -/
def nibbleXor (w : Word) : BitVec 4 :=
  (List.range 8).foldl (fun acc i => acc ^^^ w.extractLsb' (4 * i) 4) 0#4

/-- The check passes when the XOR of the word's eight nibbles is 0 (R7). -/
def checkPasses (w : Word) : Bool := nibbleXor w == 0#4

/-- The remote source that the source field names: codes 0 to 23 (R2). -/
def wordRemote (w : Word) : Option RemoteId :=
  if h : (wordSource w).toNat < 24 then some ⟨(wordSource w).toNat, h⟩ else none

/-- The octet field names line `l`: `l` is one of the lines 8·octet to 8·octet+7 (R5). -/
def wordInOctet (w : Word) (l : LineId) : Bool := l.val / 8 == (wordOctet w).toNat

/-- The valid bit of line `l` is set in the word's octet (R5). -/
def wordStates (w : Word) (l : LineId) : Bool := wordInOctet w l && (wordValid w).getLsbD (l.val % 8)

/-- The level bit of line `l`, read only where the line is stated (R1, R5). -/
def wordLevelOf (w : Word) (l : LineId) : Bool := (wordLevel w).getLsbD (l.val % 8)

/-! ### Register fields (R173) -/

/-- CONTROL.PAUSE, bit 0. -/
def controlPause (w : Word) : Bool := w.getLsbD 0

/-- CONTROL.STACK_CLEAR, bit 1. -/
def controlStackClear (w : Word) : Bool := w.getLsbD 1

/-- CONTROL.SOFT_RESET, bit 2. -/
def controlSoftReset (w : Word) : Bool := w.getLsbD 2

/-- CONTROL.CLOSE_LIMIT, bits 11:8. -/
def controlCloseLimit (w : Word) : BitVec 4 := w.extractLsb' 8 4

/-- EOS.LINE, bits 4:0. -/
def eosLine (w : Word) : LineId := lineOf (w.extractLsb' 0 5)

/-- EOS.TOP, bit 8. -/
def eosTop (w : Word) : Bool := w.getLsbD 8

/-- DEADLINE_CTRL.MODE, bits 1:0; code 3 is stored as OFF (R114). -/
def deadlineModeOf (w : Word) : DeadlineMode :=
  if w.extractLsb' 0 2 = 1#2 then .warn else if w.extractLsb' 0 2 = 2#2 then .warnReset else .off

/-- DEADLINE_CTRL.INTERVAL, bits 15:8. -/
def deadlineIntervalOf (w : Word) : BitVec 8 := w.extractLsb' 8 8

/-- TCMD.COMMAND, bits 2:0; codes 0, 6 and 7 name no command (R148). -/
def commandOf (w : Word) : Option TableCommand :=
  if w.extractLsb' 0 3 = 1#3 then some .load
  else if w.extractLsb' 0 3 = 2#3 then some .commit
  else if w.extractLsb' 0 3 = 3#3 then some .bar
  else if w.extractLsb' 0 3 = 4#3 then some .unbar
  else if w.extractLsb' 0 3 = 5#3 then some .clearCounters
  else none

/-- TSEL: the table in bits 1:0, the index in bits 12:8 (R173). -/
def selectOf (w : Word) : TableSelect := ⟨w.extractLsb' 0 2, w.extractLsb' 8 5⟩

/-! ### Codes of enumerated values -/

/-- STATUS.ENGINE (R173). -/
def EngineState.code : EngineState → BitVec 2
  | .idle => 0 | .applying => 1 | .pausing => 2 | .paused => 3

/-- The tier codes (R175). -/
def tierCode : Tier → BitVec 2
  | .t0 => 0 | .t1 => 1 | .t2 => 2 | .t3 => 3

/-- The tier that a code names (R175). -/
def tierOf (b : BitVec 2) : Tier :=
  if b = 0#2 then .t0 else if b = 1#2 then .t1 else if b = 2#2 then .t2 else .t3

/-- The source state codes; 5, LOCAL, is written by a LOAD of entry 24 alone (R175). -/
def SourceState.code : SourceState → BitVec 3
  | .vacant => 0 | .awaiting => 1 | .live => 2 | .silent => 3 | .barred => 4

/-- The line mode codes (R175). -/
def LineMode.code : LineMode → BitVec 2
  | .off => 0 | .edge => 1 | .shared => 2 | .sole => 3

/-- The line mode that a code names (R175). -/
def lineModeOf (b : BitVec 2) : LineMode :=
  if b = 0#2 then .off else if b = 1#2 then .edge else if b = 2#2 then .shared else .sole

/-- The route codes (R175). -/
def Route.code : Route → BitVec 1
  | .service => 0 | .urgent => 1

/-- The pin mode codes (R124). -/
def PinMode.code : PinMode → BitVec 3
  | .off => 0 | .levelLow => 1 | .levelHigh => 2 | .rising => 3 | .falling => 4 | .anyChange => 5

/-- The pin mode that a code names; codes 6 and 7 name none (R131). -/
def pinModeOf (b : BitVec 3) : Option PinMode :=
  if b = 0#3 then some .off
  else if b = 1#3 then some .levelLow
  else if b = 2#3 then some .levelHigh
  else if b = 3#3 then some .rising
  else if b = 4#3 then some .falling
  else if b = 5#3 then some .anyChange
  else none

/-- The filtered level codes (R175). -/
def Level.code : Level → BitVec 2
  | .unset => 0 | .low => 1 | .high => 2

/-- The filtered level that a sample stands for. -/
def levelOf (sample : Bool) : Level := if sample then .high else .low

/-- The kind codes of take records and stack views (R173). -/
def Kind.code : Kind → BitVec 1
  | .level => 0 | .edge => 1

/-- EOS_RESULT.RESULT (R173). -/
def EosOutcome.code : EosOutcome → BitVec 2
  | .notInService => 0 | .alreadyClosing => 1 | .closed => 2 | .deferred => 3

/-- DEADLINE_CTRL.MODE as read back (R173). -/
def DeadlineMode.code : DeadlineMode → BitVec 2
  | .off => 0 | .warn => 1 | .warnReset => 2

/-- DEADLINE_VIEW.STATE (R173). TRIPPED is never shown (R122), since no read is taken while it lasts. -/
def Monitor.code : Monitor → BitVec 2
  | .idle => 0 | .counting _ => 1 | .warned _ => 2 | .tripped _ => 0

/-- TSTAT.RESULT (R173). -/
def TableResult.code : TableResult → BitVec 4
  | .ok => 0 | .busy => 1 | .notPaused => 2 | .badIndex => 3 | .badValue => 4 | .soleConflict => 5
  | .inService => 6 | .pinMismatch => 7 | .notEnrolled => 8 | .wrongTable => 9

/-- TCMD and TSTAT command codes (R148, R173). -/
def TableCommand.code : TableCommand → BitVec 3
  | .load => 1 | .commit => 2 | .bar => 3 | .unbar => 4 | .clearCounters => 5

/-- LOG_POP.REASON (R173); 0 is EMPTY. -/
def RejectReason.code : RejectReason → BitVec 3
  | .check => 1 | .kind => 2 | .unknownSource => 3 | .vacant => 4 | .barred => 5 | .foreign => 6

/-! ### Staging records (R175) -/

/-- The staged ownership set: TDATA0 bits 31:0. -/
def Staging.ownership (t : Staging) : LineSet := t.w0

/-- The staged quiet reload: TDATA1 bits 7:0. -/
def Staging.quietReload (t : Staging) : BitVec 8 := t.w1.extractLsb' 0 8

/-- The staged tier: TDATA1 bits 9:8. -/
def Staging.tier (t : Staging) : Tier := tierOf (t.w1.extractLsb' 8 2)

/-- The staged foreign-bar threshold: TDATA1 bits 15:12. -/
def Staging.barThreshold (t : Staging) : BitVec 4 := t.w1.extractLsb' 12 4

/-- The staged line mode: TDATA0 bits 1:0. -/
def Staging.lineMode (t : Staging) : LineMode := lineModeOf (t.w0.extractLsb' 0 2)

/-- The staged route: TDATA0 bit 2. -/
def Staging.route (t : Staging) : Route := if t.w0.getLsbD 2 then .urgent else .service

/-- The staged mask: TDATA0 bit 3. -/
def Staging.masked (t : Staging) : Bool := t.w0.getLsbD 3

/-- The staged priority: TDATA0 bits 6:4. -/
def Staging.priority (t : Staging) : BitVec 3 := t.w0.extractLsb' 4 3

/-- The staged pin mode: TDATA0 bits 2:0, none for the codes 6 and 7. -/
def Staging.pinMode (t : Staging) : Option PinMode := pinModeOf (t.w0.extractLsb' 0 3)

/-- The staged target line: TDATA0 bits 12:8. -/
def Staging.target (t : Staging) : LineId := lineOf (t.w0.extractLsb' 8 5)

/-- The record that a LOAD of a remote source entry writes (R35, R175). -/
def SourceEntry.staged (e : SourceEntry) : Staging where
  w0 := e.ownership
  w1 := place e.quietReload 0 ||| place (tierCode e.tier) 8 ||| place (tierCode e.timerTier) 10
    ||| place e.barThreshold 12 ||| place e.state.code 16 ||| place e.lastSeq 20 ||| placeBool e.seqKnown 23
  w2 := place e.quietRemaining 0 ||| place e.foreignStreak 8 ||| place e.accepted 16
  w3 := place e.rejected 0 ||| place e.duplicates 8 ||| place e.gaps 16 ||| place e.silences 24

/-- The record that a LOAD of entry 24 writes: the derived ownership, state 5 (LOCAL), and 0 elsewhere (R38, R175). -/
def stagedLocal (ownership : LineSet) : Staging := ⟨ownership, place 5#3 16, 0, 0⟩

/-- The record that a LOAD of a line entry writes, with its derived fields (R61, R175). -/
def LineEntry.staged (e : LineEntry) (requesting : Bool) (owners : SourceSet) : Staging where
  w0 := place e.mode.code 0 ||| place e.route.code 2 ||| placeBool e.masked 3 ||| place e.priority 4
    ||| placeBool requesting 8 ||| placeBool e.latch 9 ||| place e.repeatCount 10 ||| place e.lastEdge 16
  w1 := place e.contributors 0
  w2 := place owners 0
  w3 := 0

/-- The record that a LOAD of a pin entry writes (R124, R175). -/
def PinEntry.staged (e : PinEntry) (level : Level) : Staging :=
  ⟨place e.mode.code 0 ||| place (lineCode e.target) 8 ||| place level.code 16, 0, 0, 0⟩

/-! ### Registers (R172) -/

/-- The 32 registers of the register window. -/
inductive Register where
  | ident | control | status | reportBase | flow | take | eos | counts | pending | inservice | urgent
  | deadlineCtrl | deadlineView | resetCause | eventFlags | eventEnable | tsel | tcmd
  | tdata0 | tdata1 | tdata2 | tdata3 | logWord | logPop | stack (k : Fin 8)
  deriving DecidableEq, Repr

/-- The register at offset 4·`index` (R172). -/
def registerAt (index : BitVec 5) : Register :=
  match index.toNat with
  | 0 => .ident | 1 => .control | 2 => .status | 3 => .reportBase | 4 => .flow | 5 => .take | 6 => .eos
  | 7 => .counts | 8 => .pending | 9 => .inservice | 10 => .urgent | 11 => .deadlineCtrl | 12 => .deadlineView
  | 13 => .resetCause | 14 => .eventFlags | 15 => .eventEnable | 16 => .tsel | 17 => .tcmd
  | 18 => .tdata0 | 19 => .tdata1 | 20 => .tdata2 | 21 => .tdata3 | 22 => .logWord | 23 => .logPop
  | 24 => .stack 0 | 25 => .stack 1 | 26 => .stack 2 | 27 => .stack 3
  | 28 => .stack 4 | 29 => .stack 5 | 30 => .stack 6 | _ => .stack 7

/-- The registers that refuse writes (R161). -/
def Register.readOnly : Register → Bool
  | .ident | .status | .flow | .take | .pending | .inservice | .deadlineView | .logWord | .logPop | .stack _ => true
  | .control | .reportBase | .eos | .counts | .urgent | .deadlineCtrl | .resetCause | .eventFlags | .eventEnable
  | .tsel | .tcmd | .tdata0 | .tdata1 | .tdata2 | .tdata3 => false


/-- The register that an access of the register window reaches: A[6:2] of its address (R160). -/
def accessRegister (a : Access) : Register := registerAt (a.addr.extractLsb' 2 5)

end Sys2Proof.Machine
end

