-- ==== Sys2Proof/Machine/Flags.lean ====
section
/-! DEFINITION. The event flags (R136), the summary (R138), and the saturating counters. -/

namespace Sys2Proof.Machine

/-! ### Flag bits (R173) -/

def flagSilent : BitVec 8 := 0x01
def flagBarred : BitVec 8 := 0x02
def flagRevived : BitVec 8 := 0x04
def flagReject : BitVec 8 := 0x08
def flagLogFull : BitVec 8 := 0x10
def flagQueueRetry : BitVec 8 := 0x20
def flagCloseExpired : BitVec 8 := 0x40
def flagBusFault : BitVec 8 := 0x80

/-! ### Reset cause bits (R173) -/

def causePower : BitVec 4 := 0x1
def causePin : BitVec 4 := 0x2
def causeSoft : BitVec 4 := 0x4
def causeDeadline : BitVec 4 := 0x8

/-- One more, or the maximum kept (R50, R143: counters saturate). -/
def satInc {n : Nat} (x : BitVec n) : BitVec n := if x = BitVec.allOnes n then x else x + 1#n

/-- Set an event flag, or leave it set (R136). -/
def State.raise (s : State) (flag : BitVec 8) : State := { s with eventFlags := s.eventFlags ||| flag }

/-- Add a flag to the reset cause record; the others stay as they stand (R169). -/
def State.addCause (s : State) (flag : BitVec 4) : State := { s with resetCause := s.resetCause ||| flag }

/-- One access more answered FAULT, in the bus-fault counter (R143, R163). -/
def State.countFault (s : State) : State := { s with busFaults := satInc s.busFaults }

/-- The summary: at least one flag is set with its enable bit (R138). -/
def State.summary (s : State) : Bool := (s.eventFlags &&& s.eventEnables) != 0#8

end Sys2Proof.Machine
end

