-- ==== Sys2Proof/Machine/Ops.lean ====
section
/-! DEFINITION. The named operations on State that the commands share: the tables' accessors and updates, what is
derived from the tables, the deadline monitor's view of SREQ, bus answers, and the resets. -/

namespace Sys2Proof.Machine

/-! ### Sets of sources -/

/-- Put source code `n` into a set of sources, or take it out (R66). -/
def putMember (c : SourceSet) (n : Nat) (b : Bool) : SourceSet :=
  if b then c ||| BitVec.twoPow 25 n else c &&& ~~~(BitVec.twoPow 25 n)

/-- The set of the source codes 0 to 24 that satisfy `p`. -/
def sourceSetOf (p : Nat → Bool) : SourceSet :=
  (List.range 25).foldl (fun acc n => putMember acc n (p n)) 0

/-- The lowest-numbered member of a set of sources; 31 for the empty set (R89; log entry 14). -/
def lowestMember (c : SourceSet) : BitVec 5 :=
  match (List.range 25).find? (fun n => c.getLsbD n) with
  | some n => BitVec.ofNat 5 n
  | none => Config.noSource

/-- The set of the lines that satisfy `p`. -/
def lineSetOf (p : LineId → Bool) : LineSet :=
  (List.finRange 32).foldl (fun acc l => if p l then acc ||| BitVec.twoPow 32 l.val else acc) 0

/-! ### Line entries (chapter 4) -/

/-- The line's mode is SHARED or SOLE: its contributor set is in use (R63). -/
def LineMode.isLevel : LineMode → Bool
  | .shared | .sole => true
  | .off | .edge => false

/-- The line wants service (R73). -/
def LineEntry.requesting (e : LineEntry) : Bool :=
  match e.mode with
  | .off => false
  | .edge => e.latch
  | .shared | .sole => e.contributors != 0#25

/-- A pulse from source `src` (R70); only an EDGE line has a latch to set (R63). -/
def LineEntry.pulse (e : LineEntry) (src : BitVec 5) : LineEntry :=
  if e.mode = .edge then
    if e.latch then { e with repeatCount := satInc e.repeatCount, lastEdge := src }
    else { e with latch := true, repeatCount := 0, lastEdge := src }
  else e

/-- Clear the edge latch, and with it the repeat count and the last edge source (R71). -/
def LineEntry.clearLatch (e : LineEntry) : LineEntry :=
  { e with latch := false, repeatCount := 0, lastEdge := Config.noSource }

/-- Make source code `n` a member of the contributor set, or not; a line that is not SHARED or SOLE has no contributors
(R63, R67, R68). -/
def LineEntry.setMember (e : LineEntry) (n : Nat) (b : Bool) : LineEntry :=
  if e.mode.isLevel then { e with contributors := putMember e.contributors n b } else e

/-- A stated level from remote source `k`, under the line's mode (R67). -/
def LineEntry.stated (e : LineEntry) (k : RemoteId) (level : Bool) : LineEntry :=
  match e.mode with
  | .off => e
  | .edge => if level then e.pulse (BitVec.ofNat 5 k.val) else e
  | .shared | .sole => e.setMember k.val level

/-! ### The tables in State -/

def State.source (s : State) (k : RemoteId) : SourceEntry := s.sources[k]
def State.line (s : State) (l : LineId) : LineEntry := s.lines[l]
def State.pin (s : State) (p : PinId) : PinEntry := s.pins[p]
def State.filter (s : State) (p : SenseId) : PinFilter := s.filters[p]

def State.setSource (s : State) (k : RemoteId) (e : SourceEntry) : State := { s with sources := s.sources.set k e }
def State.setLine (s : State) (l : LineId) (e : LineEntry) : State := { s with lines := s.lines.set l e }
def State.setPin (s : State) (p : PinId) (e : PinEntry) : State := { s with pins := s.pins.set p e }
def State.setFilter (s : State) (p : SenseId) (e : PinFilter) : State := { s with filters := s.filters.set p e }

/-- Change every line entry at once, as one event at the line table. -/
def State.mapLines (s : State) (f : LineId → LineEntry → LineEntry) : State :=
  { s with lines := Vector.ofFn fun l : LineId => f l s.lines[l] }

/-- Change every remote source entry at once. -/
def State.mapSources (s : State) (f : RemoteId → SourceEntry → SourceEntry) : State :=
  { s with sources := Vector.ofFn fun k : RemoteId => f k s.sources[k] }

/-- A withdrawal: remote source `k` leaves the contributor set of every line of `from_` (R46, R69). -/
def State.withdraw (s : State) (k : RemoteId) (from_ : LineSet) : State :=
  s.mapLines fun l e =>
    if from_.getLsbD l.val then { e with contributors := putMember e.contributors k.val false } else e

/-! ### Owners (R38, R64) -/

/-- A pin entry that is not OFF targets the line: the local source owns it (R130). -/
def State.localOwns (s : State) (l : LineId) : Bool :=
  (List.finRange 9).any fun p : PinId => (s.pin p).mode != .off && (s.pin p).target == l

/-- The source code `n` is an owner of line `l` (R64). -/
def State.owns (s : State) (l : LineId) (n : Nat) : Bool :=
  if h : n < 24 then (s.source ⟨n, h⟩).ownership.getLsbD l.val
  else n == Config.localCode && s.localOwns l

/-- The derived owner set of a line (R64). -/
def State.ownerSet (s : State) (l : LineId) : SourceSet := sourceSetOf (s.owns l)

/-- How many owners a line has, the local source counted once (R65). -/
def State.ownerCount (s : State) (l : LineId) : Nat := (List.range 25).countP (s.owns l)

/-- A remote source owns the line. -/
def State.remoteOwned (s : State) (l : LineId) : Bool := (List.range 24).any (s.owns l)

/-- The derived ownership set of the local source (R38, R130). -/
def State.localOwnership (s : State) : LineSet := lineSetOf s.localOwns

/-! ### The local source (chapter 7) -/

def PinMode.isLevel : PinMode → Bool
  | .levelLow | .levelHigh => true
  | .off | .rising | .falling | .anyChange => false

def PinMode.isEdge : PinMode → Bool
  | .rising | .falling | .anyChange => true
  | .off | .levelLow | .levelHigh => false

/-- The filtered level of a pin entry: the filter's for SNS0 to SNS7, the event summary for entry 8 (R124, R127). -/
def State.pinLevel (s : State) (p : PinId) : Level :=
  if h : p.val < 8 then (s.filter ⟨p.val, h⟩).level else levelOf s.summary

/-- A level-mode entry is active (R128); entry 8 has no LEVEL_LOW (R124), and is inactive in every case but one. -/
def State.pinActive (s : State) (p : PinId) : Bool :=
  match (s.pin p).mode with
  | .levelLow => p.val < 8 && s.pinLevel p == .low
  | .levelHigh => s.pinLevel p == .high
  | .off | .rising | .falling | .anyChange => false

/-- At least one active level-mode entry targets the line (R68). -/
def State.localActive (s : State) (l : LineId) : Bool :=
  (List.finRange 9).any fun p : PinId => (s.pin p).target == l && s.pinActive p

/-- Recompute the local source's membership of one line (R68, R128). -/
def State.recomputeLocal (s : State) (l : LineId) : State :=
  s.setLine l ((s.line l).setMember Config.localCode (s.localActive l))

/-! ### Deliverability, the arbiter, SREQ and UREQ (R83-R85, R110) -/

/-- The line has a service-stack entry, OPEN or CLOSING (R107). -/
def State.inStack (s : State) (l : LineId) : Bool := s.stack.any fun e => e.line == l

/-- The stack's gate: the stack is empty, or the priority value is strictly less than the top's (R83). -/
def State.passesGate (s : State) (priority : BitVec 3) : Bool :=
  match s.stack.getLast? with
  | none => true
  | some top => priority.ult top.priority

/-- The line may be offered (R83). -/
def State.deliverable (s : State) (l : LineId) : Bool :=
  (s.line l).route == .service && (s.line l).requesting && !(s.line l).masked && !s.inStack l
    && s.passesGate (s.line l).priority

/-- Of two candidates the arbiter keeps the one met first unless the next is strictly more urgent, so among equals the
lowest line number wins (R84). -/
def State.better (s : State) (best : Option LineId) (l : LineId) : Option LineId :=
  if s.deliverable l then
    match best with
    | none => some l
    | some b => if (s.line l).priority.ult (s.line b).priority then some l else some b
  else best

/-- The arbiter's offer (R84). -/
def State.offer (s : State) : Option LineId := (List.finRange 32).foldl s.better none

/-- The SREQ output (R85). -/
def State.sreq (s : State) : Bool := (List.finRange 32).any s.deliverable

/-- The line asserts UREQ (R110). -/
def State.urgentLine (s : State) (l : LineId) : Bool :=
  (s.line l).route == .urgent && (s.line l).requesting && !(s.line l).masked

/-- The UREQ output (R110). -/
def State.ureq (s : State) : Bool := (List.finRange 32).any s.urgentLine || s.warning

/-- The line shows in PENDING (R74). -/
def State.pendingLine (s : State) (l : LineId) : Bool :=
  (s.line l).requesting && !(s.line l).masked && (s.line l).route == .service && !s.inStack l

/-! ### The report engine (R19-R24) -/

/-- The engine state (R20): the pause request and whether an application is in flight. -/
def State.engine (s : State) : EngineState :=
  match s.pauseRequest, s.applying with
  | false, false => .idle
  | false, true => .applying
  | true, true => .pausing
  | true, false => .paused

/-- The engine is PAUSED. -/
def State.paused (s : State) : Bool := s.pauseRequest && !s.applying

/-- The word of the application in flight. -/
def State.applied? (s : State) : Option Word := if s.applying then s.queue.head?.map (·.word) else none

/-- The application in flight claims the source entry (R23). -/
def State.claimsSource (s : State) (k : RemoteId) : Bool :=
  match s.applied? with
  | none => false
  | some w => wordRemote w == some k

/-- The application in flight claims the line entry (R23). -/
def State.claimsLine (s : State) (l : LineId) : Bool :=
  match s.applied? with
  | none => false
  | some w => wordInOctet w l

/-! ### The deadline monitor's view of SREQ (R117) -/

/-- The ticks of one deadline interval: 1000 for each millisecond, 256 ms for the value 0 (R114, R115). -/
def State.intervalTicks (s : State) : Nat :=
  Config.ticksPerMs * (if s.deadlineInterval = 0#8 then 256 else s.deadlineInterval.toNat)

/-- SREQ has risen: in a mode other than OFF an IDLE monitor starts an interval (R117). -/
def State.sreqRises (s : State) : State :=
  match s.monitor with
  | .idle => if s.deadlineMode = .off then s else { s with monitor := .counting s.intervalTicks }
  | .counting _ | .warned _ | .tripped _ => s

/-- SREQ has fallen without a TAKE: the monitor goes IDLE and its interval stops (R117). -/
def State.sreqFalls (s : State) : State :=
  match s.monitor with
  | .counting _ | .warned _ => { s with monitor := .idle }
  | .idle | .tripped _ => s

/-- Hand a change of SREQ since `before` to the monitor (R85). -/
def State.watchSreq (before s : State) : State :=
  match before.sreq, s.sreq with
  | false, true => s.sreqRises
  | true, false => s.sreqFalls
  | false, false | true, true => s

/-- Hand a change of the summary since `before` to pin entry 8, whose target's local membership is recomputed
(R68, R127, R138). -/
def State.watchSummary (before s : State) : State :=
  if before.summary != s.summary && (s.pin 8).mode.isLevel then s.recomputeLocal (s.pin 8).target else s

/-- What every event passes on within itself: a change of the summary to the line table, then a change of SREQ to the
deadline monitor (R73, R85, R138). -/
def State.propagate (before s : State) : State := State.watchSreq before (State.watchSummary before s)

/-! ### Resets (section 10.3) -/

/-- A reset is held (R166-R168). -/
def State.held (s : State) : Bool :=
  s.powerHold.isSome || s.softHold.isSome || s.pinHold ||
    match s.monitor with
    | .tripped _ => true
    | .idle | .counting _ | .warned _ => false

/-- Every block takes its reset state (R8, R22, R34, R60, R62, R109, R123, R126, R134, R139, R145, R159, R165). What
survives: the deadline record (R121), the reset cause record (R169), the holds themselves, the inputs, the bus answer
and the waiting commands. -/
def State.resetBlocks (s : State) : State :=
  { State.reset with
    record := s.record, refclk := s.refclk, resetCause := s.resetCause, powerHold := s.powerHold,
    softHold := s.softHold, pinHold := s.pinHold, resetLow := s.resetLow, reply := s.reply, pending := s.pending }

/-! ### Bus accesses (R9, R10, R160, R163) -/

/-- The answer of a bus access: its termination, and the word a read returns (0 for a write or a fault). -/
def State.answer (s : State) (t : Termination) (data : Word) : State := { s with reply := .answered t data }

/-- The access is not claimed: the master sees no termination from the part (R9, R160). -/
def State.unclaimed (s : State) : State := { s with reply := .unclaimed }

/-- An access answered FAULT: nothing is stored, a read returns 0, the bus-fault counter increases and BUS_FAULT is set
(R14, R163). -/
def State.busFault (s : State) : State :=
  (s.propagate (s.countFault.raise flagBusFault)).answer .fault 0

/-- A full-width write of a register that accepts writes: it takes effect as the register's rule gives and receives
DONE; while a reset is held it is not claimed (R160). -/
def State.registerDone (s : State) (effect : State → State) : State :=
  if s.held then s.unclaimed else (effect s).answer .done 0

/-- The report window decoder claims the address (R9), CS_N not asserted and no reset held. -/
def State.windowClaims (s : State) (addr : Word) : Bool :=
  s.reportBase != 0 && addr.extractLsb' 4 28 == s.reportBase.extractLsb' 4 28

/-- The termination of an access, none when the part does not claim it (R9, R10, R160). -/
def State.termination (s : State) (a : Access) : Option Termination :=
  if s.held then none
  else if a.select then
    if a.full && !(a.write && (accessRegister a).readOnly) then some .done else some .fault
  else if s.windowClaims a.addr then
    if a.full && a.addr == s.reportBase then
      if a.write && Config.queueCapacity ≤ s.queue.length then some .retry else some .done
    else some .fault
  else none

end Sys2Proof.Machine
end

