-- ==== Sys2Proof/Machine/ReportPath.lean ====
section
/-! DEFINITION. The report path: the report window (chapter 1), the queue and the engine (chapter 2), and what a
completion does to the tables (chapters 3 and 4). -/

namespace Sys2Proof.Machine

/-! ### The judgement of a word (R26, R29) -/

/-- The lines that a word states (R5), as a set. -/
def statedLines (w : Word) : LineSet := lineSetOf (wordStates w)

/-- How a word ends: rejected with a reason, a duplicate, or accepted from a source. -/
inductive Verdict where
  | reject (r : RejectReason)
  | duplicate (k : RemoteId)
  | accept (k : RemoteId)
  deriving DecidableEq, Repr

/-- The tests of R26 in order, then the duplicate test of R29, against the tables as they stand. -/
def State.judge (s : State) (w : Word) : Verdict :=
  if !checkPasses w then .reject .check
  else if wordKind w = .noKind then .reject .kind
  else
    match wordRemote w with
    | none => .reject .unknownSource
    | some k =>
      if (s.source k).state = .vacant then .reject .vacant
      else if (s.source k).state = .barred then .reject .barred
      else if wordKind w = .state ∧ statedLines w &&& ~~~(s.source k).ownership ≠ 0#32 then .reject .foreign
      else if (s.source k).state = .live ∧ wordSeq w = (s.source k).lastSeq then .duplicate k
      else .accept k

/-! ### Effects on a source entry -/

/-- A reload of the quiet timer (R54). -/
def SourceEntry.reload (e : SourceEntry) : SourceEntry := { e with quietRemaining := e.quietReload, timerTier := e.tier }

/-- The source is barred (R47, R48): its timer stops and its sequence is no longer known. -/
def SourceEntry.toBarred (e : SourceEntry) : SourceEntry :=
  { e with state := .barred, quietRemaining := 0, seqKnown := false }

/-- A rejection charged to the source (R27). -/
def SourceEntry.charge (e : SourceEntry) : SourceEntry := { e with rejected := satInc e.rejected }

/-- A FOREIGN rejection charged to the source, its foreign streak one more (R28). -/
def SourceEntry.chargeForeign (e : SourceEntry) : SourceEntry :=
  { e with rejected := satInc e.rejected, foreignStreak := satInc e.foreignStreak }

/-- The streak has reached a non-zero threshold (R28). -/
def SourceEntry.streakBars (e : SourceEntry) : Bool :=
  e.barThreshold != 0 && e.barThreshold.ule e.foreignStreak

/-- A duplicate (R29). -/
def SourceEntry.duplicate (e : SourceEntry) : SourceEntry := { e.reload with duplicates := satInc e.duplicates }

/-- The gap test of an accepted report (R30). -/
def SourceEntry.gapBefore (e : SourceEntry) (seq : BitVec 3) : Bool := e.state == .live && seq != e.lastSeq + 1

/-- What every acceptance does to the entry (R30), before the kind's own effects. -/
def SourceEntry.acceptance (e : SourceEntry) (seq : BitVec 3) : SourceEntry :=
  { e with
    gaps := if e.gapBefore seq then satInc e.gaps else e.gaps
    lastSeq := seq
    foreignStreak := 0
    accepted := satInc e.accepted }

/-- An accepted STATE or REFRESH (R31, R43, R44). -/
def SourceEntry.acceptLive (e : SourceEntry) (seq : BitVec 3) : SourceEntry :=
  { (e.acceptance seq).reload with state := .live, seqKnown := true }

/-- An accepted RELEASE (R31, R45); it is no reload, so the timer tier stays (log entry 20). -/
def SourceEntry.acceptRelease (e : SourceEntry) (seq : BitVec 3) : SourceEntry :=
  { e.acceptance seq with state := .awaiting, seqKnown := false, quietRemaining := 0 }

/-! ### Effects of one application on the tables -/

/-- Offer a rejection to the reject log; REJECT is set, and LOG_FULL when the log holds 8 entries (R27, R140). -/
def State.logReject (s : State) (e : LogEntry) : State :=
  if s.log.length < Config.logCapacity then State.raise { s with log := s.log ++ [e] } flagReject
  else (s.raise flagLogFull).raise flagReject

/-- A FOREIGN rejection charged to source `k`, with the auto-bar where the streak reaches the threshold (R28, R48). -/
def State.rejectForeign (s : State) (k : RemoteId) : State :=
  let e := (s.source k).chargeForeign
  if e.streakBars then ((s.setSource k e.toBarred).withdraw k (BitVec.allOnes 32)).raise flagBarred
  else s.setSource k e

/-- The charges of a rejection (R27). -/
def State.chargeReject (s : State) (w : Word) (r : RejectReason) : State :=
  match r with
  | .check => { s with checkFailures := satInc s.checkFailures }
  | .kind | .unknownSource => s
  | .vacant | .barred =>
    match wordRemote w with
    | some k => s.setSource k (s.source k).charge
    | none => s
  | .foreign =>
    match wordRemote w with
    | some k => s.rejectForeign k
    | none => s

/-- The stated levels of an accepted STATE report reach their lines, as one event at the line table (R32, R67). -/
def State.applyLevels (s : State) (k : RemoteId) (w : Word) : State :=
  s.mapLines fun l e => if wordStates w l then e.stated k (wordLevelOf w l) else e

/-- REVIVED is set when an accepted STATE or REFRESH finds its source SILENT (R44). -/
def State.revive (s : State) (k : RemoteId) : State :=
  if (s.source k).state = .silent then s.raise flagRevived else s

/-- An accepted word from source `k` (R30-R32). -/
def State.acceptWord (s : State) (k : RemoteId) (w : Word) : State :=
  match wordKind w with
  | .state => ((s.revive k).setSource k ((s.source k).acceptLive (wordSeq w))).applyLevels k w
  | .refresh => (s.revive k).setSource k ((s.source k).acceptLive (wordSeq w))
  | .release =>
    if (s.source k).state = .live then
      (s.setSource k ((s.source k).acceptRelease (wordSeq w))).withdraw k (BitVec.allOnes 32)
    else s.setSource k ((s.source k).acceptRelease (wordSeq w))
  | .noKind => s

/-- What an application decides, against the tables as they stand at its completion (R25). -/
def State.applyWord (s : State) (e : QueueEntry) : State :=
  match s.judge e.word with
  | .reject r => (s.chargeReject e.word r).logReject ⟨e.word, r, e.stamp⟩
  | .duplicate k => s.setSource k (s.source k).duplicate
  | .accept k => s.acceptWord k e.word

/-- The departing stamp completes the closings that wait for it (R17, R102). -/
def State.departStamp (s : State) (stamp : Stamp) : State :=
  { s with stack := s.stack.filter fun e => !(e.closing.map (·.watermark) == some stamp) }

/-- The head entry leaves the queue, APPLIED increases, and the next application starts where the pause request is 0
and entries remain (R17, R20). -/
def State.depart (s : State) : State :=
  { s with
    queue := s.queue.tail
    applied := s.applied + 1
    applying := !s.pauseRequest && !s.queue.tail.isEmpty
    appTicked := false }

/-- The completion of the application in flight (R25); without one, nothing. -/
def State.complete (s : State) : State :=
  if s.held || !s.applying then s
  else
    match s.queue with
    | [] => s
    | e :: _ => s.propagate (((s.applyWord e).depart).departStamp e.stamp)

/-! ### The report window (chapter 1) -/

/-- The word joins the queue with the value of ARRIVALS as its stamp; an IDLE engine starts its application at once
(R11, R15, R20). -/
def State.enqueue (s : State) (w : Word) : State :=
  { s with
    queue := s.queue ++ [⟨w, s.arrivals⟩]
    arrivals := s.arrivals + 1
    applying := s.applying || !s.pauseRequest
    appTicked := s.applying && s.appTicked }

/-- A write that finds the queue full stores nothing and sets QUEUE_RETRY (R12). -/
def State.retry (s : State) : State := (s.propagate (s.raise flagQueueRetry)).answer .retry 0

/-- The write of a report word at `addr`, answered by the classification of R10. -/
def State.reportWrite (s : State) (addr w : Word) : State :=
  match s.termination ⟨false, addr, true, 0xF#4, w⟩ with
  | none => s.unclaimed
  | some .done => (s.enqueue w).answer .done 0
  | some .retry => s.retry
  | some .fault => s.busFault

/-- A write of REPORT_BASE stores bits 31:4 (R8). -/
def State.writeReportBase (s : State) (w : Word) : State := { s with reportBase := w &&& 0xFFFFFFF0#32 }

/-! ### Meanings -/

/-- ADMISSION (R9-R12). -/
def execAdmission (addr word : Word) (s : State) : Host.Outcome State Fault Refusal := .next (s.reportWrite addr word)

/-- FAULT_ACCESS (R14, R163): an access that the part answers with FAULT has the bus-fault accounting; one that it does
not claim changes nothing; one that it answers otherwise is not this event (log entry 9). -/
def execFaultAccess (a : Access) (s : State) : Host.Outcome State Fault Refusal :=
  match s.termination a with
  | none => .next s.unclaimed
  | some .fault => .next s.busFault
  | some .done | some .retry => .next s

/-- REPORT_BASE (R8). -/
def execReportBase (w : Word) (s : State) : Host.Outcome State Fault Refusal :=
  .next (s.registerDone fun s => s.writeReportBase w)

/-- APPLICATION_COMPLETION (R25). -/
def execApplicationCompletion (s : State) : Host.Outcome State Fault Refusal := .next s.complete

end Sys2Proof.Machine
end

