-- ==== Sys2Proof/Machine/Quiet.lean ====
section
/-! DEFINITION. The quiet timers (section 3.6): tier boundaries and expiries. A boundary reaches each source entry as an
event of its own (R55); the marks `boundaryDue` say which entries the boundary of the latest tick has not reached yet
(log entry 4). -/

namespace Sys2Proof.Machine

/-- The bit of a tier in `boundaryDue`. -/
def tierBit (t : Tier) : BitVec 4 := BitVec.twoPow 4 (tierCode t).toNat

/-- A boundary of tier `t` has not reached the entry yet. -/
def SourceEntry.owesBoundary (e : SourceEntry) (t : Tier) : Bool := e.boundaryDue &&& tierBit t != 0

/-- The boundary of tier `t` has reached the entry. -/
def SourceEntry.boundaryTaken (e : SourceEntry) (t : Tier) : SourceEntry :=
  { e with boundaryDue := e.boundaryDue &&& ~~~tierBit t }

/-- The quiet timer is armed, and counts in tier `t` (R53). -/
def SourceEntry.armedIn (e : SourceEntry) (t : Tier) : Bool :=
  e.state == .live && e.quietRemaining != 0 && e.timerTier == t

/-- A boundary of tier `t` reaches an entry: an armed timer above 1 is decremented; one at 1 is left for its expiry; in
PAUSED, and where the timer is not armed in the tier, the boundary is lost (R55). A boundary that falls in PAUSED is
lost at its TICK (`State.runningTick`); `paused` is the engine's state when the boundary is taken, for a pause set that
came in between (R57; log entry 23). -/
def SourceEntry.tierBoundary (e : SourceEntry) (t : Tier) (paused : Bool) : SourceEntry :=
  if !e.owesBoundary t then e
  else if paused || !e.armedIn t then e.boundaryTaken t
  else if e.quietRemaining = 1 then e
  else { e.boundaryTaken t with quietRemaining := e.quietRemaining - 1 }

/-- The source's quiet timer stands at 1 and a boundary of its timer tier is there to bring it to 0 (R55). That the timer
may stand at 1 by a reload taken before this same boundary, which R57 would have without an expiry, is log entry 22. -/
def State.quietExpiryDue (s : State) (k : RemoteId) : Bool :=
  !s.held && !s.paused && (s.source k).armedIn (s.source k).timerTier && (s.source k).quietRemaining == 1
    && (s.source k).owesBoundary (s.source k).timerTier

/-- The entry after a quiet expiry (R56). -/
def SourceEntry.expire (e : SourceEntry) : SourceEntry :=
  { e.boundaryTaken e.timerTier with state := .silent, quietRemaining := 0, silences := satInc e.silences }

/-- A tier boundary (R55). -/
def State.tierBoundary (s : State) (t : Tier) : State :=
  if s.held then s else s.mapSources fun _ e => e.tierBoundary t s.paused

/-- A quiet expiry where one is due (R56); otherwise nothing (log entry 3). -/
def State.quietExpiry (s : State) (k : RemoteId) : State :=
  if s.quietExpiryDue k then
    s.propagate (((s.setSource k (s.source k).expire).withdraw k (BitVec.allOnes 32)).raise flagSilent)
  else s

/-! ### Meanings -/

/-- TIER_BOUNDARY (R55). -/
def execTierBoundary (t : Tier) (s : State) : Host.Outcome State Fault Refusal := .next (s.tierBoundary t)

/-- QUIET_EXPIRY (R56). -/
def execQuietExpiry (src : RemoteId) (s : State) : Host.Outcome State Fault Refusal := .next (s.quietExpiry src)

end Sys2Proof.Machine
end

