-- ==== Sys2Proof/Machine/Service.lean ====
section
/-! DEFINITION. The service unit (chapter 5): TAKE, EOS, closings. -/

namespace Sys2Proof.Machine

/-- The stack depth as shown in four bits (R173). -/
def State.depth (s : State) : BitVec 4 := BitVec.ofNat 4 s.stack.length

/-! ### TAKE (R87-R90) -/

/-- The kind of a line's stack entry (R86). -/
def LineMode.kind : LineMode → Kind
  | .edge => .edge
  | .off | .shared | .sole => .level

/-- The hint source of a VALID record (R89). -/
def LineEntry.hint (e : LineEntry) : BitVec 5 :=
  match e.mode with
  | .edge => e.lastEdge
  | .off | .shared | .sole => lowestMember e.contributors

/-- A VALID take record (R88, R173). -/
def takeRecord (l : LineId) (e : LineEntry) (depth : BitVec 4) : Word :=
  place (lineCode l) 0 ||| place e.priority 8 ||| place e.mode.kind.code 11 ||| place depth 12
    ||| place e.hint 16 ||| place (if e.mode = .edge then e.repeatCount else 0) 24 ||| placeBool true 31

/-- An EMPTY take record: line 63, hint 31, the depth at the read (R88, R173). -/
def emptyRecord (depth : BitVec 4) : Word := place 63#6 0 ||| place depth 12 ||| place Config.noSource 16

/-- The offered line goes on the top of the stack, and the latch of an EDGE line is cleared (R87). -/
def State.push (s : State) (l : LineId) : State :=
  let e := s.line l
  let t := { s with stack := s.stack ++ [⟨l, e.priority, e.mode.kind, none⟩] }
  if e.mode = .edge then t.setLine l e.clearLatch else t

/-- A VALID TAKE is handed to the monitor, with SREQ as the TAKE leaves it (R117). -/
def State.watchTake (s : State) : State :=
  match s.monitor with
  | .counting _ | .warned _ => { s with monitor := if s.sreq then .counting s.intervalTicks else .idle }
  | .idle | .tripped _ => s

/-- A DONE read of TAKE (R87, R90). -/
def State.take (s : State) : State :=
  if s.held then s.unclaimed
  else
    match s.offer with
    | none => s.answer .done (emptyRecord s.depth)
    | some l => (s.push l).watchTake.answer .done (takeRecord l (s.line l) (s.push l).depth)

/-! ### EOS (R93-R98) -/

/-- The queue entry's word matches line `l` for an EOS (R95). -/
def State.matchesLine (s : State) (w : Word) (l : LineId) : Bool :=
  match wordKind w with
  | .state => wordStates w l
  | .release =>
    match wordRemote w with
    | some k => (s.source k).ownership.getLsbD l.val
    | none => false
  | .refresh | .noKind => false

/-- The arrival stamp of the newest queue entry that matches the line (R96). -/
def State.newestMatch (s : State) (l : LineId) : Option Stamp :=
  ((s.queue.filter fun e => s.matchesLine e.word l).getLast?).map (·.stamp)

/-- The entry that an EOS selects: the named line's, or with TOP the topmost OPEN one (R93). -/
def State.eosSelected (s : State) (w : Word) : Option StackEntry :=
  if eosTop w then (s.stack.filter fun e => e.closing.isNone).getLast?
  else s.stack.find? fun e => e.line == eosLine w

/-- Remove the entry of a line from the stack (R104). -/
def State.removeEntry (s : State) (l : LineId) : State := { s with stack := s.stack.filter fun e => e.line != l }

/-- The entry of a line becomes CLOSING, its watermark and close timer set (R96). -/
def State.closeEntry (s : State) (l : LineId) (watermark : Stamp) : State :=
  { s with
    stack := s.stack.map fun e =>
      if e.line = l then { e with closing := some ⟨watermark, s.closeLimit, false⟩ } else e }

/-- What an EOS does to the stack, and its outcome with the line it names (R94). -/
def State.eosEffect (s : State) (w : Word) : State × EosOutcome × BitVec 6 :=
  match s.eosSelected w with
  | none => (s, .notInService, if eosTop w then 63 else (lineCode (eosLine w)).setWidth 6)
  | some e =>
    let line : BitVec 6 := (lineCode e.line).setWidth 6
    if e.closing.isSome then (s, .alreadyClosing, line)
    else if s.closeLimit = 0 then (s.removeEntry e.line, .closed, line)
    else
      match s.newestMatch e.line with
      | none => (s.removeEntry e.line, .closed, line)
      | some stamp => (s.closeEntry e.line stamp, .deferred, line)

/-- EOS_RESULT takes what the latest EOS recorded (R98). -/
def State.setEosResult (s : State) (r : EosResult) : State := { s with eosResult := r }

/-- A DONE write to EOS: the effect of R94, and its record in EOS_RESULT (R98). -/
def State.endOfService (s : State) (w : Word) : State :=
  let r := s.eosEffect w
  s.propagate (r.1.setEosResult ⟨r.2.1, r.2.2, r.1.depth⟩)

/-! ### Close timers (R101, R103) -/

/-- An 8 µs boundary reaches a CLOSING entry: above 1 it is decremented, at 1 it is left for its expiry (R101). -/
def Closing.unitBoundary (c : Closing) : Closing :=
  if c.remaining = 1 then { c with expiring := true } else { c with remaining := c.remaining - 1 }

/-- An 8 µs boundary, where the latest tick brought one (R101, R165); otherwise nothing (log entry 3). -/
def State.closeUnitBoundary (s : State) : State :=
  if s.closeUnitDue && !s.held then
    { s with
      closeUnitDue := false
      stack := s.stack.map fun e => { e with closing := e.closing.map Closing.unitBoundary } }
  else s

/-- The close timer of the line's entry is at its expiry. -/
def State.closeExpiryDue (s : State) (l : LineId) : Bool :=
  s.stack.any fun e => e.line == l && (e.closing.map (·.expiring)) == some true

/-- A close-timer expiry where one is due: the entry is removed and CLOSE_EXPIRED set (R103); otherwise nothing. -/
def State.closeTimerExpiry (s : State) (l : LineId) : State :=
  if s.closeExpiryDue l && !s.held then s.propagate ((s.removeEntry l).raise flagCloseExpired) else s

/-! ### Meanings -/

/-- TAKE (R87, R90). -/
def execTake (s : State) : Host.Outcome State Fault Refusal := .next s.take

/-- EOS (R94). -/
def execEos (w : Word) (s : State) : Host.Outcome State Fault Refusal :=
  .next (s.registerDone fun s => s.endOfService w)

/-- CLOSE_TIMER_EXPIRY (R103). -/
def execCloseTimerExpiry (line : LineId) (s : State) : Host.Outcome State Fault Refusal :=
  .next (s.closeTimerExpiry line)

/-- CLOSE_UNIT_BOUNDARY (R101). -/
def execCloseUnitBoundary (s : State) : Host.Outcome State Fault Refusal := .next s.closeUnitBoundary

end Sys2Proof.Machine
end

