-- ==== Sys2Proof/Machine/Deadline.lean ====
section
/-! DEFINITION. The urgent path and the deadline monitor (chapter 6). -/

namespace Sys2Proof.Machine

/-! ### URGENT_CLEAR (R112, R116) -/

/-- A named line bit clears the latch of an EDGE line routed URGENT, and changes no other line (R112). -/
def LineEntry.urgentClear (e : LineEntry) : LineEntry :=
  if e.mode = .edge ∧ e.route = .urgent then e.clearLatch else e

/-- The warning latch is set or clear (R116). -/
def State.setWarning (s : State) (b : Bool) : State := { s with warning := b }

/-- The effect of a write of URGENT_CLEAR: bits 0 to 30 name lines, bit 31 the warning latch (R112). -/
def State.clearUrgent (s : State) (w : Word) : State :=
  let t := s.mapLines fun l e => if l.val < 31 && w.getLsbD l.val then e.urgentClear else e
  s.propagate (t.setWarning (s.warning && !w.getLsbD 31))

/-! ### DEADLINE_CTRL (R114, R117, R121) -/

/-- The monitor at a write of the mode (R117): OFF stops it; from OFF to another mode it starts an interval, of the
length just written, where SREQ is asserted. `old` is the mode before the write. -/
def State.monitorModeWrite (s : State) (old : DeadlineMode) : State :=
  match s.monitor with
  | .tripped _ => s
  | .idle =>
    if old = .off ∧ s.deadlineMode ≠ .off ∧ s.sreq = true then { s with monitor := .counting s.intervalTicks } else s
  | .counting _ | .warned _ => if s.deadlineMode = .off then { s with monitor := .idle } else s

/-- The effect of a write of DEADLINE_CTRL: the stored fields first, then the record clear, then the monitor takes the
mode (R114, R121). The stored fields are the two of R114's table, mode and interval, though its first sentence counts
three (log entry 24). -/
def State.writeDeadline (s : State) (w : Word) : State :=
  State.monitorModeWrite
    { s with
      deadlineMode := deadlineModeOf w
      deadlineInterval := deadlineIntervalOf w
      record := if w.getLsbD 31 then DeadlineRecord.cleared else s.record }
    s.deadlineMode

/-! ### Intervals and trips (R117, R119, R120) -/

/-- A running interval stands at its expiry. -/
def State.intervalDue (s : State) : Bool :=
  match s.monitor with
  | .counting left => left == 0
  | .warned (some left) => left == 0
  | .warned none | .idle | .tripped _ => false

/-- The deadline record that a trip captures: the arbiter's offer, its priority in the line table, and the stack depth
(R120). An offer always stands at a trip (log entry 14). -/
def State.captured (s : State) : DeadlineRecord :=
  match s.offer with
  | some l => ⟨true, lineCode l, (s.line l).priority, s.depth⟩
  | none => ⟨true, 0, 0, s.depth⟩

/-- A trip (R119): the record is captured, then every block takes its reset state, RSTOUT is asserted and the deadline
reset held for 64 ticks; DEADLINE is set (R168, R169). The monitor's own reset state for the pulse is TRIPPED: mode and
interval stay until the pulse ends (R123). -/
def State.trip (s : State) : State :=
  State.addCause
    { s.resetBlocks with
      record := s.captured
      monitor := .tripped Config.pulseTicks
      deadlineMode := s.deadlineMode
      deadlineInterval := s.deadlineInterval }
    causeDeadline

/-- An interval expiry where one is due (R117); otherwise nothing (log entry 3). In mode OFF the monitor is IDLE, so
that the last case is one of mode WARN (log entry 14). -/
def State.intervalExpiry (s : State) : State :=
  if s.intervalDue then
    match s.monitor with
    | .counting _ => { s with warning := true, monitor := .warned (some s.intervalTicks) }
    | .warned _ =>
      match s.deadlineMode with
      | .warnReset => s.trip
      | .warn | .off => { s with monitor := .warned none }
    | .idle | .tripped _ => s
  else s

/-- The RSTOUT pulse stands at its 64th tick (R119). -/
def State.pulseDue (s : State) : Bool :=
  match s.monitor with
  | .tripped left => left == 0
  | .idle | .counting _ | .warned _ => false

/-- The monitor takes its reset state: mode OFF, interval 0, IDLE (R123). -/
def State.monitorReset (s : State) : State :=
  { s with deadlineMode := .off, deadlineInterval := 0, monitor := .idle }

/-- The end of the pulse where it is due: RSTOUT falls and the monitor takes its reset state; the deadline reset's own
hold ends with it (R119, R123; log entry 18). Otherwise nothing (log entry 3). -/
def State.pulseEnd (s : State) : State := if s.pulseDue then s.monitorReset else s

/-! ### Meanings -/

/-- URGENT_CLEAR (R112). -/
def execUrgentClear (w : Word) (s : State) : Host.Outcome State Fault Refusal :=
  .next (s.registerDone fun s => s.clearUrgent w)

/-- DEADLINE_BIT_CLEAR (R116). -/
def execDeadlineBitClear (w : Word) (s : State) : Host.Outcome State Fault Refusal :=
  .next (s.registerDone fun s => s.clearUrgent w)

/-- INTERVAL_EXPIRY (R117). -/
def execIntervalExpiry (s : State) : Host.Outcome State Fault Refusal := .next s.intervalExpiry

/-- RSTOUT_PULSE_END (R119). -/
def execRstoutPulseEnd (s : State) : Host.Outcome State Fault Refusal := .next s.pulseEnd

/-- MODE_WRITE (R117). -/
def execModeWrite (w : Word) (s : State) : Host.Outcome State Fault Refusal :=
  .next (s.registerDone fun s => s.writeDeadline w)

/-- RECORD_CLEAR (R121). -/
def execRecordClear (w : Word) (s : State) : Host.Outcome State Fault Refusal :=
  .next (s.registerDone fun s => s.writeDeadline w)

end Sys2Proof.Machine
end

