-- ==== Sys2Proof/Machine/Control.lean ====
section
/-! DEFINITION. The writes of CONTROL: the pause request (R19, R21), the close limit (R105), STACK_CLEAR (R106) and
SOFT_RESET (R167). Every write of CONTROL acts by all its fields (log entry 7). -/

namespace Sys2Proof.Machine

/-- The pause request takes the written value (R19). A pause clear that finds the engine PAUSED starts the head entry
if the queue holds one (R21); the other transitions of R21 are read off the two bits of the engine's state. -/
def State.setPause (s : State) (p : Bool) : State :=
  { s with
    pauseRequest := p
    applying := s.applying || (s.pauseRequest && !p && !s.queue.isEmpty)
    appTicked := s.applying && s.appTicked }

/-- The close limit takes the written value (R105). -/
def State.setCloseLimit (s : State) (limit : BitVec 4) : State := { s with closeLimit := limit }

/-- STACK_CLEAR empties the service stack (R106). -/
def State.clearStack (s : State) : State := { s with stack := [] }

/-- A SOFT_RESET write starts a system reset held until the fourth tick after it (R167). -/
def State.softResetNow (s : State) : State :=
  State.addCause { s.resetBlocks with softHold := some Config.softHoldTicks } causeSoft

/-- The effect of a write of CONTROL (R19, R105, R106, R167): with SOFT_RESET at 1 the reset replaces whatever the
other fields would have done. -/
def State.writeControl (s : State) (w : Word) : State :=
  if controlSoftReset w then s.softResetNow
  else
    let t := (s.setPause (controlPause w)).setCloseLimit (controlCloseLimit w)
    s.propagate (if controlStackClear w then t.clearStack else t)

/-! ### Meanings -/

/-- PAUSE_SET (R19, R21). -/
def execPauseSet (w : Word) (s : State) : Host.Outcome State Fault Refusal :=
  .next (s.registerDone fun s => s.writeControl w)

/-- PAUSE_CLEAR (R19, R21). -/
def execPauseClear (w : Word) (s : State) : Host.Outcome State Fault Refusal :=
  .next (s.registerDone fun s => s.writeControl w)

/-- STACK_CLEAR (R106). -/
def execStackClear (w : Word) (s : State) : Host.Outcome State Fault Refusal :=
  .next (s.registerDone fun s => s.writeControl w)

/-- SOFT_RESET (R167). -/
def execSoftReset (w : Word) (s : State) : Host.Outcome State Fault Refusal :=
  .next (s.registerDone fun s => s.writeControl w)

/-- CLOSE_LIMIT_WRITE (R105). -/
def execCloseLimitWrite (w : Word) (s : State) : Host.Outcome State Fault Refusal :=
  .next (s.registerDone fun s => s.writeControl w)

end Sys2Proof.Machine
end

