-- ==== Sys2Proof/Machine/TablePort.lean ====
section
/-! DEFINITION. The table port (chapter 9): LOAD, COMMIT, the source commands, and the plain register writes that go with
them. -/

namespace Sys2Proof.Machine

/-! ### The selected entry (R146) -/

/-- The entry that TSEL names. -/
inductive Selected where
  | source (k : RemoteId)
  | localSource
  | line (l : LineId)
  | pin (p : PinId)
  | noEntry
  deriving DecidableEq, Repr

/-- The entry that a table and an index name; none where the index is out of range or the table code is 3 (R146). -/
def selectedEntry (t : TableSelect) : Selected :=
  if t.table = 0#2 then
    if h : t.index.toNat < 24 then .source ⟨t.index.toNat, h⟩
    else if t.index = 24#5 then .localSource
    else .noEntry
  else if t.table = 1#2 then .line (lineOf t.index)
  else if t.table = 2#2 then
    if h : t.index.toNat < 9 then .pin ⟨t.index.toNat, h⟩ else .noEntry
  else .noEntry

/-! ### COMMIT to a remote source (R153, R39-R42) -/

/-- The staged ownership set differs from the entry's (R151). -/
def State.ownershipChanged (s : State) (k : RemoteId) : Bool :=
  s.staging.ownership != (s.source k).ownership

/-- Some writable field of the source entry differs from the staged one (R151). -/
def State.sourceChanged (s : State) (k : RemoteId) : Bool :=
  s.ownershipChanged k || s.staging.quietReload != (s.source k).quietReload
    || s.staging.tier != (s.source k).tier || s.staging.barThreshold != (s.source k).barThreshold

/-- A SOLE line of the staged ownership set has an owner other than source `k` (R153). -/
def State.sourceBreaksSole (s : State) (k : RemoteId) : Bool :=
  (List.finRange 32).any fun l : LineId =>
    s.staging.ownership.getLsbD l.val && (s.line l).mode == .sole
      && (List.range 25).any fun n => n != k.val && s.owns l n

/-- The result of a COMMIT to a remote source entry: tests 3, 5 and 7 in the order of R149. -/
def State.judgeSourceCommit (s : State) (k : RemoteId) : TableResult :=
  if s.ownershipChanged k && !s.paused then .notPaused
  else if s.claimsSource k then .busy
  else if s.sourceChanged k && s.sourceBreaksSole k then .soleConflict
  else .ok

/-- The entry with a new ownership set (R39, R41, R42). -/
def SourceEntry.own (e : SourceEntry) (ownership : LineSet) : SourceEntry :=
  if ownership = e.ownership then e
  else if ownership = 0 then
    { e with ownership := 0, state := .vacant, quietRemaining := 0, seqKnown := false, foreignStreak := 0 }
  else { e with ownership := ownership, state := if e.state = .vacant then .awaiting else e.state }

/-- The entry after a COMMIT that is carried out (R39-R42, R58). -/
def SourceEntry.commit (e : SourceEntry) (t : Staging) : SourceEntry :=
  { e.own t.ownership with quietReload := t.quietReload, tier := t.tier, barThreshold := t.barThreshold }

/-- A COMMIT to a remote source entry is carried out: the source leaves the sets of the lines it no longer owns
(R40, R152). -/
def State.commitSource (s : State) (k : RemoteId) : State :=
  (s.setSource k ((s.source k).commit s.staging)).withdraw k ((s.source k).ownership &&& ~~~s.staging.ownership)

/-! ### COMMIT to a line (R154, R75-R79) -/

def State.lineModeChanged (s : State) (l : LineId) : Bool := s.staging.lineMode != (s.line l).mode
def State.lineRouteChanged (s : State) (l : LineId) : Bool := s.staging.route != (s.line l).route

/-- A pin entry that is not OFF would target the line in a mode that does not fit it (R76, R154). -/
def State.lineBreaksPins (s : State) (l : LineId) (mode : LineMode) : Bool :=
  (List.finRange 9).any fun p : PinId =>
    (s.pin p).target == l
      && (((s.pin p).mode.isLevel && !mode.isLevel) || ((s.pin p).mode.isEdge && mode != .edge))

/-- The result of a COMMIT to a line entry: tests 3 and 5 to 8 in the order of R149. -/
def State.judgeLineCommit (s : State) (l : LineId) : TableResult :=
  if (s.lineModeChanged l || s.lineRouteChanged l) && !s.paused then .notPaused
  else if s.claimsLine l then .busy
  else if (s.lineModeChanged l || s.lineRouteChanged l) && s.inStack l then .inService
  else if s.lineModeChanged l && s.staging.lineMode == .sole && 2 ≤ s.ownerCount l then .soleConflict
  else if s.lineModeChanged l && s.lineBreaksPins l s.staging.lineMode then .pinMismatch
  else .ok

/-- The entry with a new mode: the state that the new mode does not use is emptied or cleared (R75). -/
def LineEntry.setMode (e : LineEntry) (mode : LineMode) : LineEntry :=
  if mode = e.mode then e
  else
    let kept := { e with
      mode := mode
      contributors := if e.mode.isLevel && mode.isLevel then e.contributors else 0 }
    if e.mode = .edge then kept.clearLatch else kept

/-- The entry after a COMMIT that is carried out (R75-R79), before the local source's membership is derived. -/
def LineEntry.commit (e : LineEntry) (t : Staging) : LineEntry :=
  { e.setMode t.lineMode with route := t.route, masked := t.masked, priority := t.priority }

/-- A COMMIT to a line entry is carried out; a mode commit derives the local source's membership (R76, R152). -/
def State.commitLine (s : State) (l : LineId) : State :=
  let t := s.setLine l ((s.line l).commit s.staging)
  if s.lineModeChanged l then t.recomputeLocal l else t

/-! ### COMMIT to a pin entry (R131, R132, R155) -/

/-- The staged mode or target line differs from the entry's (R131); the codes 6 and 7 differ from every mode. -/
def State.pinChanged (s : State) (p : PinId) : Bool :=
  s.staging.pinMode != some (s.pin p).mode || s.staging.target != (s.pin p).target

/-- The mode is one that the entry accepts: entry 8 accepts OFF and LEVEL_HIGH only (R124). -/
def pinAccepts (p : PinId) (mode : PinMode) : Bool :=
  p != 8 || mode == .off || mode == .levelHigh

/-- The result of a COMMIT of a nameable mode to a pin entry: tests 7 and 8 (R155). -/
def State.judgePinMode (s : State) (mode : PinMode) (target : LineId) : TableResult :=
  if mode != .off && (s.line target).mode == .sole && s.remoteOwned target then .soleConflict
  else if (mode.isLevel && !(s.line target).mode.isLevel) || (mode.isEdge && (s.line target).mode != .edge) then
    .pinMismatch
  else .ok

/-- The result of a COMMIT to a pin entry: tests 3, 4, 7 and 8 in the order of R149. -/
def State.judgePinCommit (s : State) (p : PinId) : TableResult :=
  if !s.pinChanged p then .ok
  else if !s.paused then .notPaused
  else
    match s.staging.pinMode with
    | none => .badValue
    | some mode => if pinAccepts p mode then s.judgePinMode mode s.staging.target else .badValue

/-- A COMMIT to a pin entry is carried out: mode and target together, then the local source's membership of the old and
of the new target line (R132). -/
def State.commitPin (s : State) (p : PinId) : State :=
  match s.staging.pinMode with
  | none => s
  | some mode =>
    ((s.setPin p ⟨mode, s.staging.target⟩).recomputeLocal (s.pin p).target).recomputeLocal s.staging.target

/-! ### LOAD (R150) -/

/-- The record that a LOAD of the selected entry writes. -/
def State.loaded (s : State) : Selected → Staging
  | .source k => (s.source k).staged
  | .localSource => stagedLocal s.localOwnership
  | .line l => (s.line l).staged (s.line l).requesting (s.ownerSet l)
  | .pin p => (s.pin p).staged (s.pinLevel p)
  | .noEntry => s.staging

/-! ### Commands (R148, R149, R156) -/

/-- The result of a LOAD: test 2 alone (R149). -/
def State.judgeLoad (s : State) : TableResult :=
  match selectedEntry s.tsel with
  | .source _ | .localSource | .line _ | .pin _ => .ok
  | .noEntry => .badIndex

/-- The result of a COMMIT (R149). -/
def State.judgeCommit (s : State) : TableResult :=
  match selectedEntry s.tsel with
  | .source k => s.judgeSourceCommit k
  | .line l => s.judgeLineCommit l
  | .pin p => s.judgePinCommit p
  | .localSource | .noEntry => .badIndex

/-- The result of a source command: tests 1, 2, 5 and 9 in the order of R149. -/
def State.judgeSourceCommand (s : State) (needsEnrolled : Bool) : TableResult :=
  if s.tsel.table ≠ 0#2 then .wrongTable
  else
    match selectedEntry s.tsel with
    | .source k =>
      if s.claimsSource k then .busy
      else if needsEnrolled && (s.source k).state == .vacant then .notEnrolled
      else .ok
    | .localSource | .line _ | .pin _ | .noEntry => .badIndex

/-- The result of a command (R149). -/
def State.judgeCommand (s : State) : TableCommand → TableResult
  | .load => s.judgeLoad
  | .commit => s.judgeCommit
  | .bar => s.judgeSourceCommand true
  | .unbar | .clearCounters => s.judgeSourceCommand false

/-- A carried-out COMMIT (R152). -/
def State.performCommit (s : State) : State :=
  match selectedEntry s.tsel with
  | .source k => s.commitSource k
  | .line l => s.commitLine l
  | .pin p => s.commitPin p
  | .localSource | .noEntry => s

/-- A carried-out BAR: a source that is not BARRED becomes so and is withdrawn from every set (R47). -/
def State.barSource (s : State) (k : RemoteId) : State :=
  if (s.source k).state = .barred then s
  else (s.setSource k (s.source k).toBarred).withdraw k (BitVec.allOnes 32)

/-- A carried-out UNBAR: a BARRED source becomes AWAITING and its foreign streak 0 (R49). -/
def State.unbarSource (s : State) (k : RemoteId) : State :=
  if (s.source k).state = .barred then s.setSource k { s.source k with state := .awaiting, foreignStreak := 0 }
  else s

/-- The entry after CLEAR_COUNTERS (R51). -/
def SourceEntry.clearCounters (e : SourceEntry) : SourceEntry :=
  { e with accepted := 0, rejected := 0, duplicates := 0, gaps := 0, silences := 0, foreignStreak := 0 }

/-- A carried-out source command on the selected remote source (R156). -/
def State.onSelectedSource (s : State) (f : State → RemoteId → State) : State :=
  match selectedEntry s.tsel with
  | .source k => f s k
  | .localSource | .line _ | .pin _ | .noEntry => s

/-- A command that passes every test is carried out (R149). -/
def State.perform (s : State) : TableCommand → State
  | .load => { s with staging := s.loaded (selectedEntry s.tsel) }
  | .commit => s.performCommit
  | .bar => s.onSelectedSource State.barSource
  | .unbar => s.onSelectedSource State.unbarSource
  | .clearCounters => s.onSelectedSource fun s k => s.setSource k (s.source k).clearCounters

/-- TSTAT takes the result of the latest command (R149). -/
def State.setTstat (s : State) (t : TableStatus) : State := { s with tstat := t }

/-- A command written to TCMD: refused, it changes nothing but TSTAT; otherwise it is carried out in one event
(R148, R149, R152). -/
def State.tableCommand (s : State) (c : TableCommand) : State :=
  let t := if s.judgeCommand c = .ok then s.perform c else s
  s.propagate (t.setTstat ⟨s.judgeCommand c, some c⟩)

/-- A write of TCMD: the command that its code names, or none (R148). -/
def State.writeCommand (s : State) (w : Word) : State :=
  match commandOf w with
  | some c => s.tableCommand c
  | none => s

/-! ### Meanings -/

/-- LOAD (R150). -/
def execLoad (s : State) : Host.Outcome State Fault Refusal := .next (s.registerDone fun s => s.tableCommand .load)

/-- COMMIT (R151). -/
def execCommit (s : State) : Host.Outcome State Fault Refusal := .next (s.registerDone fun s => s.tableCommand .commit)

/-- BAR (R47). -/
def execBar (s : State) : Host.Outcome State Fault Refusal := .next (s.registerDone fun s => s.tableCommand .bar)

/-- UNBAR (R49). -/
def execUnbar (s : State) : Host.Outcome State Fault Refusal := .next (s.registerDone fun s => s.tableCommand .unbar)

/-- CLEAR_COUNTERS (R51). -/
def execClearCounters (s : State) : Host.Outcome State Fault Refusal :=
  .next (s.registerDone fun s => s.tableCommand .clearCounters)

end Sys2Proof.Machine
end

