-- ==== Sys2Proof/Machine/Records.lean ====
section
/-! DEFINITION. The part's records (chapter 8, R169) and the full-width write of any register (R161). -/

namespace Sys2Proof.Machine

/-- The effect of a write of EVENT_FLAGS: the flags written 1 are cleared together (R137). -/
def State.clearFlags (s : State) (w : Word) : State :=
  s.propagate { s with eventFlags := s.eventFlags &&& ~~~w.extractLsb' 0 8 }

/-- The effect of a write of EVENT_ENABLE (R138). -/
def State.writeEnables (s : State) (w : Word) : State := s.propagate { s with eventEnables := w.extractLsb' 0 8 }

/-- What LOG_POP returns (R142, R173): the oldest entry's reason and stamp, or EMPTY with stamp 0. -/
def popRecord : List LogEntry → Word
  | [] => 0
  | e :: _ => place e.reason.code 0 ||| place e.stamp 16

/-- A DONE read of LOG_POP (R142). -/
def State.popLog (s : State) : State :=
  if s.held then s.unclaimed else State.answer { s with log := s.log.tail } .done (popRecord s.log)

/-- The effect of a write of COUNTS: bit 30 clears the check-failure counter, bit 31 the bus-fault counter (R144). -/
def State.writeCounts (s : State) (w : Word) : State :=
  { s with
    checkFailures := if w.getLsbD 30 then 0 else s.checkFailures
    busFaults := if w.getLsbD 31 then 0 else s.busFaults }

/-- The effect of a write of RESET_CAUSE: the flags written 1 are cleared (R169). -/
def State.clearCauses (s : State) (w : Word) : State :=
  { s with resetCause := s.resetCause &&& ~~~w.extractLsb' 0 4 }

/-- The effect of a DONE write on the register it reaches (R161); a read-only register has none. -/
def State.writeEffect (s : State) (r : Register) (w : Word) : State :=
  match r with
  | .control => s.writeControl w
  | .reportBase => s.writeReportBase w
  | .eos => s.endOfService w
  | .counts => s.writeCounts w
  | .urgent => s.clearUrgent w
  | .deadlineCtrl => s.writeDeadline w
  | .resetCause => s.clearCauses w
  | .eventFlags => s.clearFlags w
  | .eventEnable => s.writeEnables w
  | .tsel => { s with tsel := selectOf w }
  | .tcmd => s.writeCommand w
  | .tdata0 => { s with staging := { s.staging with w0 := w } }
  | .tdata1 => { s with staging := { s.staging with w1 := w } }
  | .tdata2 => { s with staging := { s.staging with w2 := w } }
  | .tdata3 => { s with staging := { s.staging with w3 := w } }
  | .ident | .status | .flow | .take | .pending | .inservice | .deadlineView | .logWord | .logPop | .stack _ => s

/-- A full-width write of a register: FAULT where it is read-only, else DONE with its effect (R160, R161). -/
def State.registerWrite (s : State) (r : Register) (w : Word) : State :=
  if s.held then s.unclaimed
  else if r.readOnly then s.busFault
  else (s.writeEffect r w).answer .done 0

/-! ### Meanings -/

/-- EVENT_FLAG_CLEAR (R137). -/
def execEventFlagClear (w : Word) (s : State) : Host.Outcome State Fault Refusal :=
  .next (s.registerDone fun s => s.clearFlags w)

/-- EVENT_ENABLE (R138). -/
def execEventEnable (w : Word) (s : State) : Host.Outcome State Fault Refusal :=
  .next (s.registerDone fun s => s.writeEnables w)

/-- LOG_POP (R142). -/
def execLogPop (s : State) : Host.Outcome State Fault Refusal := .next s.popLog

/-- CHECK_CLEAR (R144). -/
def execCheckClear (w : Word) (s : State) : Host.Outcome State Fault Refusal :=
  .next (s.registerDone fun s => s.writeCounts w)

/-- FAULT_CLEAR (R144). -/
def execFaultClear (w : Word) (s : State) : Host.Outcome State Fault Refusal :=
  .next (s.registerDone fun s => s.writeCounts w)

/-- RESET_CAUSE_CLEAR (R169). -/
def execResetCauseClear (w : Word) (s : State) : Host.Outcome State Fault Refusal :=
  .next (s.registerDone fun s => s.clearCauses w)

/-- REGISTER_WRITE (R161). -/
def execRegisterWrite (index : BitVec 5) (w : Word) (s : State) : Host.Outcome State Fault Refusal :=
  .next (s.registerWrite (registerAt index) w)

end Sys2Proof.Machine
end

