-- ==== Sys2Proof/Machine/Sense.lean ====
section
/-! DEFINITION. The sense block (chapter 7): sampling, settlings and filtered transitions. -/

namespace Sys2Proof.Machine

/-- The pin-table entry of a sense pin. -/
def pinOfSense (p : SenseId) : PinId := ⟨p.val, by omega⟩

/-- A sample is compared with the previous sample and the filtered level, and becomes the previous sample; the filtered
level itself changes at the settling or the filtered transition (R125, R126). -/
def PinFilter.sample (f : PinFilter) (b : Bool) : PinFilter :=
  { f with previous := some b, due := f.previous == some b && f.level != levelOf b }

/-- The filtered level after a settling or a filtered transition: the sampled level (R125). -/
def PinFilter.adopt (f : PinFilter) : PinFilter :=
  { f with level := levelOf (f.previous.getD false), due := false }

/-- The mode pulses at a filtered transition to `level` (R129). -/
def PinMode.pulsesAt (mode : PinMode) (level : Level) : Bool :=
  match mode with
  | .rising => level == .high
  | .falling => level == .low
  | .anyChange => true
  | .off | .levelLow | .levelHigh => false

/-- A change of a filtered level reaches the target line of a level-mode entry (R68, R128). -/
def State.pinLevelChanged (s : State) (p : PinId) : State :=
  if (s.pin p).mode.isLevel then s.recomputeLocal (s.pin p).target else s

/-- A pulse of a pin entry on its target line, with source code 24 (R129). -/
def State.pinPulse (s : State) (p : PinId) : State :=
  s.setLine (s.pin p).target ((s.line (s.pin p).target).pulse (BitVec.ofNat 5 Config.localCode))

/-- A settling where one is due: the filtered level becomes the sampled level, without a pulse (R125, R126); otherwise
nothing (log entry 3). -/
def State.settle (s : State) (p : SenseId) : State :=
  if !s.held && (s.filter p).due && (s.filter p).level == .unset then
    s.propagate ((s.setFilter p (s.filter p).adopt).pinLevelChanged (pinOfSense p))
  else s

/-- A filtered transition where one is due: the filtered level changes; a level-mode entry's target is recomputed, and
an edge-mode entry that matches pulses its target (R125, R128, R129); otherwise nothing (log entry 3). -/
def State.transition (s : State) (p : SenseId) : State :=
  if !s.held && (s.filter p).due && (s.filter p).level != .unset then
    let t := (s.setFilter p (s.filter p).adopt).pinLevelChanged (pinOfSense p)
    s.propagate
      (if (s.pin (pinOfSense p)).mode.pulsesAt (s.filter p).adopt.level then t.pinPulse (pinOfSense p) else t)
  else s

/-! ### Meanings -/

/-- FILTERED_TRANSITION (R125). -/
def execFilteredTransition (pin : SenseId) (s : State) : Host.Outcome State Fault Refusal := .next (s.transition pin)

/-- SETTLING (R125, R126). -/
def execSettling (pin : SenseId) (s : State) : Host.Outcome State Fault Refusal := .next (s.settle pin)

end Sys2Proof.Machine
end

