-- ==== Sys2Proof/Machine/Clock.lean ====
section
/-! DEFINITION. The tick and the time base (section 10.2) and the reset sources (section 10.3). -/

namespace Sys2Proof.Machine

/-! ### Resets (R166-R168) -/

/-- A power-on reset starts, or the supply is still below its range (R166, R168): it replaces every other hold, the
cause record becomes POWER alone (R169), and the deadline record is cleared (R121). The hold then lasts 100 ticks
(log entry 12). -/
def State.powerOn (s : State) : State :=
  { s.resetBlocks with
    record := DeadlineRecord.cleared
    resetCause := causePower
    powerHold := some Config.powerHoldTicks
    softHold := none
    pinHold := false
    resetLow := false }

/-- A power-on reset is held that would not be released at this tick: RESET_N does not matter yet (R166;
log entry 11). -/
def State.powerHeld (s : State) : Bool :=
  match s.powerHold with
  | some (_ + 1) => true
  | some 0 | none => false

/-- RESET_N is sampled low (R166, R168). With no reset held a system reset starts in every block; under another hold
the blocks stay as they are, and the hold is extended. PIN is set at the start of the reset by pin, and not again while
it lasts. -/
def State.resetByPin (s : State) : State :=
  let t := if s.held then s else s.resetBlocks
  { t with
    resetCause := if s.pinHold then s.resetCause else s.resetCause ||| causePin
    powerHold := none
    pinHold := true
    resetLow := true }

/-- RESET_N sampled low: recognised only while REFCLK runs (R164), and not within a power-on hold (log entry 11). -/
def State.sampleResetLow (s : State) : State := if !s.refclk || s.powerHeld then s else s.resetByPin

/-- Every hold has run its time, and RESET_N was sampled high at the latest tick (R166-R168). -/
def State.releaseDue (s : State) : Bool :=
  s.held && !s.resetLow && (s.powerHold == none || s.powerHold == some 0) && (s.softHold == none || s.softHold == some 0)
    && match s.monitor with
      | .tripped _ => false
      | .idle | .counting _ | .warned _ => true

/-- The release, where it is due (R168); otherwise nothing (log entry 3). Every block works from its reset state. -/
def State.release (s : State) : State :=
  if s.releaseDue then { s with powerHold := none, softHold := none, pinHold := false } else s

/-! ### Events that the latest tick left to be taken (log entries 4, 5, 6) -/

/-- An application in flight has seen a tick: it completes before the next one, 1 µs later (R25; log entry 6). -/
def State.overdue (s : State) : Bool := s.applying && s.appTicked

/-- Some event of an earlier tick has not been taken yet. -/
def State.outstanding (s : State) : Bool :=
  (List.finRange 8).any (fun p => (s.filter p).due) || (List.finRange 24).any (fun k => (s.source k).boundaryDue != 0)
    || s.closeUnitDue || (List.finRange 32).any s.closeExpiryDue || s.overdue || s.intervalDue || s.pulseDue
    || s.releaseDue

/-- The settling or the filtered transition of each pin that has one due. -/
def State.takePins (s : State) : State := (List.finRange 8).foldl (fun s p => (s.settle p).transition p) s

/-- The boundaries of the tiers, then the quiet expiries they bring. -/
def State.takeQuiet (s : State) : State :=
  (List.finRange 24).foldl State.quietExpiry
    ((((s.tierBoundary .t0).tierBoundary .t1).tierBoundary .t2).tierBoundary .t3)

/-- The close-unit boundary, then the close-timer expiries it brings. -/
def State.takeClose (s : State) : State := (List.finRange 32).foldl State.closeTimerExpiry s.closeUnitBoundary

/-- The events of earlier ticks that have not been taken are taken, in one fixed order (log entry 5). -/
def State.catchUp (s : State) : State :=
  if s.outstanding then
    let t := s.takePins.takeQuiet.takeClose
    (if t.overdue then t.complete else t).intervalExpiry.pulseEnd.release
  else s

/-! ### The tick (R125, R164, R165) -/

/-- One tick less to count. -/
def Monitor.tick : Monitor → Monitor
  | .idle => .idle
  | .counting left => .counting (left - 1)
  | .warned left => .warned (left.map (· - 1))
  | .tripped left => .tripped (left - 1)

/-- The tiers whose boundary falls where the time-base count has become `count`, as bits (R165). -/
def boundariesAt (count : BitVec 20) : BitVec 4 :=
  (if count.extractLsb' 0 8 = 0#8 then tierBit .t0 else 0) ||| (if count.extractLsb' 0 12 = 0#12 then tierBit .t1 else 0)
    ||| (if count.extractLsb' 0 16 = 0#16 then tierBit .t2 else 0) ||| (if count = 0#20 then tierBit .t3 else 0)

/-- The tier boundaries that the next tick leaves to the quiet timers (R165): while the engine is PAUSED they are lost
where they fall, and not counted later (R55). -/
def State.boundariesFalling (s : State) : BitVec 4 := if s.paused then 0 else boundariesAt (s.timeBase + 1)

/-- A tick while a reset is held: the holds and the RSTOUT pulse are counted, and nothing else (R164, R165). -/
def State.heldTick (s : State) : State :=
  { s with
    monitor := s.monitor.tick
    powerHold := s.powerHold.map (· - 1)
    softHold := s.softHold.map (· - 1)
    resetLow := false }

/-- A tick at work (R125, R164, R165): the time-base count advances, the pins are sampled, a running interval is
counted, and the boundaries that fall at this tick are left to be taken. -/
def State.runningTick (s : State) (sns : BitVec 8) : State :=
  { s with
    timeBase := s.timeBase + 1
    filters := Vector.ofFn fun p : SenseId => s.filters[p].sample (sns.getLsbD p.val)
    sources := Vector.ofFn fun k : RemoteId => { s.sources[k] with boundaryDue := s.boundariesFalling }
    closeUnitDue := (s.timeBase + 1).extractLsb' 0 3 == 0#3
    monitor := s.monitor.tick
    appTicked := s.applying
    resetLow := false }

/-- A 1 µs tick: none while REFCLK stands (R164); the events of earlier ticks come first (log entry 5). -/
def State.tick (s : State) (sns : BitVec 8) : State :=
  if !s.refclk then s
  else if s.catchUp.held then s.catchUp.heldTick
  else s.catchUp.runningTick sns

/-! ### Meanings -/

/-- POWER_ON_RESET (R166). -/
def execPowerOnReset (s : State) : Host.Outcome State Fault Refusal := .next s.powerOn

/-- SYSTEM_RESET (R166). -/
def execSystemReset (s : State) : Host.Outcome State Fault Refusal := .next s.sampleResetLow

/-- RESET_RELEASE (R168). -/
def execResetRelease (s : State) : Host.Outcome State Fault Refusal := .next s.release

/-- REFCLK_STOP (R164). -/
def execRefclkStop (s : State) : Host.Outcome State Fault Refusal := .next { s with refclk := false }

/-- REFCLK_START (R164). -/
def execRefclkStart (s : State) : Host.Outcome State Fault Refusal := .next { s with refclk := true }

/-- TICK (R125, R164, R165). -/
def execTick (sns : BitVec 8) (s : State) : Host.Outcome State Fault Refusal := .next (s.tick sns)

end Sys2Proof.Machine
end

