-- ==== Sys2Proof/Machine/Dispatch.lean ====
section
/-! DEFINITION. One arm for each command: its row's meaning. -/

namespace Sys2Proof.Machine

def exec (i : Instr) (s : State) : Host.Outcome State Fault Refusal :=
  match i with
  | .admission addr word => Sys2Proof.Machine.execAdmission addr word s
  | .faultAccess a => Sys2Proof.Machine.execFaultAccess a s
  | .reportBase w => Sys2Proof.Machine.execReportBase w s
  | .applicationCompletion => Sys2Proof.Machine.execApplicationCompletion s
  | .pauseSet w => Sys2Proof.Machine.execPauseSet w s
  | .pauseClear w => Sys2Proof.Machine.execPauseClear w s
  | .stackClear w => Sys2Proof.Machine.execStackClear w s
  | .softReset w => Sys2Proof.Machine.execSoftReset w s
  | .quietExpiry src => Sys2Proof.Machine.execQuietExpiry src s
  | .load => Sys2Proof.Machine.execLoad s
  | .commit => Sys2Proof.Machine.execCommit s
  | .bar => Sys2Proof.Machine.execBar s
  | .unbar => Sys2Proof.Machine.execUnbar s
  | .clearCounters => Sys2Proof.Machine.execClearCounters s
  | .take => Sys2Proof.Machine.execTake s
  | .eos w => Sys2Proof.Machine.execEos w s
  | .closeTimerExpiry line => Sys2Proof.Machine.execCloseTimerExpiry line s
  | .urgentClear w => Sys2Proof.Machine.execUrgentClear w s
  | .deadlineBitClear w => Sys2Proof.Machine.execDeadlineBitClear w s
  | .intervalExpiry => Sys2Proof.Machine.execIntervalExpiry s
  | .rstoutPulseEnd => Sys2Proof.Machine.execRstoutPulseEnd s
  | .modeWrite w => Sys2Proof.Machine.execModeWrite w s
  | .recordClear w => Sys2Proof.Machine.execRecordClear w s
  | .filteredTransition pin => Sys2Proof.Machine.execFilteredTransition pin s
  | .settling pin => Sys2Proof.Machine.execSettling pin s
  | .eventFlagClear w => Sys2Proof.Machine.execEventFlagClear w s
  | .eventEnable w => Sys2Proof.Machine.execEventEnable w s
  | .logPop => Sys2Proof.Machine.execLogPop s
  | .checkClear w => Sys2Proof.Machine.execCheckClear w s
  | .faultClear w => Sys2Proof.Machine.execFaultClear w s
  | .resetCauseClear w => Sys2Proof.Machine.execResetCauseClear w s
  | .registerWrite index w => Sys2Proof.Machine.execRegisterWrite index w s
  | .powerOnReset => Sys2Proof.Machine.execPowerOnReset s
  | .systemReset => Sys2Proof.Machine.execSystemReset s
  | .resetRelease => Sys2Proof.Machine.execResetRelease s
  | .refclkStop => Sys2Proof.Machine.execRefclkStop s
  | .refclkStart => Sys2Proof.Machine.execRefclkStart s
  | .tierBoundary t => Sys2Proof.Machine.execTierBoundary t s
  | .closeUnitBoundary => Sys2Proof.Machine.execCloseUnitBoundary s
  | .tick sns => Sys2Proof.Machine.execTick sns s
  | .closeLimitWrite w => Sys2Proof.Machine.execCloseLimitWrite w s

end Sys2Proof.Machine
end

