-- ==== Sys2Proof/Machine/Views.lean ====
section
/-! DEFINITION. What the registers and the report window show to a read (R13, R18, R74, R107, R108, R111, R122, R172,
R173). Reads without effect have no row of the command table: they are views of the state (R162; log entry 9). -/

namespace Sys2Proof.Machine

/-- STATUS (R18, R173). -/
def State.statusWord (s : State) : Word :=
  place s.engine.code 0 ||| place (BitVec.ofNat 5 s.queue.length) 4 ||| place s.depth 12 ||| placeBool s.summary 16
    ||| placeBool s.sreq 17 ||| placeBool s.ureq 18

/-- CONTROL: the stored fields; the action bits read 0 (R19, R105, R171). -/
def State.controlWord (s : State) : Word := placeBool s.pauseRequest 0 ||| place s.closeLimit 8

/-- FLOW: ARRIVALS and APPLIED of one instant (R18, R173). -/
def State.flowWord (s : State) : Word := place s.arrivals 0 ||| place s.applied 16

/-- What a read of TAKE returns: the record of the TAKE that the read is (R88). -/
def State.takeWord (s : State) : Word :=
  match s.offer with
  | none => emptyRecord s.depth
  | some l => takeRecord l (s.line l) (s.push l).depth

/-- EOS_RESULT (R98, R173). -/
def State.eosResultWord (s : State) : Word :=
  place s.eosResult.outcome.code 0 ||| place s.eosResult.line 8 ||| place s.eosResult.depth 16

/-- COUNTS (R143, R173). -/
def State.countsWord (s : State) : Word :=
  place s.checkFailures 0 ||| place s.busFaults 16 ||| place (BitVec.ofNat 4 s.log.length) 24

/-- PENDING (R74). -/
def State.pendingWord (s : State) : Word := lineSetOf s.pendingLine

/-- INSERVICE (R107). -/
def State.inserviceWord (s : State) : Word := lineSetOf s.inStack

/-- URGENT_VIEW: lines 0 to 30, and the warning latch in bit 31; line 31 has no bit (R111). -/
def State.urgentWord (s : State) : Word :=
  lineSetOf (fun l => l.val < 31 && s.urgentLine l) ||| placeBool s.warning 31

/-- DEADLINE_CTRL: the stored fields; record clear reads 0 (R114). -/
def State.deadlineCtrlWord (s : State) : Word := place s.deadlineMode.code 0 ||| place s.deadlineInterval 8

/-- DEADLINE_VIEW (R122, R173). -/
def State.deadlineViewWord (s : State) : Word :=
  place s.monitor.code 0 ||| placeBool s.warning 4 ||| placeBool s.record.valid 8 ||| place s.record.line 16
    ||| place s.record.priority 24 ||| place s.record.depth 28

/-- TSEL (R146, R173). -/
def State.tselWord (s : State) : Word := place s.tsel.table 0 ||| place s.tsel.index 8

/-- TSTAT (R149, R173). -/
def State.tstatWord (s : State) : Word :=
  place s.tstat.result.code 0
    ||| place (match s.tstat.command with | some c => c.code | none => 0#3) 8

/-- LOG_WORD: the oldest entry's word, 0 for an empty log (R141). -/
def State.logWord (s : State) : Word :=
  match s.log with
  | [] => 0
  | e :: _ => e.word

/-- One register of the stack view (R108, R173). -/
def StackEntry.view (e : StackEntry) (applied : Stamp) : Word :=
  place (lineCode e.line) 0 ||| place e.priority 8 ||| place e.kind.code 29 ||| placeBool true 31
    ||| match e.closing with
      | none => 0
      | some c => place c.remaining 12 ||| place ((c.watermark - applied).setWidth 4) 16 ||| placeBool true 30

/-- STACK`k`: the entry with `k` entries below it; 0 above the top (R108). -/
def State.stackWord (s : State) (k : Nat) : Word :=
  match s.stack[k]? with
  | none => 0
  | some e => e.view s.applied

/-- The value that a full-width read of a register returns (R160, R172). -/
def State.registerValue (s : State) : Register → Word
  | .ident => Config.ident
  | .control => s.controlWord
  | .status => s.statusWord
  | .reportBase => s.reportBase
  | .flow => s.flowWord
  | .take => s.takeWord
  | .eos => s.eosResultWord
  | .counts => s.countsWord
  | .pending => s.pendingWord
  | .inservice => s.inserviceWord
  | .urgent => s.urgentWord
  | .deadlineCtrl => s.deadlineCtrlWord
  | .deadlineView => s.deadlineViewWord
  | .resetCause => place s.resetCause 0
  | .eventFlags => place s.eventFlags 0
  | .eventEnable => place s.eventEnables 0
  | .tsel => s.tselWord
  | .tcmd => s.tstatWord
  | .tdata0 => s.staging.w0
  | .tdata1 => s.staging.w1
  | .tdata2 => s.staging.w2
  | .tdata3 => s.staging.w3
  | .logWord => s.logWord
  | .logPop => popRecord s.log
  | .stack k => s.stackWord k.val

/-- The free count: 16 minus the entries held (R13). -/
def State.freeCount (s : State) : Word := place (BitVec.ofNat 5 (Config.queueCapacity - s.queue.length)) 0

/-- What a read access returns to its master (R10, R13, R160): nothing where the access is not claimed, 0 where it is
answered FAULT. -/
def State.readValue (s : State) (a : Access) : Option Word :=
  match s.termination a with
  | none => none
  | some .fault | some .retry => some 0
  | some .done => some (if a.select then s.registerValue (accessRegister a) else s.freeCount)

/-- The RSTOUT output (R119). -/
def State.rstout (s : State) : Bool :=
  match s.monitor with
  | .tripped _ => true
  | .idle | .counting _ | .warned _ => false

end Sys2Proof.Machine
end

