-- ==== Sys2Proof/Safety.lean ====
section
/-! DEFINITION. What a safe state is: the laws that the spec states of the part's tables, stack, queue and monitor at
every moment. Each law is a predicate of its own, so that it can be stated and proved by itself. -/

namespace Sys2Proof.Safety

open Sys2Proof.Machine

/-- R15, R16: at most 16 entries, carrying the consecutive stamps from APPLIED up to ARRIVALS − 1. -/
def QueueInOrder (s : State) : Prop :=
  s.queue.length ≤ 16 ∧
  s.arrivals = s.applied + BitVec.ofNat 16 s.queue.length ∧
  ∀ (i : Nat) (h : i < s.queue.length), (s.queue[i]).stamp = s.applied + BitVec.ofNat 16 i

/-- R20: in IDLE the queue is empty; while an application is in flight the queue holds its entry. -/
def EngineFed (s : State) : Prop :=
  (s.engine = .idle → s.queue = []) ∧ (s.applying = true → s.queue ≠ [])

/-- R140: the reject log holds at most 8 entries. -/
def LogBounded (s : State) : Prop := s.log.length ≤ 8

/-- R86: no line more than once, and entry priorities strictly decrease in value from bottom to top. -/
def StackNested (s : State) : Prop :=
  s.stack.Pairwise fun below above => above.priority.ult below.priority = true ∧ above.line ≠ below.line

/-- R86, R108: a CLOSING entry has a close timer of 1 to 15 units and a watermark entry still in the queue. -/
def ClosingsPending (s : State) : Prop :=
  ∀ e ∈ s.stack, ∀ c, e.closing = some c →
    c.remaining ≠ 0 ∧ (c.expiring = true → c.remaining = 1) ∧ (c.watermark - s.applied).toNat < s.queue.length

/-- R76, R77, R83: a line in service is routed SERVICE and is not OFF. -/
def StackedLinesServed (s : State) : Prop :=
  ∀ e ∈ s.stack, (s.line e.line).route = .service ∧ (s.line e.line).mode ≠ .off

/-- R63, R70, R71: a line holds only state that its mode can use; a clear latch has repeat count 0, and the last edge
source is 31 exactly when the latch is clear. -/
def LineStateByMode (s : State) : Prop :=
  ∀ l : LineId,
    ((s.line l).mode.isLevel = false → (s.line l).contributors = 0) ∧
    ((s.line l).mode ≠ .edge → (s.line l).latch = false) ∧
    ((s.line l).lastEdge = 31 ↔ (s.line l).latch = false) ∧
    ((s.line l).latch = false → (s.line l).repeatCount = 0)

/-- R36, R37: VACANT exactly when the ownership set is empty; sequence known exactly in LIVE and SILENT; the quiet timer
stopped with remaining 0 in every state but LIVE. -/
def SourcesConsistent (s : State) : Prop :=
  ∀ k : RemoteId,
    ((s.source k).state = .vacant ↔ (s.source k).ownership = 0) ∧
    ((s.source k).seqKnown = true ↔ (s.source k).state = .live ∨ (s.source k).state = .silent) ∧
    ((s.source k).state ≠ .live → (s.source k).quietRemaining = 0)

/-- R66: every remote member of a contributor set is LIVE and owns the line. -/
def MembersLiveOwners (s : State) : Prop :=
  ∀ (l : LineId) (k : RemoteId), (s.line l).contributors.getLsbD k.val = true →
    (s.source k).state = .live ∧ (s.source k).ownership.getLsbD l.val = true

/-- R68: the local source is a member of a SHARED or SOLE line's set exactly while an active level-mode pin entry
targets the line, and of no other set. -/
def LocalFollowsPins (s : State) : Prop :=
  ∀ l : LineId,
    (s.line l).contributors.getLsbD 24 = ((s.line l).mode.isLevel && s.localActive l)

/-- R65: a SOLE line has at most one owner, counting the local source. -/
def SoleOneOwner (s : State) : Prop := ∀ l : LineId, (s.line l).mode = .sole → s.ownerCount l ≤ 1

/-- R124, R131: a level-mode entry targets a SHARED or SOLE line, an edge-mode entry an EDGE line, and entry 8 is OFF or
LEVEL_HIGH. -/
def PinsMatchLines (s : State) : Prop :=
  (∀ p : PinId,
    ((s.pin p).mode.isLevel = true → (s.line (s.pin p).target).mode.isLevel = true) ∧
    ((s.pin p).mode.isEdge = true → (s.line (s.pin p).target).mode = .edge)) ∧
  ((s.pin 8).mode = .off ∨ (s.pin 8).mode = .levelHigh)

/-- The monitor times SREQ: COUNTING or WARNED. -/
def timing (s : State) : Bool :=
  match s.monitor with
  | .counting _ | .warned _ => true
  | .idle | .tripped _ => false

/-- R115, R117: the monitor is COUNTING or WARNED exactly while SREQ is asserted and the mode is not OFF. -/
def MonitorFollowsSreq (s : State) : Prop :=
  timing s = true ↔ (s.sreq = true ∧ s.deadlineMode ≠ .off)

/-- R168, R170, R123: while any reset is held every block stands in its reset state, but for the monitor. For a deadline
reset's pulse that is TRIPPED, with the mode WARN_RESET that tripped it; otherwise it is IDLE, mode OFF, interval 0. -/
def HeldInReset (s : State) : Prop :=
  s.held = true →
    timing s = false ∧ (s.rstout = true → s.deadlineMode = .warnReset) ∧
    (s.rstout = false → s.deadlineMode = .off ∧ s.deadlineInterval = 0) ∧
    { s with deadlineMode := .off, deadlineInterval := 0, monitor := .idle } = s.resetBlocks

/-- R8: the four low bits of REPORT_BASE are 0. -/
def BaseAligned (s : State) : Prop := s.reportBase &&& 0xF#32 = 0#32

/-- All the laws together. -/
structure Inv (s : State) : Prop where
  queue : QueueInOrder s
  engine : EngineFed s
  log : LogBounded s
  stack : StackNested s
  closings : ClosingsPending s
  stacked : StackedLinesServed s
  lines : LineStateByMode s
  sources : SourcesConsistent s
  members : MembersLiveOwners s
  local_ : LocalFollowsPins s
  sole : SoleOneOwner s
  pins : PinsMatchLines s
  monitor : MonitorFollowsSreq s
  held : HeldInReset s
  base : BaseAligned s

/-! ### The vocabulary of the frames: what an event may carry with it -/

/-- R117, the rows of a rise and of a fall of SREQ: the monitor after an event that is no TAKE and no write of the mode,
and that led from `s` to `t`. -/
def monitorAfter (s t : State) : Monitor :=
  if s.sreq = t.sreq then s.monitor
  else
    match s.monitor with
    | .idle => if t.sreq = true ∧ s.deadlineMode ≠ .off then .counting s.intervalTicks else .idle
    | .counting n => if t.sreq then .counting n else .idle
    | .warned n => if t.sreq then .warned n else .idle
    | .tripped n => .tripped n

/-- R68, R127, R138: an event led from `s` to `t` and by its own effect left line `l` as `f l`. Where it also changed
the summary, and pin entry 8 is in a level mode, the local source's membership of entry 8's target line follows. -/
def LinesAfter (s t : State) (f : LineId → LineEntry) : Prop :=
  ∀ l : LineId, t.line l =
    if s.summary ≠ t.summary ∧ (s.pin 8).mode.isLevel = true ∧ l = (s.pin 8).target then
      (f l).setMember 24 (t.localActive l)
    else f l

/-- A reset starts between `s` and `t`: a power-on reset, a system reset by a write of SOFT_RESET or by RESET_N, or the
deadline reset of a trip (R166 to R168). -/
def ResetStarts (s t : State) : Prop :=
  exec .powerOnReset s = .next t ∨
  (s.held = false ∧ ∃ w : Word, w.getLsbD 2 = true ∧ exec (.softReset w) s = .next t) ∨
  (s.held = false ∧ s.refclk = true ∧ exec .systemReset s = .next t) ∨
  (s.held = false ∧ exec .intervalExpiry s = .next t ∧ t.held = true)

/-- The state after one command; the arms for stops are never met, since every command answers a next state. -/
def after (c : Instr) (s : State) : State :=
  match exec c s with
  | .next t => t
  | .fault _ | .refused _ => s

/-- The state after several commands, one after the other. -/
def afterAll (cs : List Instr) (s : State) : State := cs.foldl (fun s c => after c s) s

/-- One more, or the maximum kept (R50, R143). -/
def saturated {n : Nat} (x : BitVec n) : BitVec n := BitVec.ofNat n (min (x.toNat + 1) (2 ^ n - 1))

/-- The line entry without source `k` among its contributors (R46). -/
def without (e : LineEntry) (k : RemoteId) : LineEntry :=
  { e with contributors := e.contributors &&& ~~~BitVec.twoPow 25 k.val }

/-- The application in flight claims source `k`: its entry is the head, and its source field names `k` (R23). -/
def SourceClaimed (s : State) (k : RemoteId) : Prop :=
  s.applying = true ∧ ∃ e, s.queue.head? = some e ∧ (e.word.extractLsb' 27 5).toNat = k.val

/-- The application in flight claims line `l`: the octet field of the head entry's word names its octet (R23). -/
def LineClaimed (s : State) (l : LineId) : Prop :=
  s.applying = true ∧ ∃ e, s.queue.head? = some e ∧ (e.word.extractLsb' 20 2).toNat = l.val / 8

/-- The local source owns line `l`: a pin entry that is not OFF targets it (R64, R130). -/
def LocalOwns (s : State) (l : LineId) : Prop := ∃ p : PinId, (s.pin p).mode ≠ .off ∧ (s.pin p).target = l

/-- The raw word matches line `l` for an EOS (R95). -/
def WordMatches (s : State) (w : Word) (l : LineId) : Prop :=
  (w.extractLsb' 22 2 = 0#2 ∧ (w.extractLsb' 20 2).toNat = l.val / 8 ∧ w.getLsbD (12 + l.val % 8) = true) ∨
  (w.extractLsb' 22 2 = 2#2 ∧
    ∃ k : RemoteId, (w.extractLsb' 27 5).toNat = k.val ∧ (s.source k).ownership.getLsbD l.val = true)

/-- The read-only registers, by A[6:2]: IDENT, STATUS, FLOW, TAKE, PENDING, INSERVICE, DEADLINE_VIEW, LOG_WORD, LOG_POP
and STACK0 to STACK7 (R161, R172). -/
def ReadOnlyOffset (i : BitVec 5) : Prop :=
  i ∈ [0x00#5, 0x02#5, 0x04#5, 0x05#5, 0x08#5, 0x09#5, 0x0C#5, 0x16#5, 0x17#5] ∨ 0x18 ≤ i.toNat

/-- The commands that are accesses of the register window (R160). -/
def registerAccess : Instr → Bool
  | .reportBase _ | .pauseSet _ | .pauseClear _ | .stackClear _ | .softReset _ | .closeLimitWrite _ | .load | .commit
  | .bar | .unbar | .clearCounters | .take | .eos _ | .urgentClear _ | .deadlineBitClear _ | .modeWrite _
  | .recordClear _ | .eventFlagClear _ | .eventEnable _ | .logPop | .checkClear _ | .faultClear _ | .resetCauseClear _
  | .registerWrite _ _ => true
  | .admission _ _ | .faultAccess _ | .applicationCompletion | .quietExpiry _ | .closeTimerExpiry _ | .intervalExpiry
  | .rstoutPulseEnd | .filteredTransition _ | .settling _ | .powerOnReset | .systemReset | .resetRelease | .refclkStop
  | .refclkStart | .tierBoundary _ | .closeUnitBoundary | .tick _ => false

/-- The commands that are a write of CONTROL with the word `w` (R19, R105, R106, R167). -/
def controlWrites (w : Word) : List Instr :=
  [.pauseSet w, .pauseClear w, .stackClear w, .softReset w, .closeLimitWrite w]

end Sys2Proof.Safety
end

