-- ==== Sys2Proof/Certificates/Slice0/Obligations.lean ====
section
/-! DEFINITION. The statements: the machine, reset, the laws that every step keeps, and for each command its result with
all that it leaves unchanged. -/

open Sys2Proof Sys2Proof.Machine Sys2Proof.Safety

/-! ### The machine -/

/-- A step takes the command at the front of the queue and runs it over the queue's rest; on an empty queue the block
idles (log entry 2). -/
def Obligations.StepRunsTheFrontCommand : Prop :=
  (∀ (c : Instr) (rest : List Instr) (s : State),
    step { s with pending := c :: rest } = exec c { s with pending := rest }) ∧
  ∀ s : State, s.pending = [] → step s = .next s

/-- Every command answers a next state, leaves the queue as it is, and does the same whatever the queue holds. The model's
choices: the queue (log entry 2), a command that has no effect where its event cannot occur (log entry 3), and that no
command stops the part (log entry 17). -/
def Obligations.CommandsKeepAndIgnoreTheQueue : Prop :=
  ∀ (c : Instr) (s : State), ∃ t, exec c s = .next t ∧ t.pending = s.pending ∧
    ∀ q : List Instr, exec c { s with pending := q } = .next { t with pending := q }

/-! ### Reset -/

/-- R172: the value of every register right after a power-on reset (log entry 1), and, but for DEADLINE_VIEW and
RESET_CAUSE, at the start of every kind of reset; DEADLINE_CTRL, which a trip leaves for the length of the pulse, has its
value at the pulse's end (R123). With them the tables, the queue, the stack and the log, which no register shows whole (R22,
R60, R62, R109, R126, R134, R145, R165); the marks boundaryDue and due are the model's (log entry 4). -/
def Obligations.ResetRegisterValues : Prop :=
  let value : BitVec 5 → Word := fun i =>
    if i = 0x00#5 then 0x3224A101 else if i = 0x01#5 then 1 else if i = 0x02#5 then 3
    else if i = 0x05#5 then 0x001F003F else if i = 0x06#5 then 0x3F00 else if i = 0x0D#5 then 1 else 0
  let cleared : State → Prop := fun t =>
    (∀ k : RemoteId, t.source k = {
      ownership := 0, state := .vacant, lastSeq := 0, seqKnown := false, quietReload := 0, tier := .t0, timerTier := .t0
      quietRemaining := 0, barThreshold := 0, foreignStreak := 0, accepted := 0, rejected := 0, duplicates := 0
      gaps := 0, silences := 0, boundaryDue := 0 }) ∧
    (∀ l : LineId, t.line l = {
      mode := .off, priority := 7, route := .service, masked := false, contributors := 0, latch := false
      repeatCount := 0, lastEdge := 31 }) ∧
    (∀ p : PinId, t.pin p = { mode := .off, target := 0 }) ∧
    (∀ n : SenseId, t.filter n = { level := .unset, previous := none, due := false }) ∧
    t.queue = [] ∧ t.applying = false ∧ t.stack = [] ∧ t.log = [] ∧ t.warning = false ∧ t.timeBase = 0
  (∀ a : Access, a.select = true → a.write = false → a.lanes = 0xF#4 →
    State.reset.readValue a = some (value (a.addr.extractLsb' 2 5))) ∧
  cleared State.reset ∧
  ∀ s t : State, ResetStarts s t → cleared t ∧
    (∀ i : BitVec 5, i ≠ 0x0C#5 → i ≠ 0x0D#5 → (i = 0x0B#5 → t.rstout = false) →
      t.registerValue (registerAt i) = value i) ∧
    (t.rstout = true → ∃ u, exec .rstoutPulseEnd { t with monitor := .tripped 0 } = .next u ∧
      u.registerValue .deadlineCtrl = value 0x0B#5)

/-- The state after reset satisfies every law of Safety.lean. -/
def Obligations.InvariantHoldsAtReset : Prop := Inv State.reset

/-! ### The laws that every step keeps -/

/-- R15, R16, R20. -/
def Obligations.StepKeepsQueueAndEngine : Prop :=
  ∀ s t : State, QueueInOrder s → EngineFed s → step s = .next t → QueueInOrder t ∧ EngineFed t

/-- R86: at most 8 entries follows from the strictly decreasing priorities. -/
def Obligations.StepKeepsStackNested : Prop :=
  ∀ s t : State, StackNested s → step s = .next t → StackNested t ∧ t.stack.length ≤ 8

/-- R86, R101, R108. -/
def Obligations.StepKeepsClosingsPending : Prop :=
  ∀ s t : State, QueueInOrder s → ClosingsPending s → step s = .next t → ClosingsPending t

/-- R76, R77, R81, R87. -/
def Obligations.StepKeepsStackedLinesServed : Prop :=
  ∀ s t : State, StackedLinesServed s → step s = .next t → StackedLinesServed t

/-- R63, R70, R71. -/
def Obligations.StepKeepsLineStateByMode : Prop :=
  ∀ s t : State, LineStateByMode s → step s = .next t → LineStateByMode t

/-- R36, R37. -/
def Obligations.StepKeepsSourcesConsistent : Prop :=
  ∀ s t : State, SourcesConsistent s → step s = .next t → SourcesConsistent t

/-- R46, R66. -/
def Obligations.StepKeepsMembersLiveOwners : Prop :=
  ∀ s t : State, MembersLiveOwners s → step s = .next t → MembersLiveOwners t

/-- R68, R128; with R128's table of the active entries, on the fields, and what it is to join a set or leave it (R63). -/
def Obligations.StepKeepsLocalFollowsPins : Prop :=
  (∀ (s : State) (l : LineId), s.localActive l = true ↔
    ∃ p : PinId, (s.pin p).target = l ∧
      ((∃ n : SenseId, n.val = p.val ∧
          (((s.pin p).mode = .levelLow ∧ (s.filter n).level = .low) ∨
            ((s.pin p).mode = .levelHigh ∧ (s.filter n).level = .high))) ∨
        (p = 8 ∧ (s.pin p).mode = .levelHigh ∧ s.summary = true))) ∧
  (∀ m : LineMode, m.isLevel = true ↔ m = .shared ∨ m = .sole) ∧
  (∀ (e : LineEntry) (n : Nat),
    ((e.mode = .off ∨ e.mode = .edge) → ∀ b, e.setMember n b = e) ∧
    ((e.mode = .shared ∨ e.mode = .sole) →
      e.setMember n true = { e with contributors := e.contributors ||| BitVec.twoPow 25 n } ∧
      e.setMember n false = { e with contributors := e.contributors &&& ~~~BitVec.twoPow 25 n })) ∧
  ∀ s t : State, LocalFollowsPins s → step s = .next t → LocalFollowsPins t

/-- R65; with the number of a line's owners, on the ownership sets and the pin table (R64). -/
def Obligations.StepKeepsSoleOneOwner : Prop :=
  (∀ (s : State) (l : LineId),
    let remote := (List.finRange 24).countP (fun k => (s.source k).ownership.getLsbD l.val)
    (LocalOwns s l → s.ownerCount l = remote + 1) ∧ (¬ LocalOwns s l → s.ownerCount l = remote)) ∧
  ∀ s t : State, SoleOneOwner s → step s = .next t → SoleOneOwner t

/-- R124, R131; with the modes that are level modes and edge modes. -/
def Obligations.StepKeepsPinsMatchLines : Prop :=
  (∀ m : PinMode, (m.isLevel = true ↔ m = .levelLow ∨ m = .levelHigh) ∧
    (m.isEdge = true ↔ m = .rising ∨ m = .falling ∨ m = .anyChange)) ∧
  ∀ s t : State, PinsMatchLines s → step s = .next t → PinsMatchLines t

/-- R115, R117. -/
def Obligations.StepKeepsMonitorFollowsSreq : Prop :=
  ∀ s t : State, MonitorFollowsSreq s → step s = .next t → MonitorFollowsSreq t

/-- R123, R168, R170; with what it is for a reset to be held and for RSTOUT to be asserted (R119, R166 to R168), and the
reset state of every block, which is that of `ResetRegisterValues`. -/
def Obligations.StepKeepsHeldInReset : Prop :=
  (∀ s : State, (s.rstout = true ↔ ∃ n, s.monitor = .tripped n) ∧
    (s.held = true ↔ s.powerHold ≠ none ∨ s.softHold ≠ none ∨ s.pinHold = true ∨ s.rstout = true) ∧
    s.resetBlocks = { State.reset with
      record := s.record, resetCause := s.resetCause, powerHold := s.powerHold, softHold := s.softHold
      pinHold := s.pinHold, refclk := s.refclk, resetLow := s.resetLow, reply := s.reply, pending := s.pending }) ∧
  ∀ s t : State, HeldInReset s → step s = .next t → HeldInReset t

/-- R8, R140. -/
def Obligations.StepKeepsBaseAndLogBounds : Prop :=
  ∀ s t : State, step s = .next t → (BaseAligned s → BaseAligned t) ∧ (LogBounded s → LogBounded t)

/-! ### Bus accesses -/

/-- R11, with the start of R20. The model's own: the mark appTicked (log entry 6), and the data word 0 of the answer (log
entry 8). -/
def Obligations.AdmissionStoresTheWord : Prop :=
  ∀ (s : State) (a w : Word), s.held = false → s.reportBase ≠ 0#32 → a = s.reportBase → s.queue.length < 16 →
    exec (.admission a w) s = .next
      { s with
        queue := s.queue ++ [⟨w, s.arrivals⟩]
        arrivals := s.arrivals + 1
        applying := s.applying || !s.pauseRequest
        appTicked := s.applying && s.appTicked
        reply := .answered .done 0 }

/-- R12. -/
def Obligations.FullQueueAnswersRetry : Prop :=
  ∀ (s : State) (a w : Word), s.held = false → s.reportBase ≠ 0#32 → a = s.reportBase → 16 ≤ s.queue.length →
    ∃ t, exec (.admission a w) s = .next t ∧
      t = { s with
        eventFlags := s.eventFlags ||| 0x20#8, lines := t.lines, monitor := t.monitor, reply := .answered .retry 0 } ∧
      LinesAfter s t s.line ∧ t.monitor = monitorAfter s t

/-- R9, R160: an access that is not claimed changes nothing but what its master saw. -/
def Obligations.UnclaimedAccessChangesNothing : Prop :=
  (∀ (s : State) (a w : Word),
    (s.held = true ∨ s.reportBase = 0#32 ∨ a.extractLsb' 4 28 ≠ s.reportBase.extractLsb' 4 28) →
      exec (.admission a w) s = .next { s with reply := .unclaimed }) ∧
  (∀ (s : State) (a : Access),
    (s.held = true ∨ (a.select = false ∧
      (s.reportBase = 0#32 ∨ a.addr.extractLsb' 4 28 ≠ s.reportBase.extractLsb' 4 28))) →
      exec (.faultAccess a) s = .next { s with reply := .unclaimed }) ∧
  ∀ (s : State) (c : Instr), s.held = true → registerAccess c = true →
    exec c s = .next { s with reply := .unclaimed }

/-- R10, R14, R160, R161, R163: each claimed access that the classification answers with FAULT. -/
def Obligations.FaultsAreCounted : Prop :=
  ∀ (s : State) (c : Instr), s.held = false →
    ((∃ a : Access, c = .faultAccess a ∧
        ((a.select = true ∧ (a.lanes ≠ 0xF#4 ∨ (a.write = true ∧ ReadOnlyOffset (a.addr.extractLsb' 2 5)))) ∨
          (a.select = false ∧ s.reportBase ≠ 0#32 ∧ a.addr.extractLsb' 4 28 = s.reportBase.extractLsb' 4 28 ∧
            (a.lanes ≠ 0xF#4 ∨ a.addr ≠ s.reportBase)))) ∨
      (∃ (i : BitVec 5) (w : Word), c = .registerWrite i w ∧ ReadOnlyOffset i) ∨
      (∃ a w : Word, c = .admission a w ∧ s.reportBase ≠ 0#32 ∧
        a.extractLsb' 4 28 = s.reportBase.extractLsb' 4 28 ∧ a ≠ s.reportBase)) →
    ∃ t, exec c s = .next t ∧
      t = { s with
        busFaults := saturated s.busFaults, eventFlags := s.eventFlags ||| 0x80#8, lines := t.lines,
        monitor := t.monitor, reply := .answered .fault 0 } ∧
      LinesAfter s t s.line ∧ t.monitor = monitorAfter s t

/-- R8; the addresses that the window claims are R9. The answer word 0 of the write is the model's (log entry 8). -/
def Obligations.ReportBaseWriteMovesTheWindow : Prop :=
  (∀ s t : State, ResetStarts s t → t.reportBase = 0#32) ∧
  ∀ (s : State) (w : Word), s.held = false →
    ∃ t, exec (.reportBase w) s = .next t ∧
      t = { s with reportBase := w &&& 0xFFFFFFF0#32, reply := .answered .done 0 } ∧
      ∀ a : Word, t.windowClaims a = true ↔ (16 ≤ w.toNat ∧ a.extractLsb' 4 28 = w.extractLsb' 4 28)

/-! ### The report engine -/

/-- R17, R20, R25, R102: what every completion does, whatever the word's outcome, and what none of them touches; without
an application in flight the command has no effect (R20; log entry 3). The mark appTicked is the model's (log entry 6). -/
def Obligations.CompletionDepartsTheHead : Prop :=
  (∀ s : State, s.held = true ∨ s.applying = false ∨ s.queue = [] → exec .applicationCompletion s = .next s) ∧
  ∀ (s : State) (e : QueueEntry) (rest : List QueueEntry),
    s.held = false → s.applying = true → s.queue = e :: rest →
    ∃ t, exec .applicationCompletion s = .next t ∧
      t.queue = rest ∧ t.applied = s.applied + 1 ∧
      (t.applying = true ↔ (s.pauseRequest = false ∧ rest ≠ [])) ∧ t.appTicked = false ∧
      t.stack = s.stack.filter (fun x => !(x.closing.map (·.watermark) == some e.stamp)) ∧
      t.monitor = monitorAfter s t ∧
      t = { s with
        queue := t.queue, applied := t.applied, applying := t.applying, appTicked := t.appTicked,
        sources := t.sources, lines := t.lines, stack := t.stack, monitor := t.monitor, eventFlags := t.eventFlags,
        log := t.log, checkFailures := t.checkFailures }

/-- R26, R29: the tests in their order, on the raw bits of the word (R174). -/
def Obligations.ValidationFollowsItsOrder : Prop :=
  ∀ (s : State) (w : Word),
    let nibbles := w.extractLsb' 0 4 ^^^ w.extractLsb' 4 4 ^^^ w.extractLsb' 8 4 ^^^ w.extractLsb' 12 4
      ^^^ w.extractLsb' 16 4 ^^^ w.extractLsb' 20 4 ^^^ w.extractLsb' 24 4 ^^^ w.extractLsb' 28 4
    let kind := w.extractLsb' 22 2
    let source := (w.extractLsb' 27 5).toNat
    let octet := (w.extractLsb' 20 2).toNat
    (nibbles ≠ 0#4 → s.judge w = .reject .check) ∧
    (nibbles = 0#4 → kind = 3#2 → s.judge w = .reject .kind) ∧
    (nibbles = 0#4 → kind ≠ 3#2 → 24 ≤ source → s.judge w = .reject .unknownSource) ∧
    ∀ k : RemoteId, nibbles = 0#4 → kind ≠ 3#2 → source = k.val →
      ((s.source k).state = .vacant → s.judge w = .reject .vacant) ∧
      ((s.source k).state = .barred → s.judge w = .reject .barred) ∧
      ((s.source k).state ≠ .vacant → (s.source k).state ≠ .barred →
        ((kind = 0#2 ∧ ∃ i : Nat, i < 8 ∧ w.getLsbD (12 + i) = true ∧
            (s.source k).ownership.getLsbD (8 * octet + i) = false) →
          s.judge w = .reject .foreign) ∧
        (¬ (kind = 0#2 ∧ ∃ i : Nat, i < 8 ∧ w.getLsbD (12 + i) = true ∧
            (s.source k).ownership.getLsbD (8 * octet + i) = false) →
          ((s.source k).state = .live ∧ w.extractLsb' 24 3 = (s.source k).lastSeq → s.judge w = .duplicate k) ∧
          (¬ ((s.source k).state = .live ∧ w.extractLsb' 24 3 = (s.source k).lastSeq) → s.judge w = .accept k)))

/-- R27, R140, R143: a rejection for any reason; the charges of FOREIGN are `ForeignRejectionCountsAndBars`. -/
def Obligations.RejectionIsLoggedAndCharged : Prop :=
  ∀ (s : State) (e : QueueEntry) (rest : List QueueEntry) (r : RejectReason),
    s.held = false → s.applying = true → s.queue = e :: rest → s.judge e.word = .reject r →
    ∃ t, exec .applicationCompletion s = .next t ∧
      t.log = (if s.log.length < 8 then s.log ++ [⟨e.word, r, e.stamp⟩] else s.log) ∧
      t.checkFailures = (if r = .check then saturated s.checkFailures else s.checkFailures) ∧
      (t.eventFlags.getLsbD 3 = true ∧ t.eventFlags.getLsbD 4 = (s.eventFlags.getLsbD 4 || !decide (s.log.length < 8))) ∧
      (r ≠ .foreign →
        t.eventFlags = s.eventFlags ||| 0x08#8 ||| (if s.log.length < 8 then 0#8 else 0x10#8) ∧
        LinesAfter s t s.line ∧
        ∀ k : RemoteId, t.source k =
          if (r = .vacant ∨ r = .barred) ∧ (e.word.extractLsb' 27 5).toNat = k.val then
            { s.source k with rejected := saturated (s.source k).rejected }
          else s.source k)

/-- R28, R48, R52. -/
def Obligations.ForeignRejectionCountsAndBars : Prop :=
  ∀ (s : State) (e : QueueEntry) (rest : List QueueEntry) (k : RemoteId),
    s.held = false → s.applying = true → s.queue = e :: rest → s.judge e.word = .reject .foreign →
    (e.word.extractLsb' 27 5).toNat = k.val →
    let streak := saturated (s.source k).foreignStreak
    let counted := { s.source k with rejected := saturated (s.source k).rejected, foreignStreak := streak }
    let bars := (s.source k).barThreshold ≠ 0#4 ∧ (s.source k).barThreshold.toNat ≤ streak.toNat
    ∃ t, exec .applicationCompletion s = .next t ∧
      (¬ bars → t.source k = counted ∧ LinesAfter s t s.line ∧
        t.eventFlags = s.eventFlags ||| 0x08#8 ||| (if s.log.length < 8 then 0#8 else 0x10#8)) ∧
      (bars → t.source k = { counted with state := .barred, quietRemaining := 0, seqKnown := false } ∧
        LinesAfter s t (fun l => without (s.line l) k) ∧
        t.eventFlags = s.eventFlags ||| 0x0A#8 ||| (if s.log.length < 8 then 0#8 else 0x10#8)) ∧
      ∀ j : RemoteId, j ≠ k → t.source j = s.source j

/-- R29. -/
def Obligations.DuplicateOnlyReloads : Prop :=
  ∀ (s : State) (e : QueueEntry) (rest : List QueueEntry) (k : RemoteId),
    s.held = false → s.applying = true → s.queue = e :: rest → s.judge e.word = .duplicate k →
    ∃ t, exec .applicationCompletion s = .next t ∧
      t.source k = { s.source k with
        duplicates := saturated (s.source k).duplicates
        quietRemaining := (s.source k).quietReload
        timerTier := (s.source k).tier } ∧
      (∀ j : RemoteId, j ≠ k → t.source j = s.source j) ∧
      t.lines = s.lines ∧ t.log = s.log ∧ t.eventFlags = s.eventFlags ∧ t.checkFailures = s.checkFailures

/-- R30 to R32, R43, R44, R54, R67, R70: an accepted STATE or REFRESH. -/
def Obligations.AcceptedReportMakesLiveAndStates : Prop :=
  ∀ (s : State) (e : QueueEntry) (rest : List QueueEntry) (k : RemoteId),
    s.held = false → s.applying = true → s.queue = e :: rest → s.judge e.word = .accept k →
    (e.word.extractLsb' 22 2).toNat < 2 →
    let was := s.source k
    let seq := e.word.extractLsb' 24 3
    let stated : LineId → Bool := fun l =>
      e.word.extractLsb' 22 2 == 0#2 && (e.word.extractLsb' 20 2).toNat == l.val / 8
        && e.word.getLsbD (12 + l.val % 8)
    let level : LineId → Bool := fun l => e.word.getLsbD (4 + l.val % 8)
    ∃ t, exec .applicationCompletion s = .next t ∧
      t.source k = { was with
        state := .live, lastSeq := seq, seqKnown := true, quietRemaining := was.quietReload, timerTier := was.tier,
        foreignStreak := 0, accepted := saturated was.accepted,
        gaps := if was.state = .live ∧ seq ≠ was.lastSeq + 1 then saturated was.gaps else was.gaps } ∧
      (∀ j : RemoteId, j ≠ k → t.source j = s.source j) ∧
      t.log = s.log ∧ t.checkFailures = s.checkFailures ∧
      t.eventFlags = (if was.state = .silent then s.eventFlags ||| 0x04#8 else s.eventFlags) ∧
      LinesAfter s t (fun l =>
        if stated l = false then s.line l
        else
          match (s.line l).mode with
          | .off => s.line l
          | .edge =>
            if level l = false then s.line l
            else { s.line l with
              latch := true
              repeatCount := if (s.line l).latch then saturated (s.line l).repeatCount else 0
              lastEdge := BitVec.ofNat 5 k.val }
          | .shared | .sole =>
            if level l = false then without (s.line l) k
            else { s.line l with contributors := (s.line l).contributors ||| BitVec.twoPow 25 k.val })

/-- R30, R31, R45: an accepted RELEASE. -/
def Obligations.AcceptedReleaseWithdraws : Prop :=
  ∀ (s : State) (e : QueueEntry) (rest : List QueueEntry) (k : RemoteId),
    s.held = false → s.applying = true → s.queue = e :: rest → s.judge e.word = .accept k →
    e.word.extractLsb' 22 2 = 2#2 →
    let was := s.source k
    let seq := e.word.extractLsb' 24 3
    ∃ t, exec .applicationCompletion s = .next t ∧
      t.source k = { was with
        state := .awaiting, lastSeq := seq, seqKnown := false, quietRemaining := 0, foreignStreak := 0,
        accepted := saturated was.accepted,
        gaps := if was.state = .live ∧ seq ≠ was.lastSeq + 1 then saturated was.gaps else was.gaps } ∧
      (∀ j : RemoteId, j ≠ k → t.source j = s.source j) ∧
      t.log = s.log ∧ t.checkFailures = s.checkFailures ∧ t.eventFlags = s.eventFlags ∧
      ∀ l : LineId, t.line l = if was.state = .live then without (s.line l) k else s.line l

/-! ### CONTROL -/

/-- R19 to R21, R105, R106: the four states of the engine, and a write of CONTROL with SOFT_RESET at 0, as any of its
commands (log entry 7). The mark appTicked (log entry 6) and the answer word 0 (log entry 8) are the model's. -/
def Obligations.ControlWriteSetsItsFields : Prop :=
  (∀ s : State, s.engine =
    match s.pauseRequest, s.applying with
    | false, false => .idle
    | false, true => .applying
    | true, true => .pausing
    | true, false => .paused) ∧
  ∀ (s : State) (w : Word) (c : Instr), s.held = false → w.getLsbD 2 = false → c ∈ controlWrites w →
    ∃ t, exec c s = .next t ∧
      t = { s with
        pauseRequest := w.getLsbD 0
        applying := s.applying || (s.pauseRequest && !w.getLsbD 0 && !s.queue.isEmpty)
        appTicked := s.applying && s.appTicked
        closeLimit := w.extractLsb' 8 4
        stack := if w.getLsbD 1 then [] else s.stack
        monitor := t.monitor
        reply := .answered .done 0 } ∧
      t.monitor = monitorAfter s t ∧
      t.engine =
        match s.engine, w.getLsbD 0 with
        | .idle, true => .paused
        | .idle, false => .idle
        | .applying, true => .pausing
        | .applying, false => .applying
        | .pausing, true => .pausing
        | .pausing, false => .applying
        | .paused, true => .paused
        | .paused, false => if s.queue = [] then .idle else .applying

/-- R167, R168: a write of CONTROL with SOFT_RESET at 1, as any of its commands. -/
def Obligations.SoftResetTakesEffect : Prop :=
  ∀ (s : State) (w : Word) (c : Instr), s.held = false → w.getLsbD 2 = true → c ∈ controlWrites w →
    exec c s = .next
      { State.reset with
        record := s.record, refclk := s.refclk, resetCause := s.resetCause ||| 0x4#4, softHold := some 4,
        resetLow := s.resetLow, reply := .answered .done 0, pending := s.pending }

/-! ### Quiet timers -/

/-- R55, R56, R59: a quiet expiry where the boundary that brings the timer from 1 to 0 is there, whose mark (log entry 4)
goes with it; and no effect otherwise, in PAUSED among others (log entry 3). The model's choices: the expiry also comes
where a completion reloaded the timer to 1 before this boundary was taken (R57's first row; log entry 22), and the
engine's state when the boundary is taken counts beside that at its TICK (log entry 23). -/
def Obligations.QuietExpirySilencesTheSource : Prop :=
  ∀ (s : State) (k : RemoteId),
    let e := s.source k
    let due := s.held = false ∧ s.engine ≠ .paused ∧ e.state = .live ∧ e.quietRemaining = 1#8 ∧
      e.boundaryDue.getLsbD (tierCode e.timerTier).toNat = true
    (due → ∃ t, exec (.quietExpiry k) s = .next t ∧
      t.source k = { e with
        state := .silent
        quietRemaining := 0
        silences := saturated e.silences
        boundaryDue := e.boundaryDue &&& ~~~BitVec.twoPow 4 (tierCode e.timerTier).toNat } ∧
      (∀ j : RemoteId, j ≠ k → t.source j = s.source j) ∧
      LinesAfter s t (fun l => without (s.line l) k) ∧ t.monitor = monitorAfter s t ∧
      t = { s with
        sources := t.sources, lines := t.lines, eventFlags := s.eventFlags ||| 0x01#8, monitor := t.monitor }) ∧
    (¬ due → exec (.quietExpiry k) s = .next s) ∧
    (s.engine = .paused → exec (.quietExpiry k) s = .next s)

/-- R53, R55: the boundary of a tier, for the entries it has not reached yet, whose mark for the tier (log entry 4) goes
with the decrement or with the loss of the boundary, so that a second one does nothing. A timer at 1 is left, with the
mark, for its expiry. While a reset is held there is no boundary (log entry 3). The engine's state here is that when the
boundary is taken, the model's choice of log entry 23; one that falls in PAUSED leaves no mark (`TickCountsAndSamples`). -/
def Obligations.TierBoundaryDecrements : Prop :=
  ∀ (s : State) (tier : Tier),
    (s.held = true → exec (.tierBoundary tier) s = .next s) ∧
    (s.held = false → ∃ t, exec (.tierBoundary tier) s = .next t ∧ t = { s with sources := t.sources } ∧
      ∀ k : RemoteId,
        let e := s.source k
        let owed := e.boundaryDue.getLsbD (tierCode tier).toNat = true
        let counts := s.engine ≠ .paused ∧ e.state = .live ∧ e.quietRemaining ≠ 0#8 ∧ e.timerTier = tier
        let taken := e.boundaryDue &&& ~~~BitVec.twoPow 4 (tierCode tier).toNat
        (¬ owed → t.source k = e) ∧
        (owed → ¬ counts → t.source k = { e with boundaryDue := taken }) ∧
        (owed → counts → e.quietRemaining = 1#8 → t.source k = e) ∧
        (owed → counts → e.quietRemaining ≠ 1#8 →
          t.source k = { e with quietRemaining := e.quietRemaining - 1, boundaryDue := taken }))

/-! ### The table port -/

/-- R38, R146, R150, R175: the codes of the staging record with those that a COMMIT reads back, and LOAD of every kind of
entry, each field at its position, and of none. The answer word 0 of the
write is the model's (log entry 8). -/
def Obligations.LoadShowsTheEntry : Prop :=
  [SourceState.vacant, .awaiting, .live, .silent, .barred].map (·.code) = [0#3, 1#3, 2#3, 3#3, 4#3] ∧
  [Tier.t0, .t1, .t2, .t3].map tierCode = [0#2, 1#2, 2#2, 3#2] ∧
  [0#2, 1#2, 2#2, 3#2].map tierOf = [.t0, .t1, .t2, .t3] ∧
  [LineMode.off, .edge, .shared, .sole].map (·.code) = [0#2, 1#2, 2#2, 3#2] ∧
  [0#2, 1#2, 2#2, 3#2].map lineModeOf = [.off, .edge, .shared, .sole] ∧
  [Route.service, .urgent].map (·.code) = [0#1, 1#1] ∧
  [PinMode.off, .levelLow, .levelHigh, .rising, .falling, .anyChange].map (·.code) = [0#3, 1#3, 2#3, 3#3, 4#3, 5#3] ∧
  [Level.unset, .low, .high].map (·.code) = [0#2, 1#2, 2#2] ∧
  (∀ b : BitVec 5, (lineOf b).val = b.toNat) ∧
  ∀ s : State, s.held = false →
    let loads : Staging → Prop := fun g =>
      exec .load s = .next { s with staging := g, tstat := ⟨.ok, some .load⟩, reply := .answered .done 0 }
    (∀ k : RemoteId, s.tsel.table = 0#2 → s.tsel.index.toNat = k.val →
      let e := s.source k
      loads ⟨e.ownership,
        0#8 ++ BitVec.ofBool e.seqKnown ++ e.lastSeq ++ 0#1 ++ e.state.code ++ e.barThreshold ++ tierCode e.timerTier
          ++ tierCode e.tier ++ e.quietReload,
        e.accepted ++ 0#4 ++ e.foreignStreak ++ e.quietRemaining,
        e.silences ++ e.gaps ++ e.duplicates ++ e.rejected⟩) ∧
    (s.tsel.table = 0#2 → s.tsel.index = 24#5 →
      ∃ o : LineSet, loads ⟨o, 0x00050000#32, 0, 0⟩ ∧ ∀ l : LineId, o.getLsbD l.val = true ↔ LocalOwns s l) ∧
    (∀ l : LineId, s.tsel.table = 1#2 → s.tsel.index.toNat = l.val →
      let e := s.line l
      ∃ (r : Bool) (o : SourceSet),
        loads ⟨0#11 ++ e.lastEdge ++ 0#2 ++ e.repeatCount ++ BitVec.ofBool e.latch ++ BitVec.ofBool r ++ 0#1
            ++ e.priority ++ BitVec.ofBool e.masked ++ e.route.code ++ e.mode.code,
          0#7 ++ e.contributors, 0#7 ++ o, 0⟩ ∧
        (r = true ↔ (e.mode = .edge ∧ e.latch = true) ∨
          ((e.mode = .shared ∨ e.mode = .sole) ∧ e.contributors ≠ 0#25)) ∧
        (∀ k : RemoteId, o.getLsbD k.val = (s.source k).ownership.getLsbD l.val) ∧
        (o.getLsbD 24 = true ↔ LocalOwns s l)) ∧
    (∀ p : PinId, s.tsel.table = 2#2 → s.tsel.index.toNat = p.val →
      ∃ v : Level,
        loads ⟨0#14 ++ v.code ++ 0#3 ++ BitVec.ofNat 5 (s.pin p).target.val ++ 0#5 ++ (s.pin p).mode.code, 0, 0, 0⟩ ∧
        (∀ n : SenseId, n.val = p.val → v = (s.filter n).level) ∧
        (p = 8 → v = if s.summary then .high else .low)) ∧
    ((s.tsel.table = 3#2 ∨ (s.tsel.table = 0#2 ∧ 25 ≤ s.tsel.index.toNat) ∨
        (s.tsel.table = 2#2 ∧ 9 ≤ s.tsel.index.toNat)) →
      exec .load s = .next { s with tstat := ⟨.badIndex, some .load⟩, reply := .answered .done 0 })

/-- R146, R149, R156: the refusals that the selection, a claim or a VACANT source give, each of which changes TSTAT
alone. -/
def Obligations.SelectionRefusesCommands : Prop :=
  ∀ s : State, s.held = false →
    let refuses : Instr → TableCommand → TableResult → Prop := fun c n r =>
      exec c s = .next { s with tstat := ⟨r, some n⟩, reply := .answered .done 0 }
    (s.tsel.table ≠ 0#2 →
      refuses .bar .bar .wrongTable ∧ refuses .unbar .unbar .wrongTable ∧
      refuses .clearCounters .clearCounters .wrongTable) ∧
    (s.tsel.table = 0#2 → 24 ≤ s.tsel.index.toNat →
      refuses .bar .bar .badIndex ∧ refuses .unbar .unbar .badIndex ∧
      refuses .clearCounters .clearCounters .badIndex ∧ refuses .commit .commit .badIndex ∧
      (s.tsel.index ≠ 24#5 → refuses .load .load .badIndex)) ∧
    ((s.tsel.table = 3#2 ∨ (s.tsel.table = 2#2 ∧ 9 ≤ s.tsel.index.toNat)) →
      refuses .load .load .badIndex ∧ refuses .commit .commit .badIndex) ∧
    ∀ k : RemoteId, s.tsel.table = 0#2 → s.tsel.index.toNat = k.val →
      (SourceClaimed s k → refuses .bar .bar .busy ∧ refuses .unbar .unbar .busy ∧
        refuses .clearCounters .clearCounters .busy) ∧
      (¬ SourceClaimed s k → (s.source k).state = .vacant → refuses .bar .bar .notEnrolled)

/-- R149, R151, R153: the refusals of a COMMIT to a remote source. -/
def Obligations.SourceCommitRefusals : Prop :=
  ∀ (s : State) (k : RemoteId), s.held = false → s.tsel.table = 0#2 → s.tsel.index.toNat = k.val →
    let refuses : TableResult → Prop := fun r =>
      exec .commit s = .next { s with tstat := ⟨r, some .commit⟩, reply := .answered .done 0 }
    let changed := s.staging.w0 ≠ (s.source k).ownership
    (changed → s.engine ≠ .paused → refuses .notPaused) ∧
    (¬ changed → SourceClaimed s k → refuses .busy) ∧
    (changed → s.engine = .paused →
      (∃ l : LineId, s.staging.w0.getLsbD l.val = true ∧ (s.line l).mode = .sole ∧
        (LocalOwns s l ∨ ∃ j : RemoteId, j ≠ k ∧ (s.source j).ownership.getLsbD l.val = true)) →
      refuses .soleConflict)

/-- R76, R149, R154: the refusals of a COMMIT to a line. -/
def Obligations.LineCommitRefusals : Prop :=
  ∀ (s : State) (l : LineId), s.held = false → s.tsel.table = 1#2 → s.tsel.index.toNat = l.val →
    let refuses : TableResult → Prop := fun r =>
      exec .commit s = .next { s with tstat := ⟨r, some .commit⟩, reply := .answered .done 0 }
    let mode := lineModeOf (s.staging.w0.extractLsb' 0 2)
    let newMode := mode ≠ (s.line l).mode
    let newRoute := s.staging.w0.getLsbD 2 ≠ ((s.line l).route == .urgent)
    let crowded := mode = .sole ∧ 2 ≤ s.ownerCount l
    let mismatched := ∃ p : PinId, (s.pin p).target = l ∧
      (((s.pin p).mode.isLevel = true ∧ (mode = .off ∨ mode = .edge)) ∨ ((s.pin p).mode.isEdge = true ∧ mode ≠ .edge))
    (newMode ∨ newRoute → s.engine ≠ .paused → refuses .notPaused) ∧
    (¬ newMode → ¬ newRoute → LineClaimed s l → refuses .busy) ∧
    (s.engine = .paused →
      (newMode ∨ newRoute → (∃ e ∈ s.stack, e.line = l) → refuses .inService) ∧
      (newMode → ¬ (∃ e ∈ s.stack, e.line = l) →
        (crowded → refuses .soleConflict) ∧ (¬ crowded → mismatched → refuses .pinMismatch)))

/-- R131, R149, R155: the refusals of a COMMIT to a pin entry. -/
def Obligations.PinCommitRefusals : Prop :=
  ∀ (s : State) (p : PinId), s.held = false → s.tsel.table = 2#2 → s.tsel.index.toNat = p.val →
    let refuses : TableResult → Prop := fun r =>
      exec .commit s = .next { s with tstat := ⟨r, some .commit⟩, reply := .answered .done 0 }
    let code := s.staging.w0.extractLsb' 0 3
    let target := lineOf (s.staging.w0.extractLsb' 8 5)
    let changed := code ≠ (s.pin p).mode.code ∨ target ≠ (s.pin p).target
    let badValue := 6 ≤ code.toNat ∨ (p = 8 ∧ code ≠ 0#3 ∧ code ≠ 2#3)
    let shared := (s.line target).mode = .sole ∧ ∃ k : RemoteId, (s.source k).ownership.getLsbD target.val = true
    let mismatched := ((code = 1#3 ∨ code = 2#3) ∧ ((s.line target).mode = .off ∨ (s.line target).mode = .edge)) ∨
      (3 ≤ code.toNat ∧ (s.line target).mode ≠ .edge)
    (changed → s.engine ≠ .paused → refuses .notPaused) ∧
    (changed → s.engine = .paused →
      (badValue → refuses .badValue) ∧
      (¬ badValue → code ≠ 0#3 →
        (shared → refuses .soleConflict) ∧ (¬ shared → mismatched → refuses .pinMismatch)))

/-- R39 to R42, R58, R152: a COMMIT to a remote source that passes its tests. -/
def Obligations.SourceCommitWritesTheEntry : Prop :=
  ∀ (s : State) (k : RemoteId), s.held = false → s.tsel.table = 0#2 → s.tsel.index.toNat = k.val →
    (s.staging.w0 ≠ (s.source k).ownership → s.engine = .paused) → ¬ SourceClaimed s k →
    (∀ l : LineId, s.staging.w0.getLsbD l.val = true → (s.line l).mode = .sole →
      ¬ LocalOwns s l ∧ ∀ j : RemoteId, j ≠ k → (s.source j).ownership.getLsbD l.val = false) →
    let was := s.source k
    let own := s.staging.w0
    let emptied := own ≠ was.ownership ∧ own = 0#32
    ∃ t, exec .commit s = .next t ∧
      t.source k = { was with
        ownership := own
        state := if own = was.ownership then was.state else if own = 0#32 then .vacant
          else if was.state = .vacant then .awaiting else was.state
        quietRemaining := if emptied then 0 else was.quietRemaining
        seqKnown := if emptied then false else was.seqKnown
        foreignStreak := if emptied then 0 else was.foreignStreak
        quietReload := s.staging.w1.extractLsb' 0 8
        tier := tierOf (s.staging.w1.extractLsb' 8 2)
        barThreshold := s.staging.w1.extractLsb' 12 4 } ∧
      (∀ j : RemoteId, j ≠ k → t.source j = s.source j) ∧
      (∀ l : LineId, t.line l =
        if was.ownership.getLsbD l.val = true ∧ own.getLsbD l.val = false then without (s.line l) k else s.line l) ∧
      t.monitor = monitorAfter s t ∧
      t = { s with
        sources := t.sources, lines := t.lines, monitor := t.monitor, tstat := ⟨.ok, some .commit⟩,
        reply := .answered .done 0 }

/-- R75 to R79, R152: a COMMIT to a line that passes its tests. -/
def Obligations.LineCommitWritesTheEntry : Prop :=
  ∀ (s : State) (l : LineId), s.held = false → s.tsel.table = 1#2 → s.tsel.index.toNat = l.val →
    let was := s.line l
    let mode := lineModeOf (s.staging.w0.extractLsb' 0 2)
    let route : Route := if s.staging.w0.getLsbD 2 then .urgent else .service
    let level : LineMode → Prop := fun m => m = .shared ∨ m = .sole
    (mode ≠ was.mode ∨ route ≠ was.route → s.engine = .paused ∧ ∀ e ∈ s.stack, e.line ≠ l) →
    ¬ LineClaimed s l →
    (mode ≠ was.mode →
      (mode = .sole → s.ownerCount l < 2) ∧
      ∀ p : PinId, (s.pin p).target = l →
        ((s.pin p).mode.isLevel = true → level mode) ∧ ((s.pin p).mode.isEdge = true → mode = .edge)) →
    ∃ t, exec .commit s = .next t ∧
      (mode = was.mode → t.line l =
        { was with route := route, masked := s.staging.w0.getLsbD 3, priority := s.staging.w0.extractLsb' 4 3 }) ∧
      (mode ≠ was.mode →
        (t.line l).mode = mode ∧ (t.line l).route = route ∧ (t.line l).masked = s.staging.w0.getLsbD 3 ∧
        (t.line l).priority = s.staging.w0.extractLsb' 4 3 ∧
        (∀ n : Nat, n < 24 → ((t.line l).contributors.getLsbD n = true ↔
          (was.contributors.getLsbD n = true ∧ level was.mode ∧ level mode))) ∧
        ((t.line l).contributors.getLsbD 24 = true ↔ (level mode ∧ s.localActive l = true)) ∧
        (was.mode = .edge →
          (t.line l).latch = false ∧ (t.line l).repeatCount = 0 ∧ (t.line l).lastEdge = 31#5) ∧
        (was.mode ≠ .edge →
          (t.line l).latch = was.latch ∧ (t.line l).repeatCount = was.repeatCount ∧
          (t.line l).lastEdge = was.lastEdge)) ∧
      (∀ m : LineId, m ≠ l → t.line m = s.line m) ∧
      t.monitor = monitorAfter s t ∧
      t = { s with
        lines := t.lines, monitor := t.monitor, tstat := ⟨.ok, some .commit⟩, reply := .answered .done 0 }

/-- R131, R132, R152: a COMMIT to a pin entry that passes its tests. -/
def Obligations.PinCommitWritesTheEntry : Prop :=
  ∀ (s : State) (p : PinId) (mode : PinMode), s.held = false → s.tsel.table = 2#2 → s.tsel.index.toNat = p.val →
    s.staging.w0.extractLsb' 0 3 = mode.code →
    let target := lineOf (s.staging.w0.extractLsb' 8 5)
    (mode ≠ (s.pin p).mode ∨ target ≠ (s.pin p).target →
      s.engine = .paused ∧ (p = 8 → mode = .off ∨ mode = .levelHigh) ∧
      (mode ≠ .off → (s.line target).mode = .sole →
        ∀ k : RemoteId, (s.source k).ownership.getLsbD target.val = false) ∧
      (mode.isLevel = true → (s.line target).mode = .shared ∨ (s.line target).mode = .sole) ∧
      (mode.isEdge = true → (s.line target).mode = .edge)) →
    ∃ t, exec .commit s = .next t ∧
      t.pin p = ⟨mode, target⟩ ∧ (∀ q : PinId, q ≠ p → t.pin q = s.pin q) ∧
      (∀ l : LineId, t.line l =
        if l = (s.pin p).target ∨ l = target then (s.line l).setMember 24 (t.localActive l) else s.line l) ∧
      t.monitor = monitorAfter s t ∧
      t = { s with
        pins := t.pins, lines := t.lines, monitor := t.monitor, tstat := ⟨.ok, some .commit⟩,
        reply := .answered .done 0 }

/-- R46, R47, R156: a BAR that is carried out. -/
def Obligations.BarWithdrawsTheSource : Prop :=
  ∀ (s : State) (k : RemoteId), s.held = false → s.tsel.table = 0#2 → s.tsel.index.toNat = k.val →
    ¬ SourceClaimed s k → (s.source k).state ≠ .vacant →
    ((s.source k).state = .barred →
      exec .bar s = .next { s with tstat := ⟨.ok, some .bar⟩, reply := .answered .done 0 }) ∧
    ((s.source k).state ≠ .barred → ∃ t, exec .bar s = .next t ∧
      t.source k = { s.source k with state := .barred, quietRemaining := 0, seqKnown := false } ∧
      (∀ j : RemoteId, j ≠ k → t.source j = s.source j) ∧
      (∀ l : LineId, t.line l = without (s.line l) k) ∧ t.monitor = monitorAfter s t ∧
      t = { s with
        sources := t.sources, lines := t.lines, monitor := t.monitor, tstat := ⟨.ok, some .bar⟩,
        reply := .answered .done 0 })

/-- R49, R51, R156: UNBAR and CLEAR_COUNTERS that are carried out. -/
def Obligations.UnbarAndClearCounters : Prop :=
  ∀ (s : State) (k : RemoteId), s.held = false → s.tsel.table = 0#2 → s.tsel.index.toNat = k.val →
    ¬ SourceClaimed s k →
    (∃ t, exec .unbar s = .next t ∧
      t.source k = (if (s.source k).state = .barred then { s.source k with state := .awaiting, foreignStreak := 0 }
        else s.source k) ∧
      (∀ j : RemoteId, j ≠ k → t.source j = s.source j) ∧
      t = { s with sources := t.sources, tstat := ⟨.ok, some .unbar⟩, reply := .answered .done 0 }) ∧
    ∃ t, exec .clearCounters s = .next t ∧
      t.source k = { s.source k with
        accepted := 0, rejected := 0, duplicates := 0, gaps := 0, silences := 0, foreignStreak := 0 } ∧
      (∀ j : RemoteId, j ≠ k → t.source j = s.source j) ∧
      t = { s with sources := t.sources, tstat := ⟨.ok, some .clearCounters⟩, reply := .answered .done 0 }

/-! ### The service unit -/

/-- R83, R84, R85: the deliverable test, SREQ and the arbiter's offer. -/
def Obligations.OfferIsTheMostUrgentDeliverable : Prop :=
  ∀ s : State,
    (∀ l : LineId, s.deliverable l = true ↔
      (s.line l).route = .service ∧ (s.line l).requesting = true ∧ (s.line l).masked = false ∧
      (∀ e ∈ s.stack, e.line ≠ l) ∧
      ∀ top, s.stack.getLast? = some top → (s.line l).priority.toNat < top.priority.toNat) ∧
    (s.sreq = true ↔ ∃ l, s.deliverable l = true) ∧
    (s.offer = none ↔ ∀ l, s.deliverable l = false) ∧
    ∀ l : LineId, s.offer = some l ↔
      (s.deliverable l = true ∧ ∀ m : LineId, s.deliverable m = true →
        (s.line l).priority.toNat < (s.line m).priority.toNat ∨
        ((s.line l).priority = (s.line m).priority ∧ l ≤ m))

/-- R71, R87 to R90, R117: a TAKE with an offer, and one without. -/
def Obligations.TakePushesTheOffer : Prop :=
  ∀ s : State, s.held = false →
    (∀ l : LineId, s.offer = some l →
      let e := s.line l
      let edge := e.mode = .edge
      let depth := BitVec.ofNat 4 (s.stack.length + 1)
      ∃ t, ∃ hint : BitVec 5, exec .take s = .next t ∧
        t.stack = s.stack ++ [⟨l, e.priority, if edge then .edge else .level, none⟩] ∧
        (edge → hint = e.lastEdge ∧ t.line l = { e with latch := false, repeatCount := 0, lastEdge := 31#5 } ∧
          t.reply = .answered .done
            (1#1 ++ 0#3 ++ e.repeatCount ++ 0#3 ++ hint ++ depth ++ 1#1 ++ e.priority ++ 0#2 ++ BitVec.ofNat 6 l.val)) ∧
        (¬ edge → e.contributors.getLsbD hint.toNat = true ∧
          (∀ n : Nat, n < hint.toNat → e.contributors.getLsbD n = false) ∧ t.line l = e ∧
          t.reply = .answered .done
            (1#1 ++ 0#3 ++ 0#4 ++ 0#3 ++ hint ++ depth ++ 0#1 ++ e.priority ++ 0#2 ++ BitVec.ofNat 6 l.val)) ∧
        (∀ m : LineId, m ≠ l → t.line m = s.line m) ∧
        t.monitor =
          (match s.monitor with
          | .counting _ | .warned _ => if t.sreq then .counting s.intervalTicks else .idle
          | .idle | .tripped _ => s.monitor) ∧
        t = { s with lines := t.lines, stack := t.stack, monitor := t.monitor, reply := t.reply }) ∧
    (s.offer = none →
      exec .take s = .next
        { s with reply := .answered .done (0#11 ++ 31#5 ++ BitVec.ofNat 4 s.stack.length ++ 0#6 ++ 63#6) })

/-- R93, R94, R97, R98: the EOS that finds no OPEN entry, and the one answered CLOSED. -/
def Obligations.EosEndsTheSelectedService : Prop :=
  ∀ (s : State) (w : Word), s.held = false →
    let selected : Option StackEntry :=
      if w.getLsbD 8 then (s.stack.filter (fun e => e.closing.isNone)).getLast?
      else s.stack.find? (fun e => e.line.val == (w.extractLsb' 0 5).toNat)
    (selected = none →
      exec (.eos w) s = .next { s with
        eosResult := ⟨.notInService, if w.getLsbD 8 then 63#6 else 0#1 ++ w.extractLsb' 0 5,
          BitVec.ofNat 4 s.stack.length⟩
        reply := .answered .done 0 }) ∧
    ∀ e : StackEntry, selected = some e →
      (e.closing ≠ none →
        exec (.eos w) s = .next { s with
          eosResult := ⟨.alreadyClosing, BitVec.ofNat 6 e.line.val, BitVec.ofNat 4 s.stack.length⟩
          reply := .answered .done 0 }) ∧
      (e.closing = none → (s.closeLimit = 0#4 ∨ ∀ q ∈ s.queue, ¬ WordMatches s q.word e.line) →
        ∃ t, exec (.eos w) s = .next t ∧ t.monitor = monitorAfter s t ∧
          t = { s with
            stack := s.stack.filter (fun x => x.line != e.line)
            eosResult := ⟨.closed, BitVec.ofNat 6 e.line.val,
              BitVec.ofNat 4 (s.stack.filter (fun x => x.line != e.line)).length⟩
            monitor := t.monitor
            reply := .answered .done 0 })

/-- R94 to R96, R98: the EOS answered DEFERRED; the watermark is the newest matching entry's stamp. The expiry mark (log
entry 4) and the answer word 0 of the write (log entry 8) are the model's. -/
def Obligations.EosDefersOnAQueuedMatch : Prop :=
  ∀ (s : State) (w : Word) (e : StackEntry) (older : List QueueEntry) (q : QueueEntry) (newer : List QueueEntry),
    s.held = false → s.closeLimit ≠ 0#4 → e.closing = none →
    (if w.getLsbD 8 then (s.stack.filter (fun x => x.closing.isNone)).getLast?
      else s.stack.find? (fun x => x.line.val == (w.extractLsb' 0 5).toNat)) = some e →
    s.queue = older ++ q :: newer → WordMatches s q.word e.line → (∀ x ∈ newer, ¬ WordMatches s x.word e.line) →
    exec (.eos w) s = .next { s with
      stack := s.stack.map (fun x =>
        if x.line = e.line then { x with closing := some ⟨q.stamp, s.closeLimit, false⟩ } else x)
      eosResult := ⟨.deferred, BitVec.ofNat 6 e.line.val, BitVec.ofNat 4 s.stack.length⟩
      reply := .answered .done 0 }

/-- R101, R103, R104: the boundary where one is there, and the expiry it brings (log entry 4); no effect otherwise (log
entry 3). -/
def Obligations.CloseTimerCountsAndExpires : Prop :=
  (∀ s : State, s.held = true ∨ s.closeUnitDue = false → exec .closeUnitBoundary s = .next s) ∧
  (∀ (s : State) (l : LineId),
    (s.held = true ∨ ∀ e ∈ s.stack, ∀ c : Closing, e.line = l → e.closing = some c → c.expiring = false) →
    exec (.closeTimerExpiry l) s = .next s) ∧
  (∀ s : State, s.held = false → s.closeUnitDue = true →
    exec .closeUnitBoundary s = .next { s with
      closeUnitDue := false
      stack := s.stack.map (fun e => { e with
        closing := e.closing.map (fun c =>
          if c.remaining = 1#4 then { c with expiring := true } else { c with remaining := c.remaining - 1 }) }) }) ∧
  ∀ (s : State) (l : LineId), s.held = false →
    (∃ e ∈ s.stack, ∃ c : Closing, e.line = l ∧ e.closing = some c ∧ c.expiring = true) →
    ∃ t, exec (.closeTimerExpiry l) s = .next t ∧ LinesAfter s t s.line ∧ t.monitor = monitorAfter s t ∧
      t = { s with
        stack := s.stack.filter (fun x => x.line != l)
        eventFlags := s.eventFlags ||| 0x40#8
        lines := t.lines
        monitor := t.monitor }

/-! ### The urgent path and the deadline monitor -/

/-- R71, R112, R116: a write of URGENT_CLEAR, as either of its commands. -/
def Obligations.UrgentClearClearsTheNamed : Prop :=
  ∀ (s : State) (w : Word) (c : Instr), s.held = false → (c = .urgentClear w ∨ c = .deadlineBitClear w) →
    ∃ t, exec c s = .next t ∧
      (∀ l : LineId, t.line l =
        if l.val < 31 ∧ w.getLsbD l.val = true ∧ (s.line l).mode = .edge ∧ (s.line l).route = .urgent then
          { s.line l with latch := false, repeatCount := 0, lastEdge := 31#5 }
        else s.line l) ∧
      t = { s with lines := t.lines, warning := s.warning && !w.getLsbD 31, reply := .answered .done 0 }

/-- R115 to R117: an interval expiry in COUNTING, and one in WARNED in mode WARN; no other time is an expiry. -/
def Obligations.IntervalExpiryWarns : Prop :=
  ∀ s : State,
    s.intervalTicks = 1000 * (if s.deadlineInterval = 0#8 then 256 else s.deadlineInterval.toNat) ∧
    (s.monitor = .counting 0 →
      exec .intervalExpiry s = .next { s with
        warning := true
        monitor := .warned
          (some (1000 * (if s.deadlineInterval = 0#8 then 256 else s.deadlineInterval.toNat))) }) ∧
    (s.monitor = .warned (some 0) → s.deadlineMode = .warn →
      exec .intervalExpiry s = .next { s with monitor := .warned none }) ∧
    ((∀ n, s.monitor = .counting n → n ≠ 0) → (∀ n, s.monitor = .warned (some n) → n ≠ 0) →
      exec .intervalExpiry s = .next s)

/-- R119, R120, R123, R168, R169: the trip, and the end of its pulse, at which the monitor takes mode OFF, interval 0 and
IDLE and the deadline reset's own hold ends (log entry 18); no effect before it (log entry 3). -/
def Obligations.TripCapturesAndResets : Prop :=
  (∀ (s : State) (l : LineId), s.held = false → s.monitor = .warned (some 0) → s.deadlineMode = .warnReset →
    s.offer = some l →
    ∃ t, exec .intervalExpiry s = .next t ∧ t.held = true ∧ t.rstout = true ∧
      t = { State.reset with
        record := ⟨true, BitVec.ofNat 5 l.val, (s.line l).priority, BitVec.ofNat 4 s.stack.length⟩
        monitor := .tripped 64
        deadlineMode := s.deadlineMode
        deadlineInterval := s.deadlineInterval
        resetCause := s.resetCause ||| 0x8#4
        refclk := s.refclk, resetLow := s.resetLow, reply := s.reply, pending := s.pending }) ∧
  (∀ s : State, s.monitor = .tripped 0 →
    ∃ t, exec .rstoutPulseEnd s = .next t ∧
      t = { s with deadlineMode := .off, deadlineInterval := 0, monitor := .idle } ∧ t.rstout = false) ∧
  ∀ s : State, s.monitor ≠ .tripped 0 → exec .rstoutPulseEnd s = .next s

/-- R114, R117, R121: a write of DEADLINE_CTRL, as either of its commands. -/
def Obligations.DeadlineCtrlWrite : Prop :=
  ∀ (s : State) (w : Word) (c : Instr), s.held = false → (c = .modeWrite w ∨ c = .recordClear w) →
    let mode : DeadlineMode :=
      if w.extractLsb' 0 2 = 1#2 then .warn else if w.extractLsb' 0 2 = 2#2 then .warnReset else .off
    let interval := w.extractLsb' 8 8
    exec c s = .next { s with
      deadlineMode := mode
      deadlineInterval := interval
      record := if w.getLsbD 31 then ⟨false, 0, 0, 0⟩ else s.record
      monitor :=
        if mode = .off then .idle
        else if s.monitor = .idle ∧ s.deadlineMode = .off ∧ s.sreq = true then
          .counting (1000 * (if interval = 0#8 then 256 else interval.toNat))
        else s.monitor
      reply := .answered .done 0 }

/-! ### The sense block -/

/-- R68, R125 to R129: a filtered transition and a settling, where the latest sample makes one (log entry 4); no effect
otherwise (log entry 3). -/
def Obligations.FilterChangesReachTheLine : Prop :=
  (∀ n : SenseId, (pinOfSense n).val = n.val) ∧
  (∀ (s : State) (n : SenseId), s.held = true ∨ (s.filter n).due = false ∨ (s.filter n).level ≠ .unset →
    exec (.settling n) s = .next s) ∧
  (∀ (s : State) (n : SenseId), s.held = true ∨ (s.filter n).due = false ∨ (s.filter n).level = .unset →
    exec (.filteredTransition n) s = .next s) ∧
  ∀ (s : State) (n : SenseId) (b : Bool), s.held = false → (s.filter n).due = true → (s.filter n).previous = some b →
    let e := s.pin (pinOfSense n)
    let c : Instr := if (s.filter n).level = .unset then .settling n else .filteredTransition n
    let pulses := (s.filter n).level ≠ .unset ∧ (s.line e.target).mode = .edge ∧
      ((e.mode = .rising ∧ b = true) ∨ (e.mode = .falling ∧ b = false) ∨ e.mode = .anyChange)
    (s.filter n).level ≠ (if b then .high else .low) →
    ∃ t, exec c s = .next t ∧
      t.filter n = { s.filter n with level := if b then .high else .low, due := false } ∧
      (∀ m : SenseId, m ≠ n → t.filter m = s.filter m) ∧
      (∀ l : LineId, l ≠ e.target → t.line l = s.line l) ∧
      (e.mode.isLevel = true → t.line e.target = (s.line e.target).setMember 24 (t.localActive e.target)) ∧
      (pulses → t.line e.target = { s.line e.target with
        latch := true
        repeatCount := if (s.line e.target).latch then saturated (s.line e.target).repeatCount else 0
        lastEdge := 24#5 }) ∧
      (e.mode.isLevel = false → ¬ pulses → t.line e.target = s.line e.target) ∧
      t.monitor = monitorAfter s t ∧
      t = { s with filters := t.filters, lines := t.lines, monitor := t.monitor }

/-! ### Records -/

/-- R137, R138: the summary, the writes of EVENT_FLAGS and of EVENT_ENABLE, and the summary they leave. -/
def Obligations.EventWritesMoveTheSummary : Prop :=
  (∀ s : State, s.summary = true ↔
    ∃ i : Nat, i < 8 ∧ s.eventFlags.getLsbD i = true ∧ s.eventEnables.getLsbD i = true) ∧
  ∀ (s : State) (w : Word), s.held = false →
    (∃ t, exec (.eventFlagClear w) s = .next t ∧ LinesAfter s t s.line ∧ t.monitor = monitorAfter s t ∧
      t = { s with
        eventFlags := s.eventFlags &&& ~~~w.extractLsb' 0 8, lines := t.lines, monitor := t.monitor,
        reply := .answered .done 0 }) ∧
    ∃ t, exec (.eventEnable w) s = .next t ∧ LinesAfter s t s.line ∧ t.monitor = monitorAfter s t ∧
      (t.summary = true ↔ ∃ i : Nat, i < 8 ∧ s.eventFlags.getLsbD i = true ∧ w.getLsbD i = true) ∧
      t = { s with
        eventEnables := w.extractLsb' 0 8, lines := t.lines, monitor := t.monitor, reply := .answered .done 0 }

/-- R142, R144, R169: LOG_POP, the write of COUNTS as either of its commands, and the write of RESET_CAUSE. -/
def Obligations.RecordsAreReadAndCleared : Prop :=
  [RejectReason.check, .kind, .unknownSource, .vacant, .barred, .foreign].map (·.code)
    = [1#3, 2#3, 3#3, 4#3, 5#3, 6#3] ∧
  ∀ s : State, s.held = false →
    (s.log = [] → exec .logPop s = .next { s with reply := .answered .done 0 }) ∧
    (∀ (e : LogEntry) (rest : List LogEntry), s.log = e :: rest →
      exec .logPop s = .next { s with log := rest, reply := .answered .done (e.stamp ++ 0#13 ++ e.reason.code) }) ∧
    (∀ (w : Word) (c : Instr), (c = .checkClear w ∨ c = .faultClear w) →
      exec c s = .next { s with
        checkFailures := if w.getLsbD 30 then 0 else s.checkFailures
        busFaults := if w.getLsbD 31 then 0 else s.busFaults
        reply := .answered .done 0 }) ∧
    ∀ w : Word, exec (.resetCauseClear w) s = .next { s with
      resetCause := s.resetCause &&& ~~~w.extractLsb' 0 4, reply := .answered .done 0 }

/-- R146 to R148, R161: a register write acts as its register's rule gives. -/
def Obligations.RegisterWriteReachesItsRegister : Prop :=
  (∀ (s : State) (w : Word), s.held = false →
    exec (.registerWrite 0x10#5 w) s = .next { s with
      tsel := ⟨w.extractLsb' 0 2, w.extractLsb' 8 5⟩, reply := .answered .done 0 } ∧
    exec (.registerWrite 0x12#5 w) s = .next { s with
      staging := { s.staging with w0 := w }, reply := .answered .done 0 } ∧
    exec (.registerWrite 0x13#5 w) s = .next { s with
      staging := { s.staging with w1 := w }, reply := .answered .done 0 } ∧
    exec (.registerWrite 0x14#5 w) s = .next { s with
      staging := { s.staging with w2 := w }, reply := .answered .done 0 } ∧
    exec (.registerWrite 0x15#5 w) s = .next { s with
      staging := { s.staging with w3 := w }, reply := .answered .done 0 } ∧
    (w.extractLsb' 0 3 = 0#3 ∨ 6 ≤ (w.extractLsb' 0 3).toNat →
      exec (.registerWrite 0x11#5 w) s = .next { s with reply := .answered .done 0 })) ∧
  ∀ (s : State) (w : Word),
    exec (.registerWrite 0x01#5 w) s = exec (.pauseSet w) s ∧
    exec (.registerWrite 0x03#5 w) s = exec (.reportBase w) s ∧
    exec (.registerWrite 0x06#5 w) s = exec (.eos w) s ∧
    exec (.registerWrite 0x07#5 w) s = exec (.checkClear w) s ∧
    exec (.registerWrite 0x0A#5 w) s = exec (.urgentClear w) s ∧
    exec (.registerWrite 0x0B#5 w) s = exec (.modeWrite w) s ∧
    exec (.registerWrite 0x0D#5 w) s = exec (.resetCauseClear w) s ∧
    exec (.registerWrite 0x0E#5 w) s = exec (.eventFlagClear w) s ∧
    exec (.registerWrite 0x0F#5 w) s = exec (.eventEnable w) s ∧
    (w.extractLsb' 0 3 = 1#3 → exec (.registerWrite 0x11#5 w) s = exec .load s) ∧
    (w.extractLsb' 0 3 = 2#3 → exec (.registerWrite 0x11#5 w) s = exec .commit s) ∧
    (w.extractLsb' 0 3 = 3#3 → exec (.registerWrite 0x11#5 w) s = exec .bar s) ∧
    (w.extractLsb' 0 3 = 4#3 → exec (.registerWrite 0x11#5 w) s = exec .unbar s) ∧
    (w.extractLsb' 0 3 = 5#3 → exec (.registerWrite 0x11#5 w) s = exec .clearCounters s)

/-- R13, R18, R73, R74, R98, R107, R108, R110, R111, R114, R122, R141, R143, R149, R160, R172, R173: what every register
shows but TAKE and LOG_POP, whose reads are commands, with the codes of its fields; UREQ; and the free count. TRIPPED is
shown to no read (R122). -/
def Obligations.ViewsShowTheState : Prop :=
  (List.finRange 32).map (fun i => registerAt (BitVec.ofFin i)) =
    [.ident, .control, .status, .reportBase, .flow, .take, .eos, .counts, .pending, .inservice, .urgent, .deadlineCtrl,
      .deadlineView, .resetCause, .eventFlags, .eventEnable, .tsel, .tcmd, .tdata0, .tdata1, .tdata2, .tdata3, .logWord,
      .logPop] ++ (List.finRange 8).map .stack ∧
  [EngineState.idle, .applying, .pausing, .paused].map (·.code) = [0#2, 1#2, 2#2, 3#2] ∧
  [EosOutcome.notInService, .alreadyClosing, .closed, .deferred].map (·.code) = [0#2, 1#2, 2#2, 3#2] ∧
  [DeadlineMode.off, .warn, .warnReset].map (·.code) = [0#2, 1#2, 2#2] ∧
  [Kind.level, .edge].map (·.code) = [0#1, 1#1] ∧
  [TableCommand.load, .commit, .bar, .unbar, .clearCounters].map (·.code) = [1#3, 2#3, 3#3, 4#3, 5#3] ∧
  [TableResult.ok, .busy, .notPaused, .badIndex, .badValue, .soleConflict, .inService, .pinMismatch, .notEnrolled,
    .wrongTable].map (·.code) = [0#4, 1#4, 2#4, 3#4, 4#4, 5#4, 6#4, 7#4, 8#4, 9#4] ∧
  ∀ s : State,
    (∀ k : RemoteId, s.source k = s.sources[k]) ∧ (∀ l : LineId, s.line l = s.lines[l]) ∧
    (∀ p : PinId, s.pin p = s.pins[p]) ∧ (∀ n : SenseId, s.filter n = s.filters[n]) ∧
    (∀ a : Access, s.held = false → a.select = true → a.write = false → a.lanes = 0xF#4 →
      s.readValue a = some (s.registerValue (registerAt (a.addr.extractLsb' 2 5)))) ∧
    (∀ l : LineId,
      ((s.line l).requesting = true ↔ ((s.line l).mode = .edge ∧ (s.line l).latch = true) ∨
        (((s.line l).mode = .shared ∨ (s.line l).mode = .sole) ∧ (s.line l).contributors ≠ 0#25)) ∧
      ((s.registerValue .pending).getLsbD l.val = true ↔
        (s.line l).requesting = true ∧ (s.line l).masked = false ∧ (s.line l).route = .service ∧
        ∀ e ∈ s.stack, e.line ≠ l) ∧
      ((s.registerValue .inservice).getLsbD l.val = true ↔ ∃ e ∈ s.stack, e.line = l) ∧
      ((s.registerValue .urgent).getLsbD l.val = true ↔
        (l.val = 31 ∧ s.warning = true) ∨
        (l.val < 31 ∧ (s.line l).requesting = true ∧ (s.line l).masked = false ∧ (s.line l).route = .urgent))) ∧
    (s.ureq = true ↔ s.warning = true ∨
      ∃ l : LineId, (s.line l).requesting = true ∧ (s.line l).masked = false ∧ (s.line l).route = .urgent) ∧
    s.registerValue .ident = 0x3224A101#32 ∧
    s.registerValue .control = 0#20 ++ s.closeLimit ++ 0#7 ++ BitVec.ofBool s.pauseRequest ∧
    s.registerValue .status = 0#13 ++ BitVec.ofBool s.ureq ++ BitVec.ofBool s.sreq ++ BitVec.ofBool s.summary
      ++ BitVec.ofNat 4 s.stack.length ++ 0#3 ++ BitVec.ofNat 5 s.queue.length ++ 0#2 ++ s.engine.code ∧
    s.registerValue .reportBase = s.reportBase ∧
    (BaseAligned s → s.registerValue .reportBase = s.reportBase.extractLsb' 4 28 ++ 0#4) ∧
    s.registerValue .flow = s.applied ++ s.arrivals ∧
    s.registerValue .eos =
      0#12 ++ s.eosResult.depth ++ 0#2 ++ s.eosResult.line ++ 0#6 ++ s.eosResult.outcome.code ∧
    s.registerValue .counts = 0#4 ++ BitVec.ofNat 4 s.log.length ++ s.busFaults ++ s.checkFailures ∧
    s.registerValue .deadlineCtrl = 0#16 ++ s.deadlineInterval ++ 0#6 ++ s.deadlineMode.code ∧
    (∀ code : BitVec 2,
      (match s.monitor with
        | .idle => code = 0#2
        | .counting _ => code = 1#2
        | .warned _ => code = 2#2
        | .tripped _ => False) →
      s.registerValue .deadlineView =
        s.record.depth ++ 0#1 ++ s.record.priority ++ 0#3 ++ s.record.line ++ 0#7 ++ BitVec.ofBool s.record.valid
          ++ 0#3 ++ BitVec.ofBool s.warning ++ 0#2 ++ code) ∧
    s.registerValue .resetCause = 0#28 ++ s.resetCause ∧
    s.registerValue .eventFlags = 0#24 ++ s.eventFlags ∧
    s.registerValue .eventEnable = 0#24 ++ s.eventEnables ∧
    s.registerValue .tsel = 0#19 ++ s.tsel.index ++ 0#6 ++ s.tsel.table ∧
    (s.tstat.command = none → s.registerValue .tcmd = 0#28 ++ s.tstat.result.code) ∧
    (∀ c : TableCommand, s.tstat.command = some c →
      s.registerValue .tcmd = 0#21 ++ c.code ++ 0#4 ++ s.tstat.result.code) ∧
    s.registerValue .tdata0 = s.staging.w0 ∧ s.registerValue .tdata1 = s.staging.w1 ∧
    s.registerValue .tdata2 = s.staging.w2 ∧ s.registerValue .tdata3 = s.staging.w3 ∧
    (s.log = [] → s.registerValue .logWord = 0) ∧
    (∀ (e : LogEntry) (rest : List LogEntry), s.log = e :: rest → s.registerValue .logWord = e.word) ∧
    (∀ (k : Fin 8) (e : StackEntry), s.stack[k.val]? = some e →
      (e.closing = none → s.registerValue (.stack k) =
        1#1 ++ 0#1 ++ e.kind.code ++ 0#18 ++ e.priority ++ 0#3 ++ BitVec.ofNat 5 e.line.val) ∧
      ∀ c : Closing, e.closing = some c → s.registerValue (.stack k) =
        1#1 ++ 1#1 ++ e.kind.code ++ 0#9 ++ (c.watermark - s.applied).extractLsb' 0 4 ++ c.remaining ++ 0#1
          ++ e.priority ++ 0#3 ++ BitVec.ofNat 5 e.line.val) ∧
    (∀ k : Fin 8, s.stack.length ≤ k.val → s.registerValue (.stack k) = 0) ∧
    ∀ d : Word, s.held = false → s.reportBase ≠ 0#32 →
      s.readValue ⟨false, s.reportBase, false, 0xF#4, d⟩ = some (BitVec.ofNat 32 (16 - s.queue.length))

/-! ### Resets and time -/

/-- R121, R164, R166, R168, R169: the start of a power-on reset and of a system reset by RESET_N, alone and over other
holds. The model's: a power-on hold which is not at its release tick takes no notice of RESET_N (log entry 11), a
POWER_ON_RESET over a power-on hold starts the 100 ticks anew (log entry 12), and the field resetLow (log entry 10). -/
def Obligations.ResetSourcesCombine : Prop :=
  (∀ s : State, exec .powerOnReset s = .next { State.reset with
    resetCause := 0x1#4, powerHold := some 100, refclk := s.refclk, reply := s.reply, pending := s.pending }) ∧
  (∀ s : State, s.refclk = false → exec .systemReset s = .next s) ∧
  (∀ s : State, s.refclk = true → s.held = false → exec .systemReset s = .next { State.reset with
    record := s.record, resetCause := s.resetCause ||| 0x2#4, pinHold := true, resetLow := true,
    reply := s.reply, pending := s.pending }) ∧
  (∀ s : State, s.refclk = true → s.held = true → s.pinHold = false →
    (s.powerHold = none ∨ s.powerHold = some 0) → exec .systemReset s = .next { s with
      resetCause := s.resetCause ||| 0x2#4, powerHold := none, pinHold := true, resetLow := true }) ∧
  (∀ s : State, s.refclk = true → s.pinHold = true → s.powerHold = none →
    exec .systemReset s = .next { s with resetLow := true }) ∧
  ∀ (s : State) (n : Nat), s.powerHold = some (n + 1) → exec .systemReset s = .next s

/-- R164, R166 to R168, R170: the release when every hold has ended, and not before; REFCLK stopping and starting. -/
def Obligations.ReleaseWaitsForEveryHold : Prop :=
  ∀ s : State,
    let ended := s.resetLow = false ∧ (s.powerHold = none ∨ s.powerHold = some 0) ∧
      (s.softHold = none ∨ s.softHold = some 0) ∧ s.rstout = false
    (s.held = true → ended →
      ∃ t, exec .resetRelease s = .next t ∧ t.held = false ∧
        t = { s with powerHold := none, softHold := none, pinHold := false }) ∧
    (s.held = false ∨ ¬ ended → exec .resetRelease s = .next s) ∧
    exec .refclkStop s = .next { s with refclk := false } ∧
    exec .refclkStart s = .next { s with refclk := true }

/-- R25, R55, R115, R125, R126, R164, R165: the tick, over the state `u` in which the events of earlier ticks have been taken,
each as its own command takes it, in the order of log entry 5, the application that has seen a tick among them (R25; log
entry 6); with none outstanding that is the state itself. A tier boundary that falls while the engine is PAUSED is lost (R55). The marks it leaves are those of log entries 4 and 6, and the
field resetLow that of log entry 10. -/
def Obligations.TickCountsAndSamples : Prop :=
  ∀ (s : State) (sns : BitVec 8),
    (s.refclk = false → exec (.tick sns) s = .next s) ∧
    (let t := afterAll
        ((List.finRange 8).flatMap (fun p => [.settling p, .filteredTransition p])
          ++ [.tierBoundary .t0, .tierBoundary .t1, .tierBoundary .t2, .tierBoundary .t3]
          ++ (List.finRange 24).map .quietExpiry ++ [.closeUnitBoundary]
          ++ (List.finRange 32).map .closeTimerExpiry) s
     s.catchUp = afterAll
        ((if t.applying = true ∧ t.appTicked = true then [.applicationCompletion] else [])
          ++ [.intervalExpiry, .rstoutPulseEnd, .resetRelease]) t) ∧
    (s.outstanding = false → s.catchUp = s) ∧
    (s.refclk = true →
      let u := s.catchUp
      let less : Monitor → Monitor := fun m =>
        match m with
        | .idle => .idle
        | .counting n => .counting (n - 1)
        | .warned none => .warned none
        | .warned (some n) => .warned (some (n - 1))
        | .tripped n => .tripped (n - 1)
      (u.held = true → exec (.tick sns) s = .next { u with
        monitor := less u.monitor
        powerHold := u.powerHold.map (fun n => n - 1)
        softHold := u.softHold.map (fun n => n - 1)
        resetLow := false }) ∧
      (u.held = false → ∃ t, exec (.tick sns) s = .next t ∧
        t.timeBase = u.timeBase + 1 ∧
        (∀ p : SenseId, (t.filter p).previous = some (sns.getLsbD p.val) ∧ (t.filter p).level = (u.filter p).level ∧
          ((t.filter p).due = true ↔ (u.filter p).previous = some (sns.getLsbD p.val) ∧
            (u.filter p).level ≠ (if sns.getLsbD p.val then .high else .low))) ∧
        (∀ k : RemoteId, { t.source k with boundaryDue := (u.source k).boundaryDue } = u.source k ∧
          (u.engine = .paused → (t.source k).boundaryDue = 0) ∧
          (u.engine ≠ .paused →
            ((t.source k).boundaryDue.getLsbD 0 = true ↔ t.timeBase.toNat % 256 = 0) ∧
            ((t.source k).boundaryDue.getLsbD 1 = true ↔ t.timeBase.toNat % 4096 = 0) ∧
            ((t.source k).boundaryDue.getLsbD 2 = true ↔ t.timeBase.toNat % 65536 = 0) ∧
            ((t.source k).boundaryDue.getLsbD 3 = true ↔ t.timeBase = 0#20))) ∧
        (t.closeUnitDue = true ↔ t.timeBase.toNat % 8 = 0) ∧
        t.monitor = less u.monitor ∧ t.appTicked = u.applying ∧
        t = { u with
          timeBase := t.timeBase, filters := t.filters, sources := t.sources, closeUnitDue := t.closeUnitDue,
          monitor := t.monitor, appTicked := t.appTicked, resetLow := false }))
end

