-- ==== Sys2Proof/Laws/State.lean ====
section
/-! SUPPORT. One lemma for each field and each shared update of State, true by rfl, so that no later proof unfolds a
record update; with the derived values that an update leaves as they are. -/

namespace Sys2Proof.Machine

/-! ### `State.raise` -/

@[simp] theorem State.raise_reportBase (s : State) (f : BitVec 8) :
    (s.raise f).reportBase = s.reportBase := rfl
@[simp] theorem State.raise_queue (s : State) (f : BitVec 8) :
    (s.raise f).queue = s.queue := rfl
@[simp] theorem State.raise_arrivals (s : State) (f : BitVec 8) :
    (s.raise f).arrivals = s.arrivals := rfl
@[simp] theorem State.raise_applied (s : State) (f : BitVec 8) :
    (s.raise f).applied = s.applied := rfl
@[simp] theorem State.raise_pauseRequest (s : State) (f : BitVec 8) :
    (s.raise f).pauseRequest = s.pauseRequest := rfl
@[simp] theorem State.raise_applying (s : State) (f : BitVec 8) :
    (s.raise f).applying = s.applying := rfl
@[simp] theorem State.raise_appTicked (s : State) (f : BitVec 8) :
    (s.raise f).appTicked = s.appTicked := rfl
@[simp] theorem State.raise_sources (s : State) (f : BitVec 8) :
    (s.raise f).sources = s.sources := rfl
@[simp] theorem State.raise_lines (s : State) (f : BitVec 8) :
    (s.raise f).lines = s.lines := rfl
@[simp] theorem State.raise_stack (s : State) (f : BitVec 8) :
    (s.raise f).stack = s.stack := rfl
@[simp] theorem State.raise_closeLimit (s : State) (f : BitVec 8) :
    (s.raise f).closeLimit = s.closeLimit := rfl
@[simp] theorem State.raise_closeUnitDue (s : State) (f : BitVec 8) :
    (s.raise f).closeUnitDue = s.closeUnitDue := rfl
@[simp] theorem State.raise_eosResult (s : State) (f : BitVec 8) :
    (s.raise f).eosResult = s.eosResult := rfl
@[simp] theorem State.raise_deadlineMode (s : State) (f : BitVec 8) :
    (s.raise f).deadlineMode = s.deadlineMode := rfl
@[simp] theorem State.raise_deadlineInterval (s : State) (f : BitVec 8) :
    (s.raise f).deadlineInterval = s.deadlineInterval := rfl
@[simp] theorem State.raise_monitor (s : State) (f : BitVec 8) :
    (s.raise f).monitor = s.monitor := rfl
@[simp] theorem State.raise_warning (s : State) (f : BitVec 8) :
    (s.raise f).warning = s.warning := rfl
@[simp] theorem State.raise_record (s : State) (f : BitVec 8) :
    (s.raise f).record = s.record := rfl
@[simp] theorem State.raise_pins (s : State) (f : BitVec 8) :
    (s.raise f).pins = s.pins := rfl
@[simp] theorem State.raise_filters (s : State) (f : BitVec 8) :
    (s.raise f).filters = s.filters := rfl
@[simp] theorem State.raise_eventFlags (s : State) (f : BitVec 8) :
    (s.raise f).eventFlags = s.eventFlags ||| f := rfl
@[simp] theorem State.raise_eventEnables (s : State) (f : BitVec 8) :
    (s.raise f).eventEnables = s.eventEnables := rfl
@[simp] theorem State.raise_log (s : State) (f : BitVec 8) :
    (s.raise f).log = s.log := rfl
@[simp] theorem State.raise_checkFailures (s : State) (f : BitVec 8) :
    (s.raise f).checkFailures = s.checkFailures := rfl
@[simp] theorem State.raise_busFaults (s : State) (f : BitVec 8) :
    (s.raise f).busFaults = s.busFaults := rfl
@[simp] theorem State.raise_tsel (s : State) (f : BitVec 8) :
    (s.raise f).tsel = s.tsel := rfl
@[simp] theorem State.raise_staging (s : State) (f : BitVec 8) :
    (s.raise f).staging = s.staging := rfl
@[simp] theorem State.raise_tstat (s : State) (f : BitVec 8) :
    (s.raise f).tstat = s.tstat := rfl
@[simp] theorem State.raise_refclk (s : State) (f : BitVec 8) :
    (s.raise f).refclk = s.refclk := rfl
@[simp] theorem State.raise_timeBase (s : State) (f : BitVec 8) :
    (s.raise f).timeBase = s.timeBase := rfl
@[simp] theorem State.raise_resetCause (s : State) (f : BitVec 8) :
    (s.raise f).resetCause = s.resetCause := rfl
@[simp] theorem State.raise_powerHold (s : State) (f : BitVec 8) :
    (s.raise f).powerHold = s.powerHold := rfl
@[simp] theorem State.raise_softHold (s : State) (f : BitVec 8) :
    (s.raise f).softHold = s.softHold := rfl
@[simp] theorem State.raise_pinHold (s : State) (f : BitVec 8) :
    (s.raise f).pinHold = s.pinHold := rfl
@[simp] theorem State.raise_resetLow (s : State) (f : BitVec 8) :
    (s.raise f).resetLow = s.resetLow := rfl
@[simp] theorem State.raise_reply (s : State) (f : BitVec 8) :
    (s.raise f).reply = s.reply := rfl
@[simp] theorem State.raise_pending (s : State) (f : BitVec 8) :
    (s.raise f).pending = s.pending := rfl
@[simp] theorem State.raise_source (s : State) (f : BitVec 8) (k : RemoteId) :
    (s.raise f).source k = s.source k := rfl
@[simp] theorem State.raise_line (s : State) (f : BitVec 8) (l : LineId) :
    (s.raise f).line l = s.line l := rfl
@[simp] theorem State.raise_pin (s : State) (f : BitVec 8) (p : PinId) :
    (s.raise f).pin p = s.pin p := rfl
@[simp] theorem State.raise_filter (s : State) (f : BitVec 8) (p : SenseId) :
    (s.raise f).filter p = s.filter p := rfl
@[simp] theorem State.raise_inStack (s : State) (f : BitVec 8) (l : LineId) :
    (s.raise f).inStack l = s.inStack l := rfl
@[simp] theorem State.raise_deliverable (s : State) (f : BitVec 8) (l : LineId) :
    (s.raise f).deliverable l = s.deliverable l := rfl
@[simp] theorem State.raise_better (s : State) (f : BitVec 8) (b : Option LineId) (l : LineId) :
    (s.raise f).better b l = s.better b l := rfl
@[simp] theorem State.raise_offer (s : State) (f : BitVec 8) :
    (s.raise f).offer = s.offer := rfl
@[simp] theorem State.raise_sreq (s : State) (f : BitVec 8) :
    (s.raise f).sreq = s.sreq := rfl
@[simp] theorem State.raise_held (s : State) (f : BitVec 8) :
    (s.raise f).held = s.held := rfl
@[simp] theorem State.raise_paused (s : State) (f : BitVec 8) :
    (s.raise f).paused = s.paused := rfl
@[simp] theorem State.raise_intervalTicks (s : State) (f : BitVec 8) :
    (s.raise f).intervalTicks = s.intervalTicks := rfl
@[simp] theorem State.raise_depth (s : State) (f : BitVec 8) :
    (s.raise f).depth = s.depth := rfl

/-! ### `State.addCause` -/

@[simp] theorem State.addCause_reportBase (s : State) (f : BitVec 4) :
    (s.addCause f).reportBase = s.reportBase := rfl
@[simp] theorem State.addCause_queue (s : State) (f : BitVec 4) :
    (s.addCause f).queue = s.queue := rfl
@[simp] theorem State.addCause_arrivals (s : State) (f : BitVec 4) :
    (s.addCause f).arrivals = s.arrivals := rfl
@[simp] theorem State.addCause_applied (s : State) (f : BitVec 4) :
    (s.addCause f).applied = s.applied := rfl
@[simp] theorem State.addCause_pauseRequest (s : State) (f : BitVec 4) :
    (s.addCause f).pauseRequest = s.pauseRequest := rfl
@[simp] theorem State.addCause_applying (s : State) (f : BitVec 4) :
    (s.addCause f).applying = s.applying := rfl
@[simp] theorem State.addCause_appTicked (s : State) (f : BitVec 4) :
    (s.addCause f).appTicked = s.appTicked := rfl
@[simp] theorem State.addCause_sources (s : State) (f : BitVec 4) :
    (s.addCause f).sources = s.sources := rfl
@[simp] theorem State.addCause_lines (s : State) (f : BitVec 4) :
    (s.addCause f).lines = s.lines := rfl
@[simp] theorem State.addCause_stack (s : State) (f : BitVec 4) :
    (s.addCause f).stack = s.stack := rfl
@[simp] theorem State.addCause_closeLimit (s : State) (f : BitVec 4) :
    (s.addCause f).closeLimit = s.closeLimit := rfl
@[simp] theorem State.addCause_closeUnitDue (s : State) (f : BitVec 4) :
    (s.addCause f).closeUnitDue = s.closeUnitDue := rfl
@[simp] theorem State.addCause_eosResult (s : State) (f : BitVec 4) :
    (s.addCause f).eosResult = s.eosResult := rfl
@[simp] theorem State.addCause_deadlineMode (s : State) (f : BitVec 4) :
    (s.addCause f).deadlineMode = s.deadlineMode := rfl
@[simp] theorem State.addCause_deadlineInterval (s : State) (f : BitVec 4) :
    (s.addCause f).deadlineInterval = s.deadlineInterval := rfl
@[simp] theorem State.addCause_monitor (s : State) (f : BitVec 4) :
    (s.addCause f).monitor = s.monitor := rfl
@[simp] theorem State.addCause_warning (s : State) (f : BitVec 4) :
    (s.addCause f).warning = s.warning := rfl
@[simp] theorem State.addCause_record (s : State) (f : BitVec 4) :
    (s.addCause f).record = s.record := rfl
@[simp] theorem State.addCause_pins (s : State) (f : BitVec 4) :
    (s.addCause f).pins = s.pins := rfl
@[simp] theorem State.addCause_filters (s : State) (f : BitVec 4) :
    (s.addCause f).filters = s.filters := rfl
@[simp] theorem State.addCause_eventFlags (s : State) (f : BitVec 4) :
    (s.addCause f).eventFlags = s.eventFlags := rfl
@[simp] theorem State.addCause_eventEnables (s : State) (f : BitVec 4) :
    (s.addCause f).eventEnables = s.eventEnables := rfl
@[simp] theorem State.addCause_log (s : State) (f : BitVec 4) :
    (s.addCause f).log = s.log := rfl
@[simp] theorem State.addCause_checkFailures (s : State) (f : BitVec 4) :
    (s.addCause f).checkFailures = s.checkFailures := rfl
@[simp] theorem State.addCause_busFaults (s : State) (f : BitVec 4) :
    (s.addCause f).busFaults = s.busFaults := rfl
@[simp] theorem State.addCause_tsel (s : State) (f : BitVec 4) :
    (s.addCause f).tsel = s.tsel := rfl
@[simp] theorem State.addCause_staging (s : State) (f : BitVec 4) :
    (s.addCause f).staging = s.staging := rfl
@[simp] theorem State.addCause_tstat (s : State) (f : BitVec 4) :
    (s.addCause f).tstat = s.tstat := rfl
@[simp] theorem State.addCause_refclk (s : State) (f : BitVec 4) :
    (s.addCause f).refclk = s.refclk := rfl
@[simp] theorem State.addCause_timeBase (s : State) (f : BitVec 4) :
    (s.addCause f).timeBase = s.timeBase := rfl
@[simp] theorem State.addCause_resetCause (s : State) (f : BitVec 4) :
    (s.addCause f).resetCause = s.resetCause ||| f := rfl
@[simp] theorem State.addCause_powerHold (s : State) (f : BitVec 4) :
    (s.addCause f).powerHold = s.powerHold := rfl
@[simp] theorem State.addCause_softHold (s : State) (f : BitVec 4) :
    (s.addCause f).softHold = s.softHold := rfl
@[simp] theorem State.addCause_pinHold (s : State) (f : BitVec 4) :
    (s.addCause f).pinHold = s.pinHold := rfl
@[simp] theorem State.addCause_resetLow (s : State) (f : BitVec 4) :
    (s.addCause f).resetLow = s.resetLow := rfl
@[simp] theorem State.addCause_reply (s : State) (f : BitVec 4) :
    (s.addCause f).reply = s.reply := rfl
@[simp] theorem State.addCause_pending (s : State) (f : BitVec 4) :
    (s.addCause f).pending = s.pending := rfl
@[simp] theorem State.addCause_source (s : State) (f : BitVec 4) (k : RemoteId) :
    (s.addCause f).source k = s.source k := rfl
@[simp] theorem State.addCause_line (s : State) (f : BitVec 4) (l : LineId) :
    (s.addCause f).line l = s.line l := rfl
@[simp] theorem State.addCause_pin (s : State) (f : BitVec 4) (p : PinId) :
    (s.addCause f).pin p = s.pin p := rfl
@[simp] theorem State.addCause_filter (s : State) (f : BitVec 4) (p : SenseId) :
    (s.addCause f).filter p = s.filter p := rfl
@[simp] theorem State.addCause_inStack (s : State) (f : BitVec 4) (l : LineId) :
    (s.addCause f).inStack l = s.inStack l := rfl
@[simp] theorem State.addCause_deliverable (s : State) (f : BitVec 4) (l : LineId) :
    (s.addCause f).deliverable l = s.deliverable l := rfl
@[simp] theorem State.addCause_better (s : State) (f : BitVec 4) (b : Option LineId) (l : LineId) :
    (s.addCause f).better b l = s.better b l := rfl
@[simp] theorem State.addCause_offer (s : State) (f : BitVec 4) :
    (s.addCause f).offer = s.offer := rfl
@[simp] theorem State.addCause_sreq (s : State) (f : BitVec 4) :
    (s.addCause f).sreq = s.sreq := rfl
@[simp] theorem State.addCause_summary (s : State) (f : BitVec 4) :
    (s.addCause f).summary = s.summary := rfl
@[simp] theorem State.addCause_localActive (s : State) (f : BitVec 4) (l : LineId) :
    (s.addCause f).localActive l = s.localActive l := rfl
@[simp] theorem State.addCause_held (s : State) (f : BitVec 4) :
    (s.addCause f).held = s.held := rfl
@[simp] theorem State.addCause_paused (s : State) (f : BitVec 4) :
    (s.addCause f).paused = s.paused := rfl
@[simp] theorem State.addCause_intervalTicks (s : State) (f : BitVec 4) :
    (s.addCause f).intervalTicks = s.intervalTicks := rfl
@[simp] theorem State.addCause_depth (s : State) (f : BitVec 4) :
    (s.addCause f).depth = s.depth := rfl

/-! ### `State.answer` -/

@[simp] theorem State.answer_reportBase (s : State) (t : Termination) (d : Word) :
    (s.answer t d).reportBase = s.reportBase := rfl
@[simp] theorem State.answer_queue (s : State) (t : Termination) (d : Word) :
    (s.answer t d).queue = s.queue := rfl
@[simp] theorem State.answer_arrivals (s : State) (t : Termination) (d : Word) :
    (s.answer t d).arrivals = s.arrivals := rfl
@[simp] theorem State.answer_applied (s : State) (t : Termination) (d : Word) :
    (s.answer t d).applied = s.applied := rfl
@[simp] theorem State.answer_pauseRequest (s : State) (t : Termination) (d : Word) :
    (s.answer t d).pauseRequest = s.pauseRequest := rfl
@[simp] theorem State.answer_applying (s : State) (t : Termination) (d : Word) :
    (s.answer t d).applying = s.applying := rfl
@[simp] theorem State.answer_appTicked (s : State) (t : Termination) (d : Word) :
    (s.answer t d).appTicked = s.appTicked := rfl
@[simp] theorem State.answer_sources (s : State) (t : Termination) (d : Word) :
    (s.answer t d).sources = s.sources := rfl
@[simp] theorem State.answer_lines (s : State) (t : Termination) (d : Word) :
    (s.answer t d).lines = s.lines := rfl
@[simp] theorem State.answer_stack (s : State) (t : Termination) (d : Word) :
    (s.answer t d).stack = s.stack := rfl
@[simp] theorem State.answer_closeLimit (s : State) (t : Termination) (d : Word) :
    (s.answer t d).closeLimit = s.closeLimit := rfl
@[simp] theorem State.answer_closeUnitDue (s : State) (t : Termination) (d : Word) :
    (s.answer t d).closeUnitDue = s.closeUnitDue := rfl
@[simp] theorem State.answer_eosResult (s : State) (t : Termination) (d : Word) :
    (s.answer t d).eosResult = s.eosResult := rfl
@[simp] theorem State.answer_deadlineMode (s : State) (t : Termination) (d : Word) :
    (s.answer t d).deadlineMode = s.deadlineMode := rfl
@[simp] theorem State.answer_deadlineInterval (s : State) (t : Termination) (d : Word) :
    (s.answer t d).deadlineInterval = s.deadlineInterval := rfl
@[simp] theorem State.answer_monitor (s : State) (t : Termination) (d : Word) :
    (s.answer t d).monitor = s.monitor := rfl
@[simp] theorem State.answer_warning (s : State) (t : Termination) (d : Word) :
    (s.answer t d).warning = s.warning := rfl
@[simp] theorem State.answer_record (s : State) (t : Termination) (d : Word) :
    (s.answer t d).record = s.record := rfl
@[simp] theorem State.answer_pins (s : State) (t : Termination) (d : Word) :
    (s.answer t d).pins = s.pins := rfl
@[simp] theorem State.answer_filters (s : State) (t : Termination) (d : Word) :
    (s.answer t d).filters = s.filters := rfl
@[simp] theorem State.answer_eventFlags (s : State) (t : Termination) (d : Word) :
    (s.answer t d).eventFlags = s.eventFlags := rfl
@[simp] theorem State.answer_eventEnables (s : State) (t : Termination) (d : Word) :
    (s.answer t d).eventEnables = s.eventEnables := rfl
@[simp] theorem State.answer_log (s : State) (t : Termination) (d : Word) :
    (s.answer t d).log = s.log := rfl
@[simp] theorem State.answer_checkFailures (s : State) (t : Termination) (d : Word) :
    (s.answer t d).checkFailures = s.checkFailures := rfl
@[simp] theorem State.answer_busFaults (s : State) (t : Termination) (d : Word) :
    (s.answer t d).busFaults = s.busFaults := rfl
@[simp] theorem State.answer_tsel (s : State) (t : Termination) (d : Word) :
    (s.answer t d).tsel = s.tsel := rfl
@[simp] theorem State.answer_staging (s : State) (t : Termination) (d : Word) :
    (s.answer t d).staging = s.staging := rfl
@[simp] theorem State.answer_tstat (s : State) (t : Termination) (d : Word) :
    (s.answer t d).tstat = s.tstat := rfl
@[simp] theorem State.answer_refclk (s : State) (t : Termination) (d : Word) :
    (s.answer t d).refclk = s.refclk := rfl
@[simp] theorem State.answer_timeBase (s : State) (t : Termination) (d : Word) :
    (s.answer t d).timeBase = s.timeBase := rfl
@[simp] theorem State.answer_resetCause (s : State) (t : Termination) (d : Word) :
    (s.answer t d).resetCause = s.resetCause := rfl
@[simp] theorem State.answer_powerHold (s : State) (t : Termination) (d : Word) :
    (s.answer t d).powerHold = s.powerHold := rfl
@[simp] theorem State.answer_softHold (s : State) (t : Termination) (d : Word) :
    (s.answer t d).softHold = s.softHold := rfl
@[simp] theorem State.answer_pinHold (s : State) (t : Termination) (d : Word) :
    (s.answer t d).pinHold = s.pinHold := rfl
@[simp] theorem State.answer_resetLow (s : State) (t : Termination) (d : Word) :
    (s.answer t d).resetLow = s.resetLow := rfl
@[simp] theorem State.answer_reply (s : State) (t : Termination) (d : Word) :
    (s.answer t d).reply = .answered t d := rfl
@[simp] theorem State.answer_pending (s : State) (t : Termination) (d : Word) :
    (s.answer t d).pending = s.pending := rfl
@[simp] theorem State.answer_source (s : State) (t : Termination) (d : Word) (k : RemoteId) :
    (s.answer t d).source k = s.source k := rfl
@[simp] theorem State.answer_line (s : State) (t : Termination) (d : Word) (l : LineId) :
    (s.answer t d).line l = s.line l := rfl
@[simp] theorem State.answer_pin (s : State) (t : Termination) (d : Word) (p : PinId) :
    (s.answer t d).pin p = s.pin p := rfl
@[simp] theorem State.answer_filter (s : State) (t : Termination) (d : Word) (p : SenseId) :
    (s.answer t d).filter p = s.filter p := rfl
@[simp] theorem State.answer_inStack (s : State) (t : Termination) (d : Word) (l : LineId) :
    (s.answer t d).inStack l = s.inStack l := rfl
@[simp] theorem State.answer_deliverable (s : State) (t : Termination) (d : Word) (l : LineId) :
    (s.answer t d).deliverable l = s.deliverable l := rfl
@[simp] theorem State.answer_better (s : State) (t : Termination) (d : Word) (b : Option LineId) (l : LineId) :
    (s.answer t d).better b l = s.better b l := rfl
@[simp] theorem State.answer_offer (s : State) (t : Termination) (d : Word) :
    (s.answer t d).offer = s.offer := rfl
@[simp] theorem State.answer_sreq (s : State) (t : Termination) (d : Word) :
    (s.answer t d).sreq = s.sreq := rfl
@[simp] theorem State.answer_summary (s : State) (t : Termination) (d : Word) :
    (s.answer t d).summary = s.summary := rfl
@[simp] theorem State.answer_localActive (s : State) (t : Termination) (d : Word) (l : LineId) :
    (s.answer t d).localActive l = s.localActive l := rfl
@[simp] theorem State.answer_held (s : State) (t : Termination) (d : Word) :
    (s.answer t d).held = s.held := rfl
@[simp] theorem State.answer_paused (s : State) (t : Termination) (d : Word) :
    (s.answer t d).paused = s.paused := rfl
@[simp] theorem State.answer_intervalTicks (s : State) (t : Termination) (d : Word) :
    (s.answer t d).intervalTicks = s.intervalTicks := rfl
@[simp] theorem State.answer_depth (s : State) (t : Termination) (d : Word) :
    (s.answer t d).depth = s.depth := rfl

/-! ### `State.unclaimed` -/

@[simp] theorem State.unclaimed_reportBase (s : State) :
    (s.unclaimed).reportBase = s.reportBase := rfl
@[simp] theorem State.unclaimed_queue (s : State) :
    (s.unclaimed).queue = s.queue := rfl
@[simp] theorem State.unclaimed_arrivals (s : State) :
    (s.unclaimed).arrivals = s.arrivals := rfl
@[simp] theorem State.unclaimed_applied (s : State) :
    (s.unclaimed).applied = s.applied := rfl
@[simp] theorem State.unclaimed_pauseRequest (s : State) :
    (s.unclaimed).pauseRequest = s.pauseRequest := rfl
@[simp] theorem State.unclaimed_applying (s : State) :
    (s.unclaimed).applying = s.applying := rfl
@[simp] theorem State.unclaimed_appTicked (s : State) :
    (s.unclaimed).appTicked = s.appTicked := rfl
@[simp] theorem State.unclaimed_sources (s : State) :
    (s.unclaimed).sources = s.sources := rfl
@[simp] theorem State.unclaimed_lines (s : State) :
    (s.unclaimed).lines = s.lines := rfl
@[simp] theorem State.unclaimed_stack (s : State) :
    (s.unclaimed).stack = s.stack := rfl
@[simp] theorem State.unclaimed_closeLimit (s : State) :
    (s.unclaimed).closeLimit = s.closeLimit := rfl
@[simp] theorem State.unclaimed_closeUnitDue (s : State) :
    (s.unclaimed).closeUnitDue = s.closeUnitDue := rfl
@[simp] theorem State.unclaimed_eosResult (s : State) :
    (s.unclaimed).eosResult = s.eosResult := rfl
@[simp] theorem State.unclaimed_deadlineMode (s : State) :
    (s.unclaimed).deadlineMode = s.deadlineMode := rfl
@[simp] theorem State.unclaimed_deadlineInterval (s : State) :
    (s.unclaimed).deadlineInterval = s.deadlineInterval := rfl
@[simp] theorem State.unclaimed_monitor (s : State) :
    (s.unclaimed).monitor = s.monitor := rfl
@[simp] theorem State.unclaimed_warning (s : State) :
    (s.unclaimed).warning = s.warning := rfl
@[simp] theorem State.unclaimed_record (s : State) :
    (s.unclaimed).record = s.record := rfl
@[simp] theorem State.unclaimed_pins (s : State) :
    (s.unclaimed).pins = s.pins := rfl
@[simp] theorem State.unclaimed_filters (s : State) :
    (s.unclaimed).filters = s.filters := rfl
@[simp] theorem State.unclaimed_eventFlags (s : State) :
    (s.unclaimed).eventFlags = s.eventFlags := rfl
@[simp] theorem State.unclaimed_eventEnables (s : State) :
    (s.unclaimed).eventEnables = s.eventEnables := rfl
@[simp] theorem State.unclaimed_log (s : State) :
    (s.unclaimed).log = s.log := rfl
@[simp] theorem State.unclaimed_checkFailures (s : State) :
    (s.unclaimed).checkFailures = s.checkFailures := rfl
@[simp] theorem State.unclaimed_busFaults (s : State) :
    (s.unclaimed).busFaults = s.busFaults := rfl
@[simp] theorem State.unclaimed_tsel (s : State) :
    (s.unclaimed).tsel = s.tsel := rfl
@[simp] theorem State.unclaimed_staging (s : State) :
    (s.unclaimed).staging = s.staging := rfl
@[simp] theorem State.unclaimed_tstat (s : State) :
    (s.unclaimed).tstat = s.tstat := rfl
@[simp] theorem State.unclaimed_refclk (s : State) :
    (s.unclaimed).refclk = s.refclk := rfl
@[simp] theorem State.unclaimed_timeBase (s : State) :
    (s.unclaimed).timeBase = s.timeBase := rfl
@[simp] theorem State.unclaimed_resetCause (s : State) :
    (s.unclaimed).resetCause = s.resetCause := rfl
@[simp] theorem State.unclaimed_powerHold (s : State) :
    (s.unclaimed).powerHold = s.powerHold := rfl
@[simp] theorem State.unclaimed_softHold (s : State) :
    (s.unclaimed).softHold = s.softHold := rfl
@[simp] theorem State.unclaimed_pinHold (s : State) :
    (s.unclaimed).pinHold = s.pinHold := rfl
@[simp] theorem State.unclaimed_resetLow (s : State) :
    (s.unclaimed).resetLow = s.resetLow := rfl
@[simp] theorem State.unclaimed_reply (s : State) :
    (s.unclaimed).reply = .unclaimed := rfl
@[simp] theorem State.unclaimed_pending (s : State) :
    (s.unclaimed).pending = s.pending := rfl
@[simp] theorem State.unclaimed_source (s : State) (k : RemoteId) :
    (s.unclaimed).source k = s.source k := rfl
@[simp] theorem State.unclaimed_line (s : State) (l : LineId) :
    (s.unclaimed).line l = s.line l := rfl
@[simp] theorem State.unclaimed_pin (s : State) (p : PinId) :
    (s.unclaimed).pin p = s.pin p := rfl
@[simp] theorem State.unclaimed_filter (s : State) (p : SenseId) :
    (s.unclaimed).filter p = s.filter p := rfl
@[simp] theorem State.unclaimed_inStack (s : State) (l : LineId) :
    (s.unclaimed).inStack l = s.inStack l := rfl
@[simp] theorem State.unclaimed_deliverable (s : State) (l : LineId) :
    (s.unclaimed).deliverable l = s.deliverable l := rfl
@[simp] theorem State.unclaimed_better (s : State) (b : Option LineId) (l : LineId) :
    (s.unclaimed).better b l = s.better b l := rfl
@[simp] theorem State.unclaimed_offer (s : State) :
    (s.unclaimed).offer = s.offer := rfl
@[simp] theorem State.unclaimed_sreq (s : State) :
    (s.unclaimed).sreq = s.sreq := rfl
@[simp] theorem State.unclaimed_summary (s : State) :
    (s.unclaimed).summary = s.summary := rfl
@[simp] theorem State.unclaimed_localActive (s : State) (l : LineId) :
    (s.unclaimed).localActive l = s.localActive l := rfl
@[simp] theorem State.unclaimed_held (s : State) :
    (s.unclaimed).held = s.held := rfl
@[simp] theorem State.unclaimed_paused (s : State) :
    (s.unclaimed).paused = s.paused := rfl
@[simp] theorem State.unclaimed_intervalTicks (s : State) :
    (s.unclaimed).intervalTicks = s.intervalTicks := rfl
@[simp] theorem State.unclaimed_depth (s : State) :
    (s.unclaimed).depth = s.depth := rfl

/-! ### `State.setSource` -/

@[simp] theorem State.setSource_reportBase (s : State) (j : RemoteId) (e : SourceEntry) :
    (s.setSource j e).reportBase = s.reportBase := rfl
@[simp] theorem State.setSource_queue (s : State) (j : RemoteId) (e : SourceEntry) :
    (s.setSource j e).queue = s.queue := rfl
@[simp] theorem State.setSource_arrivals (s : State) (j : RemoteId) (e : SourceEntry) :
    (s.setSource j e).arrivals = s.arrivals := rfl
@[simp] theorem State.setSource_applied (s : State) (j : RemoteId) (e : SourceEntry) :
    (s.setSource j e).applied = s.applied := rfl
@[simp] theorem State.setSource_pauseRequest (s : State) (j : RemoteId) (e : SourceEntry) :
    (s.setSource j e).pauseRequest = s.pauseRequest := rfl
@[simp] theorem State.setSource_applying (s : State) (j : RemoteId) (e : SourceEntry) :
    (s.setSource j e).applying = s.applying := rfl
@[simp] theorem State.setSource_appTicked (s : State) (j : RemoteId) (e : SourceEntry) :
    (s.setSource j e).appTicked = s.appTicked := rfl
@[simp] theorem State.setSource_sources (s : State) (j : RemoteId) (e : SourceEntry) :
    (s.setSource j e).sources = s.sources.set j e := rfl
@[simp] theorem State.setSource_lines (s : State) (j : RemoteId) (e : SourceEntry) :
    (s.setSource j e).lines = s.lines := rfl
@[simp] theorem State.setSource_stack (s : State) (j : RemoteId) (e : SourceEntry) :
    (s.setSource j e).stack = s.stack := rfl
@[simp] theorem State.setSource_closeLimit (s : State) (j : RemoteId) (e : SourceEntry) :
    (s.setSource j e).closeLimit = s.closeLimit := rfl
@[simp] theorem State.setSource_closeUnitDue (s : State) (j : RemoteId) (e : SourceEntry) :
    (s.setSource j e).closeUnitDue = s.closeUnitDue := rfl
@[simp] theorem State.setSource_eosResult (s : State) (j : RemoteId) (e : SourceEntry) :
    (s.setSource j e).eosResult = s.eosResult := rfl
@[simp] theorem State.setSource_deadlineMode (s : State) (j : RemoteId) (e : SourceEntry) :
    (s.setSource j e).deadlineMode = s.deadlineMode := rfl
@[simp] theorem State.setSource_deadlineInterval (s : State) (j : RemoteId) (e : SourceEntry) :
    (s.setSource j e).deadlineInterval = s.deadlineInterval := rfl
@[simp] theorem State.setSource_monitor (s : State) (j : RemoteId) (e : SourceEntry) :
    (s.setSource j e).monitor = s.monitor := rfl
@[simp] theorem State.setSource_warning (s : State) (j : RemoteId) (e : SourceEntry) :
    (s.setSource j e).warning = s.warning := rfl
@[simp] theorem State.setSource_record (s : State) (j : RemoteId) (e : SourceEntry) :
    (s.setSource j e).record = s.record := rfl
@[simp] theorem State.setSource_pins (s : State) (j : RemoteId) (e : SourceEntry) :
    (s.setSource j e).pins = s.pins := rfl
@[simp] theorem State.setSource_filters (s : State) (j : RemoteId) (e : SourceEntry) :
    (s.setSource j e).filters = s.filters := rfl
@[simp] theorem State.setSource_eventFlags (s : State) (j : RemoteId) (e : SourceEntry) :
    (s.setSource j e).eventFlags = s.eventFlags := rfl
@[simp] theorem State.setSource_eventEnables (s : State) (j : RemoteId) (e : SourceEntry) :
    (s.setSource j e).eventEnables = s.eventEnables := rfl
@[simp] theorem State.setSource_log (s : State) (j : RemoteId) (e : SourceEntry) :
    (s.setSource j e).log = s.log := rfl
@[simp] theorem State.setSource_checkFailures (s : State) (j : RemoteId) (e : SourceEntry) :
    (s.setSource j e).checkFailures = s.checkFailures := rfl
@[simp] theorem State.setSource_busFaults (s : State) (j : RemoteId) (e : SourceEntry) :
    (s.setSource j e).busFaults = s.busFaults := rfl
@[simp] theorem State.setSource_tsel (s : State) (j : RemoteId) (e : SourceEntry) :
    (s.setSource j e).tsel = s.tsel := rfl
@[simp] theorem State.setSource_staging (s : State) (j : RemoteId) (e : SourceEntry) :
    (s.setSource j e).staging = s.staging := rfl
@[simp] theorem State.setSource_tstat (s : State) (j : RemoteId) (e : SourceEntry) :
    (s.setSource j e).tstat = s.tstat := rfl
@[simp] theorem State.setSource_refclk (s : State) (j : RemoteId) (e : SourceEntry) :
    (s.setSource j e).refclk = s.refclk := rfl
@[simp] theorem State.setSource_timeBase (s : State) (j : RemoteId) (e : SourceEntry) :
    (s.setSource j e).timeBase = s.timeBase := rfl
@[simp] theorem State.setSource_resetCause (s : State) (j : RemoteId) (e : SourceEntry) :
    (s.setSource j e).resetCause = s.resetCause := rfl
@[simp] theorem State.setSource_powerHold (s : State) (j : RemoteId) (e : SourceEntry) :
    (s.setSource j e).powerHold = s.powerHold := rfl
@[simp] theorem State.setSource_softHold (s : State) (j : RemoteId) (e : SourceEntry) :
    (s.setSource j e).softHold = s.softHold := rfl
@[simp] theorem State.setSource_pinHold (s : State) (j : RemoteId) (e : SourceEntry) :
    (s.setSource j e).pinHold = s.pinHold := rfl
@[simp] theorem State.setSource_resetLow (s : State) (j : RemoteId) (e : SourceEntry) :
    (s.setSource j e).resetLow = s.resetLow := rfl
@[simp] theorem State.setSource_reply (s : State) (j : RemoteId) (e : SourceEntry) :
    (s.setSource j e).reply = s.reply := rfl
@[simp] theorem State.setSource_pending (s : State) (j : RemoteId) (e : SourceEntry) :
    (s.setSource j e).pending = s.pending := rfl
@[simp] theorem State.setSource_line (s : State) (j : RemoteId) (e : SourceEntry) (l : LineId) :
    (s.setSource j e).line l = s.line l := rfl
@[simp] theorem State.setSource_pin (s : State) (j : RemoteId) (e : SourceEntry) (p : PinId) :
    (s.setSource j e).pin p = s.pin p := rfl
@[simp] theorem State.setSource_filter (s : State) (j : RemoteId) (e : SourceEntry) (p : SenseId) :
    (s.setSource j e).filter p = s.filter p := rfl
@[simp] theorem State.setSource_inStack (s : State) (j : RemoteId) (e : SourceEntry) (l : LineId) :
    (s.setSource j e).inStack l = s.inStack l := rfl
@[simp] theorem State.setSource_deliverable (s : State) (j : RemoteId) (e : SourceEntry) (l : LineId) :
    (s.setSource j e).deliverable l = s.deliverable l := rfl
@[simp] theorem State.setSource_better (s : State) (j : RemoteId) (e : SourceEntry) (b : Option LineId) (l : LineId) :
    (s.setSource j e).better b l = s.better b l := rfl
@[simp] theorem State.setSource_offer (s : State) (j : RemoteId) (e : SourceEntry) :
    (s.setSource j e).offer = s.offer := rfl
@[simp] theorem State.setSource_sreq (s : State) (j : RemoteId) (e : SourceEntry) :
    (s.setSource j e).sreq = s.sreq := rfl
@[simp] theorem State.setSource_summary (s : State) (j : RemoteId) (e : SourceEntry) :
    (s.setSource j e).summary = s.summary := rfl
@[simp] theorem State.setSource_localActive (s : State) (j : RemoteId) (e : SourceEntry) (l : LineId) :
    (s.setSource j e).localActive l = s.localActive l := rfl
@[simp] theorem State.setSource_held (s : State) (j : RemoteId) (e : SourceEntry) :
    (s.setSource j e).held = s.held := rfl
@[simp] theorem State.setSource_paused (s : State) (j : RemoteId) (e : SourceEntry) :
    (s.setSource j e).paused = s.paused := rfl
@[simp] theorem State.setSource_intervalTicks (s : State) (j : RemoteId) (e : SourceEntry) :
    (s.setSource j e).intervalTicks = s.intervalTicks := rfl
@[simp] theorem State.setSource_depth (s : State) (j : RemoteId) (e : SourceEntry) :
    (s.setSource j e).depth = s.depth := rfl

/-! ### `State.setLine` -/

@[simp] theorem State.setLine_reportBase (s : State) (m : LineId) (e : LineEntry) :
    (s.setLine m e).reportBase = s.reportBase := rfl
@[simp] theorem State.setLine_queue (s : State) (m : LineId) (e : LineEntry) :
    (s.setLine m e).queue = s.queue := rfl
@[simp] theorem State.setLine_arrivals (s : State) (m : LineId) (e : LineEntry) :
    (s.setLine m e).arrivals = s.arrivals := rfl
@[simp] theorem State.setLine_applied (s : State) (m : LineId) (e : LineEntry) :
    (s.setLine m e).applied = s.applied := rfl
@[simp] theorem State.setLine_pauseRequest (s : State) (m : LineId) (e : LineEntry) :
    (s.setLine m e).pauseRequest = s.pauseRequest := rfl
@[simp] theorem State.setLine_applying (s : State) (m : LineId) (e : LineEntry) :
    (s.setLine m e).applying = s.applying := rfl
@[simp] theorem State.setLine_appTicked (s : State) (m : LineId) (e : LineEntry) :
    (s.setLine m e).appTicked = s.appTicked := rfl
@[simp] theorem State.setLine_sources (s : State) (m : LineId) (e : LineEntry) :
    (s.setLine m e).sources = s.sources := rfl
@[simp] theorem State.setLine_lines (s : State) (m : LineId) (e : LineEntry) :
    (s.setLine m e).lines = s.lines.set m e := rfl
@[simp] theorem State.setLine_stack (s : State) (m : LineId) (e : LineEntry) :
    (s.setLine m e).stack = s.stack := rfl
@[simp] theorem State.setLine_closeLimit (s : State) (m : LineId) (e : LineEntry) :
    (s.setLine m e).closeLimit = s.closeLimit := rfl
@[simp] theorem State.setLine_closeUnitDue (s : State) (m : LineId) (e : LineEntry) :
    (s.setLine m e).closeUnitDue = s.closeUnitDue := rfl
@[simp] theorem State.setLine_eosResult (s : State) (m : LineId) (e : LineEntry) :
    (s.setLine m e).eosResult = s.eosResult := rfl
@[simp] theorem State.setLine_deadlineMode (s : State) (m : LineId) (e : LineEntry) :
    (s.setLine m e).deadlineMode = s.deadlineMode := rfl
@[simp] theorem State.setLine_deadlineInterval (s : State) (m : LineId) (e : LineEntry) :
    (s.setLine m e).deadlineInterval = s.deadlineInterval := rfl
@[simp] theorem State.setLine_monitor (s : State) (m : LineId) (e : LineEntry) :
    (s.setLine m e).monitor = s.monitor := rfl
@[simp] theorem State.setLine_warning (s : State) (m : LineId) (e : LineEntry) :
    (s.setLine m e).warning = s.warning := rfl
@[simp] theorem State.setLine_record (s : State) (m : LineId) (e : LineEntry) :
    (s.setLine m e).record = s.record := rfl
@[simp] theorem State.setLine_pins (s : State) (m : LineId) (e : LineEntry) :
    (s.setLine m e).pins = s.pins := rfl
@[simp] theorem State.setLine_filters (s : State) (m : LineId) (e : LineEntry) :
    (s.setLine m e).filters = s.filters := rfl
@[simp] theorem State.setLine_eventFlags (s : State) (m : LineId) (e : LineEntry) :
    (s.setLine m e).eventFlags = s.eventFlags := rfl
@[simp] theorem State.setLine_eventEnables (s : State) (m : LineId) (e : LineEntry) :
    (s.setLine m e).eventEnables = s.eventEnables := rfl
@[simp] theorem State.setLine_log (s : State) (m : LineId) (e : LineEntry) :
    (s.setLine m e).log = s.log := rfl
@[simp] theorem State.setLine_checkFailures (s : State) (m : LineId) (e : LineEntry) :
    (s.setLine m e).checkFailures = s.checkFailures := rfl
@[simp] theorem State.setLine_busFaults (s : State) (m : LineId) (e : LineEntry) :
    (s.setLine m e).busFaults = s.busFaults := rfl
@[simp] theorem State.setLine_tsel (s : State) (m : LineId) (e : LineEntry) :
    (s.setLine m e).tsel = s.tsel := rfl
@[simp] theorem State.setLine_staging (s : State) (m : LineId) (e : LineEntry) :
    (s.setLine m e).staging = s.staging := rfl
@[simp] theorem State.setLine_tstat (s : State) (m : LineId) (e : LineEntry) :
    (s.setLine m e).tstat = s.tstat := rfl
@[simp] theorem State.setLine_refclk (s : State) (m : LineId) (e : LineEntry) :
    (s.setLine m e).refclk = s.refclk := rfl
@[simp] theorem State.setLine_timeBase (s : State) (m : LineId) (e : LineEntry) :
    (s.setLine m e).timeBase = s.timeBase := rfl
@[simp] theorem State.setLine_resetCause (s : State) (m : LineId) (e : LineEntry) :
    (s.setLine m e).resetCause = s.resetCause := rfl
@[simp] theorem State.setLine_powerHold (s : State) (m : LineId) (e : LineEntry) :
    (s.setLine m e).powerHold = s.powerHold := rfl
@[simp] theorem State.setLine_softHold (s : State) (m : LineId) (e : LineEntry) :
    (s.setLine m e).softHold = s.softHold := rfl
@[simp] theorem State.setLine_pinHold (s : State) (m : LineId) (e : LineEntry) :
    (s.setLine m e).pinHold = s.pinHold := rfl
@[simp] theorem State.setLine_resetLow (s : State) (m : LineId) (e : LineEntry) :
    (s.setLine m e).resetLow = s.resetLow := rfl
@[simp] theorem State.setLine_reply (s : State) (m : LineId) (e : LineEntry) :
    (s.setLine m e).reply = s.reply := rfl
@[simp] theorem State.setLine_pending (s : State) (m : LineId) (e : LineEntry) :
    (s.setLine m e).pending = s.pending := rfl
@[simp] theorem State.setLine_source (s : State) (m : LineId) (e : LineEntry) (k : RemoteId) :
    (s.setLine m e).source k = s.source k := rfl
@[simp] theorem State.setLine_pin (s : State) (m : LineId) (e : LineEntry) (p : PinId) :
    (s.setLine m e).pin p = s.pin p := rfl
@[simp] theorem State.setLine_filter (s : State) (m : LineId) (e : LineEntry) (p : SenseId) :
    (s.setLine m e).filter p = s.filter p := rfl
@[simp] theorem State.setLine_inStack (s : State) (m : LineId) (e : LineEntry) (l : LineId) :
    (s.setLine m e).inStack l = s.inStack l := rfl
@[simp] theorem State.setLine_summary (s : State) (m : LineId) (e : LineEntry) :
    (s.setLine m e).summary = s.summary := rfl
@[simp] theorem State.setLine_localActive (s : State) (m : LineId) (e : LineEntry) (l : LineId) :
    (s.setLine m e).localActive l = s.localActive l := rfl
@[simp] theorem State.setLine_held (s : State) (m : LineId) (e : LineEntry) :
    (s.setLine m e).held = s.held := rfl
@[simp] theorem State.setLine_paused (s : State) (m : LineId) (e : LineEntry) :
    (s.setLine m e).paused = s.paused := rfl
@[simp] theorem State.setLine_intervalTicks (s : State) (m : LineId) (e : LineEntry) :
    (s.setLine m e).intervalTicks = s.intervalTicks := rfl
@[simp] theorem State.setLine_depth (s : State) (m : LineId) (e : LineEntry) :
    (s.setLine m e).depth = s.depth := rfl

/-! ### `State.setPin` -/

@[simp] theorem State.setPin_reportBase (s : State) (q : PinId) (e : PinEntry) :
    (s.setPin q e).reportBase = s.reportBase := rfl
@[simp] theorem State.setPin_queue (s : State) (q : PinId) (e : PinEntry) :
    (s.setPin q e).queue = s.queue := rfl
@[simp] theorem State.setPin_arrivals (s : State) (q : PinId) (e : PinEntry) :
    (s.setPin q e).arrivals = s.arrivals := rfl
@[simp] theorem State.setPin_applied (s : State) (q : PinId) (e : PinEntry) :
    (s.setPin q e).applied = s.applied := rfl
@[simp] theorem State.setPin_pauseRequest (s : State) (q : PinId) (e : PinEntry) :
    (s.setPin q e).pauseRequest = s.pauseRequest := rfl
@[simp] theorem State.setPin_applying (s : State) (q : PinId) (e : PinEntry) :
    (s.setPin q e).applying = s.applying := rfl
@[simp] theorem State.setPin_appTicked (s : State) (q : PinId) (e : PinEntry) :
    (s.setPin q e).appTicked = s.appTicked := rfl
@[simp] theorem State.setPin_sources (s : State) (q : PinId) (e : PinEntry) :
    (s.setPin q e).sources = s.sources := rfl
@[simp] theorem State.setPin_lines (s : State) (q : PinId) (e : PinEntry) :
    (s.setPin q e).lines = s.lines := rfl
@[simp] theorem State.setPin_stack (s : State) (q : PinId) (e : PinEntry) :
    (s.setPin q e).stack = s.stack := rfl
@[simp] theorem State.setPin_closeLimit (s : State) (q : PinId) (e : PinEntry) :
    (s.setPin q e).closeLimit = s.closeLimit := rfl
@[simp] theorem State.setPin_closeUnitDue (s : State) (q : PinId) (e : PinEntry) :
    (s.setPin q e).closeUnitDue = s.closeUnitDue := rfl
@[simp] theorem State.setPin_eosResult (s : State) (q : PinId) (e : PinEntry) :
    (s.setPin q e).eosResult = s.eosResult := rfl
@[simp] theorem State.setPin_deadlineMode (s : State) (q : PinId) (e : PinEntry) :
    (s.setPin q e).deadlineMode = s.deadlineMode := rfl
@[simp] theorem State.setPin_deadlineInterval (s : State) (q : PinId) (e : PinEntry) :
    (s.setPin q e).deadlineInterval = s.deadlineInterval := rfl
@[simp] theorem State.setPin_monitor (s : State) (q : PinId) (e : PinEntry) :
    (s.setPin q e).monitor = s.monitor := rfl
@[simp] theorem State.setPin_warning (s : State) (q : PinId) (e : PinEntry) :
    (s.setPin q e).warning = s.warning := rfl
@[simp] theorem State.setPin_record (s : State) (q : PinId) (e : PinEntry) :
    (s.setPin q e).record = s.record := rfl
@[simp] theorem State.setPin_pins (s : State) (q : PinId) (e : PinEntry) :
    (s.setPin q e).pins = s.pins.set q e := rfl
@[simp] theorem State.setPin_filters (s : State) (q : PinId) (e : PinEntry) :
    (s.setPin q e).filters = s.filters := rfl
@[simp] theorem State.setPin_eventFlags (s : State) (q : PinId) (e : PinEntry) :
    (s.setPin q e).eventFlags = s.eventFlags := rfl
@[simp] theorem State.setPin_eventEnables (s : State) (q : PinId) (e : PinEntry) :
    (s.setPin q e).eventEnables = s.eventEnables := rfl
@[simp] theorem State.setPin_log (s : State) (q : PinId) (e : PinEntry) :
    (s.setPin q e).log = s.log := rfl
@[simp] theorem State.setPin_checkFailures (s : State) (q : PinId) (e : PinEntry) :
    (s.setPin q e).checkFailures = s.checkFailures := rfl
@[simp] theorem State.setPin_busFaults (s : State) (q : PinId) (e : PinEntry) :
    (s.setPin q e).busFaults = s.busFaults := rfl
@[simp] theorem State.setPin_tsel (s : State) (q : PinId) (e : PinEntry) :
    (s.setPin q e).tsel = s.tsel := rfl
@[simp] theorem State.setPin_staging (s : State) (q : PinId) (e : PinEntry) :
    (s.setPin q e).staging = s.staging := rfl
@[simp] theorem State.setPin_tstat (s : State) (q : PinId) (e : PinEntry) :
    (s.setPin q e).tstat = s.tstat := rfl
@[simp] theorem State.setPin_refclk (s : State) (q : PinId) (e : PinEntry) :
    (s.setPin q e).refclk = s.refclk := rfl
@[simp] theorem State.setPin_timeBase (s : State) (q : PinId) (e : PinEntry) :
    (s.setPin q e).timeBase = s.timeBase := rfl
@[simp] theorem State.setPin_resetCause (s : State) (q : PinId) (e : PinEntry) :
    (s.setPin q e).resetCause = s.resetCause := rfl
@[simp] theorem State.setPin_powerHold (s : State) (q : PinId) (e : PinEntry) :
    (s.setPin q e).powerHold = s.powerHold := rfl
@[simp] theorem State.setPin_softHold (s : State) (q : PinId) (e : PinEntry) :
    (s.setPin q e).softHold = s.softHold := rfl
@[simp] theorem State.setPin_pinHold (s : State) (q : PinId) (e : PinEntry) :
    (s.setPin q e).pinHold = s.pinHold := rfl
@[simp] theorem State.setPin_resetLow (s : State) (q : PinId) (e : PinEntry) :
    (s.setPin q e).resetLow = s.resetLow := rfl
@[simp] theorem State.setPin_reply (s : State) (q : PinId) (e : PinEntry) :
    (s.setPin q e).reply = s.reply := rfl
@[simp] theorem State.setPin_pending (s : State) (q : PinId) (e : PinEntry) :
    (s.setPin q e).pending = s.pending := rfl
@[simp] theorem State.setPin_source (s : State) (q : PinId) (e : PinEntry) (k : RemoteId) :
    (s.setPin q e).source k = s.source k := rfl
@[simp] theorem State.setPin_line (s : State) (q : PinId) (e : PinEntry) (l : LineId) :
    (s.setPin q e).line l = s.line l := rfl
@[simp] theorem State.setPin_filter (s : State) (q : PinId) (e : PinEntry) (p : SenseId) :
    (s.setPin q e).filter p = s.filter p := rfl
@[simp] theorem State.setPin_inStack (s : State) (q : PinId) (e : PinEntry) (l : LineId) :
    (s.setPin q e).inStack l = s.inStack l := rfl
@[simp] theorem State.setPin_deliverable (s : State) (q : PinId) (e : PinEntry) (l : LineId) :
    (s.setPin q e).deliverable l = s.deliverable l := rfl
@[simp] theorem State.setPin_better (s : State) (q : PinId) (e : PinEntry) (b : Option LineId) (l : LineId) :
    (s.setPin q e).better b l = s.better b l := rfl
@[simp] theorem State.setPin_offer (s : State) (q : PinId) (e : PinEntry) :
    (s.setPin q e).offer = s.offer := rfl
@[simp] theorem State.setPin_sreq (s : State) (q : PinId) (e : PinEntry) :
    (s.setPin q e).sreq = s.sreq := rfl
@[simp] theorem State.setPin_summary (s : State) (q : PinId) (e : PinEntry) :
    (s.setPin q e).summary = s.summary := rfl
@[simp] theorem State.setPin_held (s : State) (q : PinId) (e : PinEntry) :
    (s.setPin q e).held = s.held := rfl
@[simp] theorem State.setPin_paused (s : State) (q : PinId) (e : PinEntry) :
    (s.setPin q e).paused = s.paused := rfl
@[simp] theorem State.setPin_intervalTicks (s : State) (q : PinId) (e : PinEntry) :
    (s.setPin q e).intervalTicks = s.intervalTicks := rfl
@[simp] theorem State.setPin_depth (s : State) (q : PinId) (e : PinEntry) :
    (s.setPin q e).depth = s.depth := rfl

/-! ### `State.setFilter` -/

@[simp] theorem State.setFilter_reportBase (s : State) (q : SenseId) (e : PinFilter) :
    (s.setFilter q e).reportBase = s.reportBase := rfl
@[simp] theorem State.setFilter_queue (s : State) (q : SenseId) (e : PinFilter) :
    (s.setFilter q e).queue = s.queue := rfl
@[simp] theorem State.setFilter_arrivals (s : State) (q : SenseId) (e : PinFilter) :
    (s.setFilter q e).arrivals = s.arrivals := rfl
@[simp] theorem State.setFilter_applied (s : State) (q : SenseId) (e : PinFilter) :
    (s.setFilter q e).applied = s.applied := rfl
@[simp] theorem State.setFilter_pauseRequest (s : State) (q : SenseId) (e : PinFilter) :
    (s.setFilter q e).pauseRequest = s.pauseRequest := rfl
@[simp] theorem State.setFilter_applying (s : State) (q : SenseId) (e : PinFilter) :
    (s.setFilter q e).applying = s.applying := rfl
@[simp] theorem State.setFilter_appTicked (s : State) (q : SenseId) (e : PinFilter) :
    (s.setFilter q e).appTicked = s.appTicked := rfl
@[simp] theorem State.setFilter_sources (s : State) (q : SenseId) (e : PinFilter) :
    (s.setFilter q e).sources = s.sources := rfl
@[simp] theorem State.setFilter_lines (s : State) (q : SenseId) (e : PinFilter) :
    (s.setFilter q e).lines = s.lines := rfl
@[simp] theorem State.setFilter_stack (s : State) (q : SenseId) (e : PinFilter) :
    (s.setFilter q e).stack = s.stack := rfl
@[simp] theorem State.setFilter_closeLimit (s : State) (q : SenseId) (e : PinFilter) :
    (s.setFilter q e).closeLimit = s.closeLimit := rfl
@[simp] theorem State.setFilter_closeUnitDue (s : State) (q : SenseId) (e : PinFilter) :
    (s.setFilter q e).closeUnitDue = s.closeUnitDue := rfl
@[simp] theorem State.setFilter_eosResult (s : State) (q : SenseId) (e : PinFilter) :
    (s.setFilter q e).eosResult = s.eosResult := rfl
@[simp] theorem State.setFilter_deadlineMode (s : State) (q : SenseId) (e : PinFilter) :
    (s.setFilter q e).deadlineMode = s.deadlineMode := rfl
@[simp] theorem State.setFilter_deadlineInterval (s : State) (q : SenseId) (e : PinFilter) :
    (s.setFilter q e).deadlineInterval = s.deadlineInterval := rfl
@[simp] theorem State.setFilter_monitor (s : State) (q : SenseId) (e : PinFilter) :
    (s.setFilter q e).monitor = s.monitor := rfl
@[simp] theorem State.setFilter_warning (s : State) (q : SenseId) (e : PinFilter) :
    (s.setFilter q e).warning = s.warning := rfl
@[simp] theorem State.setFilter_record (s : State) (q : SenseId) (e : PinFilter) :
    (s.setFilter q e).record = s.record := rfl
@[simp] theorem State.setFilter_pins (s : State) (q : SenseId) (e : PinFilter) :
    (s.setFilter q e).pins = s.pins := rfl
@[simp] theorem State.setFilter_filters (s : State) (q : SenseId) (e : PinFilter) :
    (s.setFilter q e).filters = s.filters.set q e := rfl
@[simp] theorem State.setFilter_eventFlags (s : State) (q : SenseId) (e : PinFilter) :
    (s.setFilter q e).eventFlags = s.eventFlags := rfl
@[simp] theorem State.setFilter_eventEnables (s : State) (q : SenseId) (e : PinFilter) :
    (s.setFilter q e).eventEnables = s.eventEnables := rfl
@[simp] theorem State.setFilter_log (s : State) (q : SenseId) (e : PinFilter) :
    (s.setFilter q e).log = s.log := rfl
@[simp] theorem State.setFilter_checkFailures (s : State) (q : SenseId) (e : PinFilter) :
    (s.setFilter q e).checkFailures = s.checkFailures := rfl
@[simp] theorem State.setFilter_busFaults (s : State) (q : SenseId) (e : PinFilter) :
    (s.setFilter q e).busFaults = s.busFaults := rfl
@[simp] theorem State.setFilter_tsel (s : State) (q : SenseId) (e : PinFilter) :
    (s.setFilter q e).tsel = s.tsel := rfl
@[simp] theorem State.setFilter_staging (s : State) (q : SenseId) (e : PinFilter) :
    (s.setFilter q e).staging = s.staging := rfl
@[simp] theorem State.setFilter_tstat (s : State) (q : SenseId) (e : PinFilter) :
    (s.setFilter q e).tstat = s.tstat := rfl
@[simp] theorem State.setFilter_refclk (s : State) (q : SenseId) (e : PinFilter) :
    (s.setFilter q e).refclk = s.refclk := rfl
@[simp] theorem State.setFilter_timeBase (s : State) (q : SenseId) (e : PinFilter) :
    (s.setFilter q e).timeBase = s.timeBase := rfl
@[simp] theorem State.setFilter_resetCause (s : State) (q : SenseId) (e : PinFilter) :
    (s.setFilter q e).resetCause = s.resetCause := rfl
@[simp] theorem State.setFilter_powerHold (s : State) (q : SenseId) (e : PinFilter) :
    (s.setFilter q e).powerHold = s.powerHold := rfl
@[simp] theorem State.setFilter_softHold (s : State) (q : SenseId) (e : PinFilter) :
    (s.setFilter q e).softHold = s.softHold := rfl
@[simp] theorem State.setFilter_pinHold (s : State) (q : SenseId) (e : PinFilter) :
    (s.setFilter q e).pinHold = s.pinHold := rfl
@[simp] theorem State.setFilter_resetLow (s : State) (q : SenseId) (e : PinFilter) :
    (s.setFilter q e).resetLow = s.resetLow := rfl
@[simp] theorem State.setFilter_reply (s : State) (q : SenseId) (e : PinFilter) :
    (s.setFilter q e).reply = s.reply := rfl
@[simp] theorem State.setFilter_pending (s : State) (q : SenseId) (e : PinFilter) :
    (s.setFilter q e).pending = s.pending := rfl
@[simp] theorem State.setFilter_source (s : State) (q : SenseId) (e : PinFilter) (k : RemoteId) :
    (s.setFilter q e).source k = s.source k := rfl
@[simp] theorem State.setFilter_line (s : State) (q : SenseId) (e : PinFilter) (l : LineId) :
    (s.setFilter q e).line l = s.line l := rfl
@[simp] theorem State.setFilter_pin (s : State) (q : SenseId) (e : PinFilter) (p : PinId) :
    (s.setFilter q e).pin p = s.pin p := rfl
@[simp] theorem State.setFilter_inStack (s : State) (q : SenseId) (e : PinFilter) (l : LineId) :
    (s.setFilter q e).inStack l = s.inStack l := rfl
@[simp] theorem State.setFilter_deliverable (s : State) (q : SenseId) (e : PinFilter) (l : LineId) :
    (s.setFilter q e).deliverable l = s.deliverable l := rfl
@[simp] theorem State.setFilter_better (s : State) (q : SenseId) (e : PinFilter) (b : Option LineId) (l : LineId) :
    (s.setFilter q e).better b l = s.better b l := rfl
@[simp] theorem State.setFilter_offer (s : State) (q : SenseId) (e : PinFilter) :
    (s.setFilter q e).offer = s.offer := rfl
@[simp] theorem State.setFilter_sreq (s : State) (q : SenseId) (e : PinFilter) :
    (s.setFilter q e).sreq = s.sreq := rfl
@[simp] theorem State.setFilter_summary (s : State) (q : SenseId) (e : PinFilter) :
    (s.setFilter q e).summary = s.summary := rfl
@[simp] theorem State.setFilter_held (s : State) (q : SenseId) (e : PinFilter) :
    (s.setFilter q e).held = s.held := rfl
@[simp] theorem State.setFilter_paused (s : State) (q : SenseId) (e : PinFilter) :
    (s.setFilter q e).paused = s.paused := rfl
@[simp] theorem State.setFilter_intervalTicks (s : State) (q : SenseId) (e : PinFilter) :
    (s.setFilter q e).intervalTicks = s.intervalTicks := rfl
@[simp] theorem State.setFilter_depth (s : State) (q : SenseId) (e : PinFilter) :
    (s.setFilter q e).depth = s.depth := rfl

/-! ### `State.mapLines` -/

@[simp] theorem State.mapLines_reportBase (s : State) (f : LineId → LineEntry → LineEntry) :
    (s.mapLines f).reportBase = s.reportBase := by simp only [State.mapLines]
@[simp] theorem State.mapLines_queue (s : State) (f : LineId → LineEntry → LineEntry) :
    (s.mapLines f).queue = s.queue := by simp only [State.mapLines]
@[simp] theorem State.mapLines_arrivals (s : State) (f : LineId → LineEntry → LineEntry) :
    (s.mapLines f).arrivals = s.arrivals := by simp only [State.mapLines]
@[simp] theorem State.mapLines_applied (s : State) (f : LineId → LineEntry → LineEntry) :
    (s.mapLines f).applied = s.applied := by simp only [State.mapLines]
@[simp] theorem State.mapLines_pauseRequest (s : State) (f : LineId → LineEntry → LineEntry) :
    (s.mapLines f).pauseRequest = s.pauseRequest := by simp only [State.mapLines]
@[simp] theorem State.mapLines_applying (s : State) (f : LineId → LineEntry → LineEntry) :
    (s.mapLines f).applying = s.applying := by simp only [State.mapLines]
@[simp] theorem State.mapLines_appTicked (s : State) (f : LineId → LineEntry → LineEntry) :
    (s.mapLines f).appTicked = s.appTicked := by simp only [State.mapLines]
@[simp] theorem State.mapLines_sources (s : State) (f : LineId → LineEntry → LineEntry) :
    (s.mapLines f).sources = s.sources := by simp only [State.mapLines]
@[simp] theorem State.mapLines_lines (s : State) (f : LineId → LineEntry → LineEntry) :
    (s.mapLines f).lines = Vector.ofFn fun l : LineId => f l s.lines[l] := by simp only [State.mapLines]
@[simp] theorem State.mapLines_stack (s : State) (f : LineId → LineEntry → LineEntry) :
    (s.mapLines f).stack = s.stack := by simp only [State.mapLines]
@[simp] theorem State.mapLines_closeLimit (s : State) (f : LineId → LineEntry → LineEntry) :
    (s.mapLines f).closeLimit = s.closeLimit := by simp only [State.mapLines]
@[simp] theorem State.mapLines_closeUnitDue (s : State) (f : LineId → LineEntry → LineEntry) :
    (s.mapLines f).closeUnitDue = s.closeUnitDue := by simp only [State.mapLines]
@[simp] theorem State.mapLines_eosResult (s : State) (f : LineId → LineEntry → LineEntry) :
    (s.mapLines f).eosResult = s.eosResult := by simp only [State.mapLines]
@[simp] theorem State.mapLines_deadlineMode (s : State) (f : LineId → LineEntry → LineEntry) :
    (s.mapLines f).deadlineMode = s.deadlineMode := by simp only [State.mapLines]
@[simp] theorem State.mapLines_deadlineInterval (s : State) (f : LineId → LineEntry → LineEntry) :
    (s.mapLines f).deadlineInterval = s.deadlineInterval := by simp only [State.mapLines]
@[simp] theorem State.mapLines_monitor (s : State) (f : LineId → LineEntry → LineEntry) :
    (s.mapLines f).monitor = s.monitor := by simp only [State.mapLines]
@[simp] theorem State.mapLines_warning (s : State) (f : LineId → LineEntry → LineEntry) :
    (s.mapLines f).warning = s.warning := by simp only [State.mapLines]
@[simp] theorem State.mapLines_record (s : State) (f : LineId → LineEntry → LineEntry) :
    (s.mapLines f).record = s.record := by simp only [State.mapLines]
@[simp] theorem State.mapLines_pins (s : State) (f : LineId → LineEntry → LineEntry) :
    (s.mapLines f).pins = s.pins := by simp only [State.mapLines]
@[simp] theorem State.mapLines_filters (s : State) (f : LineId → LineEntry → LineEntry) :
    (s.mapLines f).filters = s.filters := by simp only [State.mapLines]
@[simp] theorem State.mapLines_eventFlags (s : State) (f : LineId → LineEntry → LineEntry) :
    (s.mapLines f).eventFlags = s.eventFlags := by simp only [State.mapLines]
@[simp] theorem State.mapLines_eventEnables (s : State) (f : LineId → LineEntry → LineEntry) :
    (s.mapLines f).eventEnables = s.eventEnables := by simp only [State.mapLines]
@[simp] theorem State.mapLines_log (s : State) (f : LineId → LineEntry → LineEntry) :
    (s.mapLines f).log = s.log := by simp only [State.mapLines]
@[simp] theorem State.mapLines_checkFailures (s : State) (f : LineId → LineEntry → LineEntry) :
    (s.mapLines f).checkFailures = s.checkFailures := by simp only [State.mapLines]
@[simp] theorem State.mapLines_busFaults (s : State) (f : LineId → LineEntry → LineEntry) :
    (s.mapLines f).busFaults = s.busFaults := by simp only [State.mapLines]
@[simp] theorem State.mapLines_tsel (s : State) (f : LineId → LineEntry → LineEntry) :
    (s.mapLines f).tsel = s.tsel := by simp only [State.mapLines]
@[simp] theorem State.mapLines_staging (s : State) (f : LineId → LineEntry → LineEntry) :
    (s.mapLines f).staging = s.staging := by simp only [State.mapLines]
@[simp] theorem State.mapLines_tstat (s : State) (f : LineId → LineEntry → LineEntry) :
    (s.mapLines f).tstat = s.tstat := by simp only [State.mapLines]
@[simp] theorem State.mapLines_refclk (s : State) (f : LineId → LineEntry → LineEntry) :
    (s.mapLines f).refclk = s.refclk := by simp only [State.mapLines]
@[simp] theorem State.mapLines_timeBase (s : State) (f : LineId → LineEntry → LineEntry) :
    (s.mapLines f).timeBase = s.timeBase := by simp only [State.mapLines]
@[simp] theorem State.mapLines_resetCause (s : State) (f : LineId → LineEntry → LineEntry) :
    (s.mapLines f).resetCause = s.resetCause := by simp only [State.mapLines]
@[simp] theorem State.mapLines_powerHold (s : State) (f : LineId → LineEntry → LineEntry) :
    (s.mapLines f).powerHold = s.powerHold := by simp only [State.mapLines]
@[simp] theorem State.mapLines_softHold (s : State) (f : LineId → LineEntry → LineEntry) :
    (s.mapLines f).softHold = s.softHold := by simp only [State.mapLines]
@[simp] theorem State.mapLines_pinHold (s : State) (f : LineId → LineEntry → LineEntry) :
    (s.mapLines f).pinHold = s.pinHold := by simp only [State.mapLines]
@[simp] theorem State.mapLines_resetLow (s : State) (f : LineId → LineEntry → LineEntry) :
    (s.mapLines f).resetLow = s.resetLow := by simp only [State.mapLines]
@[simp] theorem State.mapLines_reply (s : State) (f : LineId → LineEntry → LineEntry) :
    (s.mapLines f).reply = s.reply := by simp only [State.mapLines]
@[simp] theorem State.mapLines_pending (s : State) (f : LineId → LineEntry → LineEntry) :
    (s.mapLines f).pending = s.pending := by simp only [State.mapLines]
@[simp] theorem State.mapLines_source (s : State) (f : LineId → LineEntry → LineEntry) (k : RemoteId) :
    (s.mapLines f).source k = s.source k := by
  simp only [State.source, State.mapLines_sources]
@[simp] theorem State.mapLines_pin (s : State) (f : LineId → LineEntry → LineEntry) (p : PinId) :
    (s.mapLines f).pin p = s.pin p := by
  simp only [State.pin, State.mapLines_pins]
@[simp] theorem State.mapLines_filter (s : State) (f : LineId → LineEntry → LineEntry) (p : SenseId) :
    (s.mapLines f).filter p = s.filter p := by
  simp only [State.filter, State.mapLines_filters]
@[simp] theorem State.mapLines_inStack (s : State) (f : LineId → LineEntry → LineEntry) (l : LineId) :
    (s.mapLines f).inStack l = s.inStack l := by
  simp only [State.inStack, State.mapLines_stack]
@[simp] theorem State.mapLines_summary (s : State) (f : LineId → LineEntry → LineEntry) :
    (s.mapLines f).summary = s.summary := by
  simp only [State.summary, State.mapLines_eventFlags, State.mapLines_eventEnables]
@[simp] theorem State.mapLines_localActive (s : State) (f : LineId → LineEntry → LineEntry) (l : LineId) :
    (s.mapLines f).localActive l = s.localActive l := by
  simp only [State.localActive, State.pinActive, State.pinLevel, State.pin, State.filter, State.summary, State.mapLines_pins, State.mapLines_filters, State.mapLines_eventFlags, State.mapLines_eventEnables]
@[simp] theorem State.mapLines_held (s : State) (f : LineId → LineEntry → LineEntry) :
    (s.mapLines f).held = s.held := by
  simp only [State.held, State.mapLines_powerHold, State.mapLines_softHold, State.mapLines_pinHold, State.mapLines_monitor]
@[simp] theorem State.mapLines_paused (s : State) (f : LineId → LineEntry → LineEntry) :
    (s.mapLines f).paused = s.paused := by
  simp only [State.paused, State.mapLines_pauseRequest, State.mapLines_applying]
@[simp] theorem State.mapLines_intervalTicks (s : State) (f : LineId → LineEntry → LineEntry) :
    (s.mapLines f).intervalTicks = s.intervalTicks := by
  simp only [State.intervalTicks, State.mapLines_deadlineInterval]
@[simp] theorem State.mapLines_depth (s : State) (f : LineId → LineEntry → LineEntry) :
    (s.mapLines f).depth = s.depth := by
  simp only [State.depth, State.mapLines_stack]

/-! ### `State.mapSources` -/

@[simp] theorem State.mapSources_reportBase (s : State) (f : RemoteId → SourceEntry → SourceEntry) :
    (s.mapSources f).reportBase = s.reportBase := by simp only [State.mapSources]
@[simp] theorem State.mapSources_queue (s : State) (f : RemoteId → SourceEntry → SourceEntry) :
    (s.mapSources f).queue = s.queue := by simp only [State.mapSources]
@[simp] theorem State.mapSources_arrivals (s : State) (f : RemoteId → SourceEntry → SourceEntry) :
    (s.mapSources f).arrivals = s.arrivals := by simp only [State.mapSources]
@[simp] theorem State.mapSources_applied (s : State) (f : RemoteId → SourceEntry → SourceEntry) :
    (s.mapSources f).applied = s.applied := by simp only [State.mapSources]
@[simp] theorem State.mapSources_pauseRequest (s : State) (f : RemoteId → SourceEntry → SourceEntry) :
    (s.mapSources f).pauseRequest = s.pauseRequest := by simp only [State.mapSources]
@[simp] theorem State.mapSources_applying (s : State) (f : RemoteId → SourceEntry → SourceEntry) :
    (s.mapSources f).applying = s.applying := by simp only [State.mapSources]
@[simp] theorem State.mapSources_appTicked (s : State) (f : RemoteId → SourceEntry → SourceEntry) :
    (s.mapSources f).appTicked = s.appTicked := by simp only [State.mapSources]
@[simp] theorem State.mapSources_sources (s : State) (f : RemoteId → SourceEntry → SourceEntry) :
    (s.mapSources f).sources = Vector.ofFn fun k : RemoteId => f k s.sources[k] := by simp only [State.mapSources]
@[simp] theorem State.mapSources_lines (s : State) (f : RemoteId → SourceEntry → SourceEntry) :
    (s.mapSources f).lines = s.lines := by simp only [State.mapSources]
@[simp] theorem State.mapSources_stack (s : State) (f : RemoteId → SourceEntry → SourceEntry) :
    (s.mapSources f).stack = s.stack := by simp only [State.mapSources]
@[simp] theorem State.mapSources_closeLimit (s : State) (f : RemoteId → SourceEntry → SourceEntry) :
    (s.mapSources f).closeLimit = s.closeLimit := by simp only [State.mapSources]
@[simp] theorem State.mapSources_closeUnitDue (s : State) (f : RemoteId → SourceEntry → SourceEntry) :
    (s.mapSources f).closeUnitDue = s.closeUnitDue := by simp only [State.mapSources]
@[simp] theorem State.mapSources_eosResult (s : State) (f : RemoteId → SourceEntry → SourceEntry) :
    (s.mapSources f).eosResult = s.eosResult := by simp only [State.mapSources]
@[simp] theorem State.mapSources_deadlineMode (s : State) (f : RemoteId → SourceEntry → SourceEntry) :
    (s.mapSources f).deadlineMode = s.deadlineMode := by simp only [State.mapSources]
@[simp] theorem State.mapSources_deadlineInterval (s : State) (f : RemoteId → SourceEntry → SourceEntry) :
    (s.mapSources f).deadlineInterval = s.deadlineInterval := by simp only [State.mapSources]
@[simp] theorem State.mapSources_monitor (s : State) (f : RemoteId → SourceEntry → SourceEntry) :
    (s.mapSources f).monitor = s.monitor := by simp only [State.mapSources]
@[simp] theorem State.mapSources_warning (s : State) (f : RemoteId → SourceEntry → SourceEntry) :
    (s.mapSources f).warning = s.warning := by simp only [State.mapSources]
@[simp] theorem State.mapSources_record (s : State) (f : RemoteId → SourceEntry → SourceEntry) :
    (s.mapSources f).record = s.record := by simp only [State.mapSources]
@[simp] theorem State.mapSources_pins (s : State) (f : RemoteId → SourceEntry → SourceEntry) :
    (s.mapSources f).pins = s.pins := by simp only [State.mapSources]
@[simp] theorem State.mapSources_filters (s : State) (f : RemoteId → SourceEntry → SourceEntry) :
    (s.mapSources f).filters = s.filters := by simp only [State.mapSources]
@[simp] theorem State.mapSources_eventFlags (s : State) (f : RemoteId → SourceEntry → SourceEntry) :
    (s.mapSources f).eventFlags = s.eventFlags := by simp only [State.mapSources]
@[simp] theorem State.mapSources_eventEnables (s : State) (f : RemoteId → SourceEntry → SourceEntry) :
    (s.mapSources f).eventEnables = s.eventEnables := by simp only [State.mapSources]
@[simp] theorem State.mapSources_log (s : State) (f : RemoteId → SourceEntry → SourceEntry) :
    (s.mapSources f).log = s.log := by simp only [State.mapSources]
@[simp] theorem State.mapSources_checkFailures (s : State) (f : RemoteId → SourceEntry → SourceEntry) :
    (s.mapSources f).checkFailures = s.checkFailures := by simp only [State.mapSources]
@[simp] theorem State.mapSources_busFaults (s : State) (f : RemoteId → SourceEntry → SourceEntry) :
    (s.mapSources f).busFaults = s.busFaults := by simp only [State.mapSources]
@[simp] theorem State.mapSources_tsel (s : State) (f : RemoteId → SourceEntry → SourceEntry) :
    (s.mapSources f).tsel = s.tsel := by simp only [State.mapSources]
@[simp] theorem State.mapSources_staging (s : State) (f : RemoteId → SourceEntry → SourceEntry) :
    (s.mapSources f).staging = s.staging := by simp only [State.mapSources]
@[simp] theorem State.mapSources_tstat (s : State) (f : RemoteId → SourceEntry → SourceEntry) :
    (s.mapSources f).tstat = s.tstat := by simp only [State.mapSources]
@[simp] theorem State.mapSources_refclk (s : State) (f : RemoteId → SourceEntry → SourceEntry) :
    (s.mapSources f).refclk = s.refclk := by simp only [State.mapSources]
@[simp] theorem State.mapSources_timeBase (s : State) (f : RemoteId → SourceEntry → SourceEntry) :
    (s.mapSources f).timeBase = s.timeBase := by simp only [State.mapSources]
@[simp] theorem State.mapSources_resetCause (s : State) (f : RemoteId → SourceEntry → SourceEntry) :
    (s.mapSources f).resetCause = s.resetCause := by simp only [State.mapSources]
@[simp] theorem State.mapSources_powerHold (s : State) (f : RemoteId → SourceEntry → SourceEntry) :
    (s.mapSources f).powerHold = s.powerHold := by simp only [State.mapSources]
@[simp] theorem State.mapSources_softHold (s : State) (f : RemoteId → SourceEntry → SourceEntry) :
    (s.mapSources f).softHold = s.softHold := by simp only [State.mapSources]
@[simp] theorem State.mapSources_pinHold (s : State) (f : RemoteId → SourceEntry → SourceEntry) :
    (s.mapSources f).pinHold = s.pinHold := by simp only [State.mapSources]
@[simp] theorem State.mapSources_resetLow (s : State) (f : RemoteId → SourceEntry → SourceEntry) :
    (s.mapSources f).resetLow = s.resetLow := by simp only [State.mapSources]
@[simp] theorem State.mapSources_reply (s : State) (f : RemoteId → SourceEntry → SourceEntry) :
    (s.mapSources f).reply = s.reply := by simp only [State.mapSources]
@[simp] theorem State.mapSources_pending (s : State) (f : RemoteId → SourceEntry → SourceEntry) :
    (s.mapSources f).pending = s.pending := by simp only [State.mapSources]
@[simp] theorem State.mapSources_line (s : State) (f : RemoteId → SourceEntry → SourceEntry) (l : LineId) :
    (s.mapSources f).line l = s.line l := by
  simp only [State.line, State.mapSources_lines]
@[simp] theorem State.mapSources_pin (s : State) (f : RemoteId → SourceEntry → SourceEntry) (p : PinId) :
    (s.mapSources f).pin p = s.pin p := by
  simp only [State.pin, State.mapSources_pins]
@[simp] theorem State.mapSources_filter (s : State) (f : RemoteId → SourceEntry → SourceEntry) (p : SenseId) :
    (s.mapSources f).filter p = s.filter p := by
  simp only [State.filter, State.mapSources_filters]
@[simp] theorem State.mapSources_inStack (s : State) (f : RemoteId → SourceEntry → SourceEntry) (l : LineId) :
    (s.mapSources f).inStack l = s.inStack l := by
  simp only [State.inStack, State.mapSources_stack]
@[simp] theorem State.mapSources_deliverable (s : State) (f : RemoteId → SourceEntry → SourceEntry) (l : LineId) :
    (s.mapSources f).deliverable l = s.deliverable l := by
  simp only [State.deliverable, State.line, State.inStack, State.passesGate, State.mapSources_lines, State.mapSources_stack]
@[simp] theorem State.mapSources_better (s : State) (f : RemoteId → SourceEntry → SourceEntry) (b : Option LineId) (l : LineId) :
    (s.mapSources f).better b l = s.better b l := by
  simp only [State.better, State.mapSources_deliverable, State.mapSources_line]
@[simp] theorem State.mapSources_offer (s : State) (f : RemoteId → SourceEntry → SourceEntry) :
    (s.mapSources f).offer = s.offer := by
  simp only [State.offer, funext₂ fun b l => State.mapSources_better s f b l]
@[simp] theorem State.mapSources_sreq (s : State) (f : RemoteId → SourceEntry → SourceEntry) :
    (s.mapSources f).sreq = s.sreq := by
  simp only [State.sreq, funext (State.mapSources_deliverable s f)]
@[simp] theorem State.mapSources_summary (s : State) (f : RemoteId → SourceEntry → SourceEntry) :
    (s.mapSources f).summary = s.summary := by
  simp only [State.summary, State.mapSources_eventFlags, State.mapSources_eventEnables]
@[simp] theorem State.mapSources_localActive (s : State) (f : RemoteId → SourceEntry → SourceEntry) (l : LineId) :
    (s.mapSources f).localActive l = s.localActive l := by
  simp only [State.localActive, State.pinActive, State.pinLevel, State.pin, State.filter, State.summary, State.mapSources_pins, State.mapSources_filters, State.mapSources_eventFlags, State.mapSources_eventEnables]
@[simp] theorem State.mapSources_held (s : State) (f : RemoteId → SourceEntry → SourceEntry) :
    (s.mapSources f).held = s.held := by
  simp only [State.held, State.mapSources_powerHold, State.mapSources_softHold, State.mapSources_pinHold, State.mapSources_monitor]
@[simp] theorem State.mapSources_paused (s : State) (f : RemoteId → SourceEntry → SourceEntry) :
    (s.mapSources f).paused = s.paused := by
  simp only [State.paused, State.mapSources_pauseRequest, State.mapSources_applying]
@[simp] theorem State.mapSources_intervalTicks (s : State) (f : RemoteId → SourceEntry → SourceEntry) :
    (s.mapSources f).intervalTicks = s.intervalTicks := by
  simp only [State.intervalTicks, State.mapSources_deadlineInterval]
@[simp] theorem State.mapSources_depth (s : State) (f : RemoteId → SourceEntry → SourceEntry) :
    (s.mapSources f).depth = s.depth := by
  simp only [State.depth, State.mapSources_stack]

/-! ### `State.withdraw` -/

@[simp] theorem State.withdraw_reportBase (s : State) (j : RemoteId) (m : LineSet) :
    (s.withdraw j m).reportBase = s.reportBase := by
  unfold State.withdraw; simp only [State.mapLines_reportBase]
@[simp] theorem State.withdraw_queue (s : State) (j : RemoteId) (m : LineSet) :
    (s.withdraw j m).queue = s.queue := by
  unfold State.withdraw; simp only [State.mapLines_queue]
@[simp] theorem State.withdraw_arrivals (s : State) (j : RemoteId) (m : LineSet) :
    (s.withdraw j m).arrivals = s.arrivals := by
  unfold State.withdraw; simp only [State.mapLines_arrivals]
@[simp] theorem State.withdraw_applied (s : State) (j : RemoteId) (m : LineSet) :
    (s.withdraw j m).applied = s.applied := by
  unfold State.withdraw; simp only [State.mapLines_applied]
@[simp] theorem State.withdraw_pauseRequest (s : State) (j : RemoteId) (m : LineSet) :
    (s.withdraw j m).pauseRequest = s.pauseRequest := by
  unfold State.withdraw; simp only [State.mapLines_pauseRequest]
@[simp] theorem State.withdraw_applying (s : State) (j : RemoteId) (m : LineSet) :
    (s.withdraw j m).applying = s.applying := by
  unfold State.withdraw; simp only [State.mapLines_applying]
@[simp] theorem State.withdraw_appTicked (s : State) (j : RemoteId) (m : LineSet) :
    (s.withdraw j m).appTicked = s.appTicked := by
  unfold State.withdraw; simp only [State.mapLines_appTicked]
@[simp] theorem State.withdraw_sources (s : State) (j : RemoteId) (m : LineSet) :
    (s.withdraw j m).sources = s.sources := by
  unfold State.withdraw; simp only [State.mapLines_sources]
@[simp] theorem State.withdraw_stack (s : State) (j : RemoteId) (m : LineSet) :
    (s.withdraw j m).stack = s.stack := by
  unfold State.withdraw; simp only [State.mapLines_stack]
@[simp] theorem State.withdraw_closeLimit (s : State) (j : RemoteId) (m : LineSet) :
    (s.withdraw j m).closeLimit = s.closeLimit := by
  unfold State.withdraw; simp only [State.mapLines_closeLimit]
@[simp] theorem State.withdraw_closeUnitDue (s : State) (j : RemoteId) (m : LineSet) :
    (s.withdraw j m).closeUnitDue = s.closeUnitDue := by
  unfold State.withdraw; simp only [State.mapLines_closeUnitDue]
@[simp] theorem State.withdraw_eosResult (s : State) (j : RemoteId) (m : LineSet) :
    (s.withdraw j m).eosResult = s.eosResult := by
  unfold State.withdraw; simp only [State.mapLines_eosResult]
@[simp] theorem State.withdraw_deadlineMode (s : State) (j : RemoteId) (m : LineSet) :
    (s.withdraw j m).deadlineMode = s.deadlineMode := by
  unfold State.withdraw; simp only [State.mapLines_deadlineMode]
@[simp] theorem State.withdraw_deadlineInterval (s : State) (j : RemoteId) (m : LineSet) :
    (s.withdraw j m).deadlineInterval = s.deadlineInterval := by
  unfold State.withdraw; simp only [State.mapLines_deadlineInterval]
@[simp] theorem State.withdraw_monitor (s : State) (j : RemoteId) (m : LineSet) :
    (s.withdraw j m).monitor = s.monitor := by
  unfold State.withdraw; simp only [State.mapLines_monitor]
@[simp] theorem State.withdraw_warning (s : State) (j : RemoteId) (m : LineSet) :
    (s.withdraw j m).warning = s.warning := by
  unfold State.withdraw; simp only [State.mapLines_warning]
@[simp] theorem State.withdraw_record (s : State) (j : RemoteId) (m : LineSet) :
    (s.withdraw j m).record = s.record := by
  unfold State.withdraw; simp only [State.mapLines_record]
@[simp] theorem State.withdraw_pins (s : State) (j : RemoteId) (m : LineSet) :
    (s.withdraw j m).pins = s.pins := by
  unfold State.withdraw; simp only [State.mapLines_pins]
@[simp] theorem State.withdraw_filters (s : State) (j : RemoteId) (m : LineSet) :
    (s.withdraw j m).filters = s.filters := by
  unfold State.withdraw; simp only [State.mapLines_filters]
@[simp] theorem State.withdraw_eventFlags (s : State) (j : RemoteId) (m : LineSet) :
    (s.withdraw j m).eventFlags = s.eventFlags := by
  unfold State.withdraw; simp only [State.mapLines_eventFlags]
@[simp] theorem State.withdraw_eventEnables (s : State) (j : RemoteId) (m : LineSet) :
    (s.withdraw j m).eventEnables = s.eventEnables := by
  unfold State.withdraw; simp only [State.mapLines_eventEnables]
@[simp] theorem State.withdraw_log (s : State) (j : RemoteId) (m : LineSet) :
    (s.withdraw j m).log = s.log := by
  unfold State.withdraw; simp only [State.mapLines_log]
@[simp] theorem State.withdraw_checkFailures (s : State) (j : RemoteId) (m : LineSet) :
    (s.withdraw j m).checkFailures = s.checkFailures := by
  unfold State.withdraw; simp only [State.mapLines_checkFailures]
@[simp] theorem State.withdraw_busFaults (s : State) (j : RemoteId) (m : LineSet) :
    (s.withdraw j m).busFaults = s.busFaults := by
  unfold State.withdraw; simp only [State.mapLines_busFaults]
@[simp] theorem State.withdraw_tsel (s : State) (j : RemoteId) (m : LineSet) :
    (s.withdraw j m).tsel = s.tsel := by
  unfold State.withdraw; simp only [State.mapLines_tsel]
@[simp] theorem State.withdraw_staging (s : State) (j : RemoteId) (m : LineSet) :
    (s.withdraw j m).staging = s.staging := by
  unfold State.withdraw; simp only [State.mapLines_staging]
@[simp] theorem State.withdraw_tstat (s : State) (j : RemoteId) (m : LineSet) :
    (s.withdraw j m).tstat = s.tstat := by
  unfold State.withdraw; simp only [State.mapLines_tstat]
@[simp] theorem State.withdraw_refclk (s : State) (j : RemoteId) (m : LineSet) :
    (s.withdraw j m).refclk = s.refclk := by
  unfold State.withdraw; simp only [State.mapLines_refclk]
@[simp] theorem State.withdraw_timeBase (s : State) (j : RemoteId) (m : LineSet) :
    (s.withdraw j m).timeBase = s.timeBase := by
  unfold State.withdraw; simp only [State.mapLines_timeBase]
@[simp] theorem State.withdraw_resetCause (s : State) (j : RemoteId) (m : LineSet) :
    (s.withdraw j m).resetCause = s.resetCause := by
  unfold State.withdraw; simp only [State.mapLines_resetCause]
@[simp] theorem State.withdraw_powerHold (s : State) (j : RemoteId) (m : LineSet) :
    (s.withdraw j m).powerHold = s.powerHold := by
  unfold State.withdraw; simp only [State.mapLines_powerHold]
@[simp] theorem State.withdraw_softHold (s : State) (j : RemoteId) (m : LineSet) :
    (s.withdraw j m).softHold = s.softHold := by
  unfold State.withdraw; simp only [State.mapLines_softHold]
@[simp] theorem State.withdraw_pinHold (s : State) (j : RemoteId) (m : LineSet) :
    (s.withdraw j m).pinHold = s.pinHold := by
  unfold State.withdraw; simp only [State.mapLines_pinHold]
@[simp] theorem State.withdraw_resetLow (s : State) (j : RemoteId) (m : LineSet) :
    (s.withdraw j m).resetLow = s.resetLow := by
  unfold State.withdraw; simp only [State.mapLines_resetLow]
@[simp] theorem State.withdraw_reply (s : State) (j : RemoteId) (m : LineSet) :
    (s.withdraw j m).reply = s.reply := by
  unfold State.withdraw; simp only [State.mapLines_reply]
@[simp] theorem State.withdraw_pending (s : State) (j : RemoteId) (m : LineSet) :
    (s.withdraw j m).pending = s.pending := by
  unfold State.withdraw; simp only [State.mapLines_pending]
@[simp] theorem State.withdraw_source (s : State) (j : RemoteId) (m : LineSet) (k : RemoteId) :
    (s.withdraw j m).source k = s.source k := by
  unfold State.withdraw; simp only [State.mapLines_source]
@[simp] theorem State.withdraw_pin (s : State) (j : RemoteId) (m : LineSet) (p : PinId) :
    (s.withdraw j m).pin p = s.pin p := by
  unfold State.withdraw; simp only [State.mapLines_pin]
@[simp] theorem State.withdraw_filter (s : State) (j : RemoteId) (m : LineSet) (p : SenseId) :
    (s.withdraw j m).filter p = s.filter p := by
  unfold State.withdraw; simp only [State.mapLines_filter]
@[simp] theorem State.withdraw_inStack (s : State) (j : RemoteId) (m : LineSet) (l : LineId) :
    (s.withdraw j m).inStack l = s.inStack l := by
  unfold State.withdraw; simp only [State.mapLines_inStack]
@[simp] theorem State.withdraw_summary (s : State) (j : RemoteId) (m : LineSet) :
    (s.withdraw j m).summary = s.summary := by
  unfold State.withdraw; simp only [State.mapLines_summary]
@[simp] theorem State.withdraw_localActive (s : State) (j : RemoteId) (m : LineSet) (l : LineId) :
    (s.withdraw j m).localActive l = s.localActive l := by
  unfold State.withdraw; simp only [State.mapLines_localActive]
@[simp] theorem State.withdraw_held (s : State) (j : RemoteId) (m : LineSet) :
    (s.withdraw j m).held = s.held := by
  unfold State.withdraw; simp only [State.mapLines_held]
@[simp] theorem State.withdraw_paused (s : State) (j : RemoteId) (m : LineSet) :
    (s.withdraw j m).paused = s.paused := by
  unfold State.withdraw; simp only [State.mapLines_paused]
@[simp] theorem State.withdraw_intervalTicks (s : State) (j : RemoteId) (m : LineSet) :
    (s.withdraw j m).intervalTicks = s.intervalTicks := by
  unfold State.withdraw; simp only [State.mapLines_intervalTicks]
@[simp] theorem State.withdraw_depth (s : State) (j : RemoteId) (m : LineSet) :
    (s.withdraw j m).depth = s.depth := by
  unfold State.withdraw; simp only [State.mapLines_depth]

/-! ### `State.recomputeLocal` -/

@[simp] theorem State.recomputeLocal_reportBase (s : State) (m : LineId) :
    (s.recomputeLocal m).reportBase = s.reportBase := by
  unfold State.recomputeLocal; simp only [State.setLine_reportBase]
@[simp] theorem State.recomputeLocal_queue (s : State) (m : LineId) :
    (s.recomputeLocal m).queue = s.queue := by
  unfold State.recomputeLocal; simp only [State.setLine_queue]
@[simp] theorem State.recomputeLocal_arrivals (s : State) (m : LineId) :
    (s.recomputeLocal m).arrivals = s.arrivals := by
  unfold State.recomputeLocal; simp only [State.setLine_arrivals]
@[simp] theorem State.recomputeLocal_applied (s : State) (m : LineId) :
    (s.recomputeLocal m).applied = s.applied := by
  unfold State.recomputeLocal; simp only [State.setLine_applied]
@[simp] theorem State.recomputeLocal_pauseRequest (s : State) (m : LineId) :
    (s.recomputeLocal m).pauseRequest = s.pauseRequest := by
  unfold State.recomputeLocal; simp only [State.setLine_pauseRequest]
@[simp] theorem State.recomputeLocal_applying (s : State) (m : LineId) :
    (s.recomputeLocal m).applying = s.applying := by
  unfold State.recomputeLocal; simp only [State.setLine_applying]
@[simp] theorem State.recomputeLocal_appTicked (s : State) (m : LineId) :
    (s.recomputeLocal m).appTicked = s.appTicked := by
  unfold State.recomputeLocal; simp only [State.setLine_appTicked]
@[simp] theorem State.recomputeLocal_sources (s : State) (m : LineId) :
    (s.recomputeLocal m).sources = s.sources := by
  unfold State.recomputeLocal; simp only [State.setLine_sources]
@[simp] theorem State.recomputeLocal_stack (s : State) (m : LineId) :
    (s.recomputeLocal m).stack = s.stack := by
  unfold State.recomputeLocal; simp only [State.setLine_stack]
@[simp] theorem State.recomputeLocal_closeLimit (s : State) (m : LineId) :
    (s.recomputeLocal m).closeLimit = s.closeLimit := by
  unfold State.recomputeLocal; simp only [State.setLine_closeLimit]
@[simp] theorem State.recomputeLocal_closeUnitDue (s : State) (m : LineId) :
    (s.recomputeLocal m).closeUnitDue = s.closeUnitDue := by
  unfold State.recomputeLocal; simp only [State.setLine_closeUnitDue]
@[simp] theorem State.recomputeLocal_eosResult (s : State) (m : LineId) :
    (s.recomputeLocal m).eosResult = s.eosResult := by
  unfold State.recomputeLocal; simp only [State.setLine_eosResult]
@[simp] theorem State.recomputeLocal_deadlineMode (s : State) (m : LineId) :
    (s.recomputeLocal m).deadlineMode = s.deadlineMode := by
  unfold State.recomputeLocal; simp only [State.setLine_deadlineMode]
@[simp] theorem State.recomputeLocal_deadlineInterval (s : State) (m : LineId) :
    (s.recomputeLocal m).deadlineInterval = s.deadlineInterval := by
  unfold State.recomputeLocal; simp only [State.setLine_deadlineInterval]
@[simp] theorem State.recomputeLocal_monitor (s : State) (m : LineId) :
    (s.recomputeLocal m).monitor = s.monitor := by
  unfold State.recomputeLocal; simp only [State.setLine_monitor]
@[simp] theorem State.recomputeLocal_warning (s : State) (m : LineId) :
    (s.recomputeLocal m).warning = s.warning := by
  unfold State.recomputeLocal; simp only [State.setLine_warning]
@[simp] theorem State.recomputeLocal_record (s : State) (m : LineId) :
    (s.recomputeLocal m).record = s.record := by
  unfold State.recomputeLocal; simp only [State.setLine_record]
@[simp] theorem State.recomputeLocal_pins (s : State) (m : LineId) :
    (s.recomputeLocal m).pins = s.pins := by
  unfold State.recomputeLocal; simp only [State.setLine_pins]
@[simp] theorem State.recomputeLocal_filters (s : State) (m : LineId) :
    (s.recomputeLocal m).filters = s.filters := by
  unfold State.recomputeLocal; simp only [State.setLine_filters]
@[simp] theorem State.recomputeLocal_eventFlags (s : State) (m : LineId) :
    (s.recomputeLocal m).eventFlags = s.eventFlags := by
  unfold State.recomputeLocal; simp only [State.setLine_eventFlags]
@[simp] theorem State.recomputeLocal_eventEnables (s : State) (m : LineId) :
    (s.recomputeLocal m).eventEnables = s.eventEnables := by
  unfold State.recomputeLocal; simp only [State.setLine_eventEnables]
@[simp] theorem State.recomputeLocal_log (s : State) (m : LineId) :
    (s.recomputeLocal m).log = s.log := by
  unfold State.recomputeLocal; simp only [State.setLine_log]
@[simp] theorem State.recomputeLocal_checkFailures (s : State) (m : LineId) :
    (s.recomputeLocal m).checkFailures = s.checkFailures := by
  unfold State.recomputeLocal; simp only [State.setLine_checkFailures]
@[simp] theorem State.recomputeLocal_busFaults (s : State) (m : LineId) :
    (s.recomputeLocal m).busFaults = s.busFaults := by
  unfold State.recomputeLocal; simp only [State.setLine_busFaults]
@[simp] theorem State.recomputeLocal_tsel (s : State) (m : LineId) :
    (s.recomputeLocal m).tsel = s.tsel := by
  unfold State.recomputeLocal; simp only [State.setLine_tsel]
@[simp] theorem State.recomputeLocal_staging (s : State) (m : LineId) :
    (s.recomputeLocal m).staging = s.staging := by
  unfold State.recomputeLocal; simp only [State.setLine_staging]
@[simp] theorem State.recomputeLocal_tstat (s : State) (m : LineId) :
    (s.recomputeLocal m).tstat = s.tstat := by
  unfold State.recomputeLocal; simp only [State.setLine_tstat]
@[simp] theorem State.recomputeLocal_refclk (s : State) (m : LineId) :
    (s.recomputeLocal m).refclk = s.refclk := by
  unfold State.recomputeLocal; simp only [State.setLine_refclk]
@[simp] theorem State.recomputeLocal_timeBase (s : State) (m : LineId) :
    (s.recomputeLocal m).timeBase = s.timeBase := by
  unfold State.recomputeLocal; simp only [State.setLine_timeBase]
@[simp] theorem State.recomputeLocal_resetCause (s : State) (m : LineId) :
    (s.recomputeLocal m).resetCause = s.resetCause := by
  unfold State.recomputeLocal; simp only [State.setLine_resetCause]
@[simp] theorem State.recomputeLocal_powerHold (s : State) (m : LineId) :
    (s.recomputeLocal m).powerHold = s.powerHold := by
  unfold State.recomputeLocal; simp only [State.setLine_powerHold]
@[simp] theorem State.recomputeLocal_softHold (s : State) (m : LineId) :
    (s.recomputeLocal m).softHold = s.softHold := by
  unfold State.recomputeLocal; simp only [State.setLine_softHold]
@[simp] theorem State.recomputeLocal_pinHold (s : State) (m : LineId) :
    (s.recomputeLocal m).pinHold = s.pinHold := by
  unfold State.recomputeLocal; simp only [State.setLine_pinHold]
@[simp] theorem State.recomputeLocal_resetLow (s : State) (m : LineId) :
    (s.recomputeLocal m).resetLow = s.resetLow := by
  unfold State.recomputeLocal; simp only [State.setLine_resetLow]
@[simp] theorem State.recomputeLocal_reply (s : State) (m : LineId) :
    (s.recomputeLocal m).reply = s.reply := by
  unfold State.recomputeLocal; simp only [State.setLine_reply]
@[simp] theorem State.recomputeLocal_pending (s : State) (m : LineId) :
    (s.recomputeLocal m).pending = s.pending := by
  unfold State.recomputeLocal; simp only [State.setLine_pending]
@[simp] theorem State.recomputeLocal_source (s : State) (m : LineId) (k : RemoteId) :
    (s.recomputeLocal m).source k = s.source k := by
  unfold State.recomputeLocal; simp only [State.setLine_source]
@[simp] theorem State.recomputeLocal_pin (s : State) (m : LineId) (p : PinId) :
    (s.recomputeLocal m).pin p = s.pin p := by
  unfold State.recomputeLocal; simp only [State.setLine_pin]
@[simp] theorem State.recomputeLocal_filter (s : State) (m : LineId) (p : SenseId) :
    (s.recomputeLocal m).filter p = s.filter p := by
  unfold State.recomputeLocal; simp only [State.setLine_filter]
@[simp] theorem State.recomputeLocal_inStack (s : State) (m : LineId) (l : LineId) :
    (s.recomputeLocal m).inStack l = s.inStack l := by
  unfold State.recomputeLocal; simp only [State.setLine_inStack]
@[simp] theorem State.recomputeLocal_summary (s : State) (m : LineId) :
    (s.recomputeLocal m).summary = s.summary := by
  unfold State.recomputeLocal; simp only [State.setLine_summary]
@[simp] theorem State.recomputeLocal_localActive (s : State) (m : LineId) (l : LineId) :
    (s.recomputeLocal m).localActive l = s.localActive l := by
  unfold State.recomputeLocal; simp only [State.setLine_localActive]
@[simp] theorem State.recomputeLocal_held (s : State) (m : LineId) :
    (s.recomputeLocal m).held = s.held := by
  unfold State.recomputeLocal; simp only [State.setLine_held]
@[simp] theorem State.recomputeLocal_paused (s : State) (m : LineId) :
    (s.recomputeLocal m).paused = s.paused := by
  unfold State.recomputeLocal; simp only [State.setLine_paused]
@[simp] theorem State.recomputeLocal_intervalTicks (s : State) (m : LineId) :
    (s.recomputeLocal m).intervalTicks = s.intervalTicks := by
  unfold State.recomputeLocal; simp only [State.setLine_intervalTicks]
@[simp] theorem State.recomputeLocal_depth (s : State) (m : LineId) :
    (s.recomputeLocal m).depth = s.depth := by
  unfold State.recomputeLocal; simp only [State.setLine_depth]

/-! ### `State.removeEntry` -/

@[simp] theorem State.removeEntry_reportBase (s : State) (m : LineId) :
    (s.removeEntry m).reportBase = s.reportBase := rfl
@[simp] theorem State.removeEntry_queue (s : State) (m : LineId) :
    (s.removeEntry m).queue = s.queue := rfl
@[simp] theorem State.removeEntry_arrivals (s : State) (m : LineId) :
    (s.removeEntry m).arrivals = s.arrivals := rfl
@[simp] theorem State.removeEntry_applied (s : State) (m : LineId) :
    (s.removeEntry m).applied = s.applied := rfl
@[simp] theorem State.removeEntry_pauseRequest (s : State) (m : LineId) :
    (s.removeEntry m).pauseRequest = s.pauseRequest := rfl
@[simp] theorem State.removeEntry_applying (s : State) (m : LineId) :
    (s.removeEntry m).applying = s.applying := rfl
@[simp] theorem State.removeEntry_appTicked (s : State) (m : LineId) :
    (s.removeEntry m).appTicked = s.appTicked := rfl
@[simp] theorem State.removeEntry_sources (s : State) (m : LineId) :
    (s.removeEntry m).sources = s.sources := rfl
@[simp] theorem State.removeEntry_lines (s : State) (m : LineId) :
    (s.removeEntry m).lines = s.lines := rfl
@[simp] theorem State.removeEntry_stack (s : State) (m : LineId) :
    (s.removeEntry m).stack = s.stack.filter fun e => e.line != m := rfl
@[simp] theorem State.removeEntry_closeLimit (s : State) (m : LineId) :
    (s.removeEntry m).closeLimit = s.closeLimit := rfl
@[simp] theorem State.removeEntry_closeUnitDue (s : State) (m : LineId) :
    (s.removeEntry m).closeUnitDue = s.closeUnitDue := rfl
@[simp] theorem State.removeEntry_eosResult (s : State) (m : LineId) :
    (s.removeEntry m).eosResult = s.eosResult := rfl
@[simp] theorem State.removeEntry_deadlineMode (s : State) (m : LineId) :
    (s.removeEntry m).deadlineMode = s.deadlineMode := rfl
@[simp] theorem State.removeEntry_deadlineInterval (s : State) (m : LineId) :
    (s.removeEntry m).deadlineInterval = s.deadlineInterval := rfl
@[simp] theorem State.removeEntry_monitor (s : State) (m : LineId) :
    (s.removeEntry m).monitor = s.monitor := rfl
@[simp] theorem State.removeEntry_warning (s : State) (m : LineId) :
    (s.removeEntry m).warning = s.warning := rfl
@[simp] theorem State.removeEntry_record (s : State) (m : LineId) :
    (s.removeEntry m).record = s.record := rfl
@[simp] theorem State.removeEntry_pins (s : State) (m : LineId) :
    (s.removeEntry m).pins = s.pins := rfl
@[simp] theorem State.removeEntry_filters (s : State) (m : LineId) :
    (s.removeEntry m).filters = s.filters := rfl
@[simp] theorem State.removeEntry_eventFlags (s : State) (m : LineId) :
    (s.removeEntry m).eventFlags = s.eventFlags := rfl
@[simp] theorem State.removeEntry_eventEnables (s : State) (m : LineId) :
    (s.removeEntry m).eventEnables = s.eventEnables := rfl
@[simp] theorem State.removeEntry_log (s : State) (m : LineId) :
    (s.removeEntry m).log = s.log := rfl
@[simp] theorem State.removeEntry_checkFailures (s : State) (m : LineId) :
    (s.removeEntry m).checkFailures = s.checkFailures := rfl
@[simp] theorem State.removeEntry_busFaults (s : State) (m : LineId) :
    (s.removeEntry m).busFaults = s.busFaults := rfl
@[simp] theorem State.removeEntry_tsel (s : State) (m : LineId) :
    (s.removeEntry m).tsel = s.tsel := rfl
@[simp] theorem State.removeEntry_staging (s : State) (m : LineId) :
    (s.removeEntry m).staging = s.staging := rfl
@[simp] theorem State.removeEntry_tstat (s : State) (m : LineId) :
    (s.removeEntry m).tstat = s.tstat := rfl
@[simp] theorem State.removeEntry_refclk (s : State) (m : LineId) :
    (s.removeEntry m).refclk = s.refclk := rfl
@[simp] theorem State.removeEntry_timeBase (s : State) (m : LineId) :
    (s.removeEntry m).timeBase = s.timeBase := rfl
@[simp] theorem State.removeEntry_resetCause (s : State) (m : LineId) :
    (s.removeEntry m).resetCause = s.resetCause := rfl
@[simp] theorem State.removeEntry_powerHold (s : State) (m : LineId) :
    (s.removeEntry m).powerHold = s.powerHold := rfl
@[simp] theorem State.removeEntry_softHold (s : State) (m : LineId) :
    (s.removeEntry m).softHold = s.softHold := rfl
@[simp] theorem State.removeEntry_pinHold (s : State) (m : LineId) :
    (s.removeEntry m).pinHold = s.pinHold := rfl
@[simp] theorem State.removeEntry_resetLow (s : State) (m : LineId) :
    (s.removeEntry m).resetLow = s.resetLow := rfl
@[simp] theorem State.removeEntry_reply (s : State) (m : LineId) :
    (s.removeEntry m).reply = s.reply := rfl
@[simp] theorem State.removeEntry_pending (s : State) (m : LineId) :
    (s.removeEntry m).pending = s.pending := rfl
@[simp] theorem State.removeEntry_source (s : State) (m : LineId) (k : RemoteId) :
    (s.removeEntry m).source k = s.source k := rfl
@[simp] theorem State.removeEntry_line (s : State) (m : LineId) (l : LineId) :
    (s.removeEntry m).line l = s.line l := rfl
@[simp] theorem State.removeEntry_pin (s : State) (m : LineId) (p : PinId) :
    (s.removeEntry m).pin p = s.pin p := rfl
@[simp] theorem State.removeEntry_filter (s : State) (m : LineId) (p : SenseId) :
    (s.removeEntry m).filter p = s.filter p := rfl
@[simp] theorem State.removeEntry_summary (s : State) (m : LineId) :
    (s.removeEntry m).summary = s.summary := rfl
@[simp] theorem State.removeEntry_localActive (s : State) (m : LineId) (l : LineId) :
    (s.removeEntry m).localActive l = s.localActive l := rfl
@[simp] theorem State.removeEntry_held (s : State) (m : LineId) :
    (s.removeEntry m).held = s.held := rfl
@[simp] theorem State.removeEntry_paused (s : State) (m : LineId) :
    (s.removeEntry m).paused = s.paused := rfl
@[simp] theorem State.removeEntry_intervalTicks (s : State) (m : LineId) :
    (s.removeEntry m).intervalTicks = s.intervalTicks := rfl

/-! ### `State.countFault` -/

@[simp] theorem State.countFault_reportBase (s : State) :
    (s.countFault).reportBase = s.reportBase := rfl
@[simp] theorem State.countFault_queue (s : State) :
    (s.countFault).queue = s.queue := rfl
@[simp] theorem State.countFault_arrivals (s : State) :
    (s.countFault).arrivals = s.arrivals := rfl
@[simp] theorem State.countFault_applied (s : State) :
    (s.countFault).applied = s.applied := rfl
@[simp] theorem State.countFault_pauseRequest (s : State) :
    (s.countFault).pauseRequest = s.pauseRequest := rfl
@[simp] theorem State.countFault_applying (s : State) :
    (s.countFault).applying = s.applying := rfl
@[simp] theorem State.countFault_appTicked (s : State) :
    (s.countFault).appTicked = s.appTicked := rfl
@[simp] theorem State.countFault_sources (s : State) :
    (s.countFault).sources = s.sources := rfl
@[simp] theorem State.countFault_lines (s : State) :
    (s.countFault).lines = s.lines := rfl
@[simp] theorem State.countFault_stack (s : State) :
    (s.countFault).stack = s.stack := rfl
@[simp] theorem State.countFault_closeLimit (s : State) :
    (s.countFault).closeLimit = s.closeLimit := rfl
@[simp] theorem State.countFault_closeUnitDue (s : State) :
    (s.countFault).closeUnitDue = s.closeUnitDue := rfl
@[simp] theorem State.countFault_eosResult (s : State) :
    (s.countFault).eosResult = s.eosResult := rfl
@[simp] theorem State.countFault_deadlineMode (s : State) :
    (s.countFault).deadlineMode = s.deadlineMode := rfl
@[simp] theorem State.countFault_deadlineInterval (s : State) :
    (s.countFault).deadlineInterval = s.deadlineInterval := rfl
@[simp] theorem State.countFault_monitor (s : State) :
    (s.countFault).monitor = s.monitor := rfl
@[simp] theorem State.countFault_warning (s : State) :
    (s.countFault).warning = s.warning := rfl
@[simp] theorem State.countFault_record (s : State) :
    (s.countFault).record = s.record := rfl
@[simp] theorem State.countFault_pins (s : State) :
    (s.countFault).pins = s.pins := rfl
@[simp] theorem State.countFault_filters (s : State) :
    (s.countFault).filters = s.filters := rfl
@[simp] theorem State.countFault_eventFlags (s : State) :
    (s.countFault).eventFlags = s.eventFlags := rfl
@[simp] theorem State.countFault_eventEnables (s : State) :
    (s.countFault).eventEnables = s.eventEnables := rfl
@[simp] theorem State.countFault_log (s : State) :
    (s.countFault).log = s.log := rfl
@[simp] theorem State.countFault_checkFailures (s : State) :
    (s.countFault).checkFailures = s.checkFailures := rfl
@[simp] theorem State.countFault_busFaults (s : State) :
    (s.countFault).busFaults = satInc s.busFaults := rfl
@[simp] theorem State.countFault_tsel (s : State) :
    (s.countFault).tsel = s.tsel := rfl
@[simp] theorem State.countFault_staging (s : State) :
    (s.countFault).staging = s.staging := rfl
@[simp] theorem State.countFault_tstat (s : State) :
    (s.countFault).tstat = s.tstat := rfl
@[simp] theorem State.countFault_refclk (s : State) :
    (s.countFault).refclk = s.refclk := rfl
@[simp] theorem State.countFault_timeBase (s : State) :
    (s.countFault).timeBase = s.timeBase := rfl
@[simp] theorem State.countFault_resetCause (s : State) :
    (s.countFault).resetCause = s.resetCause := rfl
@[simp] theorem State.countFault_powerHold (s : State) :
    (s.countFault).powerHold = s.powerHold := rfl
@[simp] theorem State.countFault_softHold (s : State) :
    (s.countFault).softHold = s.softHold := rfl
@[simp] theorem State.countFault_pinHold (s : State) :
    (s.countFault).pinHold = s.pinHold := rfl
@[simp] theorem State.countFault_resetLow (s : State) :
    (s.countFault).resetLow = s.resetLow := rfl
@[simp] theorem State.countFault_reply (s : State) :
    (s.countFault).reply = s.reply := rfl
@[simp] theorem State.countFault_pending (s : State) :
    (s.countFault).pending = s.pending := rfl
@[simp] theorem State.countFault_source (s : State) (k : RemoteId) :
    (s.countFault).source k = s.source k := rfl
@[simp] theorem State.countFault_line (s : State) (l : LineId) :
    (s.countFault).line l = s.line l := rfl
@[simp] theorem State.countFault_pin (s : State) (p : PinId) :
    (s.countFault).pin p = s.pin p := rfl
@[simp] theorem State.countFault_filter (s : State) (p : SenseId) :
    (s.countFault).filter p = s.filter p := rfl
@[simp] theorem State.countFault_inStack (s : State) (l : LineId) :
    (s.countFault).inStack l = s.inStack l := rfl
@[simp] theorem State.countFault_deliverable (s : State) (l : LineId) :
    (s.countFault).deliverable l = s.deliverable l := rfl
@[simp] theorem State.countFault_better (s : State) (b : Option LineId) (l : LineId) :
    (s.countFault).better b l = s.better b l := rfl
@[simp] theorem State.countFault_offer (s : State) :
    (s.countFault).offer = s.offer := rfl
@[simp] theorem State.countFault_sreq (s : State) :
    (s.countFault).sreq = s.sreq := rfl
@[simp] theorem State.countFault_summary (s : State) :
    (s.countFault).summary = s.summary := rfl
@[simp] theorem State.countFault_localActive (s : State) (l : LineId) :
    (s.countFault).localActive l = s.localActive l := rfl
@[simp] theorem State.countFault_held (s : State) :
    (s.countFault).held = s.held := rfl
@[simp] theorem State.countFault_paused (s : State) :
    (s.countFault).paused = s.paused := rfl
@[simp] theorem State.countFault_intervalTicks (s : State) :
    (s.countFault).intervalTicks = s.intervalTicks := rfl
@[simp] theorem State.countFault_depth (s : State) :
    (s.countFault).depth = s.depth := rfl

/-! ### `State.clearStack` -/

@[simp] theorem State.clearStack_reportBase (s : State) :
    (s.clearStack).reportBase = s.reportBase := rfl
@[simp] theorem State.clearStack_queue (s : State) :
    (s.clearStack).queue = s.queue := rfl
@[simp] theorem State.clearStack_arrivals (s : State) :
    (s.clearStack).arrivals = s.arrivals := rfl
@[simp] theorem State.clearStack_applied (s : State) :
    (s.clearStack).applied = s.applied := rfl
@[simp] theorem State.clearStack_pauseRequest (s : State) :
    (s.clearStack).pauseRequest = s.pauseRequest := rfl
@[simp] theorem State.clearStack_applying (s : State) :
    (s.clearStack).applying = s.applying := rfl
@[simp] theorem State.clearStack_appTicked (s : State) :
    (s.clearStack).appTicked = s.appTicked := rfl
@[simp] theorem State.clearStack_sources (s : State) :
    (s.clearStack).sources = s.sources := rfl
@[simp] theorem State.clearStack_lines (s : State) :
    (s.clearStack).lines = s.lines := rfl
@[simp] theorem State.clearStack_stack (s : State) :
    (s.clearStack).stack = [] := rfl
@[simp] theorem State.clearStack_closeLimit (s : State) :
    (s.clearStack).closeLimit = s.closeLimit := rfl
@[simp] theorem State.clearStack_closeUnitDue (s : State) :
    (s.clearStack).closeUnitDue = s.closeUnitDue := rfl
@[simp] theorem State.clearStack_eosResult (s : State) :
    (s.clearStack).eosResult = s.eosResult := rfl
@[simp] theorem State.clearStack_deadlineMode (s : State) :
    (s.clearStack).deadlineMode = s.deadlineMode := rfl
@[simp] theorem State.clearStack_deadlineInterval (s : State) :
    (s.clearStack).deadlineInterval = s.deadlineInterval := rfl
@[simp] theorem State.clearStack_monitor (s : State) :
    (s.clearStack).monitor = s.monitor := rfl
@[simp] theorem State.clearStack_warning (s : State) :
    (s.clearStack).warning = s.warning := rfl
@[simp] theorem State.clearStack_record (s : State) :
    (s.clearStack).record = s.record := rfl
@[simp] theorem State.clearStack_pins (s : State) :
    (s.clearStack).pins = s.pins := rfl
@[simp] theorem State.clearStack_filters (s : State) :
    (s.clearStack).filters = s.filters := rfl
@[simp] theorem State.clearStack_eventFlags (s : State) :
    (s.clearStack).eventFlags = s.eventFlags := rfl
@[simp] theorem State.clearStack_eventEnables (s : State) :
    (s.clearStack).eventEnables = s.eventEnables := rfl
@[simp] theorem State.clearStack_log (s : State) :
    (s.clearStack).log = s.log := rfl
@[simp] theorem State.clearStack_checkFailures (s : State) :
    (s.clearStack).checkFailures = s.checkFailures := rfl
@[simp] theorem State.clearStack_busFaults (s : State) :
    (s.clearStack).busFaults = s.busFaults := rfl
@[simp] theorem State.clearStack_tsel (s : State) :
    (s.clearStack).tsel = s.tsel := rfl
@[simp] theorem State.clearStack_staging (s : State) :
    (s.clearStack).staging = s.staging := rfl
@[simp] theorem State.clearStack_tstat (s : State) :
    (s.clearStack).tstat = s.tstat := rfl
@[simp] theorem State.clearStack_refclk (s : State) :
    (s.clearStack).refclk = s.refclk := rfl
@[simp] theorem State.clearStack_timeBase (s : State) :
    (s.clearStack).timeBase = s.timeBase := rfl
@[simp] theorem State.clearStack_resetCause (s : State) :
    (s.clearStack).resetCause = s.resetCause := rfl
@[simp] theorem State.clearStack_powerHold (s : State) :
    (s.clearStack).powerHold = s.powerHold := rfl
@[simp] theorem State.clearStack_softHold (s : State) :
    (s.clearStack).softHold = s.softHold := rfl
@[simp] theorem State.clearStack_pinHold (s : State) :
    (s.clearStack).pinHold = s.pinHold := rfl
@[simp] theorem State.clearStack_resetLow (s : State) :
    (s.clearStack).resetLow = s.resetLow := rfl
@[simp] theorem State.clearStack_reply (s : State) :
    (s.clearStack).reply = s.reply := rfl
@[simp] theorem State.clearStack_pending (s : State) :
    (s.clearStack).pending = s.pending := rfl
@[simp] theorem State.clearStack_source (s : State) (k : RemoteId) :
    (s.clearStack).source k = s.source k := rfl
@[simp] theorem State.clearStack_line (s : State) (l : LineId) :
    (s.clearStack).line l = s.line l := rfl
@[simp] theorem State.clearStack_pin (s : State) (p : PinId) :
    (s.clearStack).pin p = s.pin p := rfl
@[simp] theorem State.clearStack_filter (s : State) (p : SenseId) :
    (s.clearStack).filter p = s.filter p := rfl
@[simp] theorem State.clearStack_summary (s : State) :
    (s.clearStack).summary = s.summary := rfl
@[simp] theorem State.clearStack_localActive (s : State) (l : LineId) :
    (s.clearStack).localActive l = s.localActive l := rfl
@[simp] theorem State.clearStack_held (s : State) :
    (s.clearStack).held = s.held := rfl
@[simp] theorem State.clearStack_paused (s : State) :
    (s.clearStack).paused = s.paused := rfl
@[simp] theorem State.clearStack_intervalTicks (s : State) :
    (s.clearStack).intervalTicks = s.intervalTicks := rfl

/-! ### `State.setCloseLimit` -/

@[simp] theorem State.setCloseLimit_reportBase (s : State) (n : BitVec 4) :
    (s.setCloseLimit n).reportBase = s.reportBase := rfl
@[simp] theorem State.setCloseLimit_queue (s : State) (n : BitVec 4) :
    (s.setCloseLimit n).queue = s.queue := rfl
@[simp] theorem State.setCloseLimit_arrivals (s : State) (n : BitVec 4) :
    (s.setCloseLimit n).arrivals = s.arrivals := rfl
@[simp] theorem State.setCloseLimit_applied (s : State) (n : BitVec 4) :
    (s.setCloseLimit n).applied = s.applied := rfl
@[simp] theorem State.setCloseLimit_pauseRequest (s : State) (n : BitVec 4) :
    (s.setCloseLimit n).pauseRequest = s.pauseRequest := rfl
@[simp] theorem State.setCloseLimit_applying (s : State) (n : BitVec 4) :
    (s.setCloseLimit n).applying = s.applying := rfl
@[simp] theorem State.setCloseLimit_appTicked (s : State) (n : BitVec 4) :
    (s.setCloseLimit n).appTicked = s.appTicked := rfl
@[simp] theorem State.setCloseLimit_sources (s : State) (n : BitVec 4) :
    (s.setCloseLimit n).sources = s.sources := rfl
@[simp] theorem State.setCloseLimit_lines (s : State) (n : BitVec 4) :
    (s.setCloseLimit n).lines = s.lines := rfl
@[simp] theorem State.setCloseLimit_stack (s : State) (n : BitVec 4) :
    (s.setCloseLimit n).stack = s.stack := rfl
@[simp] theorem State.setCloseLimit_closeLimit (s : State) (n : BitVec 4) :
    (s.setCloseLimit n).closeLimit = n := rfl
@[simp] theorem State.setCloseLimit_closeUnitDue (s : State) (n : BitVec 4) :
    (s.setCloseLimit n).closeUnitDue = s.closeUnitDue := rfl
@[simp] theorem State.setCloseLimit_eosResult (s : State) (n : BitVec 4) :
    (s.setCloseLimit n).eosResult = s.eosResult := rfl
@[simp] theorem State.setCloseLimit_deadlineMode (s : State) (n : BitVec 4) :
    (s.setCloseLimit n).deadlineMode = s.deadlineMode := rfl
@[simp] theorem State.setCloseLimit_deadlineInterval (s : State) (n : BitVec 4) :
    (s.setCloseLimit n).deadlineInterval = s.deadlineInterval := rfl
@[simp] theorem State.setCloseLimit_monitor (s : State) (n : BitVec 4) :
    (s.setCloseLimit n).monitor = s.monitor := rfl
@[simp] theorem State.setCloseLimit_warning (s : State) (n : BitVec 4) :
    (s.setCloseLimit n).warning = s.warning := rfl
@[simp] theorem State.setCloseLimit_record (s : State) (n : BitVec 4) :
    (s.setCloseLimit n).record = s.record := rfl
@[simp] theorem State.setCloseLimit_pins (s : State) (n : BitVec 4) :
    (s.setCloseLimit n).pins = s.pins := rfl
@[simp] theorem State.setCloseLimit_filters (s : State) (n : BitVec 4) :
    (s.setCloseLimit n).filters = s.filters := rfl
@[simp] theorem State.setCloseLimit_eventFlags (s : State) (n : BitVec 4) :
    (s.setCloseLimit n).eventFlags = s.eventFlags := rfl
@[simp] theorem State.setCloseLimit_eventEnables (s : State) (n : BitVec 4) :
    (s.setCloseLimit n).eventEnables = s.eventEnables := rfl
@[simp] theorem State.setCloseLimit_log (s : State) (n : BitVec 4) :
    (s.setCloseLimit n).log = s.log := rfl
@[simp] theorem State.setCloseLimit_checkFailures (s : State) (n : BitVec 4) :
    (s.setCloseLimit n).checkFailures = s.checkFailures := rfl
@[simp] theorem State.setCloseLimit_busFaults (s : State) (n : BitVec 4) :
    (s.setCloseLimit n).busFaults = s.busFaults := rfl
@[simp] theorem State.setCloseLimit_tsel (s : State) (n : BitVec 4) :
    (s.setCloseLimit n).tsel = s.tsel := rfl
@[simp] theorem State.setCloseLimit_staging (s : State) (n : BitVec 4) :
    (s.setCloseLimit n).staging = s.staging := rfl
@[simp] theorem State.setCloseLimit_tstat (s : State) (n : BitVec 4) :
    (s.setCloseLimit n).tstat = s.tstat := rfl
@[simp] theorem State.setCloseLimit_refclk (s : State) (n : BitVec 4) :
    (s.setCloseLimit n).refclk = s.refclk := rfl
@[simp] theorem State.setCloseLimit_timeBase (s : State) (n : BitVec 4) :
    (s.setCloseLimit n).timeBase = s.timeBase := rfl
@[simp] theorem State.setCloseLimit_resetCause (s : State) (n : BitVec 4) :
    (s.setCloseLimit n).resetCause = s.resetCause := rfl
@[simp] theorem State.setCloseLimit_powerHold (s : State) (n : BitVec 4) :
    (s.setCloseLimit n).powerHold = s.powerHold := rfl
@[simp] theorem State.setCloseLimit_softHold (s : State) (n : BitVec 4) :
    (s.setCloseLimit n).softHold = s.softHold := rfl
@[simp] theorem State.setCloseLimit_pinHold (s : State) (n : BitVec 4) :
    (s.setCloseLimit n).pinHold = s.pinHold := rfl
@[simp] theorem State.setCloseLimit_resetLow (s : State) (n : BitVec 4) :
    (s.setCloseLimit n).resetLow = s.resetLow := rfl
@[simp] theorem State.setCloseLimit_reply (s : State) (n : BitVec 4) :
    (s.setCloseLimit n).reply = s.reply := rfl
@[simp] theorem State.setCloseLimit_pending (s : State) (n : BitVec 4) :
    (s.setCloseLimit n).pending = s.pending := rfl
@[simp] theorem State.setCloseLimit_source (s : State) (n : BitVec 4) (k : RemoteId) :
    (s.setCloseLimit n).source k = s.source k := rfl
@[simp] theorem State.setCloseLimit_line (s : State) (n : BitVec 4) (l : LineId) :
    (s.setCloseLimit n).line l = s.line l := rfl
@[simp] theorem State.setCloseLimit_pin (s : State) (n : BitVec 4) (p : PinId) :
    (s.setCloseLimit n).pin p = s.pin p := rfl
@[simp] theorem State.setCloseLimit_filter (s : State) (n : BitVec 4) (p : SenseId) :
    (s.setCloseLimit n).filter p = s.filter p := rfl
@[simp] theorem State.setCloseLimit_inStack (s : State) (n : BitVec 4) (l : LineId) :
    (s.setCloseLimit n).inStack l = s.inStack l := rfl
@[simp] theorem State.setCloseLimit_deliverable (s : State) (n : BitVec 4) (l : LineId) :
    (s.setCloseLimit n).deliverable l = s.deliverable l := rfl
@[simp] theorem State.setCloseLimit_better (s : State) (n : BitVec 4) (b : Option LineId) (l : LineId) :
    (s.setCloseLimit n).better b l = s.better b l := rfl
@[simp] theorem State.setCloseLimit_offer (s : State) (n : BitVec 4) :
    (s.setCloseLimit n).offer = s.offer := rfl
@[simp] theorem State.setCloseLimit_sreq (s : State) (n : BitVec 4) :
    (s.setCloseLimit n).sreq = s.sreq := rfl
@[simp] theorem State.setCloseLimit_summary (s : State) (n : BitVec 4) :
    (s.setCloseLimit n).summary = s.summary := rfl
@[simp] theorem State.setCloseLimit_localActive (s : State) (n : BitVec 4) (l : LineId) :
    (s.setCloseLimit n).localActive l = s.localActive l := rfl
@[simp] theorem State.setCloseLimit_held (s : State) (n : BitVec 4) :
    (s.setCloseLimit n).held = s.held := rfl
@[simp] theorem State.setCloseLimit_paused (s : State) (n : BitVec 4) :
    (s.setCloseLimit n).paused = s.paused := rfl
@[simp] theorem State.setCloseLimit_intervalTicks (s : State) (n : BitVec 4) :
    (s.setCloseLimit n).intervalTicks = s.intervalTicks := rfl
@[simp] theorem State.setCloseLimit_depth (s : State) (n : BitVec 4) :
    (s.setCloseLimit n).depth = s.depth := rfl

/-! ### `State.setEosResult` -/

@[simp] theorem State.setEosResult_reportBase (s : State) (r : EosResult) :
    (s.setEosResult r).reportBase = s.reportBase := rfl
@[simp] theorem State.setEosResult_queue (s : State) (r : EosResult) :
    (s.setEosResult r).queue = s.queue := rfl
@[simp] theorem State.setEosResult_arrivals (s : State) (r : EosResult) :
    (s.setEosResult r).arrivals = s.arrivals := rfl
@[simp] theorem State.setEosResult_applied (s : State) (r : EosResult) :
    (s.setEosResult r).applied = s.applied := rfl
@[simp] theorem State.setEosResult_pauseRequest (s : State) (r : EosResult) :
    (s.setEosResult r).pauseRequest = s.pauseRequest := rfl
@[simp] theorem State.setEosResult_applying (s : State) (r : EosResult) :
    (s.setEosResult r).applying = s.applying := rfl
@[simp] theorem State.setEosResult_appTicked (s : State) (r : EosResult) :
    (s.setEosResult r).appTicked = s.appTicked := rfl
@[simp] theorem State.setEosResult_sources (s : State) (r : EosResult) :
    (s.setEosResult r).sources = s.sources := rfl
@[simp] theorem State.setEosResult_lines (s : State) (r : EosResult) :
    (s.setEosResult r).lines = s.lines := rfl
@[simp] theorem State.setEosResult_stack (s : State) (r : EosResult) :
    (s.setEosResult r).stack = s.stack := rfl
@[simp] theorem State.setEosResult_closeLimit (s : State) (r : EosResult) :
    (s.setEosResult r).closeLimit = s.closeLimit := rfl
@[simp] theorem State.setEosResult_closeUnitDue (s : State) (r : EosResult) :
    (s.setEosResult r).closeUnitDue = s.closeUnitDue := rfl
@[simp] theorem State.setEosResult_eosResult (s : State) (r : EosResult) :
    (s.setEosResult r).eosResult = r := rfl
@[simp] theorem State.setEosResult_deadlineMode (s : State) (r : EosResult) :
    (s.setEosResult r).deadlineMode = s.deadlineMode := rfl
@[simp] theorem State.setEosResult_deadlineInterval (s : State) (r : EosResult) :
    (s.setEosResult r).deadlineInterval = s.deadlineInterval := rfl
@[simp] theorem State.setEosResult_monitor (s : State) (r : EosResult) :
    (s.setEosResult r).monitor = s.monitor := rfl
@[simp] theorem State.setEosResult_warning (s : State) (r : EosResult) :
    (s.setEosResult r).warning = s.warning := rfl
@[simp] theorem State.setEosResult_record (s : State) (r : EosResult) :
    (s.setEosResult r).record = s.record := rfl
@[simp] theorem State.setEosResult_pins (s : State) (r : EosResult) :
    (s.setEosResult r).pins = s.pins := rfl
@[simp] theorem State.setEosResult_filters (s : State) (r : EosResult) :
    (s.setEosResult r).filters = s.filters := rfl
@[simp] theorem State.setEosResult_eventFlags (s : State) (r : EosResult) :
    (s.setEosResult r).eventFlags = s.eventFlags := rfl
@[simp] theorem State.setEosResult_eventEnables (s : State) (r : EosResult) :
    (s.setEosResult r).eventEnables = s.eventEnables := rfl
@[simp] theorem State.setEosResult_log (s : State) (r : EosResult) :
    (s.setEosResult r).log = s.log := rfl
@[simp] theorem State.setEosResult_checkFailures (s : State) (r : EosResult) :
    (s.setEosResult r).checkFailures = s.checkFailures := rfl
@[simp] theorem State.setEosResult_busFaults (s : State) (r : EosResult) :
    (s.setEosResult r).busFaults = s.busFaults := rfl
@[simp] theorem State.setEosResult_tsel (s : State) (r : EosResult) :
    (s.setEosResult r).tsel = s.tsel := rfl
@[simp] theorem State.setEosResult_staging (s : State) (r : EosResult) :
    (s.setEosResult r).staging = s.staging := rfl
@[simp] theorem State.setEosResult_tstat (s : State) (r : EosResult) :
    (s.setEosResult r).tstat = s.tstat := rfl
@[simp] theorem State.setEosResult_refclk (s : State) (r : EosResult) :
    (s.setEosResult r).refclk = s.refclk := rfl
@[simp] theorem State.setEosResult_timeBase (s : State) (r : EosResult) :
    (s.setEosResult r).timeBase = s.timeBase := rfl
@[simp] theorem State.setEosResult_resetCause (s : State) (r : EosResult) :
    (s.setEosResult r).resetCause = s.resetCause := rfl
@[simp] theorem State.setEosResult_powerHold (s : State) (r : EosResult) :
    (s.setEosResult r).powerHold = s.powerHold := rfl
@[simp] theorem State.setEosResult_softHold (s : State) (r : EosResult) :
    (s.setEosResult r).softHold = s.softHold := rfl
@[simp] theorem State.setEosResult_pinHold (s : State) (r : EosResult) :
    (s.setEosResult r).pinHold = s.pinHold := rfl
@[simp] theorem State.setEosResult_resetLow (s : State) (r : EosResult) :
    (s.setEosResult r).resetLow = s.resetLow := rfl
@[simp] theorem State.setEosResult_reply (s : State) (r : EosResult) :
    (s.setEosResult r).reply = s.reply := rfl
@[simp] theorem State.setEosResult_pending (s : State) (r : EosResult) :
    (s.setEosResult r).pending = s.pending := rfl
@[simp] theorem State.setEosResult_source (s : State) (r : EosResult) (k : RemoteId) :
    (s.setEosResult r).source k = s.source k := rfl
@[simp] theorem State.setEosResult_line (s : State) (r : EosResult) (l : LineId) :
    (s.setEosResult r).line l = s.line l := rfl
@[simp] theorem State.setEosResult_pin (s : State) (r : EosResult) (p : PinId) :
    (s.setEosResult r).pin p = s.pin p := rfl
@[simp] theorem State.setEosResult_filter (s : State) (r : EosResult) (p : SenseId) :
    (s.setEosResult r).filter p = s.filter p := rfl
@[simp] theorem State.setEosResult_inStack (s : State) (r : EosResult) (l : LineId) :
    (s.setEosResult r).inStack l = s.inStack l := rfl
@[simp] theorem State.setEosResult_deliverable (s : State) (r : EosResult) (l : LineId) :
    (s.setEosResult r).deliverable l = s.deliverable l := rfl
@[simp] theorem State.setEosResult_better (s : State) (r : EosResult) (b : Option LineId) (l : LineId) :
    (s.setEosResult r).better b l = s.better b l := rfl
@[simp] theorem State.setEosResult_offer (s : State) (r : EosResult) :
    (s.setEosResult r).offer = s.offer := rfl
@[simp] theorem State.setEosResult_sreq (s : State) (r : EosResult) :
    (s.setEosResult r).sreq = s.sreq := rfl
@[simp] theorem State.setEosResult_summary (s : State) (r : EosResult) :
    (s.setEosResult r).summary = s.summary := rfl
@[simp] theorem State.setEosResult_localActive (s : State) (r : EosResult) (l : LineId) :
    (s.setEosResult r).localActive l = s.localActive l := rfl
@[simp] theorem State.setEosResult_held (s : State) (r : EosResult) :
    (s.setEosResult r).held = s.held := rfl
@[simp] theorem State.setEosResult_paused (s : State) (r : EosResult) :
    (s.setEosResult r).paused = s.paused := rfl
@[simp] theorem State.setEosResult_intervalTicks (s : State) (r : EosResult) :
    (s.setEosResult r).intervalTicks = s.intervalTicks := rfl
@[simp] theorem State.setEosResult_depth (s : State) (r : EosResult) :
    (s.setEosResult r).depth = s.depth := rfl

/-! ### `State.setTstat` -/

@[simp] theorem State.setTstat_reportBase (s : State) (t : TableStatus) :
    (s.setTstat t).reportBase = s.reportBase := rfl
@[simp] theorem State.setTstat_queue (s : State) (t : TableStatus) :
    (s.setTstat t).queue = s.queue := rfl
@[simp] theorem State.setTstat_arrivals (s : State) (t : TableStatus) :
    (s.setTstat t).arrivals = s.arrivals := rfl
@[simp] theorem State.setTstat_applied (s : State) (t : TableStatus) :
    (s.setTstat t).applied = s.applied := rfl
@[simp] theorem State.setTstat_pauseRequest (s : State) (t : TableStatus) :
    (s.setTstat t).pauseRequest = s.pauseRequest := rfl
@[simp] theorem State.setTstat_applying (s : State) (t : TableStatus) :
    (s.setTstat t).applying = s.applying := rfl
@[simp] theorem State.setTstat_appTicked (s : State) (t : TableStatus) :
    (s.setTstat t).appTicked = s.appTicked := rfl
@[simp] theorem State.setTstat_sources (s : State) (t : TableStatus) :
    (s.setTstat t).sources = s.sources := rfl
@[simp] theorem State.setTstat_lines (s : State) (t : TableStatus) :
    (s.setTstat t).lines = s.lines := rfl
@[simp] theorem State.setTstat_stack (s : State) (t : TableStatus) :
    (s.setTstat t).stack = s.stack := rfl
@[simp] theorem State.setTstat_closeLimit (s : State) (t : TableStatus) :
    (s.setTstat t).closeLimit = s.closeLimit := rfl
@[simp] theorem State.setTstat_closeUnitDue (s : State) (t : TableStatus) :
    (s.setTstat t).closeUnitDue = s.closeUnitDue := rfl
@[simp] theorem State.setTstat_eosResult (s : State) (t : TableStatus) :
    (s.setTstat t).eosResult = s.eosResult := rfl
@[simp] theorem State.setTstat_deadlineMode (s : State) (t : TableStatus) :
    (s.setTstat t).deadlineMode = s.deadlineMode := rfl
@[simp] theorem State.setTstat_deadlineInterval (s : State) (t : TableStatus) :
    (s.setTstat t).deadlineInterval = s.deadlineInterval := rfl
@[simp] theorem State.setTstat_monitor (s : State) (t : TableStatus) :
    (s.setTstat t).monitor = s.monitor := rfl
@[simp] theorem State.setTstat_warning (s : State) (t : TableStatus) :
    (s.setTstat t).warning = s.warning := rfl
@[simp] theorem State.setTstat_record (s : State) (t : TableStatus) :
    (s.setTstat t).record = s.record := rfl
@[simp] theorem State.setTstat_pins (s : State) (t : TableStatus) :
    (s.setTstat t).pins = s.pins := rfl
@[simp] theorem State.setTstat_filters (s : State) (t : TableStatus) :
    (s.setTstat t).filters = s.filters := rfl
@[simp] theorem State.setTstat_eventFlags (s : State) (t : TableStatus) :
    (s.setTstat t).eventFlags = s.eventFlags := rfl
@[simp] theorem State.setTstat_eventEnables (s : State) (t : TableStatus) :
    (s.setTstat t).eventEnables = s.eventEnables := rfl
@[simp] theorem State.setTstat_log (s : State) (t : TableStatus) :
    (s.setTstat t).log = s.log := rfl
@[simp] theorem State.setTstat_checkFailures (s : State) (t : TableStatus) :
    (s.setTstat t).checkFailures = s.checkFailures := rfl
@[simp] theorem State.setTstat_busFaults (s : State) (t : TableStatus) :
    (s.setTstat t).busFaults = s.busFaults := rfl
@[simp] theorem State.setTstat_tsel (s : State) (t : TableStatus) :
    (s.setTstat t).tsel = s.tsel := rfl
@[simp] theorem State.setTstat_staging (s : State) (t : TableStatus) :
    (s.setTstat t).staging = s.staging := rfl
@[simp] theorem State.setTstat_tstat (s : State) (t : TableStatus) :
    (s.setTstat t).tstat = t := rfl
@[simp] theorem State.setTstat_refclk (s : State) (t : TableStatus) :
    (s.setTstat t).refclk = s.refclk := rfl
@[simp] theorem State.setTstat_timeBase (s : State) (t : TableStatus) :
    (s.setTstat t).timeBase = s.timeBase := rfl
@[simp] theorem State.setTstat_resetCause (s : State) (t : TableStatus) :
    (s.setTstat t).resetCause = s.resetCause := rfl
@[simp] theorem State.setTstat_powerHold (s : State) (t : TableStatus) :
    (s.setTstat t).powerHold = s.powerHold := rfl
@[simp] theorem State.setTstat_softHold (s : State) (t : TableStatus) :
    (s.setTstat t).softHold = s.softHold := rfl
@[simp] theorem State.setTstat_pinHold (s : State) (t : TableStatus) :
    (s.setTstat t).pinHold = s.pinHold := rfl
@[simp] theorem State.setTstat_resetLow (s : State) (t : TableStatus) :
    (s.setTstat t).resetLow = s.resetLow := rfl
@[simp] theorem State.setTstat_reply (s : State) (t : TableStatus) :
    (s.setTstat t).reply = s.reply := rfl
@[simp] theorem State.setTstat_pending (s : State) (t : TableStatus) :
    (s.setTstat t).pending = s.pending := rfl
@[simp] theorem State.setTstat_source (s : State) (t : TableStatus) (k : RemoteId) :
    (s.setTstat t).source k = s.source k := rfl
@[simp] theorem State.setTstat_line (s : State) (t : TableStatus) (l : LineId) :
    (s.setTstat t).line l = s.line l := rfl
@[simp] theorem State.setTstat_pin (s : State) (t : TableStatus) (p : PinId) :
    (s.setTstat t).pin p = s.pin p := rfl
@[simp] theorem State.setTstat_filter (s : State) (t : TableStatus) (p : SenseId) :
    (s.setTstat t).filter p = s.filter p := rfl
@[simp] theorem State.setTstat_inStack (s : State) (t : TableStatus) (l : LineId) :
    (s.setTstat t).inStack l = s.inStack l := rfl
@[simp] theorem State.setTstat_deliverable (s : State) (t : TableStatus) (l : LineId) :
    (s.setTstat t).deliverable l = s.deliverable l := rfl
@[simp] theorem State.setTstat_better (s : State) (t : TableStatus) (b : Option LineId) (l : LineId) :
    (s.setTstat t).better b l = s.better b l := rfl
@[simp] theorem State.setTstat_offer (s : State) (t : TableStatus) :
    (s.setTstat t).offer = s.offer := rfl
@[simp] theorem State.setTstat_sreq (s : State) (t : TableStatus) :
    (s.setTstat t).sreq = s.sreq := rfl
@[simp] theorem State.setTstat_summary (s : State) (t : TableStatus) :
    (s.setTstat t).summary = s.summary := rfl
@[simp] theorem State.setTstat_localActive (s : State) (t : TableStatus) (l : LineId) :
    (s.setTstat t).localActive l = s.localActive l := rfl
@[simp] theorem State.setTstat_held (s : State) (t : TableStatus) :
    (s.setTstat t).held = s.held := rfl
@[simp] theorem State.setTstat_paused (s : State) (t : TableStatus) :
    (s.setTstat t).paused = s.paused := rfl
@[simp] theorem State.setTstat_intervalTicks (s : State) (t : TableStatus) :
    (s.setTstat t).intervalTicks = s.intervalTicks := rfl
@[simp] theorem State.setTstat_depth (s : State) (t : TableStatus) :
    (s.setTstat t).depth = s.depth := rfl

/-! ### `State.setWarning` -/

@[simp] theorem State.setWarning_reportBase (s : State) (w : Bool) :
    (s.setWarning w).reportBase = s.reportBase := rfl
@[simp] theorem State.setWarning_queue (s : State) (w : Bool) :
    (s.setWarning w).queue = s.queue := rfl
@[simp] theorem State.setWarning_arrivals (s : State) (w : Bool) :
    (s.setWarning w).arrivals = s.arrivals := rfl
@[simp] theorem State.setWarning_applied (s : State) (w : Bool) :
    (s.setWarning w).applied = s.applied := rfl
@[simp] theorem State.setWarning_pauseRequest (s : State) (w : Bool) :
    (s.setWarning w).pauseRequest = s.pauseRequest := rfl
@[simp] theorem State.setWarning_applying (s : State) (w : Bool) :
    (s.setWarning w).applying = s.applying := rfl
@[simp] theorem State.setWarning_appTicked (s : State) (w : Bool) :
    (s.setWarning w).appTicked = s.appTicked := rfl
@[simp] theorem State.setWarning_sources (s : State) (w : Bool) :
    (s.setWarning w).sources = s.sources := rfl
@[simp] theorem State.setWarning_lines (s : State) (w : Bool) :
    (s.setWarning w).lines = s.lines := rfl
@[simp] theorem State.setWarning_stack (s : State) (w : Bool) :
    (s.setWarning w).stack = s.stack := rfl
@[simp] theorem State.setWarning_closeLimit (s : State) (w : Bool) :
    (s.setWarning w).closeLimit = s.closeLimit := rfl
@[simp] theorem State.setWarning_closeUnitDue (s : State) (w : Bool) :
    (s.setWarning w).closeUnitDue = s.closeUnitDue := rfl
@[simp] theorem State.setWarning_eosResult (s : State) (w : Bool) :
    (s.setWarning w).eosResult = s.eosResult := rfl
@[simp] theorem State.setWarning_deadlineMode (s : State) (w : Bool) :
    (s.setWarning w).deadlineMode = s.deadlineMode := rfl
@[simp] theorem State.setWarning_deadlineInterval (s : State) (w : Bool) :
    (s.setWarning w).deadlineInterval = s.deadlineInterval := rfl
@[simp] theorem State.setWarning_monitor (s : State) (w : Bool) :
    (s.setWarning w).monitor = s.monitor := rfl
@[simp] theorem State.setWarning_warning (s : State) (w : Bool) :
    (s.setWarning w).warning = w := rfl
@[simp] theorem State.setWarning_record (s : State) (w : Bool) :
    (s.setWarning w).record = s.record := rfl
@[simp] theorem State.setWarning_pins (s : State) (w : Bool) :
    (s.setWarning w).pins = s.pins := rfl
@[simp] theorem State.setWarning_filters (s : State) (w : Bool) :
    (s.setWarning w).filters = s.filters := rfl
@[simp] theorem State.setWarning_eventFlags (s : State) (w : Bool) :
    (s.setWarning w).eventFlags = s.eventFlags := rfl
@[simp] theorem State.setWarning_eventEnables (s : State) (w : Bool) :
    (s.setWarning w).eventEnables = s.eventEnables := rfl
@[simp] theorem State.setWarning_log (s : State) (w : Bool) :
    (s.setWarning w).log = s.log := rfl
@[simp] theorem State.setWarning_checkFailures (s : State) (w : Bool) :
    (s.setWarning w).checkFailures = s.checkFailures := rfl
@[simp] theorem State.setWarning_busFaults (s : State) (w : Bool) :
    (s.setWarning w).busFaults = s.busFaults := rfl
@[simp] theorem State.setWarning_tsel (s : State) (w : Bool) :
    (s.setWarning w).tsel = s.tsel := rfl
@[simp] theorem State.setWarning_staging (s : State) (w : Bool) :
    (s.setWarning w).staging = s.staging := rfl
@[simp] theorem State.setWarning_tstat (s : State) (w : Bool) :
    (s.setWarning w).tstat = s.tstat := rfl
@[simp] theorem State.setWarning_refclk (s : State) (w : Bool) :
    (s.setWarning w).refclk = s.refclk := rfl
@[simp] theorem State.setWarning_timeBase (s : State) (w : Bool) :
    (s.setWarning w).timeBase = s.timeBase := rfl
@[simp] theorem State.setWarning_resetCause (s : State) (w : Bool) :
    (s.setWarning w).resetCause = s.resetCause := rfl
@[simp] theorem State.setWarning_powerHold (s : State) (w : Bool) :
    (s.setWarning w).powerHold = s.powerHold := rfl
@[simp] theorem State.setWarning_softHold (s : State) (w : Bool) :
    (s.setWarning w).softHold = s.softHold := rfl
@[simp] theorem State.setWarning_pinHold (s : State) (w : Bool) :
    (s.setWarning w).pinHold = s.pinHold := rfl
@[simp] theorem State.setWarning_resetLow (s : State) (w : Bool) :
    (s.setWarning w).resetLow = s.resetLow := rfl
@[simp] theorem State.setWarning_reply (s : State) (w : Bool) :
    (s.setWarning w).reply = s.reply := rfl
@[simp] theorem State.setWarning_pending (s : State) (w : Bool) :
    (s.setWarning w).pending = s.pending := rfl
@[simp] theorem State.setWarning_source (s : State) (w : Bool) (k : RemoteId) :
    (s.setWarning w).source k = s.source k := rfl
@[simp] theorem State.setWarning_line (s : State) (w : Bool) (l : LineId) :
    (s.setWarning w).line l = s.line l := rfl
@[simp] theorem State.setWarning_pin (s : State) (w : Bool) (p : PinId) :
    (s.setWarning w).pin p = s.pin p := rfl
@[simp] theorem State.setWarning_filter (s : State) (w : Bool) (p : SenseId) :
    (s.setWarning w).filter p = s.filter p := rfl
@[simp] theorem State.setWarning_inStack (s : State) (w : Bool) (l : LineId) :
    (s.setWarning w).inStack l = s.inStack l := rfl
@[simp] theorem State.setWarning_deliverable (s : State) (w : Bool) (l : LineId) :
    (s.setWarning w).deliverable l = s.deliverable l := rfl
@[simp] theorem State.setWarning_better (s : State) (w : Bool) (b : Option LineId) (l : LineId) :
    (s.setWarning w).better b l = s.better b l := rfl
@[simp] theorem State.setWarning_offer (s : State) (w : Bool) :
    (s.setWarning w).offer = s.offer := rfl
@[simp] theorem State.setWarning_sreq (s : State) (w : Bool) :
    (s.setWarning w).sreq = s.sreq := rfl
@[simp] theorem State.setWarning_summary (s : State) (w : Bool) :
    (s.setWarning w).summary = s.summary := rfl
@[simp] theorem State.setWarning_localActive (s : State) (w : Bool) (l : LineId) :
    (s.setWarning w).localActive l = s.localActive l := rfl
@[simp] theorem State.setWarning_held (s : State) (w : Bool) :
    (s.setWarning w).held = s.held := rfl
@[simp] theorem State.setWarning_paused (s : State) (w : Bool) :
    (s.setWarning w).paused = s.paused := rfl
@[simp] theorem State.setWarning_intervalTicks (s : State) (w : Bool) :
    (s.setWarning w).intervalTicks = s.intervalTicks := rfl
@[simp] theorem State.setWarning_depth (s : State) (w : Bool) :
    (s.setWarning w).depth = s.depth := rfl

/-! ### `State.monitorReset` -/

@[simp] theorem State.monitorReset_reportBase (s : State) :
    (s.monitorReset).reportBase = s.reportBase := rfl
@[simp] theorem State.monitorReset_queue (s : State) :
    (s.monitorReset).queue = s.queue := rfl
@[simp] theorem State.monitorReset_arrivals (s : State) :
    (s.monitorReset).arrivals = s.arrivals := rfl
@[simp] theorem State.monitorReset_applied (s : State) :
    (s.monitorReset).applied = s.applied := rfl
@[simp] theorem State.monitorReset_pauseRequest (s : State) :
    (s.monitorReset).pauseRequest = s.pauseRequest := rfl
@[simp] theorem State.monitorReset_applying (s : State) :
    (s.monitorReset).applying = s.applying := rfl
@[simp] theorem State.monitorReset_appTicked (s : State) :
    (s.monitorReset).appTicked = s.appTicked := rfl
@[simp] theorem State.monitorReset_sources (s : State) :
    (s.monitorReset).sources = s.sources := rfl
@[simp] theorem State.monitorReset_lines (s : State) :
    (s.monitorReset).lines = s.lines := rfl
@[simp] theorem State.monitorReset_stack (s : State) :
    (s.monitorReset).stack = s.stack := rfl
@[simp] theorem State.monitorReset_closeLimit (s : State) :
    (s.monitorReset).closeLimit = s.closeLimit := rfl
@[simp] theorem State.monitorReset_closeUnitDue (s : State) :
    (s.monitorReset).closeUnitDue = s.closeUnitDue := rfl
@[simp] theorem State.monitorReset_eosResult (s : State) :
    (s.monitorReset).eosResult = s.eosResult := rfl
@[simp] theorem State.monitorReset_deadlineMode (s : State) :
    (s.monitorReset).deadlineMode = .off := rfl
@[simp] theorem State.monitorReset_deadlineInterval (s : State) :
    (s.monitorReset).deadlineInterval = 0 := rfl
@[simp] theorem State.monitorReset_monitor (s : State) :
    (s.monitorReset).monitor = .idle := rfl
@[simp] theorem State.monitorReset_warning (s : State) :
    (s.monitorReset).warning = s.warning := rfl
@[simp] theorem State.monitorReset_record (s : State) :
    (s.monitorReset).record = s.record := rfl
@[simp] theorem State.monitorReset_pins (s : State) :
    (s.monitorReset).pins = s.pins := rfl
@[simp] theorem State.monitorReset_filters (s : State) :
    (s.monitorReset).filters = s.filters := rfl
@[simp] theorem State.monitorReset_eventFlags (s : State) :
    (s.monitorReset).eventFlags = s.eventFlags := rfl
@[simp] theorem State.monitorReset_eventEnables (s : State) :
    (s.monitorReset).eventEnables = s.eventEnables := rfl
@[simp] theorem State.monitorReset_log (s : State) :
    (s.monitorReset).log = s.log := rfl
@[simp] theorem State.monitorReset_checkFailures (s : State) :
    (s.monitorReset).checkFailures = s.checkFailures := rfl
@[simp] theorem State.monitorReset_busFaults (s : State) :
    (s.monitorReset).busFaults = s.busFaults := rfl
@[simp] theorem State.monitorReset_tsel (s : State) :
    (s.monitorReset).tsel = s.tsel := rfl
@[simp] theorem State.monitorReset_staging (s : State) :
    (s.monitorReset).staging = s.staging := rfl
@[simp] theorem State.monitorReset_tstat (s : State) :
    (s.monitorReset).tstat = s.tstat := rfl
@[simp] theorem State.monitorReset_refclk (s : State) :
    (s.monitorReset).refclk = s.refclk := rfl
@[simp] theorem State.monitorReset_timeBase (s : State) :
    (s.monitorReset).timeBase = s.timeBase := rfl
@[simp] theorem State.monitorReset_resetCause (s : State) :
    (s.monitorReset).resetCause = s.resetCause := rfl
@[simp] theorem State.monitorReset_powerHold (s : State) :
    (s.monitorReset).powerHold = s.powerHold := rfl
@[simp] theorem State.monitorReset_softHold (s : State) :
    (s.monitorReset).softHold = s.softHold := rfl
@[simp] theorem State.monitorReset_pinHold (s : State) :
    (s.monitorReset).pinHold = s.pinHold := rfl
@[simp] theorem State.monitorReset_resetLow (s : State) :
    (s.monitorReset).resetLow = s.resetLow := rfl
@[simp] theorem State.monitorReset_reply (s : State) :
    (s.monitorReset).reply = s.reply := rfl
@[simp] theorem State.monitorReset_pending (s : State) :
    (s.monitorReset).pending = s.pending := rfl
@[simp] theorem State.monitorReset_source (s : State) (k : RemoteId) :
    (s.monitorReset).source k = s.source k := rfl
@[simp] theorem State.monitorReset_line (s : State) (l : LineId) :
    (s.monitorReset).line l = s.line l := rfl
@[simp] theorem State.monitorReset_pin (s : State) (p : PinId) :
    (s.monitorReset).pin p = s.pin p := rfl
@[simp] theorem State.monitorReset_filter (s : State) (p : SenseId) :
    (s.monitorReset).filter p = s.filter p := rfl
@[simp] theorem State.monitorReset_inStack (s : State) (l : LineId) :
    (s.monitorReset).inStack l = s.inStack l := rfl
@[simp] theorem State.monitorReset_deliverable (s : State) (l : LineId) :
    (s.monitorReset).deliverable l = s.deliverable l := rfl
@[simp] theorem State.monitorReset_better (s : State) (b : Option LineId) (l : LineId) :
    (s.monitorReset).better b l = s.better b l := rfl
@[simp] theorem State.monitorReset_offer (s : State) :
    (s.monitorReset).offer = s.offer := rfl
@[simp] theorem State.monitorReset_sreq (s : State) :
    (s.monitorReset).sreq = s.sreq := rfl
@[simp] theorem State.monitorReset_summary (s : State) :
    (s.monitorReset).summary = s.summary := rfl
@[simp] theorem State.monitorReset_localActive (s : State) (l : LineId) :
    (s.monitorReset).localActive l = s.localActive l := rfl
@[simp] theorem State.monitorReset_paused (s : State) :
    (s.monitorReset).paused = s.paused := rfl
@[simp] theorem State.monitorReset_depth (s : State) :
    (s.monitorReset).depth = s.depth := rfl

end Sys2Proof.Machine
end

