-- ==== Sys2Proof/Laws/Ops.lean ====
section
/-! SUPPORT. For each shared operation of Machine/Ops.lean, once, everything it can do. -/

namespace Sys2Proof.Machine

/-! ### The tables, read after an update -/

@[simp] theorem State.source_setSource_self (s : State) (k : RemoteId) (e : SourceEntry) :
    (s.setSource k e).source k = e := by
  simp [State.setSource, State.source]

theorem State.source_setSource_ne (s : State) {j k : RemoteId} (e : SourceEntry) (h : j ≠ k) :
    (s.setSource k e).source j = s.source j := by
  have : (k : Nat) ≠ j := fun hn => h (Fin.ext hn.symm)
  simp [State.setSource, State.source, Vector.getElem_set_ne _ _ this]

theorem State.source_setSource (s : State) (j k : RemoteId) (e : SourceEntry) :
    (s.setSource k e).source j = if j = k then e else s.source j := by
  split
  · next h => subst h; simp
  · next h => exact s.source_setSource_ne e h

@[simp] theorem State.line_setLine_self (s : State) (l : LineId) (e : LineEntry) : (s.setLine l e).line l = e := by
  simp [State.setLine, State.line]

theorem State.line_setLine_ne (s : State) {m l : LineId} (e : LineEntry) (h : m ≠ l) :
    (s.setLine l e).line m = s.line m := by
  have : (l : Nat) ≠ m := fun hn => h (Fin.ext hn.symm)
  simp [State.setLine, State.line, Vector.getElem_set_ne _ _ this]

theorem State.line_setLine (s : State) (m l : LineId) (e : LineEntry) :
    (s.setLine l e).line m = if m = l then e else s.line m := by
  split
  · next h => subst h; simp
  · next h => exact s.line_setLine_ne e h

@[simp] theorem State.pin_setPin_self (s : State) (p : PinId) (e : PinEntry) : (s.setPin p e).pin p = e := by
  simp [State.setPin, State.pin]

theorem State.pin_setPin (s : State) (q p : PinId) (e : PinEntry) :
    (s.setPin p e).pin q = if q = p then e else s.pin q := by
  split
  · next h => subst h; simp
  · next h =>
    have : (p : Nat) ≠ q := fun hn => h (Fin.ext hn.symm)
    simp [State.setPin, State.pin, Vector.getElem_set_ne _ _ this]

@[simp] theorem State.filter_setFilter_self (s : State) (p : SenseId) (e : PinFilter) :
    (s.setFilter p e).filter p = e := by
  simp [State.setFilter, State.filter]

theorem State.filter_setFilter (s : State) (q p : SenseId) (e : PinFilter) :
    (s.setFilter p e).filter q = if q = p then e else s.filter q := by
  split
  · next h => subst h; simp
  · next h =>
    have : (p : Nat) ≠ q := fun hn => h (Fin.ext hn.symm)
    simp [State.setFilter, State.filter, Vector.getElem_set_ne _ _ this]

@[simp] theorem State.line_mapLines (s : State) (f : LineId → LineEntry → LineEntry) (l : LineId) :
    (s.mapLines f).line l = f l (s.line l) := by
  simp [State.mapLines, State.line]

@[simp] theorem State.source_mapSources (s : State) (f : RemoteId → SourceEntry → SourceEntry) (k : RemoteId) :
    (s.mapSources f).source k = f k (s.source k) := by
  simp [State.mapSources, State.source]

/-- A withdrawal takes the source out of the contributor sets of the named lines and changes nothing else (R46, R69). -/
theorem State.line_withdraw (s : State) (k : RemoteId) (m : LineSet) (l : LineId) :
    (s.withdraw k m).line l =
      if m.getLsbD l.val then { s.line l with contributors := putMember (s.line l).contributors k.val false }
      else s.line l := by
  simp [State.withdraw]

theorem State.line_recomputeLocal (s : State) (m l : LineId) :
    (s.recomputeLocal m).line l =
      if l = m then (s.line l).setMember Config.localCode (s.localActive l) else s.line l := by
  unfold State.recomputeLocal
  rw [State.line_setLine]
  split
  · next h => subst h; rfl
  · rfl

/-! ### Sets of sources and of lines -/

/-- After `putMember c n b`, source `n` is a member exactly when `b` says so, and no other membership has changed. -/
theorem putMember_getLsbD (c : SourceSet) (n m : Nat) (b : Bool) (hn : n < 25) :
    (putMember c n b).getLsbD m = if m = n then b else c.getLsbD m := by
  unfold putMember
  by_cases h : m = n
  · subst h; cases b <;> simp [hn]
  · by_cases hm : m < 25
    · have h' : ¬ n = m := fun e => h e.symm
      cases b <;> simp_all
    · cases b <;> simp [h, BitVec.getLsbD_of_ge _ _ (Nat.le_of_not_lt hm)]

theorem foldl_putMember_getLsbD (p : Nat → Bool) (m : Nat) :
    ∀ (ns : List Nat) (c : SourceSet), (∀ n ∈ ns, n < 25) →
      (ns.foldl (fun acc n => putMember acc n (p n)) c).getLsbD m =
        if m ∈ ns then p m else c.getLsbD m
  | [], c, _ => by simp
  | n :: ns, c, h => by
    have ih := foldl_putMember_getLsbD p m ns (putMember c n (p n)) (fun x hx => h x (List.mem_cons_of_mem _ hx))
    rw [List.foldl_cons, ih, putMember_getLsbD _ _ _ _ (h n (List.mem_cons_self ..))]
    by_cases h1 : m ∈ ns <;> by_cases h2 : m = n <;> simp_all

/-- `sourceSetOf p` holds the source codes 0 to 24 that satisfy `p`. -/
theorem sourceSetOf_getLsbD (p : Nat → Bool) (m : Nat) : (sourceSetOf p).getLsbD m = (decide (m < 25) && p m) := by
  unfold sourceSetOf
  rw [foldl_putMember_getLsbD p m _ _ (fun n hn => List.mem_range.mp hn)]
  by_cases h : m < 25 <;> simp [h]

theorem foldl_line_getLsbD (p : LineId → Bool) (m : LineId) :
    ∀ (ls : List LineId) (c : LineSet),
      (ls.foldl (fun acc l => if p l then acc ||| BitVec.twoPow 32 l.val else acc) c).getLsbD m.val =
        (c.getLsbD m.val || (decide (m ∈ ls) && p m))
  | [], c => by simp
  | l :: ls, c => by
    rw [List.foldl_cons, foldl_line_getLsbD p m ls]
    by_cases h : m = l
    · subst h; cases hp : p m <;> simp_all
    · have h' : ¬ (m : Nat) = l := fun e => h (Fin.ext e)
      cases hp : p l <;> simp [h, h']

/-- `lineSetOf p` holds the lines that satisfy `p`. -/
@[simp] theorem lineSetOf_getLsbD (p : LineId → Bool) (l : LineId) : (lineSetOf p).getLsbD l.val = p l := by
  unfold lineSetOf
  rw [foldl_line_getLsbD]
  simp

/-! ### Derived values that depend on few fields -/

theorem State.line_congr {s t : State} (h : t.lines = s.lines) : t.line = s.line := by
  funext l; simp [State.line, h]

theorem State.deliverable_congr {s t : State} (hl : t.lines = s.lines) (hs : t.stack = s.stack) :
    t.deliverable = s.deliverable := by
  funext l
  simp only [State.deliverable, State.line, State.inStack, State.passesGate, hl, hs]

theorem State.sreq_congr {s t : State} (hl : t.lines = s.lines) (hs : t.stack = s.stack) : t.sreq = s.sreq := by
  simp only [State.sreq, State.deliverable_congr hl hs]

theorem State.offer_congr {s t : State} (hl : t.lines = s.lines) (hs : t.stack = s.stack) : t.offer = s.offer := by
  have hb : t.better = s.better := by
    funext b l
    simp only [State.better, State.deliverable_congr hl hs, State.line_congr hl]
  simp only [State.offer, hb]

theorem State.summary_congr {s t : State} (hf : t.eventFlags = s.eventFlags) (he : t.eventEnables = s.eventEnables) :
    t.summary = s.summary := by
  simp only [State.summary, hf, he]

theorem State.localActive_congr {s t : State} (hp : t.pins = s.pins) (hf : t.filters = s.filters)
    (hs : t.summary = s.summary) : t.localActive = s.localActive := by
  funext l
  simp only [State.localActive, State.pinActive, State.pinLevel, State.pin, State.filter, hp, hf, hs]

theorem State.held_congr {s t : State} (h1 : t.powerHold = s.powerHold) (h2 : t.softHold = s.softHold)
    (h3 : t.pinHold = s.pinHold) (h4 : t.monitor = s.monitor) : t.held = s.held := by
  simp only [State.held, h1, h2, h3, h4]

/-! ### Requests and the offer -/

/-- SREQ is asserted exactly while some line is deliverable (R85). -/
theorem State.sreq_eq_true {s : State} : s.sreq = true ↔ ∃ l, s.deliverable l = true := by
  simp [State.sreq]

theorem State.foldl_better_isSome (s : State) :
    ∀ (ls : List LineId) (b : Option LineId),
      (ls.foldl s.better b).isSome = (b.isSome || ls.any s.deliverable)
  | [], b => by simp
  | l :: ls, b => by
    rw [List.foldl_cons, State.foldl_better_isSome s ls]
    unfold State.better
    cases h : s.deliverable l <;> cases b <;> simp [h]
    split <;> simp

/-- An offer exists exactly while SREQ is asserted (R84, R85). -/
theorem State.offer_isSome (s : State) : s.offer.isSome = s.sreq := by
  simp [State.offer, State.sreq, State.foldl_better_isSome]

theorem State.offer_eq_none {s : State} : s.offer = none ↔ s.sreq = false := by
  rw [← State.offer_isSome]; cases s.offer <;> simp

/-! ### What an event passes on within itself -/

theorem State.sreqRises_eq (s : State) : s.sreqRises = { s with monitor := s.sreqRises.monitor } := by
  unfold State.sreqRises; split <;> (try split) <;> rfl

theorem State.sreqFalls_eq (s : State) : s.sreqFalls = { s with monitor := s.sreqFalls.monitor } := by
  unfold State.sreqFalls; split <;> rfl

theorem State.watchSreq_eq (b s : State) : State.watchSreq b s = { s with monitor := (State.watchSreq b s).monitor } := by
  unfold State.watchSreq; split
  · exact s.sreqRises_eq
  · exact s.sreqFalls_eq
  · rfl
  · rfl

theorem State.recomputeLocal_eq (s : State) (l : LineId) :
    s.recomputeLocal l = { s with lines := (s.recomputeLocal l).lines } := rfl

theorem State.watchSummary_eq (b s : State) :
    State.watchSummary b s = { s with lines := (State.watchSummary b s).lines } := by
  unfold State.watchSummary; split
  · exact s.recomputeLocal_eq _
  · rfl

/-- What an event passes on changes the line table and the monitor, and nothing else. -/
theorem State.propagate_eq (b s : State) :
    State.propagate b s =
      { s with lines := (State.propagate b s).lines, monitor := (State.propagate b s).monitor } := by
  have h2 := State.watchSummary_eq b s
  unfold State.propagate
  generalize State.watchSummary b s = w at *
  have h1 := State.watchSreq_eq b w
  generalize State.watchSreq b w = p at *
  obtain ⟨m, hm⟩ : ∃ m, m = p.monitor := ⟨_, rfl⟩
  obtain ⟨ls, hls⟩ : ∃ ls, ls = w.lines := ⟨_, rfl⟩
  rw [← hm] at h1
  rw [← hls] at h2
  subst h2
  subst h1
  rfl

end Sys2Proof.Machine
end

