-- ==== Sys2Proof/Laws/Propagate.lean ====
section
/-! SUPPORT. What every event passes on within itself (State.propagate): the frame, the lines, the monitor. -/

namespace Sys2Proof.Machine

/-! ### The frame: only the lines and the monitor -/

@[simp] theorem State.propagate_reportBase (b s : State) : (State.propagate b s).reportBase = s.reportBase := by
  rw [State.propagate_eq]
@[simp] theorem State.propagate_queue (b s : State) : (State.propagate b s).queue = s.queue := by
  rw [State.propagate_eq]
@[simp] theorem State.propagate_arrivals (b s : State) : (State.propagate b s).arrivals = s.arrivals := by
  rw [State.propagate_eq]
@[simp] theorem State.propagate_applied (b s : State) : (State.propagate b s).applied = s.applied := by
  rw [State.propagate_eq]
@[simp] theorem State.propagate_pauseRequest (b s : State) : (State.propagate b s).pauseRequest = s.pauseRequest := by
  rw [State.propagate_eq]
@[simp] theorem State.propagate_applying (b s : State) : (State.propagate b s).applying = s.applying := by
  rw [State.propagate_eq]
@[simp] theorem State.propagate_appTicked (b s : State) : (State.propagate b s).appTicked = s.appTicked := by
  rw [State.propagate_eq]
@[simp] theorem State.propagate_sources (b s : State) : (State.propagate b s).sources = s.sources := by
  rw [State.propagate_eq]
@[simp] theorem State.propagate_stack (b s : State) : (State.propagate b s).stack = s.stack := by
  rw [State.propagate_eq]
@[simp] theorem State.propagate_closeLimit (b s : State) : (State.propagate b s).closeLimit = s.closeLimit := by
  rw [State.propagate_eq]
@[simp] theorem State.propagate_closeUnitDue (b s : State) : (State.propagate b s).closeUnitDue = s.closeUnitDue := by
  rw [State.propagate_eq]
@[simp] theorem State.propagate_eosResult (b s : State) : (State.propagate b s).eosResult = s.eosResult := by
  rw [State.propagate_eq]
@[simp] theorem State.propagate_deadlineMode (b s : State) : (State.propagate b s).deadlineMode = s.deadlineMode := by
  rw [State.propagate_eq]
@[simp] theorem State.propagate_deadlineInterval (b s : State) : (State.propagate b s).deadlineInterval = s.deadlineInterval := by
  rw [State.propagate_eq]
@[simp] theorem State.propagate_warning (b s : State) : (State.propagate b s).warning = s.warning := by
  rw [State.propagate_eq]
@[simp] theorem State.propagate_record (b s : State) : (State.propagate b s).record = s.record := by
  rw [State.propagate_eq]
@[simp] theorem State.propagate_pins (b s : State) : (State.propagate b s).pins = s.pins := by
  rw [State.propagate_eq]
@[simp] theorem State.propagate_filters (b s : State) : (State.propagate b s).filters = s.filters := by
  rw [State.propagate_eq]
@[simp] theorem State.propagate_eventFlags (b s : State) : (State.propagate b s).eventFlags = s.eventFlags := by
  rw [State.propagate_eq]
@[simp] theorem State.propagate_eventEnables (b s : State) : (State.propagate b s).eventEnables = s.eventEnables := by
  rw [State.propagate_eq]
@[simp] theorem State.propagate_log (b s : State) : (State.propagate b s).log = s.log := by
  rw [State.propagate_eq]
@[simp] theorem State.propagate_checkFailures (b s : State) : (State.propagate b s).checkFailures = s.checkFailures := by
  rw [State.propagate_eq]
@[simp] theorem State.propagate_busFaults (b s : State) : (State.propagate b s).busFaults = s.busFaults := by
  rw [State.propagate_eq]
@[simp] theorem State.propagate_tsel (b s : State) : (State.propagate b s).tsel = s.tsel := by
  rw [State.propagate_eq]
@[simp] theorem State.propagate_staging (b s : State) : (State.propagate b s).staging = s.staging := by
  rw [State.propagate_eq]
@[simp] theorem State.propagate_tstat (b s : State) : (State.propagate b s).tstat = s.tstat := by
  rw [State.propagate_eq]
@[simp] theorem State.propagate_refclk (b s : State) : (State.propagate b s).refclk = s.refclk := by
  rw [State.propagate_eq]
@[simp] theorem State.propagate_timeBase (b s : State) : (State.propagate b s).timeBase = s.timeBase := by
  rw [State.propagate_eq]
@[simp] theorem State.propagate_resetCause (b s : State) : (State.propagate b s).resetCause = s.resetCause := by
  rw [State.propagate_eq]
@[simp] theorem State.propagate_powerHold (b s : State) : (State.propagate b s).powerHold = s.powerHold := by
  rw [State.propagate_eq]
@[simp] theorem State.propagate_softHold (b s : State) : (State.propagate b s).softHold = s.softHold := by
  rw [State.propagate_eq]
@[simp] theorem State.propagate_pinHold (b s : State) : (State.propagate b s).pinHold = s.pinHold := by
  rw [State.propagate_eq]
@[simp] theorem State.propagate_resetLow (b s : State) : (State.propagate b s).resetLow = s.resetLow := by
  rw [State.propagate_eq]
@[simp] theorem State.propagate_reply (b s : State) : (State.propagate b s).reply = s.reply := by
  rw [State.propagate_eq]
@[simp] theorem State.propagate_pending (b s : State) : (State.propagate b s).pending = s.pending := by
  rw [State.propagate_eq]

@[simp] theorem State.propagate_source (b s : State) (k : RemoteId) : (State.propagate b s).source k = s.source k := by
  simp only [State.source, State.propagate_sources]
@[simp] theorem State.propagate_pin (b s : State) (p : PinId) : (State.propagate b s).pin p = s.pin p := by
  simp only [State.pin, State.propagate_pins]
@[simp] theorem State.propagate_filter (b s : State) (p : SenseId) : (State.propagate b s).filter p = s.filter p := by
  simp only [State.filter, State.propagate_filters]
@[simp] theorem State.propagate_summary (b s : State) : (State.propagate b s).summary = s.summary :=
  State.summary_congr (by simp) (by simp)
@[simp] theorem State.propagate_localActive (b s : State) (l : LineId) :
    (State.propagate b s).localActive l = s.localActive l :=
  congrFun (State.localActive_congr (by simp) (by simp) (by simp)) l
@[simp] theorem State.propagate_inStack (b s : State) (l : LineId) : (State.propagate b s).inStack l = s.inStack l := by
  simp only [State.inStack, State.propagate_stack]
@[simp] theorem State.propagate_paused (b s : State) : (State.propagate b s).paused = s.paused := by
  simp only [State.paused, State.propagate_pauseRequest, State.propagate_applying]
@[simp] theorem State.propagate_intervalTicks (b s : State) : (State.propagate b s).intervalTicks = s.intervalTicks := by
  simp only [State.intervalTicks, State.propagate_deadlineInterval]
@[simp] theorem State.propagate_depth (b s : State) : (State.propagate b s).depth = s.depth := by
  simp only [State.depth, State.propagate_stack]

/-! ### The lines -/

theorem State.watchSreq_lines (b s : State) : (State.watchSreq b s).lines = s.lines := by
  rw [State.watchSreq_eq]

theorem State.watchSreq_stack (b s : State) : (State.watchSreq b s).stack = s.stack := by
  rw [State.watchSreq_eq]

theorem State.propagate_line (b s : State) (l : LineId) :
    (State.propagate b s).line l =
      if b.summary ≠ s.summary ∧ (s.pin 8).mode.isLevel = true ∧ l = (s.pin 8).target then
        (s.line l).setMember 24 (s.localActive l)
      else s.line l := by
  have h : (State.propagate b s).line l = (State.watchSummary b s).line l := by
    simp only [State.propagate, State.line, State.watchSreq_lines]
  rw [h]
  unfold State.watchSummary
  by_cases h1 : b.summary = s.summary
  · simp [h1]
  · by_cases h2 : (s.pin 8).mode.isLevel = true
    · simp [h1, h2, State.line_recomputeLocal, Config.localCode]
    · simp [h2]

/-- The line table of an event: what its own effect left, and the local source's membership after a change of the
summary (R127, R138). -/
theorem State.propagate_linesAfter (b s : State) (h : s.pins = b.pins) :
    Safety.LinesAfter b (State.propagate b s) s.line := by
  intro l
  have hp : b.pin 8 = s.pin 8 := by simp only [State.pin, h]
  rw [State.propagate_line, State.propagate_summary, State.propagate_localActive, hp]

/-! ### The monitor -/

theorem State.propagate_sreq (b s : State) : (State.propagate b s).sreq = (State.watchSummary b s).sreq :=
  State.sreq_congr (State.watchSreq_lines ..) (State.watchSreq_stack ..)

/-- The monitor of an event that is no TAKE and no write of the mode (R85, R117). -/
theorem State.propagate_monitorAfter (b s : State) (hm : s.monitor = b.monitor) (hd : s.deadlineMode = b.deadlineMode)
    (hi : s.deadlineInterval = b.deadlineInterval) :
    (State.propagate b s).monitor = Safety.monitorAfter b (State.propagate b s) := by
  have e := State.watchSummary_eq b s
  have hm' : (State.watchSummary b s).monitor = b.monitor := by rw [e]; exact hm
  have hd' : (State.watchSummary b s).deadlineMode = b.deadlineMode := by rw [e]; exact hd
  have hi' : (State.watchSummary b s).intervalTicks = b.intervalTicks := by
    simp only [State.intervalTicks]; rw [e]; simp only [hi]
  unfold Safety.monitorAfter
  rw [State.propagate_sreq]
  unfold State.propagate State.watchSreq
  cases h1 : b.sreq <;> cases h2 : (State.watchSummary b s).sreq 
  · simpa [h1, h2] using hm'
  · unfold State.sreqRises
    rw [hm', hd']
    cases h3 : b.monitor
    · by_cases h4 : b.deadlineMode = .off <;> simp [h4, hm', h3, hi']
    all_goals simp [hm', h3]
  · unfold State.sreqFalls
    rw [hm']
    cases h3 : b.monitor <;> simp [hm', h3]
  · simpa using hm'

end Sys2Proof.Machine
end

