-- ==== Sys2Proof/Laws/Bridge.lean ====
section
/-! SUPPORT. The vocabulary of the statements (Safety.lean) in the model's own terms. -/

namespace Sys2Proof.Machine

open Sys2Proof.Safety

/-! ### Holds and bus answers -/

theorem State.held_eq_false {s : State} : s.held = false ↔
    s.powerHold = none ∧ s.softHold = none ∧ s.pinHold = false ∧ s.rstout = false := by
  cases h1 : s.powerHold <;> cases h2 : s.softHold <;> cases h3 : s.pinHold <;> cases h4 : s.monitor <;>
    simp [State.held, State.rstout, h1, h2, h3, h4]

/-- A write of the register window while a reset is held is not claimed (R160). -/
@[simp] theorem State.registerDone_of_held {s : State} (h : s.held = true) (f : State → State) :
    s.registerDone f = s.unclaimed := by
  simp [State.registerDone, h]

/-- A full-width write of a register that accepts writes takes effect and receives DONE (R160). -/
@[simp] theorem State.registerDone_of_free {s : State} (h : s.held = false) (f : State → State) :
    s.registerDone f = (f s).answer .done 0 := by
  simp [State.registerDone, h]

/-! ### The engine -/

theorem State.paused_eq_true {s : State} : s.paused = true ↔ s.engine = .paused := by
  cases h1 : s.pauseRequest <;> cases h2 : s.applying <;> simp [State.paused, State.engine, h1, h2]

theorem State.paused_eq_false {s : State} : s.paused = false ↔ s.engine ≠ .paused := by
  rw [← Bool.not_eq_true, State.paused_eq_true]

theorem State.applying_of_paused {s : State} (h : s.paused = true) : s.applying = false := by
  cases h2 : s.applying <;> simp_all [State.paused]

/-! ### Saturating counts -/

theorem satInc_eq_saturated {n : Nat} (x : BitVec n) : satInc x = saturated x := by
  unfold satInc saturated
  apply BitVec.eq_of_toNat_eq
  have hx := x.isLt
  split
  · next h =>
    subst h
    simp
  · next h =>
    have hne : x.toNat ≠ 2 ^ n - 1 := by
      intro e; apply h; apply BitVec.eq_of_toNat_eq; simp [e]
    have hlt : x.toNat + 1 < 2 ^ n := by omega
    rw [Nat.min_eq_left (by omega)]
    rcases Nat.eq_zero_or_pos n with rfl | hn
    · have : x.toNat = 0 := by omega
      omega
    · have : 1 < 2 ^ n := Nat.one_lt_two_pow (by omega)
      simp [BitVec.toNat_add, BitVec.toNat_ofNat]

/-! ### Sets, claims and owners -/

theorem without_eq (e : LineEntry) (k : RemoteId) :
    { e with contributors := putMember e.contributors k.val false } = without e k := rfl

theorem State.line_withdraw_all (s : State) (k : RemoteId) (l : LineId) :
    (s.withdraw k (BitVec.allOnes 32)).line l = without (s.line l) k := by
  rw [State.line_withdraw, if_pos (by rw [BitVec.getLsbD_allOnes]; exact decide_eq_true l.isLt)]; rfl

theorem wordRemote_eq_some {w : Word} {k : RemoteId} :
    wordRemote w = some k ↔ (w.extractLsb' 27 5).toNat = k.val := by
  unfold wordRemote wordSource
  split
  · simp [Fin.ext_iff]
  · next h => simp only [reduceCtorEq, false_iff]; omega

theorem State.claimsSource_eq_true {s : State} {k : RemoteId} : s.claimsSource k = true ↔ SourceClaimed s k := by
  unfold State.claimsSource State.applied? SourceClaimed
  cases h1 : s.applying <;> cases h2 : s.queue.head? <;> simp [wordRemote_eq_some]

theorem State.claimsLine_eq_true {s : State} {l : LineId} : s.claimsLine l = true ↔ LineClaimed s l := by
  unfold State.claimsLine State.applied? LineClaimed
  cases h1 : s.applying <;> cases h2 : s.queue.head? <;> simp [wordInOctet, wordOctet]
  exact eq_comm

theorem State.claimsSource_eq_false {s : State} {k : RemoteId} : s.claimsSource k = false ↔ ¬ SourceClaimed s k := by
  rw [← State.claimsSource_eq_true, Bool.not_eq_true]

theorem State.claimsLine_eq_false {s : State} {l : LineId} : s.claimsLine l = false ↔ ¬ LineClaimed s l := by
  rw [← State.claimsLine_eq_true, Bool.not_eq_true]

theorem State.not_sourceClaimed_of_paused {s : State} {k : RemoteId} (h : s.engine = .paused) : ¬ SourceClaimed s k := by
  intro hc
  have := State.applying_of_paused (State.paused_eq_true.mpr h)
  simp [SourceClaimed, this] at hc

theorem State.not_lineClaimed_of_paused {s : State} {l : LineId} (h : s.engine = .paused) : ¬ LineClaimed s l := by
  intro hc
  have := State.applying_of_paused (State.paused_eq_true.mpr h)
  simp [LineClaimed, this] at hc

theorem State.localOwns_eq_true {s : State} {l : LineId} : s.localOwns l = true ↔ LocalOwns s l := by
  simp [State.localOwns, LocalOwns]

theorem State.owns_remote (s : State) (l : LineId) (k : RemoteId) :
    s.owns l k.val = (s.source k).ownership.getLsbD l.val := by
  unfold State.owns
  simp [k.isLt]

theorem State.owns_local (s : State) (l : LineId) : s.owns l 24 = s.localOwns l := by
  simp [State.owns, Config.localCode]

theorem State.remoteOwned_eq_true {s : State} {l : LineId} :
    s.remoteOwned l = true ↔ ∃ k : RemoteId, (s.source k).ownership.getLsbD l.val = true := by
  unfold State.remoteOwned
  simp only [List.any_eq_true, List.mem_range]
  constructor
  · rintro ⟨n, hn, h⟩
    exact ⟨⟨n, hn⟩, by rw [← State.owns_remote]; exact h⟩
  · rintro ⟨k, h⟩
    exact ⟨k.val, k.isLt, by rw [State.owns_remote]; exact h⟩

theorem State.inStack_eq_true {s : State} {l : LineId} : s.inStack l = true ↔ ∃ e ∈ s.stack, e.line = l := by
  simp [State.inStack]

theorem State.inStack_eq_false {s : State} {l : LineId} : s.inStack l = false ↔ ∀ e ∈ s.stack, e.line ≠ l := by
  simp [State.inStack]

/-- The owners of a line: the remote sources that own it, and the local source (R64). -/
theorem State.ownerCount_eq (s : State) (l : LineId) :
    s.ownerCount l =
      (List.finRange 24).countP (fun k => (s.source k).ownership.getLsbD l.val) + (if s.localOwns l then 1 else 0) := by
  have h : List.range 24 = (List.finRange 24).map (fun k : RemoteId => k.val) := by decide
  unfold State.ownerCount
  rw [List.range_succ, List.countP_append, h, List.countP_map]
  simp only [Function.comp_def, State.owns_remote, List.countP_singleton, State.owns_local]

/-! ### The local source and the summary -/

theorem State.summary_eq_true {s : State} :
    s.summary = true ↔ ∃ i : Nat, i < 8 ∧ s.eventFlags.getLsbD i = true ∧ s.eventEnables.getLsbD i = true := by
  have h : ∀ b : BitVec 8, (b != 0#8) = true ↔ ∃ i : Nat, i < 8 ∧ b.getLsbD i = true := by decide
  unfold State.summary
  rw [h]
  simp only [BitVec.getLsbD_and, Bool.and_eq_true]

/-- A filtered level of entry 0 to 7 is that of the pin's filter (R124). -/
theorem State.pinLevel_sense {s : State} {p : PinId} {n : SenseId} (h : n.val = p.val) :
    s.pinLevel p = (s.filter n).level := by
  have hp : p.val < 8 := h ▸ n.isLt
  have hn : n = ⟨p.val, hp⟩ := Fin.ext h
  simp only [State.pinLevel, dif_pos hp, hn]

/-- The filtered level of entry 8 is the summary (R127). -/
theorem State.pinLevel_event (s : State) : s.pinLevel 8 = levelOf s.summary := rfl

theorem levelOf_eq_high {b : Bool} : levelOf b = .high ↔ b = true := by cases b <;> decide

/-- The table of the active entries (R128). -/
theorem State.pinActive_eq_true {s : State} {p : PinId} :
    s.pinActive p = true ↔
      (∃ n : SenseId, n.val = p.val ∧
        (((s.pin p).mode = .levelLow ∧ (s.filter n).level = .low) ∨
          ((s.pin p).mode = .levelHigh ∧ (s.filter n).level = .high))) ∨
      (p = 8 ∧ (s.pin p).mode = .levelHigh ∧ s.summary = true) := by
  by_cases hp : p.val < 8
  · have h8 : p ≠ 8 := by rintro rfl; exact absurd hp (by decide)
    have he : ∀ P : SenseId → Prop, (∃ n : SenseId, n.val = p.val ∧ P n) ↔ P ⟨p.val, hp⟩ := fun P =>
      ⟨fun ⟨n, hn, h⟩ => (Fin.ext hn : n = ⟨p.val, hp⟩) ▸ h, fun h => ⟨_, rfl, h⟩⟩
    rw [he]
    cases hm : (s.pin p).mode <;> simp [State.pinActive, State.pinLevel, hm, hp, h8]
  · have h8 : p = 8 := Fin.ext (by have := p.isLt; simp; omega)
    subst h8
    have hn : ∀ P : SenseId → Prop, ¬ ∃ n : SenseId, n.val = (8 : PinId).val ∧ P n := fun P ⟨n, hv, _⟩ =>
      absurd hv (by have := n.isLt; simp; omega)
    simp only [hn, false_or, true_and]
    cases hm : (s.pin 8).mode <;> simp [State.pinActive, State.pinLevel_event, levelOf_eq_high, hm]

theorem State.localActive_eq_true {s : State} {l : LineId} :
    s.localActive l = true ↔ ∃ p : PinId, (s.pin p).target = l ∧ s.pinActive p = true := by
  simp [State.localActive]

/-! ### The raw word against a line -/

theorem wordStates_eq (w : Word) (l : LineId) :
    wordStates w l = ((w.extractLsb' 20 2).toNat == l.val / 8 && w.getLsbD (12 + l.val % 8)) := by
  have h : l.val % 8 < 8 := Nat.mod_lt _ (by omega)
  unfold wordStates wordInOctet wordOctet wordValid
  rw [BitVec.getLsbD_extractLsb']
  simp only [h, decide_true, Bool.true_and]
  rw [Bool.beq_comm]

theorem wordLevelOf_eq (w : Word) (l : LineId) : wordLevelOf w l = w.getLsbD (4 + l.val % 8) := by
  have h : l.val % 8 < 8 := Nat.mod_lt _ (by omega)
  unfold wordLevelOf wordLevel
  rw [BitVec.getLsbD_extractLsb']
  simp [h]

theorem State.matchesLine_eq_true {s : State} {w : Word} {l : LineId} :
    s.matchesLine w l = true ↔ WordMatches s w l := by
  unfold State.matchesLine wordKind WordMatches
  by_cases h0 : w.extractLsb' 22 2 = 0#2
  · simp [h0, wordStates_eq]
  by_cases h1 : w.extractLsb' 22 2 = 1#2
  · simp [h1]
  by_cases h2 : w.extractLsb' 22 2 = 2#2
  · simp only [h2, show ¬ (2#2 = 0#2) by decide, show ¬ (2#2 = 1#2) by decide, if_true, if_false, false_and, false_or,
      true_and]
    cases hr : wordRemote w with
    | none =>
      simp only [Bool.false_eq_true, false_iff, not_exists, not_and]
      intro k hk
      rw [wordRemote_eq_some.mpr hk] at hr
      cases hr
    | some k =>
      have hk := wordRemote_eq_some.mp hr
      constructor
      · intro h; exact ⟨k, hk, h⟩
      · rintro ⟨j, hj, h⟩
        have : j = k := Fin.ext (by omega)
        subst this; exact h
  · simp [h0, h1, h2]

/-! ### The selection (R146) -/

theorem selectedEntry_source {t : TableSelect} {k : RemoteId} (h : t.table = 0#2) (hi : t.index.toNat = k.val) :
    selectedEntry t = .source k := by
  have := k.isLt
  simp only [selectedEntry, h, if_true]
  rw [dif_pos (by omega)]
  congr 1
  exact Fin.ext hi

theorem selectedEntry_local {t : TableSelect} (h : t.table = 0#2) (hi : t.index = 24#5) :
    selectedEntry t = .localSource := by
  simp [selectedEntry, h, hi]

theorem selectedEntry_line {t : TableSelect} {l : LineId} (h : t.table = 1#2) (hi : t.index.toNat = l.val) :
    selectedEntry t = .line l := by
  simp only [selectedEntry, h, show ¬ (1#2 = 0#2) by decide, if_true, if_false, lineOf]
  congr 1
  exact Fin.ext hi

theorem selectedEntry_pin {t : TableSelect} {p : PinId} (h : t.table = 2#2) (hi : t.index.toNat = p.val) :
    selectedEntry t = .pin p := by
  have := p.isLt
  simp only [selectedEntry, h, show ¬ (2#2 = 0#2) by decide, show ¬ (2#2 = 1#2) by decide, if_true, if_false]
  rw [dif_pos (by omega)]
  congr 1
  exact Fin.ext hi

theorem selectedEntry_none {t : TableSelect}
    (h : t.table = 3#2 ∨ (t.table = 0#2 ∧ 25 ≤ t.index.toNat) ∨ (t.table = 2#2 ∧ 9 ≤ t.index.toNat)) :
    selectedEntry t = .noEntry := by
  rcases h with h | ⟨h, hi⟩ | ⟨h, hi⟩
  · simp [selectedEntry, h]
  · have hne : ¬ t.index = 24#5 := by rintro e; rw [e] at hi; simp at hi
    simp only [selectedEntry, h, if_true, hne, if_false]
    rw [dif_neg (by omega)]
  · simp only [selectedEntry, h, show ¬ (2#2 = 0#2) by decide, show ¬ (2#2 = 1#2) by decide, if_true, if_false]
    rw [dif_neg (by omega)]

end Sys2Proof.Machine
end

