-- ==== Sys2Proof/Laws/Words.lean ====
section
/-! SUPPORT. The words that the part shows, as their fields in order: each register word and staging record is built by
placing its fields (Operands.lean), and here it is equal to their concatenation. -/

namespace Sys2Proof.Machine

/-! ### One bit of a placed field -/

theorem place_getLsbD {n : Nat} (v : BitVec n) (pos i : Nat) :
    (place v pos).getLsbD i = (decide (i < 32) && decide (pos ≤ i) && v.getLsbD (i - pos)) := by
  unfold place
  rw [BitVec.getLsbD_shiftLeft, BitVec.getLsbD_setWidth]
  by_cases h1 : i < 32 <;> by_cases h2 : pos ≤ i
  · have h3 : ¬ i < pos := by omega
    have h4 : i - pos < 32 := by omega
    simp [h1, h2, h3, h4]
  · have h3 : i < pos := by omega
    simp [h2, h3]
  · simp [h1]
  · simp [h1]

theorem placeBool_getLsbD (b : Bool) (pos i : Nat) :
    (placeBool b pos).getLsbD i = (b && decide (i < 32) && decide (i = pos)) := by
  unfold placeBool
  cases b
  · simp
  · simp only [if_true, BitVec.getLsbD_twoPow, Bool.true_and]
    rw [Bool.eq_iff_iff]
    simp only [Bool.and_eq_true, decide_eq_true_eq]
    omega

theorem ofBool_getLsbD (b : Bool) (i : Nat) : (BitVec.ofBool b).getLsbD i = (b && decide (i = 0)) := by
  cases b <;> cases i <;> simp

/-- The 6-bit code of a line, where a line field has room for 63. -/
theorem lineCode_setWidth (l : LineId) : (lineCode l).setWidth 6 = BitVec.ofNat 6 l.val := by revert l; decide

theorem ofNat6_line (l : LineId) : BitVec.ofNat 6 l.val = 0#1 ++ lineCode l := by revert l; decide

theorem ofNat5_line (l : LineId) : BitVec.ofNat 5 l.val = lineCode l := rfl

/-! ### The words of the service unit (R88, R108, R173) -/

theorem takeRecord_eq (l : LineId) (e : LineEntry) (depth : BitVec 4) :
    takeRecord l e depth =
      1#1 ++ 0#3 ++ (if e.mode = .edge then e.repeatCount else 0#4) ++ 0#3 ++ e.hint ++ depth ++ e.mode.kind.code
        ++ e.priority ++ 0#2 ++ BitVec.ofNat 6 l.val := by
  rw [ofNat6_line]
  apply BitVec.eq_of_getLsbD_eq
  intro i hi
  simp only [takeRecord, BitVec.getLsbD_or, place_getLsbD, placeBool_getLsbD, BitVec.getLsbD_append]
  interval_cases i <;> simp

theorem emptyRecord_eq (depth : BitVec 4) : emptyRecord depth = 0#11 ++ 31#5 ++ depth ++ 0#6 ++ 63#6 := by
  revert depth; decide

theorem StackEntry.view_open (e : StackEntry) (applied : Stamp) (h : e.closing = none) :
    e.view applied = 1#1 ++ 0#1 ++ e.kind.code ++ 0#18 ++ e.priority ++ 0#3 ++ BitVec.ofNat 5 e.line.val := by
  rw [ofNat5_line]
  apply BitVec.eq_of_getLsbD_eq
  intro i hi
  simp only [StackEntry.view, h, BitVec.getLsbD_or, place_getLsbD, placeBool_getLsbD, BitVec.getLsbD_append]
  interval_cases i <;> simp

theorem StackEntry.view_closing (e : StackEntry) (c : Closing) (applied : Stamp) (h : e.closing = some c) :
    e.view applied =
      1#1 ++ 1#1 ++ e.kind.code ++ 0#9 ++ (c.watermark - applied).extractLsb' 0 4 ++ c.remaining ++ 0#1 ++ e.priority
        ++ 0#3 ++ BitVec.ofNat 5 e.line.val := by
  rw [ofNat5_line]
  generalize hb : c.watermark - applied = b
  apply BitVec.eq_of_getLsbD_eq
  intro i hi
  simp only [StackEntry.view, h, hb, BitVec.getLsbD_or, place_getLsbD, placeBool_getLsbD, BitVec.getLsbD_append,
    BitVec.getLsbD_setWidth, BitVec.getLsbD_extractLsb']
  interval_cases i <;> simp

/-! ### STATUS, FLOW, LOG_POP and the free count -/

theorem State.statusWord_eq (s : State) :
    s.statusWord = 0#13 ++ BitVec.ofBool s.ureq ++ BitVec.ofBool s.sreq ++ BitVec.ofBool s.summary ++ s.depth ++ 0#3
      ++ BitVec.ofNat 5 s.queue.length ++ 0#2 ++ s.engine.code := by
  unfold State.statusWord
  generalize s.ureq = u, s.sreq = r, s.summary = m, s.depth = d, BitVec.ofNat 5 s.queue.length = f, s.engine.code = e
  apply BitVec.eq_of_getLsbD_eq
  intro i hi
  simp only [BitVec.getLsbD_or, place_getLsbD, placeBool_getLsbD, BitVec.getLsbD_append, ofBool_getLsbD]
  interval_cases i <;> simp

theorem State.flowWord_eq (s : State) : s.flowWord = s.applied ++ s.arrivals := by
  apply BitVec.eq_of_getLsbD_eq
  intro i hi
  simp only [State.flowWord, BitVec.getLsbD_or, place_getLsbD, BitVec.getLsbD_append]
  interval_cases i <;> simp

theorem popRecord_cons (e : LogEntry) (rest : List LogEntry) :
    popRecord (e :: rest) = e.stamp ++ 0#13 ++ e.reason.code := by
  apply BitVec.eq_of_getLsbD_eq
  intro i hi
  simp only [popRecord, BitVec.getLsbD_or, place_getLsbD, BitVec.getLsbD_append]
  interval_cases i <;> simp

theorem State.freeCount_eq (s : State) : s.freeCount = BitVec.ofNat 32 (16 - s.queue.length) := by
  have h : 16 - s.queue.length ≤ 16 := Nat.sub_le ..
  unfold State.freeCount Config.queueCapacity
  generalize 16 - s.queue.length = n at *
  revert n
  decide

/-! ### The other registers (R173) -/

theorem State.controlWord_eq (s : State) :
    s.controlWord = 0#20 ++ s.closeLimit ++ 0#7 ++ BitVec.ofBool s.pauseRequest := by
  apply BitVec.eq_of_getLsbD_eq
  intro i hi
  simp only [State.controlWord, BitVec.getLsbD_or, place_getLsbD, placeBool_getLsbD, BitVec.getLsbD_append, ofBool_getLsbD]
  interval_cases i <;> simp

theorem State.eosResultWord_eq (s : State) :
    s.eosResultWord = 0#12 ++ s.eosResult.depth ++ 0#2 ++ s.eosResult.line ++ 0#6 ++ s.eosResult.outcome.code := by
  apply BitVec.eq_of_getLsbD_eq
  intro i hi
  simp only [State.eosResultWord, BitVec.getLsbD_or, place_getLsbD, BitVec.getLsbD_append]
  interval_cases i <;> simp

theorem State.countsWord_eq (s : State) :
    s.countsWord = 0#4 ++ BitVec.ofNat 4 s.log.length ++ s.busFaults ++ s.checkFailures := by
  unfold State.countsWord
  generalize BitVec.ofNat 4 s.log.length = n
  apply BitVec.eq_of_getLsbD_eq
  intro i hi
  simp only [BitVec.getLsbD_or, place_getLsbD, BitVec.getLsbD_append]
  interval_cases i <;> simp

theorem State.deadlineCtrlWord_eq (s : State) :
    s.deadlineCtrlWord = 0#16 ++ s.deadlineInterval ++ 0#6 ++ s.deadlineMode.code := by
  apply BitVec.eq_of_getLsbD_eq
  intro i hi
  simp only [State.deadlineCtrlWord, BitVec.getLsbD_or, place_getLsbD, BitVec.getLsbD_append]
  interval_cases i <;> simp

theorem State.deadlineViewWord_eq (s : State) :
    s.deadlineViewWord = s.record.depth ++ 0#1 ++ s.record.priority ++ 0#3 ++ s.record.line ++ 0#7
      ++ BitVec.ofBool s.record.valid ++ 0#3 ++ BitVec.ofBool s.warning ++ 0#2 ++ s.monitor.code := by
  apply BitVec.eq_of_getLsbD_eq
  intro i hi
  simp only [State.deadlineViewWord, BitVec.getLsbD_or, place_getLsbD, placeBool_getLsbD, BitVec.getLsbD_append, ofBool_getLsbD]
  interval_cases i <;> simp

theorem State.tselWord_eq (s : State) :
    s.tselWord = 0#19 ++ s.tsel.index ++ 0#6 ++ s.tsel.table := by
  apply BitVec.eq_of_getLsbD_eq
  intro i hi
  simp only [State.tselWord, BitVec.getLsbD_or, place_getLsbD, BitVec.getLsbD_append]
  interval_cases i <;> simp

theorem State.tstatWord_none {s : State} (h : s.tstat.command = none) : s.tstatWord = 0#28 ++ s.tstat.result.code := by
  apply BitVec.eq_of_getLsbD_eq
  intro i hi
  simp only [State.tstatWord, h, BitVec.getLsbD_or, place_getLsbD, BitVec.getLsbD_append]
  interval_cases i <;> simp

theorem State.tstatWord_some {s : State} {c : TableCommand} (h : s.tstat.command = some c) :
    s.tstatWord = 0#21 ++ c.code ++ 0#4 ++ s.tstat.result.code := by
  apply BitVec.eq_of_getLsbD_eq
  intro i hi
  simp only [State.tstatWord, h, BitVec.getLsbD_or, place_getLsbD, BitVec.getLsbD_append]
  interval_cases i <;> simp

theorem place_nibble (c : BitVec 4) :
    place c 0 = 0#28 ++ c := by
  apply BitVec.eq_of_getLsbD_eq
  intro i hi
  simp only [place_getLsbD, BitVec.getLsbD_append]
  interval_cases i <;> simp

theorem place_octet (c : BitVec 8) :
    place c 0 = 0#24 ++ c := by
  apply BitVec.eq_of_getLsbD_eq
  intro i hi
  simp only [place_getLsbD, BitVec.getLsbD_append]
  interval_cases i <;> simp

/-! ### The staging records (R175) -/

theorem SourceEntry.staged_w1 (e : SourceEntry) :
    e.staged.w1 = 0#8 ++ BitVec.ofBool e.seqKnown ++ e.lastSeq ++ 0#1 ++ e.state.code ++ e.barThreshold
      ++ tierCode e.timerTier ++ tierCode e.tier ++ e.quietReload := by
  apply BitVec.eq_of_getLsbD_eq
  intro i hi
  simp only [SourceEntry.staged, BitVec.getLsbD_or, place_getLsbD, placeBool_getLsbD, BitVec.getLsbD_append,
    ofBool_getLsbD]
  interval_cases i <;> simp

theorem SourceEntry.staged_w2 (e : SourceEntry) :
    e.staged.w2 = e.accepted ++ 0#4 ++ e.foreignStreak ++ e.quietRemaining := by
  apply BitVec.eq_of_getLsbD_eq
  intro i hi
  simp only [SourceEntry.staged, BitVec.getLsbD_or, place_getLsbD, BitVec.getLsbD_append]
  interval_cases i <;> simp

theorem SourceEntry.staged_w3 (e : SourceEntry) : e.staged.w3 = e.silences ++ e.gaps ++ e.duplicates ++ e.rejected := by
  apply BitVec.eq_of_getLsbD_eq
  intro i hi
  simp only [SourceEntry.staged, BitVec.getLsbD_or, place_getLsbD, BitVec.getLsbD_append]
  interval_cases i <;> simp

theorem LineEntry.staged_w0 (e : LineEntry) (r : Bool) (o : SourceSet) :
    (e.staged r o).w0 = 0#11 ++ e.lastEdge ++ 0#2 ++ e.repeatCount ++ BitVec.ofBool e.latch ++ BitVec.ofBool r ++ 0#1
      ++ e.priority ++ BitVec.ofBool e.masked ++ e.route.code ++ e.mode.code := by
  apply BitVec.eq_of_getLsbD_eq
  intro i hi
  simp only [LineEntry.staged, BitVec.getLsbD_or, place_getLsbD, placeBool_getLsbD, BitVec.getLsbD_append,
    ofBool_getLsbD]
  interval_cases i <;> simp

theorem place_sourceSet (c : SourceSet) : place c 0 = 0#7 ++ c := by
  apply BitVec.eq_of_getLsbD_eq
  intro i hi
  simp only [place_getLsbD, BitVec.getLsbD_append]
  interval_cases i <;> simp

theorem PinEntry.staged_w0 (e : PinEntry) (v : Level) :
    (e.staged v).w0 = 0#14 ++ v.code ++ 0#3 ++ BitVec.ofNat 5 e.target.val ++ 0#5 ++ e.mode.code := by
  rw [ofNat5_line]
  apply BitVec.eq_of_getLsbD_eq
  intro i hi
  simp only [PinEntry.staged, BitVec.getLsbD_or, place_getLsbD, BitVec.getLsbD_append]
  interval_cases i <;> simp

end Sys2Proof.Machine
end

