-- ==== Sys2Proof/Laws/Commands.lean ====
section
/-! SUPPORT. What the parts of the commands do, once each: the propagation that changes nothing, the table port's answers,
the arbiter and the stack, EOS, the judgement of a word and what its application may touch, the boundaries of a tick. -/

namespace Sys2Proof.Machine

open Sys2Proof.Safety

/-! ### Propagation -/

theorem State.watchSummary_of_eq {b s : State} (h : b.summary = s.summary) : State.watchSummary b s = s := by
  simp [State.watchSummary, h]

/-- An event that leaves the summary changes no line beyond its own effect. -/
theorem State.propagate_lines_of_summary {b s : State} (h : b.summary = s.summary) :
    (State.propagate b s).lines = s.lines := by
  rw [State.propagate, State.watchSreq_lines, State.watchSummary_of_eq h]

theorem State.propagate_line_of_summary {b s : State} (h : b.summary = s.summary) (l : LineId) :
    (State.propagate b s).line l = s.line l := by
  simp only [State.line, State.propagate_lines_of_summary h]

/-- An event that leaves the summary and SREQ passes nothing on. -/
theorem State.propagate_same {b s : State} (h : b.summary = s.summary) (h2 : b.sreq = s.sreq) :
    State.propagate b s = s := by
  rw [State.propagate, State.watchSummary_of_eq h]
  unfold State.watchSreq
  rw [h2]
  cases s.sreq <;> rfl

/-! ### The table port -/

/-- A refused command changes TSTAT alone (R149). -/
theorem State.tableCommand_refused {s : State} {c : TableCommand} {r : TableResult} (h : s.judgeCommand c = r)
    (hr : r ≠ .ok) : s.tableCommand c = s.setTstat ⟨r, some c⟩ := by
  unfold State.tableCommand
  rw [h, if_neg hr]
  exact State.propagate_same (by simp) (by simp)

/-- A command that passes its tests is carried out (R149, R152). -/
theorem State.tableCommand_done {s : State} {c : TableCommand} (h : s.judgeCommand c = .ok) :
    s.tableCommand c = s.propagate ((s.perform c).setTstat ⟨.ok, some c⟩) := by
  unfold State.tableCommand
  rw [h, if_pos rfl]

theorem State.sourceBreaksSole_eq_true {s : State} {k : RemoteId} :
    s.sourceBreaksSole k = true ↔
      ∃ l : LineId, s.staging.w0.getLsbD l.val = true ∧ (s.line l).mode = .sole ∧
        (LocalOwns s l ∨ ∃ j : RemoteId, j ≠ k ∧ (s.source j).ownership.getLsbD l.val = true) := by
  unfold State.sourceBreaksSole
  simp only [List.any_eq_true, List.mem_finRange, true_and, Bool.and_eq_true, beq_iff_eq, List.mem_range, bne_iff_ne,
    Staging.ownership, and_assoc]
  constructor
  · rintro ⟨l, h1, h2, n, hn, hne, ho⟩
    refine ⟨l, h1, h2, ?_⟩
    by_cases h : n < 24
    · exact .inr ⟨⟨n, h⟩, fun e => hne (by rw [← e]), by rw [← State.owns_remote]; exact ho⟩
    · have hn24 : n = 24 := by omega
      subst hn24
      rw [State.owns_local] at ho
      exact .inl (State.localOwns_eq_true.mp ho)
  · rintro ⟨l, h1, h2, h3⟩
    refine ⟨l, h1, h2, ?_⟩
    rcases h3 with h3 | ⟨j, hj, h3⟩
    · refine ⟨24, by omega, ?_, by rw [State.owns_local]; exact State.localOwns_eq_true.mpr h3⟩
      have := k.isLt
      omega
    · refine ⟨j.val, ?_, fun e => hj (Fin.ext e), by rw [State.owns_remote]; exact h3⟩
      have := j.isLt
      omega

theorem State.lineBreaksPins_eq_true {s : State} {l : LineId} {mode : LineMode} :
    s.lineBreaksPins l mode = true ↔
      ∃ p : PinId, (s.pin p).target = l ∧
        (((s.pin p).mode.isLevel = true ∧ (mode = .off ∨ mode = .edge)) ∨
          ((s.pin p).mode.isEdge = true ∧ mode ≠ .edge)) := by
  unfold State.lineBreaksPins
  simp only [List.any_eq_true, List.mem_finRange, true_and, Bool.and_eq_true, beq_iff_eq, Bool.or_eq_true, bne_iff_ne]
  have h : ∀ m : LineMode, (!m.isLevel) = true ↔ (m = .off ∨ m = .edge) := by
    intro m; cases m <;> simp [LineMode.isLevel]
  simp only [h]

theorem State.lineRouteChanged_eq_true {s : State} {l : LineId} :
    s.lineRouteChanged l = true ↔ s.staging.w0.getLsbD 2 ≠ ((s.line l).route == .urgent) := by
  unfold State.lineRouteChanged Staging.route
  cases s.staging.w0.getLsbD 2 <;> cases (s.line l).route <;> decide

theorem pinModeOf_eq_some {b : BitVec 3} {m : PinMode} : pinModeOf b = some m ↔ b = m.code := by
  cases m <;> revert b <;> decide

theorem pinModeOf_eq_none {b : BitVec 3} : pinModeOf b = none ↔ 6 ≤ b.toNat := by revert b; decide

theorem commandOf_spec (w : Word) :
    (commandOf w = some .load ↔ w.extractLsb' 0 3 = 1#3) ∧ (commandOf w = some .commit ↔ w.extractLsb' 0 3 = 2#3) ∧
    (commandOf w = some .bar ↔ w.extractLsb' 0 3 = 3#3) ∧ (commandOf w = some .unbar ↔ w.extractLsb' 0 3 = 4#3) ∧
    (commandOf w = some .clearCounters ↔ w.extractLsb' 0 3 = 5#3) ∧
    (commandOf w = none ↔ w.extractLsb' 0 3 = 0#3 ∨ 6 ≤ (w.extractLsb' 0 3).toNat) := by
  unfold commandOf
  generalize w.extractLsb' 0 3 = b
  revert b
  decide

/-- A write of a register that accepts writes acts through the register's effect (R161). -/
theorem State.registerWrite_of_accepting {s : State} {r : Register} {w : Word} (h : r.readOnly = false) :
    s.registerWrite r w = s.registerDone fun s => s.writeEffect r w := by
  simp only [State.registerWrite, State.registerDone, h]
  rfl

theorem Register.readOnly_eq_true {i : BitVec 5} : (registerAt i).readOnly = true ↔ ReadOnlyOffset i := by
  unfold ReadOnlyOffset
  revert i
  decide

/-! ### The service unit -/

/-- The gate passes a priority that is more urgent than the top entry's (R83). -/
theorem State.passesGate_eq_true {s : State} {p : BitVec 3} :
    s.passesGate p = true ↔ ∀ top, s.stack.getLast? = some top → p.toNat < top.priority.toNat := by
  unfold State.passesGate
  cases s.stack.getLast? <;> simp [BitVec.ult]

/-- A push changes the stack and, for an EDGE line, the line (R87). -/
theorem State.push_eq (s : State) (l : LineId) :
    s.push l = { s with
      stack := s.stack ++ [⟨l, (s.line l).priority, (s.line l).mode.kind, none⟩]
      lines := if (s.line l).mode = .edge then s.lines.set l (s.line l).clearLatch else s.lines } := by
  by_cases h : (s.line l).mode = .edge
  · simp only [State.push, h, if_true, State.setLine]
  · simp only [State.push, h, if_false]

theorem State.watchTake_eq (s : State) : s.watchTake = { s with monitor := s.watchTake.monitor } := by
  unfold State.watchTake
  split <;> rfl

/-- The hint of a non-empty set is its lowest member (R89). -/
theorem lowestMember_spec {c : SourceSet} (h : c ≠ 0) :
    c.getLsbD (lowestMember c).toNat = true ∧ ∀ n, n < (lowestMember c).toNat → c.getLsbD n = false := by
  unfold lowestMember
  cases hf : (List.range 25).find? (fun n => c.getLsbD n) with
  | none =>
    exfalso
    apply h
    apply BitVec.eq_of_getLsbD_eq
    intro i hi
    have := List.find?_eq_none.mp hf i (List.mem_range.mpr hi)
    simpa using this
  | some n =>
    have h1 := List.find?_some hf
    have h2 : n < 25 := List.mem_range.mp (List.mem_of_find?_eq_some hf)
    have h3 : (BitVec.ofNat 5 n).toNat = n := by simp; omega
    simp only [h3]
    refine ⟨h1, ?_⟩
    intro m hm
    rw [List.find?_range_eq_some] at hf
    simpa using hf.2.2 m hm

/-- The entry that an EOS selects, on the raw word (R93). -/
theorem State.eosSelected_eq (s : State) (w : Word) :
    s.eosSelected w =
      if w.getLsbD 8 then (s.stack.filter (fun e => e.closing.isNone)).getLast?
      else s.stack.find? (fun e => e.line.val == (w.extractLsb' 0 5).toNat) := by
  have h : (fun e : StackEntry => e.line == lineOf (w.extractLsb' 0 5)) =
      fun e => e.line.val == (w.extractLsb' 0 5).toNat := by
    funext e
    simp [lineOf, Fin.ext_iff]
  unfold State.eosSelected eosTop eosLine
  rw [h]

theorem State.newestMatch_eq_none {s : State} {l : LineId} :
    s.newestMatch l = none ↔ ∀ q ∈ s.queue, ¬ WordMatches s q.word l := by
  unfold State.newestMatch
  simp only [Option.map_eq_none_iff, List.getLast?_eq_none_iff, List.filter_eq_nil_iff, State.matchesLine_eq_true]

/-- The newest matching entry gives its stamp (R96). -/
theorem State.newestMatch_of_append {s : State} {l : LineId} {older newer : List QueueEntry} {q : QueueEntry}
    (hq : s.queue = older ++ q :: newer) (hm : WordMatches s q.word l) (hn : ∀ x ∈ newer, ¬ WordMatches s x.word l) :
    s.newestMatch l = some q.stamp := by
  have h : newer.filter (fun x => s.matchesLine x.word l) = [] := by
    rw [List.filter_eq_nil_iff]
    intro x hx
    rw [State.matchesLine_eq_true]
    exact hn x hx
  unfold State.newestMatch
  rw [hq, List.filter_append, List.filter_cons_of_pos (by simpa using State.matchesLine_eq_true.mpr hm), h]
  simp

/-! ### The judgement of a word -/

theorem checkPasses_eq_true {w : Word} :
    checkPasses w = true ↔
      w.extractLsb' 0 4 ^^^ w.extractLsb' 4 4 ^^^ w.extractLsb' 8 4 ^^^ w.extractLsb' 12 4 ^^^ w.extractLsb' 16 4
        ^^^ w.extractLsb' 20 4 ^^^ w.extractLsb' 24 4 ^^^ w.extractLsb' 28 4 = 0#4 := by
  simp [checkPasses, nibbleXor, List.range, List.range.loop]

theorem wordKind_eq_state {w : Word} : wordKind w = .state ↔ w.extractLsb' 22 2 = 0#2 := by
  unfold wordKind; generalize w.extractLsb' 22 2 = k; revert k; decide

theorem wordKind_eq_refresh {w : Word} : wordKind w = .refresh ↔ w.extractLsb' 22 2 = 1#2 := by
  unfold wordKind; generalize w.extractLsb' 22 2 = k; revert k; decide

theorem wordKind_eq_release {w : Word} : wordKind w = .release ↔ w.extractLsb' 22 2 = 2#2 := by
  unfold wordKind; generalize w.extractLsb' 22 2 = k; revert k; decide

theorem wordKind_eq_noKind {w : Word} : wordKind w = .noKind ↔ w.extractLsb' 22 2 = 3#2 := by
  unfold wordKind; generalize w.extractLsb' 22 2 = k; revert k; decide

/-- A word states a line outside an ownership set exactly where some valid bit of its octet does (R26). -/
theorem statedLines_outside {w : Word} {o : LineSet} :
    statedLines w &&& ~~~o ≠ 0#32 ↔
      ∃ i : Nat, i < 8 ∧ w.getLsbD (12 + i) = true ∧ o.getLsbD (8 * (w.extractLsb' 20 2).toNat + i) = false := by
  have hoct : (w.extractLsb' 20 2).toNat < 4 := (w.extractLsb' 20 2).isLt
  constructor
  · intro h
    have hex : ∃ i : Nat, i < 32 ∧ (statedLines w &&& ~~~o).getLsbD i = true := by
      by_contra hx
      apply h
      apply BitVec.eq_of_getLsbD_eq
      intro i hi
      have : ¬ (statedLines w &&& ~~~o).getLsbD i = true := fun hy => hx ⟨i, hi, hy⟩
      simpa using this
    obtain ⟨i, hi, hx⟩ := hex
    have hs := lineSetOf_getLsbD (wordStates w) ⟨i, hi⟩
    simp only [BitVec.getLsbD_and, BitVec.getLsbD_not, hi, decide_true, Bool.true_and, Bool.and_eq_true,
      Bool.not_eq_true'] at hx
    have h1 : wordStates w ⟨i, hi⟩ = true := by rw [← hs]; exact hx.1
    rw [wordStates_eq] at h1
    simp only [Bool.and_eq_true, beq_iff_eq] at h1
    refine ⟨i % 8, Nat.mod_lt _ (by omega), h1.2, ?_⟩
    rw [h1.1, Nat.div_add_mod]
    exact hx.2
  · rintro ⟨i, hi, h1, h2⟩ h
    have hl : 8 * (w.extractLsb' 20 2).toNat + i < 32 := by omega
    have hs := lineSetOf_getLsbD (wordStates w) ⟨_, hl⟩
    rw [wordStates_eq] at hs
    have hd : (8 * (w.extractLsb' 20 2).toNat + i) / 8 = (w.extractLsb' 20 2).toNat := by omega
    have hm : (8 * (w.extractLsb' 20 2).toNat + i) % 8 = i := by omega
    simp only [hd, hm, h1, beq_self_eq_true, Bool.and_self] at hs
    have hbit : (statedLines w &&& ~~~o).getLsbD (8 * (w.extractLsb' 20 2).toNat + i) = true := by
      rw [BitVec.getLsbD_and, BitVec.getLsbD_not, h2]
      simp only [hl, decide_true, Bool.not_false, Bool.and_true]
      exact hs
    rw [h] at hbit
    simp at hbit

/-! ### An application -/

theorem State.logReject_frame (s : State) (e : LogEntry) :
    s.logReject e = { s with log := (s.logReject e).log, eventFlags := (s.logReject e).eventFlags } := by
  unfold State.logReject
  split <;> rfl

theorem State.rejectForeign_frame (s : State) (k : RemoteId) :
    s.rejectForeign k = { s with
      sources := (s.rejectForeign k).sources, lines := (s.rejectForeign k).lines
      eventFlags := (s.rejectForeign k).eventFlags } := by
  unfold State.rejectForeign
  simp only
  split <;> rfl

theorem State.chargeReject_frame (s : State) (w : Word) (r : RejectReason) :
    s.chargeReject w r = { s with
      sources := (s.chargeReject w r).sources, lines := (s.chargeReject w r).lines
      eventFlags := (s.chargeReject w r).eventFlags, checkFailures := (s.chargeReject w r).checkFailures } := by
  cases r with
  | check | kind | unknownSource => rfl
  | vacant | barred => simp only [State.chargeReject]; cases wordRemote w <;> rfl
  | foreign =>
    simp only [State.chargeReject]
    cases wordRemote w with
    | none => rfl
    | some k => simp only []; rw [State.rejectForeign_frame s k]

theorem State.acceptWord_frame (s : State) (k : RemoteId) (w : Word) :
    s.acceptWord k w = { s with
      sources := (s.acceptWord k w).sources, lines := (s.acceptWord k w).lines
      eventFlags := (s.acceptWord k w).eventFlags } := by
  have hrv : s.revive k = { s with eventFlags := (s.revive k).eventFlags } := by
    unfold State.revive
    split <;> rfl
  unfold State.acceptWord
  split
  · rw [hrv]; rfl
  · rw [hrv]; rfl
  · split <;> rfl
  · rfl

/-- What the outcome of a word may touch: the sources, the lines, the flags, the log and the check-failure counter
(R25). -/
theorem State.applyWord_frame (s : State) (e : QueueEntry) :
    s.applyWord e = { s with
      sources := (s.applyWord e).sources, lines := (s.applyWord e).lines, eventFlags := (s.applyWord e).eventFlags
      log := (s.applyWord e).log, checkFailures := (s.applyWord e).checkFailures } := by
  unfold State.applyWord
  split
  · next r _ =>
    have a := State.logReject_frame (s.chargeReject e.word r) ⟨e.word, r, e.stamp⟩
    have b := State.chargeReject_frame s e.word r
    generalize s.chargeReject e.word r = c at *
    generalize c.logReject ⟨e.word, r, e.stamp⟩ = d at *
    obtain ⟨x1, h1⟩ : ∃ x, x = d.log := ⟨_, rfl⟩
    obtain ⟨x2, h2⟩ : ∃ x, x = d.eventFlags := ⟨_, rfl⟩
    obtain ⟨y1, g1⟩ : ∃ x, x = c.sources := ⟨_, rfl⟩
    obtain ⟨y2, g2⟩ : ∃ x, x = c.lines := ⟨_, rfl⟩
    obtain ⟨y3, g3⟩ : ∃ x, x = c.eventFlags := ⟨_, rfl⟩
    obtain ⟨y4, g4⟩ : ∃ x, x = c.checkFailures := ⟨_, rfl⟩
    rw [← h1, ← h2] at a
    rw [← g1, ← g2, ← g3, ← g4] at b
    subst b
    subst a
    rfl
  · rfl
  · next k _ =>
    have a := State.acceptWord_frame s k e.word
    have hl : (s.acceptWord k e.word).log = s.log := by rw [a]
    have hc : (s.acceptWord k e.word).checkFailures = s.checkFailures := by rw [a]
    rw [hl, hc]
    exact a

/-- A completion with an application in flight (R25). -/
theorem State.complete_eq {s : State} {e : QueueEntry} {rest : List QueueEntry} (hh : s.held = false)
    (ha : s.applying = true) (hq : s.queue = e :: rest) :
    s.complete = s.propagate (((s.applyWord e).depart).departStamp e.stamp) := by
  simp only [State.complete, hh, ha, hq]
  rfl

/-- Without an application in flight a completion has no effect (R20; log entry 3). -/
theorem State.complete_of_none {s : State} (h : s.held = true ∨ s.applying = false ∨ s.queue = []) : s.complete = s := by
  unfold State.complete
  rcases h with h | h | h
  · simp [h]
  · simp [h]
  · simp only [h]; split <;> rfl

/-! ### Events that are not due have no effect (log entry 3) -/

theorem State.settle_of_not_due {s : State} {p : SenseId}
    (h : s.held = true ∨ (s.filter p).due = false ∨ (s.filter p).level ≠ .unset) : s.settle p = s := by
  unfold State.settle
  rcases h with h | h | h <;> simp [h]

theorem State.transition_of_not_due {s : State} {p : SenseId}
    (h : s.held = true ∨ (s.filter p).due = false ∨ (s.filter p).level = .unset) : s.transition p = s := by
  unfold State.transition
  rcases h with h | h | h <;> simp [h]

theorem State.closeUnitBoundary_of_not_due {s : State} (h : s.held = true ∨ s.closeUnitDue = false) :
    s.closeUnitBoundary = s := by
  unfold State.closeUnitBoundary
  rcases h with h | h <;> simp [h]

theorem State.closeExpiryDue_eq_true {s : State} {l : LineId} :
    s.closeExpiryDue l = true ↔
      ∃ e ∈ s.stack, ∃ c : Closing, e.line = l ∧ e.closing = some c ∧ c.expiring = true := by
  unfold State.closeExpiryDue
  simp only [List.any_eq_true, Bool.and_eq_true, beq_iff_eq, Option.map_eq_some_iff]
  constructor
  · rintro ⟨e, he, hl, c, hc, hx⟩; exact ⟨e, he, c, hl, hc, hx⟩
  · rintro ⟨e, he, c, hl, hc, hx⟩; exact ⟨e, he, hl, c, hc, hx⟩

theorem State.closeTimerExpiry_of_not_due {s : State} {l : LineId} (h : s.held = true ∨ s.closeExpiryDue l = false) :
    s.closeTimerExpiry l = s := by
  unfold State.closeTimerExpiry
  rcases h with h | h <;> simp [h]

theorem State.quietExpiry_of_not_due {s : State} {k : RemoteId} (h : s.quietExpiryDue k = false) :
    s.quietExpiry k = s := by
  simp [State.quietExpiry, h]

theorem State.intervalExpiry_of_not_due {s : State} (h : s.intervalDue = false) : s.intervalExpiry = s := by
  simp [State.intervalExpiry, h]

theorem State.release_of_not_due {s : State} (h : s.releaseDue = false) : s.release = s := by
  simp [State.release, h]

theorem State.pulseEnd_of_not_due {s : State} (h : s.pulseDue = false) : s.pulseEnd = s := by
  simp [State.pulseEnd, h]

/-- The end of the pulse (R119, R123). -/
theorem State.pulseEnd_of_due {s : State} (h : s.monitor = .tripped 0) : s.pulseEnd = s.monitorReset := by
  simp [State.pulseEnd, State.pulseDue, h]

/-- A trip, field by field (R119, R120, R123, R169). -/
theorem State.trip_eq (s : State) :
    s.trip = { State.reset with
      record := s.captured, monitor := .tripped 64, deadlineMode := s.deadlineMode
      deadlineInterval := s.deadlineInterval, resetCause := s.resetCause ||| 0x8#4, refclk := s.refclk
      powerHold := s.powerHold, softHold := s.softHold, pinHold := s.pinHold, resetLow := s.resetLow
      reply := s.reply, pending := s.pending } := rfl

/-! ### The tick -/

theorem SourceEntry.owesBoundary_eq (e : SourceEntry) (t : Tier) :
    e.owesBoundary t = e.boundaryDue.getLsbD (tierCode t).toNat := by
  have h : ∀ (t : Tier) (b : BitVec 4), (b &&& tierBit t != 0) = b.getLsbD (tierCode t).toNat := by
    intro t; cases t <;> decide
  exact h t e.boundaryDue

/-- No entry has a boundary outstanding: a tier boundary has no effect (log entry 3). -/
theorem State.tierBoundary_of_none {s : State} (t : Tier) (h : ∀ k : RemoteId, (s.source k).boundaryDue = 0) :
    s.tierBoundary t = s := by
  unfold State.tierBoundary
  split
  · rfl
  · have hs : (s.mapSources fun _ e => e.tierBoundary t s.paused).sources = s.sources := by
      simp only [State.mapSources]
      apply Vector.ext
      intro i hi
      have hk := h ⟨i, hi⟩
      simp only [State.source, Fin.getElem_fin] at hk
      simp [SourceEntry.tierBoundary, SourceEntry.owesBoundary, hk]
    unfold State.mapSources at *
    simp only at hs
    rw [hs]

/-- No entry has a boundary outstanding: no quiet timer is at its expiry (R55). -/
theorem State.quietExpiryDue_of_none {s : State} {k : RemoteId} (h : (s.source k).boundaryDue = 0) :
    s.quietExpiryDue k = false := by
  simp [State.quietExpiryDue, SourceEntry.owesBoundary, h]

theorem foldl_same {α β : Type} {f : β → α → β} {b : β} (h : ∀ a, f b a = b) : ∀ as : List α, as.foldl f b = b
  | [] => rfl
  | a :: as => by rw [List.foldl_cons, h a]; exact foldl_same h as

/-- In PAUSED no boundary is left to the quiet timers (R55); otherwise those of the count are (R165). -/
theorem State.boundariesFalling_of_paused {s : State} (h : s.engine = .paused) : s.boundariesFalling = 0 := by
  simp [State.boundariesFalling, State.paused_eq_true.mpr h]

theorem State.boundariesFalling_of_running {s : State} (h : s.engine ≠ .paused) :
    s.boundariesFalling = boundariesAt (s.timeBase + 1) := by
  simp [State.boundariesFalling, State.paused_eq_false.mpr h]

/-- The boundaries of a count, tier by tier (R55, R165). -/
theorem boundariesAt_spec (c : BitVec 20) :
    ((boundariesAt c).getLsbD 0 = true ↔ c.toNat % 256 = 0) ∧ ((boundariesAt c).getLsbD 1 = true ↔ c.toNat % 4096 = 0) ∧
    ((boundariesAt c).getLsbD 2 = true ↔ c.toNat % 65536 = 0) ∧ ((boundariesAt c).getLsbD 3 = true ↔ c = 0#20) := by
  have h : ∀ n, c.extractLsb' 0 n = 0#n ↔ c.toNat % 2 ^ n = 0 := by
    intro n
    rw [← BitVec.toNat_inj]
    simp [BitVec.extractLsb'_toNat]
  have b0 : tierBit .t0 = 1#4 := by decide
  have b1 : tierBit .t1 = 2#4 := by decide
  have b2 : tierBit .t2 = 4#4 := by decide
  have b3 : tierBit .t3 = 8#4 := by decide
  unfold boundariesAt
  simp only [h 8, h 12, h 16, b0, b1, b2, b3]
  by_cases p1 : c.toNat % 2 ^ 8 = 0 <;> by_cases p2 : c.toNat % 2 ^ 12 = 0 <;> by_cases p3 : c.toNat % 2 ^ 16 = 0 <;>
    by_cases p4 : c = 0#20 <;> simp_all

end Sys2Proof.Machine
end

