-- ==== Sys2Proof/Laws/Exec.lean ====
section
/-! SUPPORT. exec of each command, one equation each, true by rfl: a proof cites the equation and unfolds no dispatch. -/

namespace Sys2Proof.Machine

@[simp] theorem exec_admission (addr word : Word) (s : State) :
    exec (.admission addr word) s = .next (s.reportWrite addr word) := rfl

@[simp] theorem exec_reportBase (w : Word) (s : State) :
    exec (.reportBase w) s = .next (s.registerDone fun s => s.writeReportBase w) := rfl

@[simp] theorem exec_applicationCompletion (s : State) : exec .applicationCompletion s = .next s.complete := rfl

@[simp] theorem exec_pauseSet (w : Word) (s : State) :
    exec (.pauseSet w) s = .next (s.registerDone fun s => s.writeControl w) := rfl

@[simp] theorem exec_pauseClear (w : Word) (s : State) :
    exec (.pauseClear w) s = .next (s.registerDone fun s => s.writeControl w) := rfl

@[simp] theorem exec_stackClear (w : Word) (s : State) :
    exec (.stackClear w) s = .next (s.registerDone fun s => s.writeControl w) := rfl

@[simp] theorem exec_softReset (w : Word) (s : State) :
    exec (.softReset w) s = .next (s.registerDone fun s => s.writeControl w) := rfl

@[simp] theorem exec_quietExpiry (src : RemoteId) (s : State) :
    exec (.quietExpiry src) s = .next (s.quietExpiry src) := rfl

@[simp] theorem exec_load (s : State) : exec .load s = .next (s.registerDone fun s => s.tableCommand .load) := rfl

@[simp] theorem exec_commit (s : State) :
    exec .commit s = .next (s.registerDone fun s => s.tableCommand .commit) := rfl

@[simp] theorem exec_bar (s : State) : exec .bar s = .next (s.registerDone fun s => s.tableCommand .bar) := rfl

@[simp] theorem exec_unbar (s : State) : exec .unbar s = .next (s.registerDone fun s => s.tableCommand .unbar) := rfl

@[simp] theorem exec_clearCounters (s : State) :
    exec .clearCounters s = .next (s.registerDone fun s => s.tableCommand .clearCounters) := rfl

@[simp] theorem exec_take (s : State) : exec .take s = .next s.take := rfl

@[simp] theorem exec_eos (w : Word) (s : State) :
    exec (.eos w) s = .next (s.registerDone fun s => s.endOfService w) := rfl

@[simp] theorem exec_closeTimerExpiry (line : LineId) (s : State) :
    exec (.closeTimerExpiry line) s = .next (s.closeTimerExpiry line) := rfl

@[simp] theorem exec_urgentClear (w : Word) (s : State) :
    exec (.urgentClear w) s = .next (s.registerDone fun s => s.clearUrgent w) := rfl

@[simp] theorem exec_deadlineBitClear (w : Word) (s : State) :
    exec (.deadlineBitClear w) s = .next (s.registerDone fun s => s.clearUrgent w) := rfl

@[simp] theorem exec_intervalExpiry (s : State) : exec .intervalExpiry s = .next s.intervalExpiry := rfl

@[simp] theorem exec_rstoutPulseEnd (s : State) : exec .rstoutPulseEnd s = .next s.pulseEnd := rfl

@[simp] theorem exec_modeWrite (w : Word) (s : State) :
    exec (.modeWrite w) s = .next (s.registerDone fun s => s.writeDeadline w) := rfl

@[simp] theorem exec_recordClear (w : Word) (s : State) :
    exec (.recordClear w) s = .next (s.registerDone fun s => s.writeDeadline w) := rfl

@[simp] theorem exec_filteredTransition (pin : SenseId) (s : State) :
    exec (.filteredTransition pin) s = .next (s.transition pin) := rfl

@[simp] theorem exec_settling (pin : SenseId) (s : State) : exec (.settling pin) s = .next (s.settle pin) := rfl

@[simp] theorem exec_eventFlagClear (w : Word) (s : State) :
    exec (.eventFlagClear w) s = .next (s.registerDone fun s => s.clearFlags w) := rfl

@[simp] theorem exec_eventEnable (w : Word) (s : State) :
    exec (.eventEnable w) s = .next (s.registerDone fun s => s.writeEnables w) := rfl

@[simp] theorem exec_logPop (s : State) : exec .logPop s = .next s.popLog := rfl

@[simp] theorem exec_checkClear (w : Word) (s : State) :
    exec (.checkClear w) s = .next (s.registerDone fun s => s.writeCounts w) := rfl

@[simp] theorem exec_faultClear (w : Word) (s : State) :
    exec (.faultClear w) s = .next (s.registerDone fun s => s.writeCounts w) := rfl

@[simp] theorem exec_resetCauseClear (w : Word) (s : State) :
    exec (.resetCauseClear w) s = .next (s.registerDone fun s => s.clearCauses w) := rfl

@[simp] theorem exec_registerWrite (index : BitVec 5) (w : Word) (s : State) :
    exec (.registerWrite index w) s = .next (s.registerWrite (registerAt index) w) := rfl

@[simp] theorem exec_powerOnReset (s : State) : exec .powerOnReset s = .next s.powerOn := rfl

@[simp] theorem exec_systemReset (s : State) : exec .systemReset s = .next s.sampleResetLow := rfl

@[simp] theorem exec_resetRelease (s : State) : exec .resetRelease s = .next s.release := rfl

@[simp] theorem exec_refclkStop (s : State) : exec .refclkStop s = .next { s with refclk := false } := rfl

@[simp] theorem exec_refclkStart (s : State) : exec .refclkStart s = .next { s with refclk := true } := rfl

@[simp] theorem exec_tierBoundary (t : Tier) (s : State) : exec (.tierBoundary t) s = .next (s.tierBoundary t) := rfl

@[simp] theorem exec_closeUnitBoundary (s : State) : exec .closeUnitBoundary s = .next s.closeUnitBoundary := rfl

@[simp] theorem exec_tick (sns : BitVec 8) (s : State) : exec (.tick sns) s = .next (s.tick sns) := rfl

@[simp] theorem exec_closeLimitWrite (w : Word) (s : State) :
    exec (.closeLimitWrite w) s = .next (s.registerDone fun s => s.writeControl w) := rfl

/-- FAULT_ACCESS where the part does not claim the access (R9, R160). -/
theorem exec_faultAccess_unclaimed {a : Access} {s : State} (h : s.termination a = none) :
    exec (.faultAccess a) s = .next s.unclaimed := by
  simp [exec, execFaultAccess, h]

/-- FAULT_ACCESS where the part answers FAULT (R163). -/
theorem exec_faultAccess_fault {a : Access} {s : State} (h : s.termination a = some .fault) :
    exec (.faultAccess a) s = .next s.busFault := by
  simp [exec, execFaultAccess, h]

/-- Every command answers a next state: no meaning ends in a fault or a refusal. -/
theorem exec_isNext (c : Instr) (s : State) : ∃ t, exec c s = .next t := by
  cases c with
  | faultAccess a =>
    cases h : s.termination a with
    | none => exact ⟨_, exec_faultAccess_unclaimed h⟩
    | some t => cases t <;> simp [exec, execFaultAccess, h]
  | _ => exact ⟨_, rfl⟩

/-! ### Commands one after the other -/

theorem after_of_exec {c : Instr} {s t : State} (h : exec c s = .next t) : Safety.after c s = t := by
  simp [Safety.after, h]

@[simp] theorem afterAll_nil (s : State) : Safety.afterAll [] s = s := rfl

@[simp] theorem afterAll_cons (c : Instr) (cs : List Instr) (s : State) :
    Safety.afterAll (c :: cs) s = Safety.afterAll cs (Safety.after c s) := rfl

@[simp] theorem afterAll_append (cs ds : List Instr) (s : State) :
    Safety.afterAll (cs ++ ds) s = Safety.afterAll ds (Safety.afterAll cs s) := by
  simp [Safety.afterAll, List.foldl_append]

/-- The commands that `f` names for the elements of a list, where each is the effect `g`. -/
theorem afterAll_map {α : Type} {f : α → Instr} {g : State → α → State} (h : ∀ a s, exec (f a) s = .next (g s a))
    (as : List α) (s : State) : Safety.afterAll (as.map f) s = as.foldl g s := by
  simp only [Safety.afterAll, List.foldl_map]
  congr 1
  funext s a
  exact after_of_exec (h a s)

end Sys2Proof.Machine
end

