-- ==== Sys2Proof/Laws/Step.lean ====
section
/-! SUPPORT. What a step can do, once: a step is one of the effects below, or several of them for a tick that finds
events outstanding. A property that each effect keeps is kept by every step (`Kept.step`). -/

namespace Sys2Proof.Machine

/-- Each effect that a step is made of keeps `P`. The effects that a held reset shuts out say so. -/
structure Kept (P : State → Prop) : Prop where
  pending : ∀ s q, P s → P { s with pending := q }
  reply : ∀ s r, P s → P { s with reply := r }
  refclk : ∀ s b, P s → P { s with refclk := b }
  /- the report window -/
  enqueue : ∀ s w, s.held = false → s.queue.length < Config.queueCapacity → P s → P (s.enqueue w)
  retry : ∀ s, s.held = false → P s → P (s.propagate (s.raise flagQueueRetry))
  fault : ∀ s, s.held = false → P s → P (s.propagate (s.countFault.raise flagBusFault))
  /- the register window -/
  reportBase : ∀ s w, s.held = false → P s → P (s.writeReportBase w)
  control : ∀ s w, s.held = false → P s → P (s.writeControl w)
  table : ∀ s c, s.held = false → P s → P (s.tableCommand c)
  take : ∀ s l, s.held = false → s.offer = some l → P s → P (s.push l).watchTake
  eos : ∀ s w, s.held = false → P s → P (s.endOfService w)
  urgent : ∀ s w, s.held = false → P s → P (s.clearUrgent w)
  deadline : ∀ s w, s.held = false → P s → P (s.writeDeadline w)
  flags : ∀ s w, s.held = false → P s → P (s.clearFlags w)
  enables : ∀ s w, s.held = false → P s → P (s.writeEnables w)
  log : ∀ s, s.held = false → P s → P { s with log := s.log.tail }
  counts : ∀ s w, s.held = false → P s → P (s.writeCounts w)
  causes : ∀ s w, s.held = false → P s → P (s.clearCauses w)
  tsel : ∀ s t, s.held = false → P s → P { s with tsel := t }
  staging : ∀ s g, s.held = false → P s → P { s with staging := g }
  /- the events of the engine, the clock and the pins -/
  complete : ∀ s, P s → P s.complete
  tierBoundary : ∀ s t, P s → P (s.tierBoundary t)
  quietExpiry : ∀ s k, P s → P (s.quietExpiry k)
  closeUnitBoundary : ∀ s, P s → P s.closeUnitBoundary
  closeTimerExpiry : ∀ s l, P s → P (s.closeTimerExpiry l)
  intervalExpiry : ∀ s, P s → P s.intervalExpiry
  pulseEnd : ∀ s, P s → P s.pulseEnd
  settle : ∀ s p, P s → P (s.settle p)
  transition : ∀ s p, P s → P (s.transition p)
  heldTick : ∀ s, s.held = true → P s → P s.heldTick
  runningTick : ∀ s sns, s.held = false → P s → P (s.runningTick sns)
  /- the resets -/
  powerOn : ∀ s, P s → P s.powerOn
  sampleResetLow : ∀ s, P s → P s.sampleResetLow
  release : ∀ s, P s → P s.release

theorem foldl_keeps {α : Type} {P : State → Prop} {f : State → α → State} (h : ∀ s a, P s → P (f s a)) :
    ∀ (as : List α) (s : State), P s → P (as.foldl f s)
  | [], _, hs => hs
  | a :: as, s, hs => foldl_keeps h as (f s a) (h s a hs)

variable {P : State → Prop}

theorem Kept.answer (k : Kept P) {s : State} (t : Termination) (d : Word) (h : P s) : P (s.answer t d) :=
  k.reply s _ h

theorem Kept.unclaimed (k : Kept P) {s : State} (h : P s) : P s.unclaimed := k.reply s _ h

theorem Kept.busFault (k : Kept P) {s : State} (hh : s.held = false) (h : P s) : P s.busFault :=
  k.answer _ _ (k.fault s hh h)

/-- A register write keeps what its effect keeps. -/
theorem Kept.registerDone (k : Kept P) {s : State} {f : State → State} (hf : s.held = false → P s → P (f s)) (h : P s) :
    P (s.registerDone f) := by
  cases hh : s.held with
  | true => rw [State.registerDone_of_held hh]; exact k.unclaimed h
  | false => rw [State.registerDone_of_free hh]; exact k.answer _ _ (hf hh h)

theorem State.held_of_termination {s : State} {a : Access} {t : Termination} (h : s.termination a = some t) :
    s.held = false := by
  cases hh : s.held with
  | false => rfl
  | true => simp [State.termination, hh] at h

theorem Kept.reportWrite (k : Kept P) {s : State} (a w : Word) (h : P s) : P (s.reportWrite a w) := by
  unfold State.reportWrite
  split
  · exact k.unclaimed h
  · next ht =>
    refine k.answer _ _ (k.enqueue s w (State.held_of_termination ht) ?_ h)
    by_contra hq
    have hq' : Config.queueCapacity ≤ s.queue.length := Nat.le_of_not_lt hq
    simp only [State.termination, hq', decide_true] at ht
    repeat (split at ht <;> try simp at ht)
  · next ht => exact k.answer _ _ (k.retry s (State.held_of_termination ht) h)
  · next ht => exact k.busFault (State.held_of_termination ht) h

theorem Kept.writeEffect (k : Kept P) {s : State} (r : Register) (w : Word) (hh : s.held = false) (h : P s) :
    P (s.writeEffect r w) := by
  cases r with
  | control => exact k.control s w hh h
  | reportBase => exact k.reportBase s w hh h
  | eos => exact k.eos s w hh h
  | counts => exact k.counts s w hh h
  | urgent => exact k.urgent s w hh h
  | deadlineCtrl => exact k.deadline s w hh h
  | resetCause => exact k.causes s w hh h
  | eventFlags => exact k.flags s w hh h
  | eventEnable => exact k.enables s w hh h
  | tsel => exact k.tsel s _ hh h
  | tcmd =>
    simp only [State.writeEffect, State.writeCommand]
    split
    · exact k.table s _ hh h
    · exact h
  | tdata0 | tdata1 | tdata2 | tdata3 => exact k.staging s _ hh h
  | ident | status | flow | take | pending | inservice | deadlineView | logWord | logPop | stack _ => exact h

theorem Kept.catchUp (k : Kept P) {s : State} (h : P s) : P s.catchUp := by
  unfold State.catchUp
  split
  · have h1 : P s.takePins := foldl_keeps (fun s p h => k.transition _ p (k.settle s p h)) _ _ h
    have h2 : P s.takePins.takeQuiet := foldl_keeps k.quietExpiry _ _
      (k.tierBoundary _ _ (k.tierBoundary _ _ (k.tierBoundary _ _ (k.tierBoundary _ _ h1))))
    have h3 : P s.takePins.takeQuiet.takeClose := foldl_keeps k.closeTimerExpiry _ _ (k.closeUnitBoundary _ h2)
    refine k.release _ (k.pulseEnd _ (k.intervalExpiry _ ?_))
    split
    · exact k.complete _ h3
    · exact h3
  · exact h

theorem Kept.tick (k : Kept P) {s : State} (sns : BitVec 8) (h : P s) : P (s.tick sns) := by
  unfold State.tick
  split
  · exact h
  · have hc := k.catchUp h
    cases hh : s.catchUp.held with
    | true => exact k.heldTick _ hh hc
    | false => exact k.runningTick _ sns hh hc

/-- A property that each effect keeps is kept by every command. -/
theorem Kept.exec (k : Kept P) {c : Instr} {s t : State} (h : P s) (e : exec c s = .next t) : P t := by
  cases c with
  | admission a w => cases e; exact k.reportWrite a w h
  | faultAccess a =>
    simp only [Machine.exec, execFaultAccess] at e
    split at e
    · cases e; exact k.unclaimed h
    · next ht => cases e; exact k.busFault (State.held_of_termination ht) h
    · cases e; exact h
    · cases e; exact h
  | reportBase w => cases e; exact k.registerDone (k.reportBase s w) h
  | applicationCompletion => cases e; exact k.complete s h
  | pauseSet w | pauseClear w | stackClear w | softReset w | closeLimitWrite w =>
    cases e; exact k.registerDone (k.control s w) h
  | quietExpiry src => cases e; exact k.quietExpiry s src h
  | load | commit | bar | unbar | clearCounters => cases e; exact k.registerDone (k.table s _) h
  | take =>
    cases e
    unfold State.take
    cases hh : s.held with
    | true => exact k.unclaimed h
    | false =>
      simp only [Bool.false_eq_true, if_false]
      split
      · exact k.answer _ _ h
      · next l hl => exact k.answer _ _ (k.take s l hh hl h)
  | eos w => cases e; exact k.registerDone (k.eos s w) h
  | closeTimerExpiry l => cases e; exact k.closeTimerExpiry s l h
  | urgentClear w | deadlineBitClear w => cases e; exact k.registerDone (k.urgent s w) h
  | intervalExpiry => cases e; exact k.intervalExpiry s h
  | rstoutPulseEnd => cases e; exact k.pulseEnd s h
  | modeWrite w | recordClear w => cases e; exact k.registerDone (k.deadline s w) h
  | filteredTransition p => cases e; exact k.transition s p h
  | settling p => cases e; exact k.settle s p h
  | eventFlagClear w => cases e; exact k.registerDone (k.flags s w) h
  | eventEnable w => cases e; exact k.registerDone (k.enables s w) h
  | logPop =>
    cases e
    unfold State.popLog
    cases hh : s.held with
    | true => exact k.unclaimed h
    | false => exact k.answer _ _ (k.log s hh h)
  | checkClear w | faultClear w => cases e; exact k.registerDone (k.counts s w) h
  | resetCauseClear w => cases e; exact k.registerDone (k.causes s w) h
  | registerWrite i w =>
    cases e
    unfold State.registerWrite
    cases hh : s.held with
    | true => exact k.unclaimed h
    | false =>
      simp only [Bool.false_eq_true, if_false]
      split
      · exact k.busFault hh h
      · exact k.answer _ _ (k.writeEffect _ w hh h)
  | powerOnReset => cases e; exact k.powerOn s h
  | systemReset => cases e; exact k.sampleResetLow s h
  | resetRelease => cases e; exact k.release s h
  | refclkStop | refclkStart => cases e; exact k.refclk s _ h
  | tierBoundary t => cases e; exact k.tierBoundary s t h
  | closeUnitBoundary => cases e; exact k.closeUnitBoundary s h
  | tick sns => cases e; exact k.tick sns h

/-- A property that each effect keeps is kept by every step. -/
theorem Kept.step (k : Kept P) {s t : State} (h : P s) (e : step s = .next t) : P t := by
  unfold Machine.step at e
  split at e
  · cases e; exact h
  · exact k.exec (k.pending s _ h) e

end Sys2Proof.Machine
end

