-- ==== Sys2Proof/Tests/Slice0.lean ====
section
/-! SUPPORT. The model's own tests: the ill-formed commands, values that the spec prints, one step of each kind, and for
every statement that has hypotheses a state and operands that meet them together. -/

namespace Sys2Proof.Tests

open Sys2Proof.Machine Sys2Proof.Safety

set_option Elab.async false

/-! ### States of the tests -/

/-- Source 3, sequence 3, STATE of octet 1: line 8 high, line 11 low. -/
def stateWord : Word := 0x1B109013
/-- Source 3, sequence 4, STATE of octet 1: line 11 high. -/
def edgeWord : Word := 0x1C10808C
/-- Source 3, sequence 3, REFRESH. -/
def refreshWord : Word := 0x1B40000E
/-- Source 3, sequence 3, RELEASE. -/
def releaseWord : Word := 0x1B800002
/-- Source 3, sequence 3, the kind code that names no kind. -/
def noKindWord : Word := 0x1BC00006
/-- Source 3, sequence 3, STATE of octet 0: line 0, which source 3 does not own. -/
def foreignWord : Word := 0x1B00101A
/-- Source 3, its last sequence again. -/
def duplicateWord : Word := 0x1A10101A

/-- A LIVE source that owns lines 8 and 11, its timer at 1 in tier T1, one FOREIGN short of its threshold of 2. -/
def liveSource : SourceEntry :=
  { SourceEntry.reset with
    ownership := 0x00000900, state := .live, lastSeq := 2, seqKnown := true, quietReload := 5, tier := .t2,
    timerTier := .t1, quietRemaining := 1, barThreshold := 2, foreignStreak := 1, boundaryDue := 2 }

def lineOfMode (mode : LineMode) (priority : BitVec 3) : LineEntry := { LineEntry.reset with mode := mode, priority := priority }

/-- Line 8 SHARED with source 3, line 9 SHARED with the local source, line 10 EDGE and URGENT with its latch set, line 11
EDGE and in service, line 12 SOLE, line 13 SHARED with the event pseudo-pin. -/
def benchLines : Vector LineEntry 32 :=
  (((((State.reset.lines.set 8 { lineOfMode .shared 3 with contributors := 0x0000008 }).set 9
    { lineOfMode .shared 3 with contributors := 0x1000000 }).set 10
    { lineOfMode .edge 2 with route := .urgent, latch := true, repeatCount := 15, lastEdge := 3 }).set 11
    (lineOfMode .edge 5)).set 12 (lineOfMode .sole 0)).set 13 { lineOfMode .shared 7 with contributors := 0x1000000 }

/-- A part at work: an application in flight over two words, a service on line 11 that waits for the second of them, a
running interval at its expiry, and pins that have a settling and a transition to take. -/
def bench : State :=
  { State.reset with
    reportBase := 0x40001000
    queue := [⟨stateWord, 4⟩, ⟨edgeWord, 5⟩]
    applied := 4
    arrivals := 6
    pauseRequest := false
    applying := true
    sources := (State.reset.sources.set 3 liveSource).set 4
      { SourceEntry.reset with ownership := 1, state := .barred }
    lines := benchLines
    stack := [⟨11, 5, .edge, some ⟨5, 1, true⟩⟩]
    closeLimit := 15
    closeUnitDue := true
    deadlineMode := .warn
    deadlineInterval := 2
    monitor := .counting 0
    pins := (((State.reset.pins.set 0 ⟨.levelHigh, 9⟩).set 1 ⟨.rising, 11⟩).set 2 ⟨.falling, 11⟩).set 8 ⟨.levelHigh, 13⟩
    filters := (((State.reset.filters.set 0 ⟨.high, some false, true⟩).set 1 ⟨.low, some true, true⟩).set 2
      ⟨.low, some true, true⟩).set 3 ⟨.unset, some false, true⟩
    eventFlags := 0x20
    eventEnables := 0x20
    log := [⟨foreignWord, .foreign, 2⟩]
    pending := [.take] }

/-- The bench with its engine PAUSED and nothing on the stack. -/
def paused : State := { bench with pauseRequest := true, applying := false, stack := [] }

/-- The bench with the word `w` at the head of the queue. -/
def applyingWord (w : Word) : State := { bench with queue := [⟨w, 4⟩, ⟨edgeWord, 5⟩] }

/-- The paused bench with a table, an index and a staging record. -/
def port (table : BitVec 2) (index : BitVec 5) (w0 w1 : Word) : State :=
  { paused with tsel := ⟨table, index⟩, staging := ⟨w0, w1, 0, 0⟩ }

/-- The running bench with a table, an index and a staging record. -/
def runningPort (table : BitVec 2) (index : BitVec 5) (w0 w1 : Word) : State :=
  { bench with tsel := ⟨table, index⟩, staging := ⟨w0, w1, 0, 0⟩ }

/-- The bench with `n` words in its queue. -/
def filled (n : Nat) : State :=
  { bench with queue := (List.range n).map fun i => ⟨refreshWord, BitVec.ofNat 16 (4 + i)⟩, arrivals := BitVec.ofNat 16 (4 + n) }

/-- A part held in a system reset by RESET_N. -/
def heldByPin : State := { State.reset with pinHold := true, resetLow := true, resetCause := 3 }

/-- The bench one expiry before its trip. -/
def beforeTrip : State := { bench with monitor := .warned (some 0), deadlineMode := .warnReset }

/-- The first line is 3, EDGE at priority 1 with its latch set by source 2, over an OPEN entry for line 9. -/
def edgeOffer : State :=
  { State.reset with
    lines := (State.reset.lines.set 3 { lineOfMode .edge 1 with latch := true, lastEdge := 2 }).set 9 (lineOfMode .shared 5)
    stack := [⟨9, 5, .level, none⟩] }

/-! ### Ill-formed commands are refused by the check, and each row's own word passes it -/

theorem test_wf_pauseSet : (Instr.pauseSet 0).wellFormed = false ∧ (Instr.pauseSet 1).wellFormed = true := by decide
theorem test_wf_pauseClear : (Instr.pauseClear 1).wellFormed = false ∧ (Instr.pauseClear 0).wellFormed = true := by decide
theorem test_wf_stackClear : (Instr.stackClear 1).wellFormed = false ∧ (Instr.stackClear 2).wellFormed = true := by decide
theorem test_wf_softReset : (Instr.softReset 2).wellFormed = false ∧ (Instr.softReset 4).wellFormed = true := by decide
theorem test_wf_closeLimitWrite :
    (Instr.closeLimitWrite 0x102).wellFormed = false ∧ (Instr.closeLimitWrite 0x104).wellFormed = false ∧
    (Instr.closeLimitWrite 0xF00).wellFormed = true := by decide
theorem test_wf_urgentClear :
    (Instr.urgentClear 0x80000000).wellFormed = false ∧ (Instr.urgentClear 1).wellFormed = true := by decide
theorem test_wf_deadlineBitClear :
    (Instr.deadlineBitClear 1).wellFormed = false ∧ (Instr.deadlineBitClear 0x80000000).wellFormed = true := by decide
theorem test_wf_recordClear :
    (Instr.recordClear 1).wellFormed = false ∧ (Instr.recordClear 0x80000000).wellFormed = true := by decide
theorem test_wf_checkClear :
    (Instr.checkClear 0x80000000).wellFormed = false ∧ (Instr.checkClear 0x40000000).wellFormed = true := by decide
theorem test_wf_faultClear :
    (Instr.faultClear 0x40000000).wellFormed = false ∧ (Instr.faultClear 0x80000000).wellFormed = true := by decide
theorem test_wf_registerWrite :
    (Instr.registerWrite 0x01 0).wellFormed = false ∧ (Instr.registerWrite 0x10 0).wellFormed = true := by decide
theorem test_wf_faultAccess :
    (Instr.faultAccess ⟨true, 0, false, 0xF, 0⟩).wellFormed = false ∧
    (Instr.faultAccess ⟨true, 0, false, 0x7, 0⟩).wellFormed = true := by decide

/-! ### Values that the spec prints -/

/-- Section 1.3: the three worked words, and one with a bit inverted. -/
theorem test_check_nibbles :
    checkPasses 0x2A10C041 = true ∧ checkPasses 0x8D400001 = true ∧ checkPasses 0x18800001 = true ∧
    checkPasses 0x2A10C043 = false := by decide

/-- Section 2.7: source 5, sequence 2, STATE, octet 1, valid 0x0C, level 0x04. -/
theorem test_word_fields :
    wordSource 0x2A10C041 = 5 ∧ wordSeq 0x2A10C041 = 2 ∧ wordKind 0x2A10C041 = .state ∧ wordOctet 0x2A10C041 = 1 ∧
    wordValid 0x2A10C041 = 0x0C ∧ wordLevel 0x2A10C041 = 0x04 := by decide

/-- Section 5.9: the TAKE of line 3 at depth 2. -/
theorem test_take_record : edgeOffer.offer = some 3 ∧ edgeOffer.takeWord = 0x80022903 := by decide +kernel

/-- Section 11: an EMPTY record, a line and a pin entry as loaded, a popped entry, two views of the deadline monitor. -/
theorem test_empty_record : State.reset.takeWord = 0x001F003F := by decide +kernel
theorem test_line_record : (LineEntry.reset.staged false 0).w0 = 0x001F0070 := by decide
theorem test_pin_record :
    (Staging.pinMode ⟨0x00001102, 0, 0, 0⟩ = some .levelHigh ∧ Staging.target ⟨0x00001102, 0, 0, 0⟩ = 17) ∧
    (PinEntry.staged ⟨.levelHigh, 17⟩ .high).w0 = 0x00021102 := by decide
theorem test_pop_record : popRecord [⟨0x2A10C041, .foreign, 2⟩] = 0x00020006 := by decide
theorem test_deadline_views :
    { State.reset with record := ⟨true, 2, 1, 0⟩ }.deadlineViewWord = 0x01020100 ∧
    { State.reset with monitor := .warned (some 1), warning := true }.deadlineViewWord = 0x00000012 := by decide
theorem test_ident : State.reset.registerValue .ident = 0x3224A101 := by decide

/-- No row of the command table gives bits. -/
theorem test_no_word_spells_a_command : decodeTableWord 32 0x1B109013 = none := rfl

/-! ### One step of each kind -/

theorem test_admission : (after (.admission 0x40001000 refreshWord) bench).queue.getLast? = some ⟨refreshWord, 6⟩ := by
  decide +kernel
theorem test_admission_retry : (after (.admission 0x40001000 refreshWord) (filled 16)).reply = .answered .retry 0 := by
  decide +kernel
theorem test_fault_access : (after (.faultAccess ⟨true, 0x14, true, 0xF, 0⟩) bench).busFaults = 1 := by decide +kernel
theorem test_report_base : (after (.reportBase 0x1234567F) bench).reportBase = 0x12345670 := by decide +kernel
/-- The level of line 8 reaches its set; the departing stamp 4 is no watermark. -/
theorem test_completion_state :
    let t := after .applicationCompletion bench
    (t.source 3).accepted = 1 ∧ (t.line 8).contributors = 8 ∧ t.applied = 5 ∧ t.stack = bench.stack := by decide +kernel
theorem test_completion_release : ((after .applicationCompletion (applyingWord releaseWord)).line 8).contributors = 0 := by
  decide +kernel
theorem test_pause_set : (after (.pauseSet 1) bench).engine = .pausing := by decide +kernel
theorem test_pause_clear : (after (.pauseClear 0) paused).engine = .applying := by decide +kernel
theorem test_stack_clear : (after (.stackClear 2) bench).stack = [] := by decide +kernel
theorem test_soft_reset : (after (.softReset 4) bench).softHold = some 4 ∧ (after (.softReset 4) bench).held = true := by
  decide +kernel
theorem test_close_limit : (after (.closeLimitWrite 0x300) bench).closeLimit = 3 := by decide +kernel
theorem test_quiet_expiry :
    let t := after (.quietExpiry 3) bench
    (t.source 3).state = .silent ∧ (t.line 8).contributors = 0 ∧ t.eventFlags = 0x21 := by decide +kernel
theorem test_tier_boundary : (after (.tierBoundary .t1) bench).source 3 = liveSource := by decide +kernel
theorem test_load : (after .load (port 1 8 0 0)).staging = ⟨0x001F0132, 8, 8, 0⟩ := by decide +kernel
theorem test_commit :
    let t := after .commit (port 1 8 0x00000051 0)
    (t.line 8).mode = .edge ∧ (t.line 8).priority = 5 ∧ (t.line 8).contributors = 0 := by decide +kernel
theorem test_bar : ((after .bar (port 0 3 0 0)).source 3).state = .barred := by decide +kernel
theorem test_unbar : ((after .unbar (port 0 4 0 0)).source 4).state = .awaiting := by decide +kernel
theorem test_clear_counters : ((after .clearCounters (port 0 3 0 0)).source 3).foreignStreak = 0 := by decide +kernel
theorem test_take :
    (after .take edgeOffer).stack = [⟨9, 5, .level, none⟩, ⟨3, 1, .edge, none⟩] ∧
    ((after .take edgeOffer).line 3).latch = false := by decide +kernel
/-- The newest queued word that states line 11 is the second, with stamp 5. -/
theorem test_eos_deferred :
    (after (.eos 11) { bench with stack := [⟨11, 5, .edge, none⟩] }).stack = [⟨11, 5, .edge, some ⟨5, 15, false⟩⟩] := by
  decide +kernel
theorem test_eos_closed : (after (.eos 0x100) edgeOffer).eosResult = ⟨.closed, 9, 0⟩ := by decide +kernel
theorem test_close_timer_expiry : (after (.closeTimerExpiry 11) bench).stack = [] := by decide +kernel
theorem test_close_unit_boundary :
    (after .closeUnitBoundary { bench with stack := [⟨11, 5, .edge, some ⟨5, 2, false⟩⟩] }).stack =
      [⟨11, 5, .edge, some ⟨5, 1, false⟩⟩] := by decide +kernel
theorem test_urgent_clear :
    bench.ureq = true ∧ (after (.urgentClear 0x400) bench).ureq = false := by decide +kernel
theorem test_deadline_bit_clear : (after (.deadlineBitClear 0x80000000) { bench with warning := true }).warning = false := by
  decide +kernel
theorem test_interval_expiry : (after .intervalExpiry bench).monitor = .warned (some 2000) := by decide +kernel
theorem test_trip :
    (after .intervalExpiry beforeTrip).record = ⟨true, 8, 3, 1⟩ ∧ (after .intervalExpiry beforeTrip).rstout = true := by
  decide +kernel
/-- R123: mode and interval outlast the trip and go at the end of the pulse. -/
theorem test_pulse_end :
    let t := after .intervalExpiry beforeTrip
    let u := after .rstoutPulseEnd { t with monitor := .tripped 0 }
    t.deadlineMode = .warnReset ∧ t.deadlineInterval = 2 ∧ u.deadlineMode = .off ∧ u.deadlineInterval = 0 ∧
    u.monitor = .idle ∧ u.held = false := by decide +kernel
theorem test_mode_write : (after (.modeWrite 0) bench).monitor = .idle := by decide +kernel
theorem test_record_clear :
    (after (.recordClear 0x80000000) { bench with record := ⟨true, 8, 3, 1⟩ }).record = DeadlineRecord.cleared := by
  decide +kernel
theorem test_filtered_transition :
    ((after (.filteredTransition 1) bench).line 11).latch = true ∧
    ((after (.filteredTransition 0) bench).line 9).contributors = 0 := by decide +kernel
theorem test_settling : ((after (.settling 3) bench).filter 3).level = .low := by decide +kernel
/-- Clearing the last enabled flag takes the event pseudo-pin's level with it. -/
theorem test_event_flag_clear : ((after (.eventFlagClear 0x20) bench).line 13).contributors = 0 := by decide +kernel
theorem test_event_enable : (after (.eventEnable 0xFF) bench).summary = true := by decide +kernel
theorem test_log_pop :
    (after .logPop bench).reply = .answered .done 0x00020006 ∧ (after .logPop bench).log = [] := by decide +kernel
theorem test_check_clear : (after (.checkClear 0x40000000) { bench with checkFailures := 7 }).checkFailures = 0 := by
  decide +kernel
theorem test_fault_clear : (after (.faultClear 0x80000000) { bench with busFaults := 7 }).busFaults = 0 := by
  decide +kernel
theorem test_reset_cause_clear : (after (.resetCauseClear 1) bench).resetCause = 0 := by decide +kernel
theorem test_register_write : (after (.registerWrite 0x12 0xABCD) bench).staging.w0 = 0xABCD := by decide +kernel
theorem test_power_on_reset : (after .powerOnReset bench).powerHold = some 100 := by decide +kernel
theorem test_system_reset : (after .systemReset bench).resetCause = 3 := by decide +kernel
theorem test_reset_release : (after .resetRelease { heldByPin with resetLow := false }).held = false := by decide +kernel
theorem test_refclk : (after .refclkStop bench).refclk = false ∧ (after .refclkStart bench).refclk = true := by
  decide +kernel
theorem test_tick :
    let t := after (.tick 0x01) State.reset
    t.timeBase = 1 ∧ (t.filter 0).previous = some true ∧ (t.filter 1).previous = some false := by decide +kernel

/-! ### Witnesses: the machine, reset and the laws -/

theorem witness_StepRunsTheFrontCommand : State.reset.pending = [] := rfl

theorem witness_ResetRegisterValues_read :
    (⟨true, 0x7F, false, 0xF, 0⟩ : Access).select = true ∧ (⟨true, 0x7F, false, 0xF, 0⟩ : Access).write = false ∧
    (⟨true, 0x7F, false, 0xF, 0⟩ : Access).lanes = 0xF#4 := by decide

theorem witness_ResetStarts_powerOn : ResetStarts bench bench.powerOn := .inl rfl
theorem witness_ResetStarts_softReset : ResetStarts bench (after (.softReset 4) bench) :=
  .inr (.inl ⟨by decide, 4, by decide, rfl⟩)
theorem witness_ResetStarts_pin : ResetStarts bench (after .systemReset bench) :=
  .inr (.inr (.inl ⟨by decide, by decide, rfl⟩))
theorem witness_ResetStarts_trip : ResetStarts beforeTrip (after .intervalExpiry beforeTrip) :=
  .inr (.inr (.inr ⟨by decide, rfl, by decide +kernel⟩))

/-- Every law holds of a part at work, so that no law that a step keeps is kept of reset alone. -/
theorem witness_step : step bench = .next (after .take { bench with pending := [] }) := rfl
theorem witness_QueueInOrder : QueueInOrder bench := by unfold QueueInOrder; decide +kernel
theorem witness_EngineFed : EngineFed bench := by unfold EngineFed; decide +kernel
theorem witness_LogBounded : LogBounded bench := by unfold LogBounded; decide +kernel
theorem witness_StackNested : StackNested { edgeOffer with stack := [⟨9, 5, .level, none⟩, ⟨3, 1, .edge, none⟩] } := by
  unfold StackNested; decide +kernel
theorem witness_ClosingsPending : ClosingsPending bench := by
  intro e he c hc
  have h : e = ⟨11, 5, .edge, some ⟨5, 1, true⟩⟩ := List.mem_singleton.mp he
  subst h
  cases hc
  decide +kernel
theorem witness_StackedLinesServed : StackedLinesServed bench := by unfold StackedLinesServed; decide +kernel
theorem witness_LineStateByMode : LineStateByMode bench := by unfold LineStateByMode; decide +kernel
theorem witness_SourcesConsistent : SourcesConsistent bench := by unfold SourcesConsistent; decide +kernel
theorem witness_MembersLiveOwners : MembersLiveOwners bench := by unfold MembersLiveOwners; decide +kernel
theorem witness_LocalFollowsPins : LocalFollowsPins bench := by unfold LocalFollowsPins; decide +kernel
theorem witness_SoleOneOwner : SoleOneOwner bench := by unfold SoleOneOwner; decide +kernel
theorem witness_SoleOneOwner_counts :
    LocalOwns bench 9 ∧ bench.ownerCount 9 = 1 ∧ ¬ LocalOwns bench 8 ∧ bench.ownerCount 8 = 1 := by
  unfold LocalOwns; decide +kernel
theorem witness_LocalFollowsPins_modes :
    (bench.line 8).mode = .shared ∧ (bench.line 12).mode = .sole ∧ (bench.line 10).mode = .edge ∧
    (bench.line 0).mode = .off := by decide +kernel
theorem witness_PinsMatchLines : PinsMatchLines bench := by unfold PinsMatchLines; decide +kernel
theorem witness_MonitorFollowsSreq : MonitorFollowsSreq bench := by unfold MonitorFollowsSreq; decide +kernel
theorem witness_HeldInReset : heldByPin.held = true ∧ HeldInReset heldByPin := by unfold HeldInReset; decide +kernel
theorem witness_HeldInReset_pulse :
    (after .intervalExpiry beforeTrip).rstout = true ∧ HeldInReset (after .intervalExpiry beforeTrip) := by
  unfold HeldInReset; decide +kernel
theorem witness_BaseAligned : BaseAligned bench := by unfold BaseAligned; decide +kernel

/-! ### Witnesses: bus accesses -/

theorem witness_AdmissionStoresTheWord :
    (filled 15).held = false ∧ (filled 15).reportBase ≠ 0#32 ∧ 0x40001000#32 = (filled 15).reportBase ∧
    (filled 15).queue.length < 16 := by decide +kernel
theorem witness_FullQueueAnswersRetry :
    (filled 16).held = false ∧ (filled 16).reportBase ≠ 0#32 ∧ 0x40001000#32 = (filled 16).reportBase ∧
    16 ≤ (filled 16).queue.length := by decide +kernel
theorem witness_UnclaimedAccess_held : heldByPin.held = true ∧ registerAccess (.eos 0) = true := by decide
theorem witness_UnclaimedAccess_disabled : State.reset.reportBase = 0#32 := rfl
theorem witness_UnclaimedAccess_outside :
    (0x40001010#32).extractLsb' 4 28 ≠ bench.reportBase.extractLsb' 4 28 := by decide
theorem witness_FaultsAreCounted_narrow :
    bench.held = false ∧ (⟨true, 0, false, 0x7, 0⟩ : Access).select = true ∧
    (⟨true, 0, false, 0x7, 0⟩ : Access).lanes ≠ 0xF#4 := by decide
theorem witness_FaultsAreCounted_readOnly :
    bench.held = false ∧ (⟨true, 0x7C, true, 0xF, 0⟩ : Access).write = true ∧
    ReadOnlyOffset ((⟨true, 0x7C, true, 0xF, 0⟩ : Access).addr.extractLsb' 2 5) := by
  unfold ReadOnlyOffset; decide
theorem witness_FaultsAreCounted_window :
    bench.held = false ∧ bench.reportBase ≠ 0#32 ∧ 0x40001004#32 ≠ bench.reportBase ∧
    (0x40001004#32).extractLsb' 4 28 = bench.reportBase.extractLsb' 4 28 := by decide
theorem witness_FaultsAreCounted_registerWrite : bench.held = false ∧ ReadOnlyOffset 0x18#5 := by
  unfold ReadOnlyOffset; decide
theorem witness_ReportBaseWriteMovesTheWindow : bench.held = false := by decide

/-! ### Witnesses: the report engine -/

/-- The hypotheses of every statement about a completion, for one word at the head of the queue. -/
theorem witness_completion (w : Word) :
    (applyingWord w).held = false ∧ (applyingWord w).applying = true ∧
    (applyingWord w).queue = ⟨w, 4⟩ :: [⟨edgeWord, 5⟩] := ⟨rfl, rfl, rfl⟩

theorem witness_completion_none : State.reset.applying = false ∧ State.reset.queue = [] ∧ heldByPin.held = true := by decide

/-- The classes of ValidationFollowsItsOrder, each met by a word against the bench. -/
theorem witness_Validation_check : checkPasses 0x1B109012 = false ∧ bench.judge 0x1B109012 = .reject .check := by
  decide +kernel
theorem witness_Validation_kind : checkPasses noKindWord = true ∧ bench.judge noKindWord = .reject .kind := by
  decide +kernel
theorem witness_Validation_unknownSource :
    bench.judge 0xC000000C = .reject .unknownSource ∧ bench.judge 0xF8000007 = .reject .unknownSource := by decide +kernel
theorem witness_Validation_vacant :
    bench.judge 0x00000000 = .reject .vacant ∧ bench.judge 0xB8000003 = .reject .vacant := by decide +kernel
theorem witness_Validation_barred : bench.judge 0x20000002 = .reject .barred := by decide +kernel
theorem witness_Validation_foreign : bench.judge foreignWord = .reject .foreign := by decide +kernel
theorem witness_Validation_duplicate : bench.judge duplicateWord = .duplicate 3 := by decide +kernel
theorem witness_Validation_accept : bench.judge stateWord = .accept 3 := by decide +kernel

theorem witness_RejectionIsLoggedAndCharged : (applyingWord 0x20000002).judge 0x20000002 = .reject .barred := by
  decide +kernel
theorem witness_ForeignRejection_bars :
    (applyingWord foreignWord).judge foreignWord = .reject .foreign ∧
    (foreignWord.extractLsb' 27 5).toNat = (3 : RemoteId).val ∧ ((applyingWord foreignWord).source 3).barThreshold = 2#4 ∧
    saturated ((applyingWord foreignWord).source 3).foreignStreak = 2#4 := by decide +kernel
/-- One streak less: the same word does not bar. -/
theorem witness_ForeignRejection_counts :
    let s := (applyingWord foreignWord).setSource 3 { liveSource with foreignStreak := 0 }
    s.judge foreignWord = .reject .foreign ∧ (s.source 3).barThreshold = 2#4 ∧
    saturated (s.source 3).foreignStreak = 1#4 := by decide +kernel
theorem witness_DuplicateOnlyReloads : (applyingWord duplicateWord).judge duplicateWord = .duplicate 3 := by decide +kernel
theorem witness_AcceptedReport_state :
    (applyingWord stateWord).judge stateWord = .accept 3 ∧ (stateWord.extractLsb' 22 2).toNat < 2 := by decide +kernel
theorem witness_AcceptedReport_refresh :
    (applyingWord refreshWord).judge refreshWord = .accept 3 ∧ (refreshWord.extractLsb' 22 2).toNat < 2 := by
  decide +kernel
theorem witness_AcceptedRelease :
    (applyingWord releaseWord).judge releaseWord = .accept 3 ∧ releaseWord.extractLsb' 22 2 = 2#2 := by decide +kernel

/-! ### Witnesses: CONTROL and the quiet timers -/

theorem witness_ControlWrite :
    bench.held = false ∧ (0xF01#32).getLsbD 2 = false ∧ Instr.pauseSet 0xF01 ∈ controlWrites 0xF01 := by decide
theorem witness_SoftReset :
    bench.held = false ∧ (0x4#32).getLsbD 2 = true ∧ Instr.softReset 4 ∈ controlWrites 4 := by decide
theorem witness_QuietExpiry :
    bench.held = false ∧ bench.engine ≠ .paused ∧ (bench.source 3).state = .live ∧
    (bench.source 3).quietRemaining = 1#8 ∧
    (bench.source 3).boundaryDue.getLsbD (tierCode (bench.source 3).timerTier).toNat = true := by decide +kernel
theorem witness_QuietExpiry_paused : paused.engine = .paused := by decide
theorem witness_QuietExpiry_notDue : (bench.source 4).state ≠ .live ∧ heldByPin.held = true := by decide +kernel
/-- The smallest count that a boundary decrements is 2; the second boundary of the same tick does nothing. -/
theorem witness_TierBoundary_decrements :
    let s := bench.setSource 3 { liveSource with quietRemaining := 2 }
    let t := after (.tierBoundary .t1) s
    s.held = false ∧ (s.source 3).boundaryDue.getLsbD (tierCode .t1).toNat = true ∧ s.engine ≠ .paused ∧
    (s.source 3).state = .live ∧ (s.source 3).timerTier = .t1 ∧ (s.source 3).quietRemaining ≠ 0 ∧
    (s.source 3).quietRemaining ≠ 1 ∧ (t.source 3).quietRemaining = 1 ∧
    (t.source 3).boundaryDue.getLsbD (tierCode .t1).toNat = false ∧
    (after (.tierBoundary .t1) t).source 3 = t.source 3 := by decide +kernel
theorem witness_TierBoundary_keeps :
    (bench.source 3).boundaryDue.getLsbD (tierCode .t1).toNat = true ∧ (bench.source 3).timerTier = .t1 ∧
    (bench.source 3).quietRemaining = 1 := by decide +kernel
theorem witness_TierBoundary_loses :
    paused.held = false ∧ (paused.source 3).boundaryDue.getLsbD (tierCode .t1).toNat = true ∧
    paused.engine = .paused := by decide +kernel
theorem witness_TierBoundary_notOwed : (bench.source 3).boundaryDue.getLsbD (tierCode .t0).toNat = false := by
  decide +kernel
/-- Log entry 22: a reload to 1 before the boundary is taken, which then brings the expiry. -/
theorem test_reload_to_one_expires :
    let s := (applyingWord duplicateWord).setSource 3
      { liveSource with quietReload := 1, tier := .t1, quietRemaining := 200 }
    let t := after (.quietExpiry 3) (after .applicationCompletion s)
    ((after .applicationCompletion s).source 3).quietRemaining = 1 ∧ (t.source 3).state = .silent := by decide +kernel
/-- R55: a boundary that falls in PAUSED is not counted after the pause clear; one that falls in any other state is. -/
theorem test_boundary_in_paused_is_lost :
    let s := { paused with timeBase := 0xFFFFF }.setSource 3 { liveSource with quietRemaining := 9, boundaryDue := 0 }
    ((after (.tierBoundary .t1) (after (.pauseClear 0) (after (.tick 0) s))).source 3).quietRemaining = 9 ∧
    ((after (.tierBoundary .t1) (after (.tick 0) (after (.pauseClear 0) s))).source 3).quietRemaining = 8 := by
  decide +kernel
/-- R57 and log entry 23: a pause set taken between a boundary and its decrement shuts the decrement out. -/
theorem test_boundary_after_a_pause_set_is_lost :
    ((after (.tierBoundary .t1) (paused.setSource 3 { liveSource with quietRemaining := 9 })).source 3).quietRemaining = 9 := by
  decide +kernel

/-! ### Witnesses: the table port -/

theorem witness_Load_source :
    (port 0 23 0 0).held = false ∧ (port 0 23 0 0).tsel.table = 0#2 ∧
    (port 0 23 0 0).tsel.index.toNat = (23 : RemoteId).val := by decide +kernel
theorem witness_Load_local : (port 0 24 0 0).tsel.table = 0#2 ∧ (port 0 24 0 0).tsel.index = 24#5 := by decide +kernel
theorem witness_Load_line :
    (port 1 31 0 0).tsel.table = 1#2 ∧ (port 1 31 0 0).tsel.index.toNat = (31 : LineId).val := by decide +kernel
theorem witness_Load_pin :
    (port 2 8 0 0).tsel.table = 2#2 ∧ (port 2 8 0 0).tsel.index.toNat = (8 : PinId).val := by decide +kernel
theorem witness_Load_badIndex :
    (port 3 0 0 0).tsel.table = 3#2 ∧ 25 ≤ (port 0 25 0 0).tsel.index.toNat ∧ 9 ≤ (port 2 9 0 0).tsel.index.toNat := by
  decide +kernel

theorem witness_Selection_wrongTable : (port 1 0 0 0).held = false ∧ (port 1 0 0 0).tsel.table ≠ 0#2 := by decide +kernel
theorem witness_Selection_badIndex :
    (port 0 24 0 0).tsel.table = 0#2 ∧ 24 ≤ (port 0 24 0 0).tsel.index.toNat := by decide +kernel
theorem witness_Selection_claimed : (runningPort 0 3 0 0).tsel.table = 0#2 ∧ SourceClaimed (runningPort 0 3 0 0) 3 :=
  ⟨by decide, State.claimsSource_eq_true.mp (by decide +kernel)⟩
theorem witness_Selection_vacant : ¬ SourceClaimed (port 0 0 0 0) 0 ∧ ((port 0 0 0 0).source 0).state = .vacant :=
  ⟨State.claimsSource_eq_false.mp (by decide +kernel), by decide +kernel⟩

theorem witness_SourceCommitRefusals_notPaused :
    (runningPort 0 3 1 0).staging.w0 ≠ ((runningPort 0 3 1 0).source 3).ownership ∧
    (runningPort 0 3 1 0).engine ≠ .paused := by decide +kernel
theorem witness_SourceCommitRefusals_busy :
    ¬ (runningPort 0 3 0x900 0).staging.w0 ≠ ((runningPort 0 3 0x900 0).source 3).ownership ∧
    SourceClaimed (runningPort 0 3 0x900 0) 3 :=
  ⟨by decide +kernel, State.claimsSource_eq_true.mp (by decide +kernel)⟩
/-- Source 4 owns line 12, which is SOLE; source 3 stages it. -/
theorem witness_SourceCommitRefusals_sole :
    let s := (port 0 3 0x1000 0).setSource 4 { SourceEntry.reset with ownership := 0x1000, state := .barred }
    s.staging.w0 ≠ (s.source 3).ownership ∧ s.engine = .paused ∧ s.staging.w0.getLsbD (12 : LineId).val = true ∧
    (s.line 12).mode = .sole ∧ (4 : RemoteId) ≠ 3 ∧ (s.source 4).ownership.getLsbD (12 : LineId).val = true := by
  decide +kernel

theorem witness_LineCommitRefusals_notPaused :
    lineModeOf ((runningPort 1 8 1 0).staging.w0.extractLsb' 0 2) ≠ ((runningPort 1 8 1 0).line 8).mode ∧
    (runningPort 1 8 1 0).engine ≠ .paused := by decide +kernel
theorem witness_LineCommitRefusals_busy :
    lineModeOf ((runningPort 1 8 2 0).staging.w0.extractLsb' 0 2) = ((runningPort 1 8 2 0).line 8).mode ∧
    ((runningPort 1 8 2 0).staging.w0.getLsbD 2 = false ∧ ((runningPort 1 8 2 0).line 8).route = .service) ∧
    LineClaimed (runningPort 1 8 2 0) 8 :=
  ⟨by decide +kernel, by decide +kernel, State.claimsLine_eq_true.mp (by decide +kernel)⟩
theorem witness_LineCommitRefusals_inService :
    let s := { port 1 11 2 0 with stack := bench.stack }
    s.engine = .paused ∧ lineModeOf (s.staging.w0.extractLsb' 0 2) ≠ (s.line 11).mode ∧ ∃ e ∈ s.stack, e.line = 11 := by
  decide +kernel
/-- Line 8 has two owners, sources 3 and 4. -/
theorem witness_LineCommitRefusals_sole :
    let s := (port 1 8 3 0).setSource 4 { SourceEntry.reset with ownership := 0x100, state := .barred }
    s.engine = .paused ∧ lineModeOf (s.staging.w0.extractLsb' 0 2) = .sole ∧ (s.line 8).mode = .shared ∧
    s.stack = [] ∧ s.ownerCount 8 = 2 := by decide +kernel
/-- Pin entry 0 targets line 9 in a level mode. -/
theorem witness_LineCommitRefusals_pins :
    let s := port 1 9 1 0
    s.engine = .paused ∧ lineModeOf (s.staging.w0.extractLsb' 0 2) = .edge ∧ (s.line 9).mode = .shared ∧
    s.stack = [] ∧ (s.pin 0).target = 9 ∧ (s.pin 0).mode.isLevel = true := by decide +kernel

theorem witness_PinCommitRefusals_notPaused :
    (runningPort 2 3 1 0).staging.w0.extractLsb' 0 3 ≠ ((runningPort 2 3 1 0).pin 3).mode.code ∧
    (runningPort 2 3 1 0).engine ≠ .paused := by decide +kernel
theorem witness_PinCommitRefusals_badValue :
    6 ≤ ((port 2 3 6 0).staging.w0.extractLsb' 0 3).toNat ∧ (port 2 3 6 0).engine = .paused ∧
    (port 2 8 1 0).staging.w0.extractLsb' 0 3 = 1#3 := by decide +kernel
theorem witness_PinCommitRefusals_sole :
    let s := (port 2 3 0xC02 0).setSource 4 { SourceEntry.reset with ownership := 0x1000, state := .barred }
    s.engine = .paused ∧ lineOf (s.staging.w0.extractLsb' 8 5) = 12 ∧ (s.line 12).mode = .sole ∧
    (s.source 4).ownership.getLsbD (12 : LineId).val = true := by decide +kernel
theorem witness_PinCommitRefusals_pins :
    let s := port 2 3 0x803 0
    s.engine = .paused ∧ lineOf (s.staging.w0.extractLsb' 8 5) = 8 ∧ 3 ≤ (s.staging.w0.extractLsb' 0 3).toNat ∧
    (s.line 8).mode = .shared := by decide +kernel

/-- Source 3 gives up line 11 and takes line 12. -/
theorem witness_SourceCommitWrites :
    let s := port 0 3 0x1100 0x3207
    s.held = false ∧ s.tsel.table = 0#2 ∧ s.tsel.index.toNat = (3 : RemoteId).val ∧ s.engine = .paused ∧
    ¬ SourceClaimed s 3 ∧
    ∀ l : LineId, s.staging.w0.getLsbD l.val = true → (s.line l).mode = .sole →
      ¬ LocalOwns s l ∧ ∀ j : RemoteId, j ≠ 3 → (s.source j).ownership.getLsbD l.val = false :=
  ⟨by decide +kernel, by decide +kernel, by decide +kernel, by decide +kernel,
    State.claimsSource_eq_false.mp (by decide +kernel), by unfold LocalOwns; decide +kernel⟩
/-- Line 8 from SHARED to EDGE. -/
theorem witness_LineCommitWrites :
    let s := port 1 8 0x51 0
    s.held = false ∧ s.tsel.table = 1#2 ∧ s.tsel.index.toNat = (8 : LineId).val ∧ s.engine = .paused ∧
    (∀ e ∈ s.stack, e.line ≠ 8) ∧ ¬ LineClaimed s 8 ∧ lineModeOf (s.staging.w0.extractLsb' 0 2) ≠ (s.line 8).mode ∧
    ∀ p : PinId, (s.pin p).target ≠ 8 :=
  ⟨by decide +kernel, by decide +kernel, by decide +kernel, by decide +kernel, by decide +kernel,
    State.claimsLine_eq_false.mp (by decide +kernel), by decide +kernel, by decide +kernel⟩
/-- Pin entry 8 from line 13 to line 8. -/
theorem witness_PinCommitWrites :
    let s := port 2 8 0x802 0
    s.held = false ∧ s.tsel.table = 2#2 ∧ s.tsel.index.toNat = (8 : PinId).val ∧
    s.staging.w0.extractLsb' 0 3 = PinMode.levelHigh.code ∧ s.engine = .paused ∧
    (s.line (lineOf (s.staging.w0.extractLsb' 8 5))).mode = .shared ∧ PinMode.levelHigh.isEdge = false := by
  decide +kernel
theorem witness_Bar :
    (port 0 3 0 0).held = false ∧ ¬ SourceClaimed (port 0 3 0 0) 3 ∧ ((port 0 3 0 0).source 3).state = .live ∧
    ((port 0 4 0 0).source 4).state = .barred :=
  ⟨by decide +kernel, State.claimsSource_eq_false.mp (by decide +kernel), by decide +kernel, by decide +kernel⟩
theorem witness_Unbar :
    (port 0 4 0 0).held = false ∧ (port 0 4 0 0).tsel.table = 0#2 ∧
    (port 0 4 0 0).tsel.index.toNat = (4 : RemoteId).val ∧ ¬ SourceClaimed (port 0 4 0 0) 4 :=
  ⟨by decide +kernel, by decide +kernel, by decide +kernel, State.claimsSource_eq_false.mp (by decide +kernel)⟩

/-! ### Witnesses: the service unit -/

/-- Lines 8 and 9 are deliverable at equal priority; the lower number is offered. -/
theorem witness_Offer :
    bench.deliverable 8 = true ∧ bench.deliverable 9 = true ∧ (bench.line 8).priority = (bench.line 9).priority ∧
    bench.offer = some 8 := by decide +kernel
theorem witness_Take_level : bench.held = false ∧ bench.offer = some 8 ∧ (bench.line 8).mode ≠ .edge := by decide +kernel
theorem witness_Take_edge :
    edgeOffer.held = false ∧ edgeOffer.offer = some 3 ∧ (edgeOffer.line 3).mode = .edge := by decide +kernel
theorem witness_Take_empty : State.reset.held = false ∧ State.reset.offer = none := by decide +kernel
theorem witness_Eos_none :
    bench.held = false ∧ bench.stack.find? (fun e => e.line.val == ((0#32).extractLsb' 0 5).toNat) = none := by
  decide +kernel
theorem witness_Eos_closing :
    bench.stack.find? (fun e => e.line.val == ((11#32).extractLsb' 0 5).toNat) = some ⟨11, 5, .edge, some ⟨5, 1, true⟩⟩ := by
  decide +kernel
theorem witness_Eos_closed :
    edgeOffer.held = false ∧ (edgeOffer.stack.filter (fun e => e.closing.isNone)).getLast? = some ⟨9, 5, .level, none⟩ ∧
    edgeOffer.closeLimit = 0#4 := by decide +kernel
/-- The bench's second word states line 11, and none is newer. -/
theorem witness_EosDefers :
    let s := { bench with stack := [⟨11, 5, .edge, none⟩] }
    s.held = false ∧ s.closeLimit ≠ 0#4 ∧ s.queue = [⟨stateWord, 4⟩] ++ ⟨edgeWord, 5⟩ :: [] ∧
    s.stack.find? (fun x => x.line.val == ((11#32).extractLsb' 0 5).toNat) = some ⟨11, 5, .edge, none⟩ ∧
    WordMatches s edgeWord 11 :=
  ⟨by decide +kernel, by decide +kernel, by decide +kernel, by decide +kernel,
    State.matchesLine_eq_true.mp (by decide +kernel)⟩
theorem witness_CloseTimer : bench.held = false ∧ bench.closeUnitDue = true := by decide
theorem witness_CloseTimer_notDue :
    edgeOffer.closeUnitDue = false ∧ ∀ e ∈ edgeOffer.stack, e.closing = none := by decide
theorem witness_CloseTimer_expires :
    ∃ e ∈ bench.stack, ∃ c : Closing, e.line = 11 ∧ e.closing = some c ∧ c.expiring = true :=
  ⟨_, List.mem_singleton.mpr rfl, ⟨5, 1, true⟩, rfl, rfl, rfl⟩

/-! ### Witnesses: the urgent path, the monitor and the pins -/

theorem witness_UrgentClear :
    bench.held = false ∧ (0x400#32).getLsbD (10 : LineId).val = true ∧ (bench.line 10).mode = .edge ∧
    (bench.line 10).route = .urgent := by decide +kernel
theorem witness_IntervalExpiry_counting : bench.monitor = .counting 0 := rfl
theorem witness_IntervalExpiry_warned :
    { bench with monitor := .warned (some 0) }.monitor = .warned (some 0) ∧
    { bench with monitor := .warned (some 0) }.deadlineMode = .warn := ⟨rfl, rfl⟩
theorem witness_Trip :
    beforeTrip.held = false ∧ beforeTrip.monitor = .warned (some 0) ∧ beforeTrip.deadlineMode = .warnReset ∧
    beforeTrip.offer = some 8 := by decide +kernel
theorem witness_PulseEnd : { State.reset with monitor := .tripped 0 }.monitor = .tripped 0 := rfl
theorem witness_DeadlineCtrlWrite :
    let s := { bench with deadlineMode := .off, monitor := .idle }
    s.held = false ∧ s.sreq = true ∧ (0x0101#32).extractLsb' 0 2 = 1#2 := by decide +kernel
theorem witness_FilterChange_level :
    bench.held = false ∧ (bench.filter 0).due = true ∧ (bench.filter 0).previous = some false ∧
    (bench.filter 0).level ≠ .low ∧ (bench.pin (pinOfSense 0)).mode.isLevel = true := by decide +kernel
theorem witness_FilterChange_pulses :
    (bench.filter 1).due = true ∧ (bench.filter 1).previous = some true ∧ (bench.filter 1).level = .low ∧
    (bench.pin (pinOfSense 1)).mode = .rising ∧ (bench.line (bench.pin (pinOfSense 1)).target).mode = .edge := by
  decide +kernel
/-- Pin 2 looks for falls, and its level rises. -/
theorem witness_FilterChange_silent :
    (bench.filter 2).due = true ∧ (bench.filter 2).previous = some true ∧ (bench.filter 2).level = .low ∧
    (bench.pin (pinOfSense 2)).mode = .falling := by decide +kernel
theorem witness_FilterChange_notDue :
    (bench.filter 4).due = false ∧ (bench.filter 1).level ≠ .unset ∧ (bench.filter 3).level = .unset := by decide +kernel
theorem witness_FilterChange_settles :
    (bench.filter 3).due = true ∧ (bench.filter 3).previous = some false ∧ (bench.filter 3).level = .unset := by
  decide +kernel

/-! ### Witnesses: records, registers, resets and time -/

theorem witness_EventWrites : bench.held = false ∧ bench.summary = true ∧ (after (.eventEnable 0) bench).summary = false := by
  decide +kernel
theorem witness_Records_empty : State.reset.held = false ∧ State.reset.log = [] := by decide
theorem witness_Records_pop : bench.held = false ∧ bench.log = ⟨foreignWord, .foreign, 2⟩ :: [] := by decide
theorem witness_RegisterWrite_noCommand :
    bench.held = false ∧ (0x8#32).extractLsb' 0 3 = 0#3 ∧ 6 ≤ ((0x6#32).extractLsb' 0 3).toNat := by decide
theorem witness_Views_closing :
    bench.stack[(0 : Fin 8).val]? = some ⟨11, 5, .edge, some ⟨5, 1, true⟩⟩ ∧ bench.stack.length ≤ (1 : Fin 8).val ∧
    bench.held = false ∧ bench.reportBase ≠ 0#32 := by decide +kernel
theorem witness_Views_registers :
    BaseAligned bench ∧ bench.monitor = .counting 0 ∧ bench.log = ⟨foreignWord, .foreign, 2⟩ :: [] ∧
    State.reset.log = [] ∧ State.reset.tstat.command = none ∧ (after .bar (port 0 3 0 0)).tstat.command = some .bar :=
  ⟨by unfold BaseAligned; decide, rfl, rfl, rfl, rfl, by decide +kernel⟩
theorem witness_Views_open : edgeOffer.stack[(0 : Fin 8).val]? = some ⟨9, 5, .level, none⟩ := by decide +kernel
theorem witness_ResetSources_fresh : bench.refclk = true ∧ bench.held = false := by decide
theorem witness_ResetSources_stopped : { bench with refclk := false }.refclk = false := rfl
theorem witness_ResetSources_overlap :
    let s := { State.reset with softHold := some 4 }
    s.refclk = true ∧ s.held = true ∧ s.pinHold = false ∧ s.powerHold = none := by decide
theorem witness_ResetSources_powerEnds :
    let s := { State.reset with powerHold := some 0 }
    s.refclk = true ∧ s.held = true ∧ s.pinHold = false ∧ s.powerHold = some 0 := by decide
theorem witness_ResetSources_again :
    heldByPin.refclk = true ∧ heldByPin.pinHold = true ∧ heldByPin.powerHold = none := by decide
theorem witness_ResetSources_powerHeld : { State.reset with powerHold := some 1 }.powerHold = some (0 + 1) := rfl
theorem witness_Release_ended :
    let s := { heldByPin with resetLow := false }
    s.held = true ∧ s.resetLow = false ∧ s.powerHold = none ∧ s.softHold = none ∧ s.rstout = false := by decide
theorem witness_Release_held : heldByPin.held = true ∧ heldByPin.resetLow = true := by decide
theorem witness_Tick_running : bench.refclk = true ∧ bench.catchUp.held = false := by decide +kernel
theorem witness_Tick_paused :
    paused.refclk = true ∧ paused.catchUp.held = false ∧ paused.catchUp.engine = .paused := by decide +kernel
theorem witness_Tick_held : heldByPin.refclk = true ∧ heldByPin.catchUp.held = true := by decide +kernel
/-- R25: a tick that finds an application which has seen a tick completes it first. -/
theorem test_tick_completes_the_overdue :
    let s := { bench with appTicked := true }
    (s.applying = true ∧ s.appTicked = true) ∧ (after (.tick 0) s).applied = 5 ∧
    (after (.tick 0) bench).applied = 4 := by decide +kernel
theorem witness_Tick_nothing_outstanding : State.reset.outstanding = false := by decide +kernel

end Sys2Proof.Tests
end

