-- ==== Sys2Proof/Proofs/ReportUnit.lean ====
section
/-! The report unit: REPORT_BASE, the report queue with its stamps, the engine and the reject log. Here is said once
which effects of a step leave it as it stands; a law about it then has to be shown of the few effects that do not
(`ReportUnitLaw.kept`). Settles the three laws about it: the queue and the engine, REPORT_BASE, the reject log. -/

namespace Sys2Proof.Machine

open Sys2Proof.Safety

/-! ### The report unit of a state, and the operations that leave it -/

/-- What the report path of chapters 1 and 2 and the reject log hold (R8, R15 to R17, R19, R20, R140). -/
structure ReportUnit where
  reportBase : Word
  queue : List QueueEntry
  arrivals : Stamp
  applied : Stamp
  pauseRequest : Bool
  applying : Bool
  log : List LogEntry

/-- The report unit of a state. -/
def State.reportUnit (s : State) : ReportUnit :=
  ⟨s.reportBase, s.queue, s.arrivals, s.applied, s.pauseRequest, s.applying, s.log⟩

theorem State.reportUnit_eq_iff {s t : State} :
    t.reportUnit = s.reportUnit ↔
      t.reportBase = s.reportBase ∧ t.queue = s.queue ∧ t.arrivals = s.arrivals ∧ t.applied = s.applied ∧
      t.pauseRequest = s.pauseRequest ∧ t.applying = s.applying ∧ t.log = s.log := by
  simp only [State.reportUnit, ReportUnit.mk.injEq]

@[simp] theorem State.raise_reportUnit (s : State) (f : BitVec 8) : (s.raise f).reportUnit = s.reportUnit := rfl

@[simp] theorem State.countFault_reportUnit (s : State) : s.countFault.reportUnit = s.reportUnit := rfl

@[simp] theorem State.setSource_reportUnit (s : State) (k : RemoteId) (e : SourceEntry) :
    (s.setSource k e).reportUnit = s.reportUnit := rfl

@[simp] theorem State.setLine_reportUnit (s : State) (l : LineId) (e : LineEntry) :
    (s.setLine l e).reportUnit = s.reportUnit := rfl

@[simp] theorem State.setPin_reportUnit (s : State) (p : PinId) (e : PinEntry) :
    (s.setPin p e).reportUnit = s.reportUnit := rfl

@[simp] theorem State.setFilter_reportUnit (s : State) (p : SenseId) (e : PinFilter) :
    (s.setFilter p e).reportUnit = s.reportUnit := rfl

@[simp] theorem State.mapLines_reportUnit (s : State) (f : LineId → LineEntry → LineEntry) :
    (s.mapLines f).reportUnit = s.reportUnit := by
  simp [State.reportUnit_eq_iff]

@[simp] theorem State.mapSources_reportUnit (s : State) (f : RemoteId → SourceEntry → SourceEntry) :
    (s.mapSources f).reportUnit = s.reportUnit := by
  simp [State.reportUnit_eq_iff]

@[simp] theorem State.withdraw_reportUnit (s : State) (k : RemoteId) (m : LineSet) :
    (s.withdraw k m).reportUnit = s.reportUnit := by
  simp [State.reportUnit_eq_iff]

@[simp] theorem State.recomputeLocal_reportUnit (s : State) (l : LineId) :
    (s.recomputeLocal l).reportUnit = s.reportUnit := rfl

@[simp] theorem State.removeEntry_reportUnit (s : State) (l : LineId) :
    (s.removeEntry l).reportUnit = s.reportUnit := rfl

@[simp] theorem State.closeEntry_reportUnit (s : State) (l : LineId) (w : Stamp) :
    (s.closeEntry l w).reportUnit = s.reportUnit := rfl

@[simp] theorem State.setEosResult_reportUnit (s : State) (r : EosResult) :
    (s.setEosResult r).reportUnit = s.reportUnit := rfl

@[simp] theorem State.setTstat_reportUnit (s : State) (t : TableStatus) :
    (s.setTstat t).reportUnit = s.reportUnit := rfl

@[simp] theorem State.setWarning_reportUnit (s : State) (b : Bool) :
    (s.setWarning b).reportUnit = s.reportUnit := rfl

@[simp] theorem State.clearStack_reportUnit (s : State) : s.clearStack.reportUnit = s.reportUnit := rfl

@[simp] theorem State.setCloseLimit_reportUnit (s : State) (c : BitVec 4) :
    (s.setCloseLimit c).reportUnit = s.reportUnit := rfl

@[simp] theorem State.departStamp_reportUnit (s : State) (c : Stamp) :
    (s.departStamp c).reportUnit = s.reportUnit := rfl

@[simp] theorem State.propagate_reportUnit (b s : State) : (State.propagate b s).reportUnit = s.reportUnit := by
  rw [State.propagate_eq]; rfl

/-! ### The commands that leave it -/

@[simp] theorem State.push_reportUnit (s : State) (l : LineId) : (s.push l).reportUnit = s.reportUnit := by
  rw [State.push_eq]; rfl

@[simp] theorem State.watchTake_reportUnit (s : State) : s.watchTake.reportUnit = s.reportUnit := by
  rw [State.watchTake_eq]; rfl

theorem State.eosEffect_reportUnit (s : State) (w : Word) : (s.eosEffect w).1.reportUnit = s.reportUnit := by
  unfold State.eosEffect
  cases s.eosSelected w with
  | none => rfl
  | some e =>
    dsimp only
    split
    · rfl
    · split
      · exact s.removeEntry_reportUnit e.line
      · cases s.newestMatch e.line with
        | none => exact s.removeEntry_reportUnit e.line
        | some stamp => exact s.closeEntry_reportUnit e.line stamp

@[simp] theorem State.endOfService_reportUnit (s : State) (w : Word) :
    (s.endOfService w).reportUnit = s.reportUnit := by
  simp [State.endOfService, State.eosEffect_reportUnit]

@[simp] theorem State.clearUrgent_reportUnit (s : State) (w : Word) : (s.clearUrgent w).reportUnit = s.reportUnit := by
  simp [State.clearUrgent]

@[simp] theorem State.monitorModeWrite_reportUnit (s : State) (m : DeadlineMode) :
    (s.monitorModeWrite m).reportUnit = s.reportUnit := by
  unfold State.monitorModeWrite
  cases s.monitor with
  | tripped n => rfl
  | idle => dsimp only; split <;> rfl
  | counting n | warned n => dsimp only; split <;> rfl

@[simp] theorem State.writeDeadline_reportUnit (s : State) (w : Word) :
    (s.writeDeadline w).reportUnit = s.reportUnit :=
  State.monitorModeWrite_reportUnit _ _

@[simp] theorem State.performCommit_reportUnit (s : State) : s.performCommit.reportUnit = s.reportUnit := by
  unfold State.performCommit
  cases selectedEntry s.tsel with
  | source k => rfl
  | localSource | noEntry => rfl
  | line l => simp only [State.commitLine]; split <;> rfl
  | pin p => simp only [State.commitPin]; cases s.staging.pinMode <;> rfl

/-- A source command leaves the report unit where its effect on every source does. -/
theorem State.onSelectedSource_reportUnit {s : State} {f : State → RemoteId → State}
    (hf : ∀ k, (f s k).reportUnit = s.reportUnit) : (s.onSelectedSource f).reportUnit = s.reportUnit := by
  unfold State.onSelectedSource
  cases selectedEntry s.tsel with
  | source k => exact hf k
  | localSource | line _ | pin _ | noEntry => rfl

@[simp] theorem State.perform_reportUnit (s : State) (c : TableCommand) : (s.perform c).reportUnit = s.reportUnit := by
  cases c with
  | load => rfl
  | commit => exact s.performCommit_reportUnit
  | bar => exact State.onSelectedSource_reportUnit fun k => by unfold State.barSource; split <;> rfl
  | unbar => exact State.onSelectedSource_reportUnit fun k => by unfold State.unbarSource; split <;> rfl
  | clearCounters => exact State.onSelectedSource_reportUnit fun _ => rfl

@[simp] theorem State.tableCommand_reportUnit (s : State) (c : TableCommand) :
    (s.tableCommand c).reportUnit = s.reportUnit := by
  unfold State.tableCommand
  by_cases h : s.judgeCommand c = .ok <;> simp [h]

/-! ### The events of the clock and the pins that leave it -/

@[simp] theorem State.tierBoundary_reportUnit (s : State) (t : Tier) :
    (s.tierBoundary t).reportUnit = s.reportUnit := by
  unfold State.tierBoundary; split <;> simp

@[simp] theorem State.quietExpiry_reportUnit (s : State) (k : RemoteId) :
    (s.quietExpiry k).reportUnit = s.reportUnit := by
  unfold State.quietExpiry; split <;> simp

@[simp] theorem State.closeUnitBoundary_reportUnit (s : State) : s.closeUnitBoundary.reportUnit = s.reportUnit := by
  unfold State.closeUnitBoundary; split <;> rfl

@[simp] theorem State.closeTimerExpiry_reportUnit (s : State) (l : LineId) :
    (s.closeTimerExpiry l).reportUnit = s.reportUnit := by
  unfold State.closeTimerExpiry; split <;> simp

@[simp] theorem State.pulseEnd_reportUnit (s : State) : s.pulseEnd.reportUnit = s.reportUnit := by
  unfold State.pulseEnd; split <;> rfl

@[simp] theorem State.release_reportUnit (s : State) : s.release.reportUnit = s.reportUnit := by
  unfold State.release; split <;> rfl

@[simp] theorem State.pinLevelChanged_reportUnit (s : State) (p : PinId) :
    (s.pinLevelChanged p).reportUnit = s.reportUnit := by
  unfold State.pinLevelChanged; split <;> rfl

@[simp] theorem State.pinPulse_reportUnit (s : State) (p : PinId) : (s.pinPulse p).reportUnit = s.reportUnit := rfl

@[simp] theorem State.settle_reportUnit (s : State) (p : SenseId) : (s.settle p).reportUnit = s.reportUnit := by
  unfold State.settle; split <;> simp

@[simp] theorem State.transition_reportUnit (s : State) (p : SenseId) : (s.transition p).reportUnit = s.reportUnit := by
  unfold State.transition
  split
  · dsimp only; split <;> simp
  · rfl

/-! ### The resets: every one of them leaves the report unit of `State.reset` -/

theorem State.softResetNow_reportUnit (s : State) : s.softResetNow.reportUnit = State.reset.reportUnit := rfl

theorem State.powerOn_reportUnit (s : State) : s.powerOn.reportUnit = State.reset.reportUnit := rfl

theorem State.trip_reportUnit (s : State) : s.trip.reportUnit = State.reset.reportUnit := rfl

/-- RESET_N sampled low starts a reset only where none is held (R166, R168). -/
theorem State.sampleResetLow_reportUnit (s : State) :
    s.sampleResetLow.reportUnit = s.reportUnit ∨ s.sampleResetLow.reportUnit = State.reset.reportUnit := by
  unfold State.sampleResetLow State.resetByPin
  split
  · exact .inl rfl
  · cases s.held with
    | true => exact .inl rfl
    | false => exact .inr rfl

/-- What an interval expiry can do: nothing, a trip, or a warning (R117, R119). -/
theorem State.intervalExpiry_cases (s : State) :
    s.intervalExpiry = s ∨ s.intervalExpiry = s.trip ∨
      ∃ (left : Option Nat) (latch : Bool),
        s.intervalExpiry = { s with warning := latch, monitor := .warned left } := by
  unfold State.intervalExpiry
  split
  · split
    · exact .inr (.inr ⟨some s.intervalTicks, true, rfl⟩)
    · split
      · exact .inr (.inl rfl)
      · exact .inr (.inr ⟨none, s.warning, rfl⟩)
      · exact .inr (.inr ⟨none, s.warning, rfl⟩)
    · exact .inl rfl
    · exact .inl rfl
  · exact .inl rfl

theorem State.intervalExpiry_reportUnit (s : State) :
    s.intervalExpiry.reportUnit = s.reportUnit ∨ s.intervalExpiry.reportUnit = State.reset.reportUnit := by
  obtain h | h | ⟨left, latch, h⟩ := s.intervalExpiry_cases <;> rw [h]
  · exact .inl rfl
  · exact .inr s.trip_reportUnit
  · exact .inl rfl

/-! ### A law about the report unit -/

/-- A property that only the report unit decides, that reset has, and that is kept by each effect which changes the
report unit: an admission, a write of REPORT_BASE or of the pause request, a departure, a read of LOG_POP. -/
structure ReportUnitLaw (P : State → Prop) : Prop where
  congr : ∀ {s t : State}, t.reportUnit = s.reportUnit → P s → P t
  reset : P State.reset
  enqueue : ∀ s w, s.queue.length < Config.queueCapacity → P s → P (s.enqueue w)
  reportBase : ∀ s w, P s → P (s.writeReportBase w)
  pause : ∀ s p, P s → P (s.setPause p)
  depart : ∀ s e rest, s.applying = true → s.queue = e :: rest → P s → P (s.applyWord e).depart
  pop : ∀ s, P s → P { s with log := s.log.tail }

section
variable {P : State → Prop}

/-- A state whose report unit is the earlier state's or reset's has the property. -/
theorem ReportUnitLaw.of_same_or_reset (L : ReportUnitLaw P) {s t : State} (h : P s)
    (ht : t.reportUnit = s.reportUnit ∨ t.reportUnit = State.reset.reportUnit) : P t := by
  obtain hs | hr := ht
  · exact L.congr hs h
  · exact L.congr hr L.reset

theorem ReportUnitLaw.writeControl (L : ReportUnitLaw P) {s : State} (w : Word) (h : P s) : P (s.writeControl w) := by
  unfold State.writeControl
  split
  · exact L.congr s.softResetNow_reportUnit L.reset
  · refine L.congr ?_ (L.pause s (controlPause w) h)
    cases controlStackClear w <;> simp

theorem ReportUnitLaw.complete (L : ReportUnitLaw P) {s : State} (h : P s) : P s.complete := by
  by_cases hn : s.held = true ∨ s.applying = false ∨ s.queue = []
  · rw [State.complete_of_none hn]; exact h
  · simp only [not_or, Bool.not_eq_true, Bool.not_eq_false] at hn
    obtain ⟨hheld, happ, hq⟩ := hn
    obtain ⟨e, rest, hq⟩ := List.exists_cons_of_ne_nil hq
    rw [State.complete_eq hheld happ hq]
    exact L.congr (by simp) (L.depart s e rest happ hq h)

/-- A law about the report unit is kept by every effect that a step is made of. -/
theorem ReportUnitLaw.kept (L : ReportUnitLaw P) : Kept P where
  pending _ _ := L.congr rfl
  reply _ _ := L.congr rfl
  refclk _ _ := L.congr rfl
  enqueue s w _ := L.enqueue s w
  retry _ _ := L.congr (by simp)
  fault _ _ := L.congr (by simp)
  reportBase s w _ := L.reportBase s w
  control _ w _ := L.writeControl w
  table s c _ := L.congr (s.tableCommand_reportUnit c)
  take _ _ _ _ := L.congr (by simp)
  eos s w _ := L.congr (s.endOfService_reportUnit w)
  urgent s w _ := L.congr (s.clearUrgent_reportUnit w)
  deadline s w _ := L.congr (s.writeDeadline_reportUnit w)
  flags _ _ _ := L.congr (State.propagate_reportUnit ..)
  enables _ _ _ := L.congr (State.propagate_reportUnit ..)
  log s _ := L.pop s
  counts _ _ _ := L.congr rfl
  causes _ _ _ := L.congr rfl
  tsel _ _ _ := L.congr rfl
  staging _ _ _ := L.congr rfl
  complete _ := L.complete
  tierBoundary s t := L.congr (s.tierBoundary_reportUnit t)
  quietExpiry s k := L.congr (s.quietExpiry_reportUnit k)
  closeUnitBoundary s := L.congr s.closeUnitBoundary_reportUnit
  closeTimerExpiry s l := L.congr (s.closeTimerExpiry_reportUnit l)
  intervalExpiry s h := L.of_same_or_reset h s.intervalExpiry_reportUnit
  pulseEnd s := L.congr s.pulseEnd_reportUnit
  settle s p := L.congr (s.settle_reportUnit p)
  transition s p := L.congr (s.transition_reportUnit p)
  heldTick _ _ := L.congr rfl
  runningTick _ _ _ := L.congr rfl
  powerOn s _ := L.congr s.powerOn_reportUnit L.reset
  sampleResetLow s h := L.of_same_or_reset h s.sampleResetLow_reportUnit
  release s := L.congr s.release_reportUnit

end

/-! ### The queue and the engine (R15, R16, R20) -/

theorem State.engine_eq_idle {s : State} : s.engine = .idle ↔ s.pauseRequest = false ∧ s.applying = false := by
  cases hp : s.pauseRequest <;> cases ha : s.applying <;> simp [State.engine, hp, ha]

theorem engineFed_iff {s : State} :
    EngineFed s ↔
      (s.pauseRequest = false → s.applying = false → s.queue = []) ∧ (s.applying = true → s.queue ≠ []) := by
  simp only [EngineFed, State.engine_eq_idle, and_imp]

/-- An admitted word takes the stamp that follows the last one in the queue (R11, R15). -/
theorem queueInOrder_enqueue {s : State} (w : Word) (hroom : s.queue.length < Config.queueCapacity)
    (h : QueueInOrder s) : QueueInOrder (s.enqueue w) := by
  obtain ⟨_, harr, hstamp⟩ := h
  refine ⟨?_, ?_, ?_⟩
  · simpa [State.enqueue, Config.queueCapacity] using hroom
  · simp only [State.enqueue, List.length_append, List.length_singleton, BitVec.ofNat_add, harr, BitVec.add_assoc]
    rfl
  · intro i hi
    simp only [State.enqueue, List.length_append, List.length_singleton] at hi ⊢
    rcases Nat.lt_succ_iff_lt_or_eq.mp hi with hlt | rfl
    · rw [List.getElem_append_left hlt]; exact hstamp i hlt
    · simpa using harr

/-- A departure takes the head with its stamp APPLIED, and APPLIED follows (R17). -/
theorem queueInOrder_depart {s : State} {e : QueueEntry} {rest : List QueueEntry} (hq : s.queue = e :: rest)
    (h : QueueInOrder s) : QueueInOrder s.depart := by
  obtain ⟨hlen, harr, hstamp⟩ := h
  simp only [hq, List.length_cons] at hlen harr hstamp
  have hnext : ∀ n, s.applied + BitVec.ofNat 16 (n + 1) = s.applied + 1 + BitVec.ofNat 16 n := by
    intro n
    rw [BitVec.ofNat_add, BitVec.add_comm (BitVec.ofNat 16 n), ← BitVec.add_assoc]
    rfl
  refine ⟨?_, ?_, ?_⟩
  · simp only [State.depart, hq, List.tail_cons]; omega
  · simp only [State.depart, hq, List.tail_cons, harr, hnext]
  · intro i hi
    simp only [State.depart, hq, List.tail_cons] at hi ⊢
    rw [← hnext]
    exact hstamp (i + 1) (by omega)

/-- The outcome of a word leaves the queue and the engine as they stand (R25). -/
theorem queueInOrder_applyWord {s : State} (e : QueueEntry) (h : QueueInOrder s) : QueueInOrder (s.applyWord e) := by
  rw [State.applyWord_frame]; exact h

/-- An admission leaves no IDLE engine: it starts the application at once (R11, R20). -/
theorem engineFed_enqueue (s : State) (w : Word) : EngineFed (s.enqueue w) := by
  rw [engineFed_iff]
  simp only [State.enqueue]
  refine ⟨fun hp happ => ?_, fun _ => by simp⟩
  simp [hp] at happ

theorem engineFed_setPause {s : State} (p : Bool) (h : EngineFed s) : EngineFed (s.setPause p) := by
  rw [engineFed_iff] at h ⊢
  obtain ⟨hidle, happ⟩ := h
  simp only [State.setPause]
  refine ⟨fun hp ha => ?_, fun ha => ?_⟩
  · subst hp
    simp only [Bool.or_eq_false_iff, Bool.not_false, Bool.and_true] at ha
    obtain ⟨ha, hs⟩ := ha
    cases hpr : s.pauseRequest with
    | false => exact hidle hpr ha
    | true => simpa [hpr] using hs
  · rcases Bool.or_eq_true_iff.mp ha with ha | hs
    · exact happ ha
    · intro hq
      simp [hq] at hs

/-- The next application starts exactly where the pause request is 0 and entries remain (R20). -/
theorem engineFed_depart (s : State) : EngineFed s.depart := by
  rw [engineFed_iff]
  simp only [State.depart]
  refine ⟨fun hp ha => ?_, fun ha hq => ?_⟩
  · simpa [hp] using ha
  · simp [hq] at ha

theorem reportUnitLaw_queueAndEngine : ReportUnitLaw fun s => QueueInOrder s ∧ EngineFed s where
  congr {s t} ht h := by
    obtain ⟨-, hq, harr, happl, hp, ha, -⟩ := State.reportUnit_eq_iff.mp ht
    simpa only [QueueInOrder, engineFed_iff, hq, harr, happl, hp, ha] using h
  reset := by
    refine ⟨⟨by decide, rfl, fun i hi => absurd hi (Nat.not_lt_zero i)⟩, engineFed_iff.mpr ⟨fun _ _ => rfl, ?_⟩⟩
    exact fun ha => absurd ha (by decide)
  enqueue s w hroom := fun ⟨hqueue, _⟩ => ⟨queueInOrder_enqueue w hroom hqueue, engineFed_enqueue s w⟩
  reportBase s w h := h
  pause s p := fun ⟨hqueue, hengine⟩ => ⟨hqueue, engineFed_setPause p hengine⟩
  depart s e rest _ hq := fun ⟨hqueue, _⟩ =>
    ⟨queueInOrder_depart (by rw [State.applyWord_frame]; exact hq) (queueInOrder_applyWord e hqueue),
      engineFed_depart _⟩
  pop s h := h

/-- Settles O5: the two laws are one law about the report unit. -/
theorem stepKeepsQueueAndEngine : Obligations.StepKeepsQueueAndEngine := by
  unfold Obligations.StepKeepsQueueAndEngine
  intro s t hqueue hengine hstep
  exact reportUnitLaw_queueAndEngine.kept.step ⟨hqueue, hengine⟩ hstep

/-! ### REPORT_BASE and the reject log (R8, R140) -/

theorem baseAligned_writeReportBase (s : State) (w : Word) : BaseAligned (s.writeReportBase w) := by
  have hmask : 0xFFFFFFF0#32 &&& 0xF#32 = 0#32 := by decide
  simp only [BaseAligned, State.writeReportBase, BitVec.and_assoc, hmask, BitVec.and_zero]

theorem reportUnitLaw_baseAligned : ReportUnitLaw BaseAligned where
  congr ht h := by
    obtain ⟨hb, -⟩ := State.reportUnit_eq_iff.mp ht
    simpa only [BaseAligned, hb] using h
  reset := by unfold BaseAligned; decide
  enqueue _ _ _ h := h
  reportBase s w _ := baseAligned_writeReportBase s w
  pause _ _ h := h
  depart s e _ _ _ h := by rw [State.applyWord_frame]; exact h
  pop _ h := h

/-- A rejection is offered to the log, which takes it only below 8 entries (R140). -/
theorem logBounded_logReject {s : State} (e : LogEntry) (h : LogBounded s) : LogBounded (s.logReject e) := by
  unfold State.logReject
  split
  · next hlt => simpa [LogBounded, Config.logCapacity] using hlt
  · simpa [LogBounded] using h

/-- An application adds to the log only by its rejection (R27). -/
theorem logBounded_applyWord {s : State} (e : QueueEntry) (h : LogBounded s) : LogBounded (s.applyWord e) := by
  unfold State.applyWord
  split
  · apply logBounded_logReject
    rw [State.chargeReject_frame]; exact h
  · exact h
  · rw [State.acceptWord_frame]; exact h

theorem reportUnitLaw_logBounded : ReportUnitLaw LogBounded where
  congr ht h := by
    obtain ⟨-, -, -, -, -, -, hlog⟩ := State.reportUnit_eq_iff.mp ht
    simpa only [LogBounded, hlog] using h
  reset := by unfold LogBounded; decide
  enqueue _ _ _ h := h
  reportBase _ _ h := h
  pause _ _ h := h
  depart _ e _ _ _ h := logBounded_applyWord e h
  pop s h := by
    simp only [LogBounded, List.length_tail] at h ⊢
    omega

/-- Settles O17: each of the two bounds is a law about the report unit. -/
theorem stepKeepsBaseAndLogBounds : Obligations.StepKeepsBaseAndLogBounds := by
  unfold Obligations.StepKeepsBaseAndLogBounds
  intro s t hstep
  exact ⟨fun h => reportUnitLaw_baseAligned.kept.step h hstep, fun h => reportUnitLaw_logBounded.kept.step h hstep⟩

end Sys2Proof.Machine
end

