-- ==== Sys2Proof/Proofs/BusAccess.lean ====
section
/-! The accesses of the two windows: which of them the part claims and how it answers them (R9, R10, R160), once as
facts about `State.termination`; then what each answer does. Settles the statements about admissions, RETRY, FAULT,
unclaimed accesses and the write of REPORT_BASE. -/

namespace Sys2Proof.Machine

open Sys2Proof.Safety

/-! ### How an access is answered -/

theorem State.windowClaims_eq_true {s : State} {a : Word} :
    s.windowClaims a = true ↔ s.reportBase ≠ 0#32 ∧ a.extractLsb' 4 28 = s.reportBase.extractLsb' 4 28 := by
  simp [State.windowClaims]

theorem State.windowClaims_eq_false {s : State} {a : Word} :
    s.windowClaims a = false ↔ s.reportBase = 0#32 ∨ a.extractLsb' 4 28 ≠ s.reportBase.extractLsb' 4 28 := by
  rw [← Bool.not_eq_true, State.windowClaims_eq_true, not_and_or, not_not]

/-- The window claims its own base while it is enabled (R9). -/
theorem State.windowClaims_reportBase {s : State} (h : s.reportBase ≠ 0#32) : s.windowClaims s.reportBase = true :=
  State.windowClaims_eq_true.mpr ⟨h, rfl⟩

theorem Access.full_eq_true {a : Access} : a.full = true ↔ a.lanes = 0xF#4 := by simp [Access.full]

theorem Access.full_eq_false {a : Access} : a.full = false ↔ a.lanes ≠ 0xF#4 := by simp [Access.full]

/-- While a reset is held no access is claimed (R9, R160). -/
theorem State.termination_of_held {s : State} (h : s.held = true) (a : Access) : s.termination a = none := by
  simp [State.termination, h]

/-- Without CS_N an address outside the window is not claimed (R9). -/
theorem State.termination_of_outside {s : State} {a : Access} (hsel : a.select = false)
    (hc : s.windowClaims a.addr = false) : s.termination a = none := by
  simp [State.termination, hsel, hc]

/-- An access of the register window (R160, R161). -/
theorem State.termination_of_select {s : State} {a : Access} (hh : s.held = false) (hsel : a.select = true) :
    s.termination a =
      if a.full && !(a.write && (accessRegister a).readOnly) then some .done else some .fault := by
  simp [State.termination, hh, hsel]

/-- An access that the report window claims (R10). -/
theorem State.termination_of_claimed {s : State} {a : Access} (hh : s.held = false) (hsel : a.select = false)
    (hc : s.windowClaims a.addr = true) :
    s.termination a =
      if a.full && a.addr == s.reportBase then
        if a.write && Config.queueCapacity ≤ s.queue.length then some .retry else some .done
      else some .fault := by
  simp [State.termination, hh, hsel, hc]

/-- The accesses of the register window that receive FAULT: the narrow ones and the writes of a read-only register
(R160, R161). -/
theorem State.termination_register_fault {s : State} {a : Access} (hh : s.held = false) (hsel : a.select = true)
    (hf : a.lanes ≠ 0xF#4 ∨ (a.write = true ∧ ReadOnlyOffset (a.addr.extractLsb' 2 5))) :
    s.termination a = some .fault := by
  rw [State.termination_of_select hh hsel]
  obtain hlanes | ⟨hwrite, hro⟩ := hf
  · simp [Access.full_eq_false.mpr hlanes]
  · have hreg : (accessRegister a).readOnly = true := Register.readOnly_eq_true.mpr hro
    simp [hwrite, hreg]

/-- The accesses of the report window that receive FAULT: the narrow ones and those not at offset 0 (R10, R14). -/
theorem State.termination_window_fault {s : State} {a : Access} (hh : s.held = false) (hsel : a.select = false)
    (hc : s.windowClaims a.addr = true) (hf : a.lanes ≠ 0xF#4 ∨ a.addr ≠ s.reportBase) :
    s.termination a = some .fault := by
  rw [State.termination_of_claimed hh hsel hc]
  obtain hlanes | haddr := hf
  · simp [Access.full_eq_false.mpr hlanes]
  · simp [haddr]

/-! ### The write of a report word -/

theorem State.reportWrite_of_unclaimed {s : State} {a : Word} (w : Word)
    (h : s.held = true ∨ s.windowClaims a = false) : s.reportWrite a w = s.unclaimed := by
  have ht : s.termination ⟨false, a, true, 0xF#4, w⟩ = none := by
    obtain hh | hc := h
    · exact State.termination_of_held hh _
    · exact State.termination_of_outside rfl hc
  simp only [State.reportWrite, ht]

/-- A write at REPORT_BASE that finds room is admitted (R11). -/
theorem State.reportWrite_of_room {s : State} (w : Word) (hh : s.held = false) (hb : s.reportBase ≠ 0#32)
    (hroom : s.queue.length < 16) : s.reportWrite s.reportBase w = (s.enqueue w).answer .done 0 := by
  have hc := State.windowClaims_reportBase hb
  have ht : s.termination ⟨false, s.reportBase, true, 0xF#4, w⟩ = some .done := by
    rw [State.termination_of_claimed (a := ⟨false, s.reportBase, true, 0xF#4, w⟩) hh rfl hc]
    simp [Access.full, Config.queueCapacity, Nat.not_le.mpr hroom]
  simp only [State.reportWrite, ht]

/-- A write at REPORT_BASE that finds 16 entries is put off (R12). -/
theorem State.reportWrite_of_full {s : State} (w : Word) (hh : s.held = false) (hb : s.reportBase ≠ 0#32)
    (hfull : 16 ≤ s.queue.length) : s.reportWrite s.reportBase w = s.retry := by
  have hc := State.windowClaims_reportBase hb
  have ht : s.termination ⟨false, s.reportBase, true, 0xF#4, w⟩ = some .retry := by
    rw [State.termination_of_claimed (a := ⟨false, s.reportBase, true, 0xF#4, w⟩) hh rfl hc]
    simp [Access.full, Config.queueCapacity, hfull]
  simp only [State.reportWrite, ht]

/-- A write in the window but not at REPORT_BASE receives FAULT (R10, R14). -/
theorem State.reportWrite_of_offset {s : State} {a : Word} (w : Word) (hh : s.held = false)
    (hc : s.windowClaims a = true) (ha : a ≠ s.reportBase) : s.reportWrite a w = s.busFault := by
  have ht : s.termination ⟨false, a, true, 0xF#4, w⟩ = some .fault :=
    State.termination_window_fault hh rfl hc (.inr ha)
  simp only [State.reportWrite, ht]

/-! ### What an answer with an event flag does -/

/-- The answer of an access is no part of the line table (log entry 8). -/
theorem linesAfter_answer {s t : State} {f : LineId → LineEntry} (r : Termination) (d : Word) :
    LinesAfter s (t.answer r d) f ↔ LinesAfter s t f := by
  refine forall_congr' fun l => ?_
  rw [State.answer_line, State.answer_summary, State.answer_localActive]

/-- The answer of an access is no part of the monitor (log entry 8). -/
theorem monitorAfter_answer (s t : State) (r : Termination) (d : Word) :
    monitorAfter s (t.answer r d) = monitorAfter s t := by
  unfold monitorAfter
  rw [State.answer_sreq]

/-- An event that leaves the lines, the pins and the monitor, passed on and answered: nothing else changes but the
lines, by entry 8's membership, and the monitor, by the change of SREQ (R117, R127, R138). -/
theorem State.answer_propagate_spec {s u : State} (r : Termination) (d : Word) (hl : u.lines = s.lines)
    (hp : u.pins = s.pins) (hm : u.monitor = s.monitor) (hd : u.deadlineMode = s.deadlineMode)
    (hi : u.deadlineInterval = s.deadlineInterval) :
    let t := (s.propagate u).answer r d
    t = { u with lines := t.lines, monitor := t.monitor, reply := .answered r d } ∧
      LinesAfter s t s.line ∧ t.monitor = monitorAfter s t := by
  refine ⟨?_, ?_, ?_⟩
  · rw [State.propagate_eq]; rfl
  · rw [linesAfter_answer, ← State.line_congr hl]
    exact State.propagate_linesAfter s u hp
  · rw [State.answer_monitor, monitorAfter_answer]
    exact State.propagate_monitorAfter s u hm hd hi

/-- What RETRY leaves (R12). -/
theorem State.retry_spec (s : State) :
    s.retry = { s with
      eventFlags := s.eventFlags ||| 0x20#8, lines := s.retry.lines, monitor := s.retry.monitor
      reply := .answered .retry 0 } ∧
    LinesAfter s s.retry s.line ∧ s.retry.monitor = monitorAfter s s.retry :=
  State.answer_propagate_spec (u := { s with eventFlags := s.eventFlags ||| 0x20#8 }) .retry 0 rfl rfl rfl rfl rfl

/-- What FAULT leaves (R14, R163). -/
theorem State.busFault_spec (s : State) :
    s.busFault = { s with
      busFaults := saturated s.busFaults, eventFlags := s.eventFlags ||| 0x80#8, lines := s.busFault.lines
      monitor := s.busFault.monitor, reply := .answered .fault 0 } ∧
    LinesAfter s s.busFault s.line ∧ s.busFault.monitor = monitorAfter s s.busFault := by
  rw [← satInc_eq_saturated]
  exact State.answer_propagate_spec
    (u := { s with busFaults := satInc s.busFaults, eventFlags := s.eventFlags ||| 0x80#8 })
    .fault 0 rfl rfl rfl rfl rfl

/-! ### The statements about the report window's answers -/

/-- Settles O18. -/
theorem admissionStoresTheWord : Obligations.AdmissionStoresTheWord := by
  unfold Obligations.AdmissionStoresTheWord
  rintro s a w hh hb rfl hroom
  rw [exec_admission, State.reportWrite_of_room w hh hb hroom]
  rfl

/-- Settles O19. -/
theorem fullQueueAnswersRetry : Obligations.FullQueueAnswersRetry := by
  unfold Obligations.FullQueueAnswersRetry
  rintro s a w hh hb rfl hfull
  exact ⟨s.retry, by rw [exec_admission, State.reportWrite_of_full w hh hb hfull], s.retry_spec⟩

/-- While a reset is held every command that is an access of the register window is not claimed (R160). -/
theorem exec_registerAccess_of_held {s : State} {c : Instr} (hh : s.held = true) (hc : registerAccess c = true) :
    exec c s = .next s.unclaimed := by
  cases c with
  | take => rw [exec_take, State.take, if_pos hh]
  | logPop => rw [exec_logPop, State.popLog, if_pos hh]
  | registerWrite i w => rw [exec_registerWrite, State.registerWrite, if_pos hh]
  | reportBase _ | pauseSet _ | pauseClear _ | stackClear _ | softReset _ | closeLimitWrite _ | load | commit | bar
  | unbar | clearCounters | eos _ | urgentClear _ | deadlineBitClear _ | modeWrite _ | recordClear _
  | eventFlagClear _ | eventEnable _ | checkClear _ | faultClear _ | resetCauseClear _ =>
    simp [hh]
  | admission _ _ | faultAccess _ | applicationCompletion | quietExpiry _ | closeTimerExpiry _ | intervalExpiry
  | rstoutPulseEnd | filteredTransition _ | settling _ | powerOnReset | systemReset | resetRelease | refclkStop
  | refclkStart | tierBoundary _ | closeUnitBoundary | tick _ => simp [registerAccess] at hc

/-- Settles O20: the accesses of the report window by their classification, those of the register window by command. -/
theorem unclaimedAccessChangesNothing : Obligations.UnclaimedAccessChangesNothing := by
  unfold Obligations.UnclaimedAccessChangesNothing
  refine ⟨fun s a w h => ?_, fun s a h => ?_, fun s c hh hc => exec_registerAccess_of_held hh hc⟩
  · rw [exec_admission, State.reportWrite_of_unclaimed w (h.imp_right State.windowClaims_eq_false.mpr)]
    rfl
  · have ht : s.termination a = none := by
      obtain hh | ⟨hsel, hout⟩ := h
      · exact State.termination_of_held hh a
      · exact State.termination_of_outside hsel (State.windowClaims_eq_false.mpr hout)
    exact exec_faultAccess_unclaimed ht

/-- Settles O21: each of the named accesses is a bus fault. -/
theorem faultsAreCounted : Obligations.FaultsAreCounted := by
  unfold Obligations.FaultsAreCounted
  intro s c hh hcase
  refine ⟨s.busFault, ?_, s.busFault_spec⟩
  rcases hcase with ⟨a, rfl, ⟨hsel, hf⟩ | ⟨hsel, hb, haddr, hf⟩⟩ | ⟨i, w, rfl, hro⟩ | ⟨a, w, rfl, hb, haddr, hne⟩
  · exact exec_faultAccess_fault (State.termination_register_fault hh hsel hf)
  · exact exec_faultAccess_fault
      (State.termination_window_fault hh hsel (State.windowClaims_eq_true.mpr ⟨hb, haddr⟩) hf)
  · simp [State.registerWrite, hh, Register.readOnly_eq_true.mpr hro]
  · rw [exec_admission, State.reportWrite_of_offset w hh (State.windowClaims_eq_true.mpr ⟨hb, haddr⟩) hne]

/-! ### REPORT_BASE -/

/-- The stored bits are those of the written word (R8). -/
theorem extractLsb'_baseMask (w : Word) : (w &&& 0xFFFFFFF0#32).extractLsb' 4 28 = w.extractLsb' 4 28 := by
  have hmask : (0xFFFFFFF0#32).extractLsb' 4 28 = BitVec.allOnes 28 := by decide
  rw [BitVec.extractLsb'_and, hmask, BitVec.and_allOnes]

/-- A word below 16 stores no bit (R8). -/
theorem baseMask_eq_zero {w : Word} : w &&& 0xFFFFFFF0#32 = 0#32 ↔ w.toNat < 16 := by
  have hshift : w &&& 0xFFFFFFF0#32 = w >>> 4 <<< 4 := by
    rw [BitVec.shiftLeft_ushiftRight]
    rfl
  have hw := w.isLt
  rw [hshift, ← BitVec.toNat_inj, BitVec.toNat_shiftLeft, BitVec.toNat_ushiftRight, BitVec.toNat_ofNat,
    Nat.shiftLeft_eq, Nat.shiftRight_eq_div_pow]
  omega

/-- An interval expiry that leaves a reset held where none was is a trip (R117, R119). -/
theorem State.intervalExpiry_eq_trip {s : State} (hh : s.held = false) (ht : s.intervalExpiry.held = true) :
    s.intervalExpiry = s.trip := by
  obtain h | h | ⟨left, latch, h⟩ := s.intervalExpiry_cases
  · rw [h, hh] at ht
    cases ht
  · exact h
  · obtain ⟨hpower, hsoft, hpin, -⟩ := State.held_eq_false.mp hh
    have hfree : { s with warning := latch, monitor := .warned left }.held = false :=
      State.held_eq_false.mpr ⟨hpower, hsoft, hpin, rfl⟩
    rw [h, hfree] at ht
    cases ht

/-- RESET_N sampled low with no reset held starts one in every block (R166, R168). -/
theorem State.sampleResetLow_reportUnit_of_free {s : State} (hh : s.held = false) (hclk : s.refclk = true) :
    s.sampleResetLow.reportUnit = State.reset.reportUnit := by
  obtain ⟨hpower, -⟩ := State.held_eq_false.mp hh
  have hnot : (!s.refclk || s.powerHeld) = false := by simp [hclk, State.powerHeld, hpower]
  simp only [State.sampleResetLow, hnot, State.resetByPin, hh]
  rfl

/-- Every reset leaves the report unit of `State.reset` (R8, R22, R139, R145). -/
theorem reportUnit_of_resetStarts {s t : State} (h : ResetStarts s t) : t.reportUnit = State.reset.reportUnit := by
  obtain h | ⟨hh, w, hw, h⟩ | ⟨hh, hclk, h⟩ | ⟨hh, h, ht⟩ := h
  · cases h
    exact s.powerOn_reportUnit
  · rw [exec_softReset, State.registerDone_of_free hh] at h
    cases h
    have hr : s.writeControl w = s.softResetNow := if_pos hw
    rw [hr]
    exact s.softResetNow_reportUnit
  · cases h
    exact State.sampleResetLow_reportUnit_of_free hh hclk
  · cases h
    rw [State.intervalExpiry_eq_trip hh ht]
    exact s.trip_reportUnit

/-- Settles O22. -/
theorem reportBaseWriteMovesTheWindow : Obligations.ReportBaseWriteMovesTheWindow := by
  unfold Obligations.ReportBaseWriteMovesTheWindow
  refine ⟨fun s t h => congrArg ReportUnit.reportBase (reportUnit_of_resetStarts h), fun s w hh => ?_⟩
  refine ⟨(s.writeReportBase w).answer .done 0, ?_, rfl, fun a => ?_⟩
  · rw [exec_reportBase, State.registerDone_of_free hh]
  · rw [State.windowClaims_eq_true]
    simp only [State.answer_reportBase, State.writeReportBase, extractLsb'_baseMask, ne_eq, baseMask_eq_zero, not_lt]

end Sys2Proof.Machine
end

