-- ==== Sys2Proof/Proofs/Views.lean ====
section
/-! What the registers and the free count show (R13, R18, R74, R107, R108, R110, R111, R122, R160, R172, R173): the bits
of the derived line sets, and the reads that the part answers. Settles the statement about the views. -/

namespace Sys2Proof.Machine

open Sys2Proof.Safety

/-! ### Requests, PENDING, INSERVICE, URGENT_VIEW and UREQ -/

theorem LineEntry.requesting_eq_true {e : LineEntry} :
    e.requesting = true ↔
      (e.mode = .edge ∧ e.latch = true) ∨ ((e.mode = .shared ∨ e.mode = .sole) ∧ e.contributors ≠ 0#25) := by
  cases hm : e.mode <;> simp [LineEntry.requesting, hm]

theorem State.pendingLine_eq_true {s : State} {l : LineId} :
    s.pendingLine l = true ↔
      (s.line l).requesting = true ∧ (s.line l).masked = false ∧ (s.line l).route = .service ∧
      ∀ e ∈ s.stack, e.line ≠ l := by
  simp only [State.pendingLine, Bool.and_eq_true, Bool.not_eq_true', beq_iff_eq, State.inStack_eq_false, and_assoc]

theorem State.urgentLine_eq_true {s : State} {l : LineId} :
    s.urgentLine l = true ↔
      (s.line l).requesting = true ∧ (s.line l).masked = false ∧ (s.line l).route = .urgent := by
  simp only [State.urgentLine, Bool.and_eq_true, Bool.not_eq_true', beq_iff_eq]
  tauto

theorem State.ureq_eq_true {s : State} :
    s.ureq = true ↔ s.warning = true ∨
      ∃ l : LineId, (s.line l).requesting = true ∧ (s.line l).masked = false ∧ (s.line l).route = .urgent := by
  simp only [State.ureq, Bool.or_eq_true, List.any_eq_true, List.mem_finRange, true_and, State.urgentLine_eq_true]
  exact or_comm

theorem State.pendingWord_getLsbD {s : State} {l : LineId} :
    s.pendingWord.getLsbD l.val = true ↔
      (s.line l).requesting = true ∧ (s.line l).masked = false ∧ (s.line l).route = .service ∧
      ∀ e ∈ s.stack, e.line ≠ l := by
  rw [State.pendingWord, lineSetOf_getLsbD, State.pendingLine_eq_true]

theorem State.inserviceWord_getLsbD {s : State} {l : LineId} :
    s.inserviceWord.getLsbD l.val = true ↔ ∃ e ∈ s.stack, e.line = l := by
  rw [State.inserviceWord, lineSetOf_getLsbD, State.inStack_eq_true]

/-- Bit 31 is the warning latch's; line 31 has no bit (R111). -/
theorem State.urgentWord_getLsbD {s : State} {l : LineId} :
    s.urgentWord.getLsbD l.val = true ↔
      (l.val = 31 ∧ s.warning = true) ∨
      (l.val < 31 ∧ (s.line l).requesting = true ∧ (s.line l).masked = false ∧ (s.line l).route = .urgent) := by
  rw [State.urgentWord, BitVec.getLsbD_or, lineSetOf_getLsbD, placeBool_getLsbD]
  simp only [Bool.or_eq_true, Bool.and_eq_true, decide_eq_true_eq, State.urgentLine_eq_true, l.isLt, and_true]
  rw [or_comm, and_comm (a := s.warning = true)]

/-! ### The words with cases -/

/-- Where the low bits are 0 a word is its upper bits (R8). -/
theorem eq_append_of_baseAligned {s : State} (h : BaseAligned s) :
    s.reportBase = s.reportBase.extractLsb' 4 28 ++ 0#4 := by
  have hones : ∀ i < 4, (0xF#32).getLsbD i = true := by decide
  apply BitVec.eq_of_getLsbD_eq
  intro i hi
  rw [BitVec.getLsbD_append]
  by_cases hlow : i < 4
  · have hbit : (s.reportBase &&& 0xF#32).getLsbD i = false := by
      rw [show s.reportBase &&& 0xF#32 = 0#32 from h, BitVec.getLsbD_zero]
    rw [BitVec.getLsbD_and, hones i hlow, Bool.and_true] at hbit
    simp [hlow, hbit]
  · have hindex : i - 4 < 28 ∧ 4 + (i - 4) = i := by omega
    simp [hlow, hindex]

/-- The stack view of an entry (R108). -/
theorem State.stackWord_of_some {s : State} {k : Nat} {e : StackEntry} (h : s.stack[k]? = some e) :
    s.stackWord k = e.view s.applied := by
  simp only [State.stackWord, h]

theorem State.stackWord_of_ge {s : State} {k : Nat} (h : s.stack.length ≤ k) : s.stackWord k = 0 := by
  simp only [State.stackWord, List.getElem?_eq_none h]

/-! ### Reads -/

/-- A full-width read of the register window is answered with the register's value (R160). -/
theorem State.readValue_register {s : State} {a : Access} (hh : s.held = false) (hsel : a.select = true)
    (hwrite : a.write = false) (hlanes : a.lanes = 0xF#4) :
    s.readValue a = some (s.registerValue (registerAt (a.addr.extractLsb' 2 5))) := by
  have ht : s.termination a = some .done := by
    simp [State.termination_of_select hh hsel, Access.full_eq_true.mpr hlanes, hwrite]
  simp only [State.readValue, ht, hsel, if_true, accessRegister]

/-- A full-width read at REPORT_BASE is answered with the free count (R13). -/
theorem State.readValue_window {s : State} (d : Word) (hh : s.held = false) (hb : s.reportBase ≠ 0#32) :
    s.readValue ⟨false, s.reportBase, false, 0xF#4, d⟩ = some (BitVec.ofNat 32 (16 - s.queue.length)) := by
  have hc := State.windowClaims_reportBase hb
  have ht : s.termination ⟨false, s.reportBase, false, 0xF#4, d⟩ = some .done := by
    rw [State.termination_of_claimed (a := ⟨false, s.reportBase, false, 0xF#4, d⟩) hh rfl hc]
    simp [Access.full]
  simp only [State.readValue, ht, Bool.false_eq_true, if_false, State.freeCount_eq]

/-- Settles O57: the codes by evaluation, each register by the equation of its word. -/
theorem viewsShowTheState : Obligations.ViewsShowTheState := by
  unfold Obligations.ViewsShowTheState
  refine ⟨by decide, by decide, by decide, by decide, by decide, by decide, by decide, fun s => ?_⟩
  refine ⟨fun _ => rfl, fun _ => rfl, fun _ => rfl, fun _ => rfl, fun a => State.readValue_register, fun l => ?_,
    State.ureq_eq_true, rfl, s.controlWord_eq, s.statusWord_eq, rfl, eq_append_of_baseAligned, s.flowWord_eq,
    s.eosResultWord_eq, s.countsWord_eq, s.deadlineCtrlWord_eq, fun code hcode => ?_, place_nibble _, place_octet _,
    place_octet _, s.tselWord_eq, State.tstatWord_none, fun c => State.tstatWord_some, rfl, rfl, rfl, rfl, ?_, ?_, ?_,
    fun k => State.stackWord_of_ge, State.readValue_window⟩
  · exact ⟨LineEntry.requesting_eq_true, State.pendingWord_getLsbD, State.inserviceWord_getLsbD,
      State.urgentWord_getLsbD⟩
  · have hm : s.monitor.code = code := by
      cases hmon : s.monitor with
      | tripped n => rw [hmon] at hcode; exact False.elim hcode
      | idle | counting n | warned n => rw [hmon] at hcode; exact Eq.symm hcode
    rw [← hm]
    exact s.deadlineViewWord_eq
  · intro hlog
    simp only [State.registerValue, State.logWord, hlog]
  · intro e rest hlog
    simp only [State.registerValue, State.logWord, hlog]
  · intro k e hk
    simp only [State.registerValue, State.stackWord_of_some hk]
    exact ⟨e.view_open s.applied, fun c => e.view_closing c s.applied⟩

end Sys2Proof.Machine
end

