-- ==== Sys2Proof/Proofs/ReportEngine.lean ====
section
/-! The completion of an application (sections 2.1 to 2.5): what every completion does, the verdict on a word, and what
each verdict does to the tables. Settles the statements about completions and their outcomes. -/

namespace Sys2Proof.Machine

open Sys2Proof.Safety

/-! ### The verdict on a word (R26, R29) -/

theorem checkPasses_eq_false {w : Word} :
    checkPasses w = false ↔
      w.extractLsb' 0 4 ^^^ w.extractLsb' 4 4 ^^^ w.extractLsb' 8 4 ^^^ w.extractLsb' 12 4 ^^^ w.extractLsb' 16 4
        ^^^ w.extractLsb' 20 4 ^^^ w.extractLsb' 24 4 ^^^ w.extractLsb' 28 4 ≠ 0#4 := by
  rw [← Bool.not_eq_true, checkPasses_eq_true]

/-- The source codes 24 to 31 name no remote source (R2). -/
theorem wordRemote_eq_none {w : Word} : wordRemote w = none ↔ 24 ≤ (w.extractLsb' 27 5).toNat := by
  unfold wordRemote wordSource
  split
  · next h => simpa using h
  · next h => simpa using h

theorem State.judge_of_check {s : State} {w : Word} (hcheck : checkPasses w = false) : s.judge w = .reject .check := by
  simp [State.judge, hcheck]

theorem State.judge_of_noKind {s : State} {w : Word} (hcheck : checkPasses w = true) (hkind : wordKind w = .noKind) :
    s.judge w = .reject .kind := by
  simp [State.judge, hcheck, hkind]

theorem State.judge_of_unknownSource {s : State} {w : Word} (hcheck : checkPasses w = true)
    (hkind : wordKind w ≠ .noKind) (hremote : wordRemote w = none) : s.judge w = .reject .unknownSource := by
  simp [State.judge, hcheck, hkind, hremote]

/-- The tests of a word that names a remote source: on the source's entry, in their order. -/
theorem State.judge_of_remote {s : State} {w : Word} {k : RemoteId} (hcheck : checkPasses w = true)
    (hkind : wordKind w ≠ .noKind) (hremote : wordRemote w = some k) :
    s.judge w =
      if (s.source k).state = .vacant then .reject .vacant
      else if (s.source k).state = .barred then .reject .barred
      else if wordKind w = .state ∧ statedLines w &&& ~~~(s.source k).ownership ≠ 0#32 then .reject .foreign
      else if (s.source k).state = .live ∧ wordSeq w = (s.source k).lastSeq then .duplicate k
      else .accept k := by
  simp [State.judge, hcheck, hkind, hremote]

/-- Settles O24: the branches of the verdict, each test read off the raw bits. -/
theorem validationFollowsItsOrder : Obligations.ValidationFollowsItsOrder := by
  unfold Obligations.ValidationFollowsItsOrder
  intro s w nibbles kind source octet
  have hkindIff : kind = 3#2 ↔ wordKind w = .noKind := wordKind_eq_noKind.symm
  refine ⟨fun hn => ?_, fun hn hk => ?_, fun hn hk hs => ?_, fun k hn hk hs => ?_⟩
  · exact State.judge_of_check (checkPasses_eq_false.mpr hn)
  · exact State.judge_of_noKind (checkPasses_eq_true.mpr hn) (hkindIff.mp hk)
  · exact State.judge_of_unknownSource (checkPasses_eq_true.mpr hn) (mt hkindIff.mpr hk) (wordRemote_eq_none.mpr hs)
  · have hforeign :=
      and_congr (wordKind_eq_state (w := w)) (statedLines_outside (w := w) (o := (s.source k).ownership))
    rw [State.judge_of_remote (checkPasses_eq_true.mpr hn) (mt hkindIff.mpr hk) (wordRemote_eq_some.mpr hs)]
    refine ⟨fun hv => ?_, fun hb => ?_, fun hv hb => ⟨fun hf => ?_, fun hf => ⟨fun hd => ?_, fun hd => ?_⟩⟩⟩
    · rw [if_pos hv]
    · rw [if_neg (by rw [hb]; decide), if_pos hb]
    · rw [if_neg hv, if_neg hb, if_pos (hforeign.mpr hf)]
    · rw [if_neg hv, if_neg hb, if_neg (mt hforeign.mp hf)]
      exact if_pos hd
    · rw [if_neg hv, if_neg hb, if_neg (mt hforeign.mp hf)]
      exact if_neg hd

/-! ### Every completion (R17, R20, R25, R102) -/

/-- The outcome of the head's word, its departure and the closings that waited for its stamp, field by field. -/
theorem State.departed_eq (s : State) (e : QueueEntry) :
    ((s.applyWord e).depart).departStamp e.stamp = { s with
      queue := s.queue.tail
      applied := s.applied + 1
      applying := !s.pauseRequest && !s.queue.tail.isEmpty
      appTicked := false
      sources := (s.applyWord e).sources
      lines := (s.applyWord e).lines
      stack := s.stack.filter fun x => !(x.closing.map (·.watermark) == some e.stamp)
      eventFlags := (s.applyWord e).eventFlags
      log := (s.applyWord e).log
      checkFailures := (s.applyWord e).checkFailures } :=
  congrArg (fun u : State => u.depart.departStamp e.stamp) (s.applyWord_frame e)

section
variable {s : State} {e : QueueEntry} {rest : List QueueEntry} (hheld : s.held = false) (happ : s.applying = true)
  (hq : s.queue = e :: rest)
include hheld happ hq

/-- A completion, field by field, but for what it passes on to the lines and the monitor. -/
theorem State.complete_frame :
    s.complete = { s with
      queue := rest
      applied := s.applied + 1
      applying := !s.pauseRequest && !rest.isEmpty
      appTicked := false
      sources := (s.applyWord e).sources
      lines := s.complete.lines
      stack := s.stack.filter fun x => !(x.closing.map (·.watermark) == some e.stamp)
      monitor := s.complete.monitor
      eventFlags := (s.applyWord e).eventFlags
      log := (s.applyWord e).log
      checkFailures := (s.applyWord e).checkFailures } := by
  have htail : s.queue.tail = rest := by rw [hq]; rfl
  rw [State.complete_eq hheld happ hq, State.departed_eq, htail]
  exact State.propagate_eq ..

theorem State.complete_source (k : RemoteId) : s.complete.source k = (s.applyWord e).source k := by
  rw [State.complete_frame hheld happ hq]
  rfl

theorem State.complete_eventFlags : s.complete.eventFlags = (s.applyWord e).eventFlags := by
  rw [State.complete_frame hheld happ hq]

theorem State.complete_log : s.complete.log = (s.applyWord e).log := by
  rw [State.complete_frame hheld happ hq]

theorem State.complete_checkFailures : s.complete.checkFailures = (s.applyWord e).checkFailures := by
  rw [State.complete_frame hheld happ hq]

/-- The lines are what the word's outcome left, with entry 8's membership after a change of the summary (R127). -/
theorem State.complete_linesAfter : LinesAfter s s.complete (s.applyWord e).line := by
  rw [State.complete_eq hheld happ hq]
  exact State.propagate_linesAfter s _ (by rw [State.departed_eq])

theorem State.complete_monitorAfter : s.complete.monitor = monitorAfter s s.complete := by
  rw [State.complete_eq hheld happ hq]
  exact State.propagate_monitorAfter s _ (by rw [State.departed_eq]) (by rw [State.departed_eq])
    (by rw [State.departed_eq])

/-- An outcome that sets no flag leaves the summary, and with it the lines as the word left them. -/
theorem State.complete_lines_of_flags (hflags : (s.applyWord e).eventFlags = s.eventFlags) :
    s.complete.lines = (s.applyWord e).lines := by
  rw [State.complete_eq hheld happ hq, State.propagate_lines_of_summary, State.departed_eq]
  exact State.summary_congr (by rw [State.departed_eq, hflags]) (by rw [State.departed_eq])

end

/-- Settles O23. -/
theorem completionDepartsTheHead : Obligations.CompletionDepartsTheHead := by
  unfold Obligations.CompletionDepartsTheHead
  refine ⟨fun s h => by rw [exec_applicationCompletion, State.complete_of_none h], fun s e rest hheld happ hq => ?_⟩
  have hframe := State.complete_frame hheld happ hq
  refine ⟨s.complete, exec_applicationCompletion s, ?_, ?_, ?_, ?_, ?_,
    State.complete_monitorAfter hheld happ hq, ?_⟩
  · rw [hframe]
  · rw [hframe]
  · rw [hframe]
    simp
  · rw [hframe]
  · rw [hframe]
  · rw [hframe]

end Sys2Proof.Machine
end

