-- ==== Sys2Proof/Proofs/ReportOutcomes.lean ====
section
/-! What each verdict does to the tables at the completion of its word (sections 2.4 and 2.5): rejections, duplicates,
accepted reports and releases. Settles the statements about them. -/

namespace Sys2Proof.Machine

open Sys2Proof.Safety

/-! ### The outcome of a word by its verdict -/

theorem State.applyWord_of_reject {s : State} {e : QueueEntry} {r : RejectReason}
    (hj : s.judge e.word = .reject r) :
    s.applyWord e = (s.chargeReject e.word r).logReject ⟨e.word, r, e.stamp⟩ := by
  simp only [State.applyWord, hj]

theorem State.applyWord_of_duplicate {s : State} {e : QueueEntry} {k : RemoteId}
    (hj : s.judge e.word = .duplicate k) : s.applyWord e = s.setSource k (s.source k).duplicate := by
  simp only [State.applyWord, hj]

theorem State.applyWord_of_accept {s : State} {e : QueueEntry} {k : RemoteId}
    (hj : s.judge e.word = .accept k) : s.applyWord e = s.acceptWord k e.word := by
  simp only [State.applyWord, hj]

/-! ### The offer of a rejection to the log (R27, R140) -/

theorem State.logReject_log (s : State) (e : LogEntry) :
    (s.logReject e).log = if s.log.length < 8 then s.log ++ [e] else s.log := by
  unfold State.logReject Config.logCapacity
  split <;> rfl

theorem State.logReject_eventFlags (s : State) (e : LogEntry) :
    (s.logReject e).eventFlags = s.eventFlags ||| 0x08#8 ||| (if s.log.length < 8 then 0#8 else 0x10#8) := by
  unfold State.logReject Config.logCapacity
  split
  · exact BitVec.or_zero.symm
  · simp only [State.raise_eventFlags, BitVec.or_assoc]
    rfl

@[simp] theorem State.logReject_source (s : State) (e : LogEntry) (k : RemoteId) :
    (s.logReject e).source k = s.source k := by
  rw [State.logReject_frame]
  rfl

@[simp] theorem State.logReject_line (s : State) (e : LogEntry) : (s.logReject e).line = s.line := by
  rw [State.logReject_frame]
  rfl

@[simp] theorem State.logReject_checkFailures (s : State) (e : LogEntry) :
    (s.logReject e).checkFailures = s.checkFailures := by
  rw [State.logReject_frame]

/-! ### A FOREIGN rejection of a source (R28, R48) -/

theorem SourceEntry.chargeForeign_eq (e : SourceEntry) :
    e.chargeForeign = { e with rejected := saturated e.rejected, foreignStreak := saturated e.foreignStreak } := by
  simp only [SourceEntry.chargeForeign, satInc_eq_saturated]

/-- The streak as the rejection leaves it has reached a threshold that is not 0 (R28). -/
theorem SourceEntry.streakBars_chargeForeign {e : SourceEntry} :
    e.chargeForeign.streakBars = true ↔
      e.barThreshold ≠ 0#4 ∧ e.barThreshold.toNat ≤ (saturated e.foreignStreak).toNat := by
  simp [SourceEntry.chargeForeign_eq, SourceEntry.streakBars, BitVec.ule]

theorem State.rejectForeign_of_bars {s : State} {k : RemoteId} (h : (s.source k).chargeForeign.streakBars = true) :
    s.rejectForeign k =
      ((s.setSource k (s.source k).chargeForeign.toBarred).withdraw k (BitVec.allOnes 32)).raise flagBarred :=
  if_pos h

theorem State.rejectForeign_of_not_bars {s : State} {k : RemoteId}
    (h : ¬ (s.source k).chargeForeign.streakBars = true) :
    s.rejectForeign k = s.setSource k (s.source k).chargeForeign :=
  if_neg h

/-- A FOREIGN rejection charges no source but its own. -/
theorem State.rejectForeign_source_ne (s : State) {j k : RemoteId} (h : j ≠ k) :
    (s.rejectForeign k).source j = s.source j := by
  by_cases hb : (s.source k).chargeForeign.streakBars = true
  · simp [State.rejectForeign_of_bars hb, State.source_setSource_ne _ _ h]
  · rw [State.rejectForeign_of_not_bars hb, State.source_setSource_ne _ _ h]

/-- Of the flags a FOREIGN rejection can set BARRED alone, before the log's own (R28, R136). -/
theorem State.rejectForeign_eventFlags (s : State) (k : RemoteId) :
    (s.rejectForeign k).eventFlags = s.eventFlags ∨ (s.rejectForeign k).eventFlags = s.eventFlags ||| 0x02#8 := by
  by_cases hb : (s.source k).chargeForeign.streakBars = true
  · rw [State.rejectForeign_of_bars hb]
    exact .inr (by simp [flagBarred])
  · rw [State.rejectForeign_of_not_bars hb]
    exact .inl rfl

/-! ### The charges of a rejection (R27) -/

@[simp] theorem State.chargeReject_log (s : State) (w : Word) (r : RejectReason) :
    (s.chargeReject w r).log = s.log := by
  rw [State.chargeReject_frame]

theorem State.chargeReject_foreign {s : State} {w : Word} {k : RemoteId} (hk : (w.extractLsb' 27 5).toNat = k.val) :
    s.chargeReject w .foreign = s.rejectForeign k := by
  simp only [State.chargeReject, wordRemote_eq_some.mpr hk]

theorem State.chargeReject_checkFailures (s : State) (w : Word) (r : RejectReason) :
    (s.chargeReject w r).checkFailures = if r = .check then saturated s.checkFailures else s.checkFailures := by
  cases r with
  | check => exact satInc_eq_saturated _
  | kind | unknownSource => rfl
  | vacant | barred => simp only [State.chargeReject]; cases wordRemote w <;> rfl
  | foreign =>
    simp only [State.chargeReject]
    cases wordRemote w with
    | none => rfl
    | some k => simp only []; rw [State.rejectForeign_frame]; rfl

/-- A rejection that is not FOREIGN charges the named source for VACANT and BARRED, and no other source ever. -/
theorem State.chargeReject_source (s : State) (w : Word) {r : RejectReason} (hr : r ≠ .foreign) (k : RemoteId) :
    (s.chargeReject w r).source k =
      if (r = .vacant ∨ r = .barred) ∧ (w.extractLsb' 27 5).toNat = k.val then
        { s.source k with rejected := saturated (s.source k).rejected }
      else s.source k := by
  cases r with
  | check | kind | unknownSource => rfl
  | vacant | barred =>
    simp only [State.chargeReject, ← wordRemote_eq_some]
    cases wordRemote w with
    | none => simp
    | some j =>
      by_cases h : k = j
      · subst h
        simp [SourceEntry.charge, satInc_eq_saturated]
      · simp [State.source_setSource_ne _ _ h, Ne.symm h]
  | foreign => exact absurd rfl hr

/-- A rejection that is not FOREIGN sets no flag but the log's, and changes no line. -/
theorem State.chargeReject_keeps (s : State) (w : Word) {r : RejectReason} (hr : r ≠ .foreign) :
    (s.chargeReject w r).eventFlags = s.eventFlags ∧ (s.chargeReject w r).line = s.line := by
  cases r with
  | check | kind | unknownSource => exact ⟨rfl, rfl⟩
  | vacant | barred => simp only [State.chargeReject]; cases wordRemote w <;> exact ⟨rfl, rfl⟩
  | foreign => exact absurd rfl hr

theorem State.chargeReject_eventFlags (s : State) (w : Word) (r : RejectReason) :
    (s.chargeReject w r).eventFlags = s.eventFlags ∨ (s.chargeReject w r).eventFlags = s.eventFlags ||| 0x02#8 := by
  by_cases hr : r = .foreign
  · subst hr
    simp only [State.chargeReject]
    cases wordRemote w with
    | none => exact .inl rfl
    | some k => exact s.rejectForeign_eventFlags k
  · exact .inl (s.chargeReject_keeps w hr).1

/-- The flags of a rejection: REJECT is set, LOG_FULL exactly where it was or the log has no room (R27). -/
theorem reject_flag_bits {f g : BitVec 8} (h : g = f ∨ g = f ||| 0x02#8) (room : Prop) [Decidable room] :
    let t := g ||| 0x08#8 ||| (if room then 0#8 else 0x10#8)
    t.getLsbD 3 = true ∧ t.getLsbD 4 = (f.getLsbD 4 || !decide room) := by
  rcases h with rfl | rfl <;> by_cases hroom : room <;> simp [hroom]

/-- Settles O25: the completion's fields, through the charges and the offer to the log. -/
theorem rejectionIsLoggedAndCharged : Obligations.RejectionIsLoggedAndCharged := by
  unfold Obligations.RejectionIsLoggedAndCharged
  intro s e rest r hheld happ hq hj
  have happly := State.applyWord_of_reject hj
  have hflags : s.complete.eventFlags =
      (s.chargeReject e.word r).eventFlags ||| 0x08#8 ||| (if s.log.length < 8 then 0#8 else 0x10#8) := by
    rw [State.complete_eventFlags hheld happ hq, happly, State.logReject_eventFlags, State.chargeReject_log]
  refine ⟨s.complete, exec_applicationCompletion s, ?_, ?_, ?_, fun hr => ?_⟩
  · rw [State.complete_log hheld happ hq, happly, State.logReject_log, State.chargeReject_log]
  · rw [State.complete_checkFailures hheld happ hq, happly, State.logReject_checkFailures,
      State.chargeReject_checkFailures]
  · rw [hflags]
    exact reject_flag_bits (s.chargeReject_eventFlags e.word r) _
  · obtain ⟨hkeepFlags, hkeepLines⟩ := s.chargeReject_keeps e.word hr
    refine ⟨by rw [hflags, hkeepFlags], ?_, fun k => ?_⟩
    · have hlines := State.complete_linesAfter hheld happ hq
      rwa [happly, State.logReject_line, hkeepLines] at hlines
    · rw [State.complete_source hheld happ hq, happly, State.logReject_source, State.chargeReject_source s e.word hr]

/-- Settles O26. -/
theorem foreignRejectionCountsAndBars : Obligations.ForeignRejectionCountsAndBars := by
  unfold Obligations.ForeignRejectionCountsAndBars
  intro s e rest k hheld happ hq hj hk streak counted bars
  have happly : s.applyWord e = (s.rejectForeign k).logReject ⟨e.word, .foreign, e.stamp⟩ := by
    rw [State.applyWord_of_reject hj, State.chargeReject_foreign hk]
  have hlog : (s.rejectForeign k).log = s.log := by rw [State.rejectForeign_frame]
  have hcounted : (s.source k).chargeForeign = counted := SourceEntry.chargeForeign_eq _
  have hbars : (s.source k).chargeForeign.streakBars = true ↔ bars := SourceEntry.streakBars_chargeForeign
  have hsource : ∀ j, s.complete.source j = (s.rejectForeign k).source j := fun j => by
    rw [State.complete_source hheld happ hq, happly, State.logReject_source]
  have hlines : LinesAfter s s.complete (s.rejectForeign k).line := by
    have h := State.complete_linesAfter hheld happ hq
    rwa [happly, State.logReject_line] at h
  have hflags : s.complete.eventFlags =
      (s.rejectForeign k).eventFlags ||| 0x08#8 ||| (if s.log.length < 8 then 0#8 else 0x10#8) := by
    rw [State.complete_eventFlags hheld happ hq, happly, State.logReject_eventFlags, hlog]
  refine ⟨s.complete, exec_applicationCompletion s, fun hb => ?_, fun hb => ?_, fun j hne => ?_⟩
  · have hforeign := State.rejectForeign_of_not_bars (mt hbars.mp hb)
    rw [hforeign] at hlines hflags
    exact ⟨by rw [hsource, hforeign, State.source_setSource_self, hcounted], hlines, hflags⟩
  · have hforeign := State.rejectForeign_of_bars (hbars.mpr hb)
    refine ⟨?_, ?_, ?_⟩
    · rw [hsource, hforeign, State.raise_source, State.withdraw_source, State.source_setSource_self, hcounted]
      rfl
    · have hline : (s.rejectForeign k).line = fun l => without (s.line l) k := by
        funext l
        rw [hforeign, State.raise_line, State.line_withdraw_all, State.setSource_line]
      rwa [hline] at hlines
    · rw [hflags, hforeign, State.raise_eventFlags, State.withdraw_eventFlags, State.setSource_eventFlags,
        BitVec.or_assoc s.eventFlags]
      rfl
  · rw [hsource, State.rejectForeign_source_ne s hne]

/-! ### Duplicates (R29) -/

theorem SourceEntry.duplicate_eq (e : SourceEntry) :
    e.duplicate = { e with
      duplicates := saturated e.duplicates, quietRemaining := e.quietReload, timerTier := e.tier } := by
  simp only [SourceEntry.duplicate, SourceEntry.reload, satInc_eq_saturated]

/-- Settles O27: no flag is set, so that the lines stay. -/
theorem duplicateOnlyReloads : Obligations.DuplicateOnlyReloads := by
  unfold Obligations.DuplicateOnlyReloads
  intro s e rest k hheld happ hq hj
  have happly := State.applyWord_of_duplicate hj
  have hflags : (s.applyWord e).eventFlags = s.eventFlags := by rw [happly, State.setSource_eventFlags]
  have hsource : ∀ j, s.complete.source j = (s.setSource k (s.source k).duplicate).source j := fun j => by
    rw [State.complete_source hheld happ hq, happly]
  refine ⟨s.complete, exec_applicationCompletion s, ?_, fun j hne => ?_, ?_, ?_, ?_, ?_⟩
  · rw [hsource, State.source_setSource_self, SourceEntry.duplicate_eq]
  · rw [hsource, State.source_setSource_ne _ _ hne]
  · rw [State.complete_lines_of_flags hheld happ hq hflags, happly, State.setSource_lines]
  · rw [State.complete_log hheld happ hq, happly, State.setSource_log]
  · rw [State.complete_eventFlags hheld happ hq, hflags]
  · rw [State.complete_checkFailures hheld happ hq, happly, State.setSource_checkFailures]

/-! ### The entry of an accepted report's source (R30, R31, R54) -/

theorem SourceEntry.gapBefore_eq_true {e : SourceEntry} {seq : BitVec 3} :
    e.gapBefore seq = true ↔ e.state = .live ∧ seq ≠ e.lastSeq + 1 := by
  simp [SourceEntry.gapBefore]

theorem SourceEntry.acceptLive_eq (e : SourceEntry) (seq : BitVec 3) :
    e.acceptLive seq = { e with
      state := .live, lastSeq := seq, seqKnown := true, quietRemaining := e.quietReload, timerTier := e.tier,
      foreignStreak := 0, accepted := saturated e.accepted,
      gaps := if e.state = .live ∧ seq ≠ e.lastSeq + 1 then saturated e.gaps else e.gaps } := by
  simp only [SourceEntry.acceptLive, SourceEntry.acceptance, SourceEntry.reload, satInc_eq_saturated,
    SourceEntry.gapBefore_eq_true]

theorem SourceEntry.acceptRelease_eq (e : SourceEntry) (seq : BitVec 3) :
    e.acceptRelease seq = { e with
      state := .awaiting, lastSeq := seq, seqKnown := false, quietRemaining := 0, foreignStreak := 0,
      accepted := saturated e.accepted,
      gaps := if e.state = .live ∧ seq ≠ e.lastSeq + 1 then saturated e.gaps else e.gaps } := by
  simp only [SourceEntry.acceptRelease, SourceEntry.acceptance, satInc_eq_saturated, SourceEntry.gapBefore_eq_true]

/-! ### A stated level under the line's mode (R67, R70) -/

theorem LineEntry.stated_off {e : LineEntry} (hm : e.mode = .off) (k : RemoteId) (level : Bool) :
    e.stated k level = e := by
  simp only [LineEntry.stated, hm]

theorem LineEntry.stated_edge {e : LineEntry} (hm : e.mode = .edge) (k : RemoteId) (level : Bool) :
    e.stated k level =
      if level = false then e
      else { e with
        latch := true
        repeatCount := if e.latch then saturated e.repeatCount else 0
        lastEdge := BitVec.ofNat 5 k.val } := by
  cases level <;> cases hl : e.latch <;> simp [LineEntry.stated, LineEntry.pulse, hm, hl, satInc_eq_saturated]

theorem LineEntry.stated_level {e : LineEntry} (hm : e.mode = .shared ∨ e.mode = .sole) (k : RemoteId)
    (level : Bool) :
    e.stated k level =
      if level = false then without e k
      else { e with contributors := e.contributors ||| BitVec.twoPow 25 k.val } := by
  rcases hm with hm | hm <;> cases level <;>
    simp [LineEntry.stated, LineEntry.setMember, LineMode.isLevel, putMember, without, hm]

/-! ### Accepted STATE and REFRESH (R30 to R32, R44) -/

@[simp] theorem State.revive_line (s : State) (k : RemoteId) (l : LineId) : (s.revive k).line l = s.line l := by
  unfold State.revive
  split <;> rfl

@[simp] theorem State.revive_source (s : State) (k j : RemoteId) : (s.revive k).source j = s.source j := by
  unfold State.revive
  split <;> rfl

theorem State.revive_eventFlags (s : State) (k : RemoteId) :
    (s.revive k).eventFlags = if (s.source k).state = .silent then s.eventFlags ||| 0x04#8 else s.eventFlags := by
  unfold State.revive
  split <;> rfl

section
variable {w : Word} (hlive : wordKind w = .state ∨ wordKind w = .refresh)
include hlive

theorem State.acceptWord_live_source (s : State) (k j : RemoteId) :
    (s.acceptWord k w).source j = if j = k then (s.source k).acceptLive (wordSeq w) else s.source j := by
  rcases hlive with h | h <;> simp [State.acceptWord, h, State.applyLevels, State.source_setSource]

theorem State.acceptWord_live_eventFlags (s : State) (k : RemoteId) :
    (s.acceptWord k w).eventFlags =
      if (s.source k).state = .silent then s.eventFlags ||| 0x04#8 else s.eventFlags := by
  rcases hlive with h | h <;> simp [State.acceptWord, h, State.applyLevels, State.revive_eventFlags]

/-- A STATE reaches the lines it states; a REFRESH states none (R5, R32). -/
theorem State.acceptWord_live_line (s : State) (k : RemoteId) (l : LineId) :
    (s.acceptWord k w).line l =
      if wordKind w = .state ∧ wordStates w l = true then (s.line l).stated k (wordLevelOf w l) else s.line l := by
  rcases hlive with h | h <;> simp [State.acceptWord, h, State.applyLevels]

end

/-- Settles O28: the accepted word's source, flag and lines, each line by its mode. -/
theorem acceptedReportMakesLiveAndStates : Obligations.AcceptedReportMakesLiveAndStates := by
  unfold Obligations.AcceptedReportMakesLiveAndStates
  intro s e rest k hheld happ hq hj hkind was seq stated level
  have happly := State.applyWord_of_accept hj
  have hlive : wordKind e.word = .state ∨ wordKind e.word = .refresh := by
    rw [wordKind_eq_state, wordKind_eq_refresh, ← BitVec.toNat_inj, ← BitVec.toNat_inj]
    simp only [BitVec.toNat_ofNat]
    omega
  have hsource : ∀ j, s.complete.source j = if j = k then was.acceptLive seq else s.source j := fun j => by
    rw [State.complete_source hheld happ hq, happly, State.acceptWord_live_source hlive]
    rfl
  refine ⟨s.complete, exec_applicationCompletion s, ?_, fun j hne => ?_, ?_, ?_, ?_, ?_⟩
  · rw [hsource, if_pos rfl, SourceEntry.acceptLive_eq]
  · rw [hsource, if_neg hne]
  · rw [State.complete_log hheld happ hq, happly, State.acceptWord_frame]
  · rw [State.complete_checkFailures hheld happ hq, happly, State.acceptWord_frame]
  · rw [State.complete_eventFlags hheld happ hq, happly, State.acceptWord_live_eventFlags hlive]
  · have hstated : ∀ l, stated l = true ↔ wordKind e.word = .state ∧ wordStates e.word l = true := fun l => by
      simp only [stated, wordKind_eq_state, wordStates_eq, Bool.and_eq_true, beq_iff_eq, and_assoc]
    have hlevel : ∀ l, wordLevelOf e.word l = level l := wordLevelOf_eq e.word
    have hlines := State.complete_linesAfter hheld happ hq
    rw [happly] at hlines
    convert hlines using 1
    funext l
    rw [State.acceptWord_live_line hlive, hlevel]
    simp only [← hstated]
    cases hs : stated l with
    | false => simp
    | true =>
      simp only [Bool.true_eq_false, if_false, if_true]
      cases hm : (s.line l).mode with
      | off => rw [LineEntry.stated_off hm]
      | edge => simp only [LineEntry.stated_edge hm, hm]
      | shared => simp only [LineEntry.stated_level (.inl hm), hm]
      | sole => simp only [LineEntry.stated_level (.inr hm), hm]

/-! ### Accepted RELEASE (R31, R45) -/

section
variable {w : Word} (hrel : wordKind w = .release)
include hrel

theorem State.acceptWord_release_source (s : State) (k j : RemoteId) :
    (s.acceptWord k w).source j = if j = k then (s.source k).acceptRelease (wordSeq w) else s.source j := by
  simp only [State.acceptWord, hrel]
  split <;> simp [State.source_setSource]

theorem State.acceptWord_release_eventFlags (s : State) (k : RemoteId) :
    (s.acceptWord k w).eventFlags = s.eventFlags := by
  simp only [State.acceptWord, hrel]
  split <;> simp

theorem State.acceptWord_release_line (s : State) (k : RemoteId) (l : LineId) :
    (s.acceptWord k w).line l = if (s.source k).state = .live then without (s.line l) k else s.line l := by
  simp only [State.acceptWord, hrel]
  split
  · rw [State.line_withdraw_all, State.setSource_line]
  · rw [State.setSource_line]

end

/-- Settles O29: no flag is set, so that the lines are what the withdrawal left. -/
theorem acceptedReleaseWithdraws : Obligations.AcceptedReleaseWithdraws := by
  unfold Obligations.AcceptedReleaseWithdraws
  intro s e rest k hheld happ hq hj hkind was seq
  have happly := State.applyWord_of_accept hj
  have hrel : wordKind e.word = .release := wordKind_eq_release.mpr hkind
  have hflags : (s.applyWord e).eventFlags = s.eventFlags := by
    rw [happly, State.acceptWord_release_eventFlags hrel]
  have hsource : ∀ j, s.complete.source j = if j = k then was.acceptRelease seq else s.source j := fun j => by
    rw [State.complete_source hheld happ hq, happly, State.acceptWord_release_source hrel]
    rfl
  refine ⟨s.complete, exec_applicationCompletion s, ?_, fun j hne => ?_, ?_, ?_, ?_, fun l => ?_⟩
  · rw [hsource, if_pos rfl, SourceEntry.acceptRelease_eq]
  · rw [hsource, if_neg hne]
  · rw [State.complete_log hheld happ hq, happly, State.acceptWord_frame]
  · rw [State.complete_checkFailures hheld happ hq, happly, State.acceptWord_frame]
  · rw [State.complete_eventFlags hheld happ hq, hflags]
  · rw [State.line_congr (State.complete_lines_of_flags hheld happ hq hflags), happly,
      State.acceptWord_release_line hrel]

end Sys2Proof.Machine
end

