-- ==== Sys2Proof/Proofs/Control.lean ====
section
/-! The writes of CONTROL without SOFT_RESET (R19 to R21, R105, R106): one write for all five of its commands. Settles
the statement about them. -/

namespace Sys2Proof.Machine

open Sys2Proof.Safety

/-- Each command that is a write of CONTROL acts as that write (log entry 7). -/
theorem exec_controlWrite {s : State} {w : Word} {c : Instr} (hheld : s.held = false) (hc : c ∈ controlWrites w) :
    exec c s = .next ((s.writeControl w).answer .done 0) := by
  simp only [controlWrites, List.mem_cons, List.not_mem_nil, or_false] at hc
  rcases hc with rfl | rfl | rfl | rfl | rfl <;> simp [hheld]

/-- What a write of CONTROL without SOFT_RESET stores (R19, R21, R105, R106), before it is passed on to the monitor. -/
def State.controlStored (s : State) (w : Word) : State :=
  { s with
    pauseRequest := w.getLsbD 0
    applying := s.applying || (s.pauseRequest && !w.getLsbD 0 && !s.queue.isEmpty)
    appTicked := s.applying && s.appTicked
    closeLimit := w.extractLsb' 8 4
    stack := if w.getLsbD 1 then [] else s.stack }

theorem State.writeControl_of_noReset {s : State} {w : Word} (hsoft : w.getLsbD 2 = false) :
    s.writeControl w = s.propagate (s.controlStored w) := by
  have hreset : controlSoftReset w = false := hsoft
  have hclear : controlStackClear w = w.getLsbD 1 := rfl
  rw [State.writeControl, hreset, if_neg Bool.false_ne_true, hclear]
  unfold State.controlStored
  by_cases h : w.getLsbD 1 = true
  · simp only [if_pos h]
    rfl
  · simp only [if_neg h]
    rfl

/-- No flag changes, so that the lines stay and SREQ follows the stack alone. -/
theorem State.writeControl_spec {s : State} {w : Word} (hsoft : w.getLsbD 2 = false) :
    let t := (s.writeControl w).answer .done 0
    t = { s.controlStored w with monitor := t.monitor, reply := .answered .done 0 } ∧
      t.monitor = monitorAfter s t := by
  have hlines : (s.propagate (s.controlStored w)).lines = s.lines := State.propagate_lines_of_summary rfl
  obtain ⟨hframe, -, hmonitor⟩ :=
    State.answer_propagate_spec (s := s) (u := s.controlStored w) .done 0 rfl rfl rfl rfl rfl
  rw [State.answer_lines, hlines] at hframe
  rw [State.writeControl_of_noReset hsoft]
  exact ⟨hframe, hmonitor⟩

/-- Settles O30: the engine's table by the two bits that are its state. -/
theorem controlWriteSetsItsFields : Obligations.ControlWriteSetsItsFields := by
  unfold Obligations.ControlWriteSetsItsFields
  refine ⟨fun s => ?_, fun s w c hheld hsoft hc => ?_⟩
  · cases hp : s.pauseRequest <;> cases ha : s.applying <;> simp [State.engine, hp, ha]
  · obtain ⟨hframe, hmonitor⟩ := State.writeControl_spec (s := s) hsoft
    refine ⟨(s.writeControl w).answer .done 0, exec_controlWrite hheld hc, hframe, hmonitor, ?_⟩
    have hengine : ((s.writeControl w).answer .done 0).engine = (s.controlStored w).engine := by
      rw [hframe]
      rfl
    rw [hengine]
    simp only [State.engine, State.controlStored]
    cases hp : s.pauseRequest with
    | false => cases s.applying <;> cases w.getLsbD 0 <;> rfl
    | true =>
      cases ha : s.applying with
      | true => cases w.getLsbD 0 <;> rfl
      | false => cases w.getLsbD 0 <;> cases s.queue <;> rfl

end Sys2Proof.Machine
end

