-- ==== Sys2Proof/Proofs/Tick.lean ====
section
/-! The tick (R125, R164, R165): the events of earlier ticks that it takes first, as the commands that bring them, then
what it counts, samples and marks. Settles the statement about it. -/

namespace Sys2Proof.Machine

open Sys2Proof.Safety

/-! ### The events of earlier ticks (log entries 4 to 6) -/

theorem State.outstanding_eq_false {s : State} :
    s.outstanding = false ↔
      (∀ p : SenseId, (s.filter p).due = false) ∧ (∀ k : RemoteId, (s.source k).boundaryDue = 0) ∧
      s.closeUnitDue = false ∧ (∀ l : LineId, s.closeExpiryDue l = false) ∧ s.overdue = false ∧
      s.intervalDue = false ∧ s.pulseDue = false ∧ s.releaseDue = false := by
  simp [State.outstanding, and_assoc]

theorem State.takePins_of_none {s : State} (h : ∀ p : SenseId, (s.filter p).due = false) : s.takePins = s :=
  foldl_same (fun p => by
    rw [State.settle_of_not_due (.inr (.inl (h p))), State.transition_of_not_due (.inr (.inl (h p)))]) _

theorem State.takeQuiet_of_none {s : State} (h : ∀ k : RemoteId, (s.source k).boundaryDue = 0) : s.takeQuiet = s := by
  simp only [State.takeQuiet, State.tierBoundary_of_none _ h]
  exact foldl_same (fun k => State.quietExpiry_of_not_due (State.quietExpiryDue_of_none (h k))) _

theorem State.takeClose_of_none {s : State} (hunit : s.closeUnitDue = false)
    (hexpiry : ∀ l : LineId, s.closeExpiryDue l = false) : s.takeClose = s := by
  rw [State.takeClose, State.closeUnitBoundary_of_not_due (.inr hunit)]
  exact foldl_same (fun l => State.closeTimerExpiry_of_not_due (.inr (hexpiry l))) _

/-- The events of earlier ticks in their order; where none is outstanding each of them has no effect (log entry 3). -/
theorem State.catchUp_eq (s : State) :
    s.catchUp =
      (if s.takePins.takeQuiet.takeClose.overdue then s.takePins.takeQuiet.takeClose.complete
        else s.takePins.takeQuiet.takeClose).intervalExpiry.pulseEnd.release := by
  cases h : s.outstanding with
  | true => rw [State.catchUp, if_pos h]
  | false =>
    obtain ⟨hpins, hquiet, hunit, hclose, hover, hinterval, hpulse, hrelease⟩ := State.outstanding_eq_false.mp h
    simp only [State.catchUp, h, State.takePins_of_none hpins, State.takeQuiet_of_none hquiet,
      State.takeClose_of_none hunit hclose, hover, Bool.false_eq_true, if_false,
      State.intervalExpiry_of_not_due hinterval, State.pulseEnd_of_not_due hpulse, State.release_of_not_due hrelease]

theorem State.catchUp_of_none {s : State} (h : s.outstanding = false) : s.catchUp = s := by
  simp [State.catchUp, h]

/-- The commands that `f` names for the elements of a list, where those of each are the effect `g`. -/
theorem afterAll_flatMap {α : Type} {f : α → List Instr} {g : State → α → State}
    (h : ∀ a s, afterAll (f a) s = g s a) (as : List α) (s : State) : afterAll (as.flatMap f) s = as.foldl g s := by
  induction as generalizing s with
  | nil => rfl
  | cons a as ih => rw [List.flatMap_cons, afterAll_append, h, ih, List.foldl_cons]

theorem State.takePins_eq_afterAll (s : State) :
    s.takePins = afterAll ((List.finRange 8).flatMap fun p => [.settling p, .filteredTransition p]) s := by
  rw [State.takePins, afterAll_flatMap (g := fun s p => (s.settle p).transition p)]
  exact fun _ _ => rfl

theorem State.takeQuiet_eq_afterAll (s : State) :
    s.takeQuiet = afterAll
      ([.tierBoundary .t0, .tierBoundary .t1, .tierBoundary .t2, .tierBoundary .t3]
        ++ (List.finRange 24).map .quietExpiry) s := by
  rw [afterAll_append, afterAll_map exec_quietExpiry]
  rfl

theorem State.takeClose_eq_afterAll (s : State) :
    s.takeClose = afterAll ([.closeUnitBoundary] ++ (List.finRange 32).map .closeTimerExpiry) s := by
  rw [afterAll_append, afterAll_map exec_closeTimerExpiry]
  rfl

theorem State.overdue_eq_true {s : State} : s.overdue = true ↔ s.applying = true ∧ s.appTicked = true := by
  simp [State.overdue]

/-! ### The tick itself -/

theorem State.tick_of_stopped {s : State} (h : s.refclk = false) (sns : BitVec 8) : s.tick sns = s := by
  simp [State.tick, h]

theorem State.tick_of_held {s : State} (hclk : s.refclk = true) (hheld : s.catchUp.held = true) (sns : BitVec 8) :
    s.tick sns = s.catchUp.heldTick := by
  simp [State.tick, hclk, hheld]

theorem State.tick_of_running {s : State} (hclk : s.refclk = true) (hheld : s.catchUp.held = false) (sns : BitVec 8) :
    s.tick sns = s.catchUp.runningTick sns := by
  simp [State.tick, hclk, hheld]

theorem State.runningTick_filter (s : State) (sns : BitVec 8) (p : SenseId) :
    (s.runningTick sns).filter p = (s.filter p).sample (sns.getLsbD p.val) := by
  simp [State.runningTick, State.filter]

theorem State.runningTick_source (s : State) (sns : BitVec 8) (k : RemoteId) :
    (s.runningTick sns).source k = { s.source k with boundaryDue := s.boundariesFalling } := by
  simp [State.runningTick, State.source]

/-- A sample that equals the one before it, and not the filtered level, makes a settling or a transition (R125). -/
theorem PinFilter.sample_due {f : PinFilter} {b : Bool} :
    (f.sample b).due = true ↔ f.previous = some b ∧ f.level ≠ levelOf b := by
  simp [PinFilter.sample]

/-- The 8 µs boundaries of the time base (R101, R165). -/
theorem closeUnit_iff {c : BitVec 20} : (c.extractLsb' 0 3 == 0#3) = true ↔ c.toNat % 8 = 0 := by
  rw [beq_iff_eq, ← BitVec.toNat_inj]
  simp [BitVec.extractLsb'_toNat]

/-- Settles O60. -/
theorem tickCountsAndSamples : Obligations.TickCountsAndSamples := by
  unfold Obligations.TickCountsAndSamples
  intro s sns
  refine ⟨fun hclk => by rw [exec_tick, State.tick_of_stopped hclk], ?_, State.catchUp_of_none, fun hclk => ?_⟩
  · intro t
    have ht : t = s.takePins.takeQuiet.takeClose := by
      rw [State.takeClose_eq_afterAll, State.takeQuiet_eq_afterAll, State.takePins_eq_afterAll]
      simp only [t, afterAll_append]
    clear_value t
    rw [State.catchUp_eq, ← ht, afterAll_append]
    by_cases hover : t.applying = true ∧ t.appTicked = true
    · rw [if_pos hover, if_pos (State.overdue_eq_true.mpr hover)]
      rfl
    · rw [if_neg hover, if_neg (mt State.overdue_eq_true.mp hover)]
      rfl
  · intro u less
    have hless : less u.monitor = u.monitor.tick := by
      cases hm : u.monitor with
      | idle | counting n | tripped n => rfl
      | warned left => cases left <;> rfl
    refine ⟨fun hheld => ?_, fun hheld => ?_⟩
    · rw [exec_tick, State.tick_of_held hclk hheld, hless]
      rfl
    · refine ⟨u.runningTick sns, by rw [exec_tick, State.tick_of_running hclk hheld], rfl, fun p => ?_, fun k => ?_,
        closeUnit_iff, hless.symm, rfl, rfl⟩
      · rw [State.runningTick_filter]
        exact ⟨rfl, rfl, PinFilter.sample_due⟩
      · rw [State.runningTick_source]
        refine ⟨rfl, fun hp => State.boundariesFalling_of_paused hp, fun hp => ?_⟩
        rw [State.boundariesFalling_of_running hp]
        exact boundariesAt_spec (u.timeBase + 1)

end Sys2Proof.Machine
end

