-- ==== Sys2Proof/Proofs/QuietTimers.lean ====
section
/-! The quiet timers (section 3.6): when a boundary counts for an entry and when an expiry is due, on the raw fields;
then what each of them does. Settles the statements about tier boundaries and quiet expiries. -/

namespace Sys2Proof.Machine

open Sys2Proof.Safety

/-! ### When a timer is armed and an expiry due (R53, R55) -/

theorem SourceEntry.armedIn_eq_true {e : SourceEntry} {t : Tier} :
    e.armedIn t = true ↔ e.state = .live ∧ e.quietRemaining ≠ 0#8 ∧ e.timerTier = t := by
  simp [SourceEntry.armedIn, and_assoc]

theorem State.quietExpiryDue_eq_true {s : State} {k : RemoteId} :
    s.quietExpiryDue k = true ↔
      s.held = false ∧ s.engine ≠ .paused ∧ (s.source k).state = .live ∧ (s.source k).quietRemaining = 1#8 ∧
      (s.source k).boundaryDue.getLsbD (tierCode (s.source k).timerTier).toNat = true := by
  simp only [State.quietExpiryDue, Bool.and_eq_true, Bool.not_eq_true', State.paused_eq_false, beq_iff_eq,
    SourceEntry.armedIn_eq_true, SourceEntry.owesBoundary_eq, and_true, and_assoc]
  constructor
  · rintro ⟨hheld, hpaused, hlive, -, hone, hdue⟩
    exact ⟨hheld, hpaused, hlive, hone, hdue⟩
  · rintro ⟨hheld, hpaused, hlive, hone, hdue⟩
    exact ⟨hheld, hpaused, hlive, by rw [hone]; decide, hone, hdue⟩

/-! ### A quiet expiry (R56) -/

theorem SourceEntry.expire_eq (e : SourceEntry) :
    e.expire = { e with
      state := .silent
      quietRemaining := 0
      silences := saturated e.silences
      boundaryDue := e.boundaryDue &&& ~~~BitVec.twoPow 4 (tierCode e.timerTier).toNat } := by
  simp only [SourceEntry.expire, SourceEntry.boundaryTaken, tierBit, satInc_eq_saturated]

/-- What an event that leaves the pins, the monitor and its fields passes on: the lines follow a change of the summary,
the monitor a change of SREQ (R117, R127, R138). -/
theorem State.propagate_spec {s u : State} (hp : u.pins = s.pins) (hm : u.monitor = s.monitor)
    (hd : u.deadlineMode = s.deadlineMode) (hi : u.deadlineInterval = s.deadlineInterval) :
    let t := s.propagate u
    t = { u with lines := t.lines, monitor := t.monitor } ∧ LinesAfter s t u.line ∧ t.monitor = monitorAfter s t :=
  ⟨State.propagate_eq s u, State.propagate_linesAfter s u hp, State.propagate_monitorAfter s u hm hd hi⟩

/-- The own effect of a quiet expiry, before it is passed on: the entry, the withdrawal and SILENT (R46, R56). -/
def State.expired (s : State) (k : RemoteId) : State :=
  ((s.setSource k (s.source k).expire).withdraw k (BitVec.allOnes 32)).raise flagSilent

theorem State.quietExpiry_of_due {s : State} {k : RemoteId} (h : s.quietExpiryDue k = true) :
    s.quietExpiry k = s.propagate (s.expired k) :=
  if_pos h

theorem State.expired_source (s : State) (k j : RemoteId) :
    (s.expired k).source j = if j = k then (s.source k).expire else s.source j := by
  simp [State.expired, State.source_setSource]

theorem State.expired_line (s : State) (k : RemoteId) : (s.expired k).line = fun l => without (s.line l) k := by
  funext l
  rw [State.expired, State.raise_line, State.line_withdraw_all, State.setSource_line]

theorem State.expired_frame (s : State) (k : RemoteId) :
    s.expired k = { s with
      sources := (s.expired k).sources, lines := (s.expired k).lines, eventFlags := s.eventFlags ||| 0x01#8 } := rfl

/-- Settles O32: the entry and the lines by the expiry's own effect, the rest by what it passes on. -/
theorem quietExpirySilencesTheSource : Obligations.QuietExpirySilencesTheSource := by
  unfold Obligations.QuietExpirySilencesTheSource
  intro s k e due
  have hdueIff : s.quietExpiryDue k = true ↔ due := State.quietExpiryDue_eq_true
  have hnone : ¬ due → exec (.quietExpiry k) s = .next s := fun hn => by
    rw [exec_quietExpiry, State.quietExpiry_of_not_due (Bool.eq_false_iff.mpr (mt hdueIff.mp hn))]
  refine ⟨fun hdue => ?_, hnone, fun hp => hnone fun hdue => hdue.2.1 hp⟩
  obtain ⟨hframe, hlines, hmonitor⟩ := State.propagate_spec (s := s) (u := s.expired k) (by simp [State.expired])
    (by simp [State.expired]) (by simp [State.expired]) (by simp [State.expired])
  have hsource : ∀ j, (s.propagate (s.expired k)).source j = if j = k then e.expire else s.source j := fun j => by
    rw [State.propagate_source, State.expired_source]
  refine ⟨s.propagate (s.expired k), ?_, ?_, fun j hne => ?_, ?_, hmonitor, ?_⟩
  · rw [exec_quietExpiry, State.quietExpiry_of_due (hdueIff.mpr hdue)]
  · rw [hsource, if_pos rfl, SourceEntry.expire_eq]
  · rw [hsource, if_neg hne]
  · rwa [State.expired_line] at hlines
  · rw [State.propagate_sources]
    rw [State.expired_frame] at hframe
    exact hframe

/-! ### A tier boundary (R55) -/

section
variable {e : SourceEntry} {t : Tier} {paused : Bool}

/-- The boundary does not reach an entry that it has reached before. -/
theorem SourceEntry.tierBoundary_of_taken (h : e.owesBoundary t = false) : e.tierBoundary t paused = e := by
  simp [SourceEntry.tierBoundary, h]

/-- In PAUSED, and where the timer is not armed in the tier, the boundary is lost. -/
theorem SourceEntry.tierBoundary_of_lost (howed : e.owesBoundary t = true)
    (h : ¬ (paused = false ∧ e.armedIn t = true)) : e.tierBoundary t paused = e.boundaryTaken t := by
  have hlost : (paused || !e.armedIn t) = true := by
    cases hp : paused <;> simp_all
  simp [SourceEntry.tierBoundary, howed, hlost]

/-- An armed timer at 1 is left for its expiry; above 1 it is decremented. -/
theorem SourceEntry.tierBoundary_of_armed (howed : e.owesBoundary t = true) (hp : paused = false)
    (harmed : e.armedIn t = true) :
    e.tierBoundary t paused =
      if e.quietRemaining = 1#8 then e else { e.boundaryTaken t with quietRemaining := e.quietRemaining - 1 } := by
  simp [SourceEntry.tierBoundary, howed, hp, harmed]

end

theorem State.tierBoundary_of_held {s : State} (h : s.held = true) (t : Tier) : s.tierBoundary t = s := if_pos h

theorem State.tierBoundary_of_free {s : State} (h : s.held = false) (t : Tier) :
    s.tierBoundary t = s.mapSources fun _ e => e.tierBoundary t s.paused := by
  simp [State.tierBoundary, h]

/-- Settles O33: the entries by the branches of their boundary. -/
theorem tierBoundaryDecrements : Obligations.TierBoundaryDecrements := by
  unfold Obligations.TierBoundaryDecrements
  refine fun s tier => ⟨fun hheld => ?_, fun hheld => ?_⟩
  · rw [exec_tierBoundary, State.tierBoundary_of_held hheld]
  refine ⟨s.mapSources fun _ e => e.tierBoundary tier s.paused, ?_, rfl, fun k => ?_⟩
  · rw [exec_tierBoundary, State.tierBoundary_of_free hheld]
  rw [State.source_mapSources]
  intro e owed counts taken
  have howed : e.owesBoundary tier = true ↔ owed := by rw [SourceEntry.owesBoundary_eq]
  have hcounts : (s.paused = false ∧ e.armedIn tier = true) ↔ counts := by
    rw [State.paused_eq_false, SourceEntry.armedIn_eq_true]
  refine ⟨fun ho => ?_, fun ho hc => ?_, fun ho hc hone => ?_, fun ho hc hone => ?_⟩
  · exact SourceEntry.tierBoundary_of_taken (Bool.eq_false_iff.mpr (mt howed.mp ho))
  · exact SourceEntry.tierBoundary_of_lost (howed.mpr ho) (mt hcounts.mp hc)
  · obtain ⟨hpaused, harmed⟩ := hcounts.mpr hc
    exact (SourceEntry.tierBoundary_of_armed (howed.mpr ho) hpaused harmed).trans (if_pos hone)
  · obtain ⟨hpaused, harmed⟩ := hcounts.mpr hc
    exact (SourceEntry.tierBoundary_of_armed (howed.mpr ho) hpaused harmed).trans (if_neg hone)

end Sys2Proof.Machine
end

