-- ==== Sys2Proof/Proofs/SourceCommands.lean ====
section
/-! The commands of the table port on a remote source (sections 9.5 and 9.6): when each passes its tests, and what one
that is carried out leaves. All of them write sources and lines alone, so that the frame is said once
(`State.tableCommand_spec`). Settles the statements about COMMIT to a source, BAR, UNBAR and CLEAR_COUNTERS. -/

namespace Sys2Proof.Machine

open Sys2Proof.Safety

/-! ### The frame of a carried-out command -/

/-- A carried-out command that writes the sources and the lines alone: the summary stays, so that the lines are what the
command left, and the monitor follows SREQ (R117, R149, R152). -/
theorem State.tableCommand_spec {s u : State} {c : TableCommand} (hj : s.judgeCommand c = .ok)
    (hperform : s.perform c = u) (hu : u = { s with sources := u.sources, lines := u.lines }) :
    let t := (s.tableCommand c).answer .done 0
    t.source = u.source ∧ t.line = u.line ∧ t.monitor = monitorAfter s t ∧
      t = { s with
        sources := t.sources, lines := t.lines, monitor := t.monitor, tstat := ⟨.ok, some c⟩
        reply := .answered .done 0 } := by
  generalize u.sources = sources, u.lines = lines at hu
  subst hu
  rw [State.tableCommand_done hj, hperform]
  obtain ⟨hframe, -, hmonitor⟩ := State.propagate_spec (s := s)
    (u := State.setTstat { s with sources := sources, lines := lines } ⟨.ok, some c⟩) rfl rfl rfl rfl
  refine ⟨?_, ?_, ?_, ?_⟩
  · funext k
    rw [State.answer_source, State.propagate_source, State.setTstat_source]
  · funext l
    rw [State.answer_line]
    refine State.propagate_line_of_summary ?_ l
    rfl
  · rw [State.answer_monitor, monitorAfter_answer, hmonitor]
  · rw [State.answer_sources, State.propagate_sources]
    exact congrArg (fun x => x.answer .done 0) hframe

/-- Where no line changes either, SREQ stays and the monitor with it. -/
theorem State.tableCommand_spec_of_lines {s u : State} {c : TableCommand} (hj : s.judgeCommand c = .ok)
    (hperform : s.perform c = u) (hu : u = { s with sources := u.sources }) :
    (s.tableCommand c).answer .done 0 = { u with tstat := ⟨.ok, some c⟩, reply := .answered .done 0 } := by
  have hlines : u.lines = s.lines := by rw [hu]
  have hstack : u.stack = s.stack := by rw [hu]
  have hsummary : s.summary = (u.setTstat ⟨.ok, some c⟩).summary := by
    rw [hu]
    rfl
  have hsreq : s.sreq = (u.setTstat ⟨.ok, some c⟩).sreq := (State.sreq_congr hlines hstack).symm
  rw [State.tableCommand_done hj, hperform, State.propagate_same hsummary hsreq]
  rfl

/-! ### The tests (R149, R153, R156) -/

section
variable {s : State} {k : RemoteId} (htable : s.tsel.table = 0#2) (hindex : s.tsel.index.toNat = k.val)
  (hclaim : ¬ SourceClaimed s k)
include htable hindex hclaim

theorem State.judgeSourceCommand_ok {needsEnrolled : Bool}
    (henrolled : needsEnrolled = true → (s.source k).state ≠ .vacant) :
    s.judgeSourceCommand needsEnrolled = .ok := by
  simp only [State.judgeSourceCommand, htable, selectedEntry_source htable hindex,
    State.claimsSource_eq_false.mpr hclaim]
  cases needsEnrolled with
  | false => rfl
  | true => simpa using henrolled rfl

/-- A COMMIT to a source passes its tests where a new ownership set finds the engine PAUSED and takes no SOLE line that
has another owner. -/
theorem State.judgeCommit_source_ok (hpaused : s.staging.w0 ≠ (s.source k).ownership → s.engine = .paused)
    (hsole : ∀ l : LineId, s.staging.w0.getLsbD l.val = true → (s.line l).mode = .sole →
      ¬ LocalOwns s l ∧ ∀ j : RemoteId, j ≠ k → (s.source j).ownership.getLsbD l.val = false) :
    s.judgeCommand .commit = .ok := by
  have htest3 : (s.ownershipChanged k && !s.paused) = false := by
    by_cases hsame : s.staging.w0 = (s.source k).ownership
    · simp [State.ownershipChanged, Staging.ownership, hsame]
    · simp [State.paused_eq_true.mpr (hpaused hsame)]
  have htest7 : s.sourceBreaksSole k = false := by
    rw [Bool.eq_false_iff, Ne, State.sourceBreaksSole_eq_true]
    rintro ⟨l, hstaged, hmode, howner⟩
    obtain ⟨hlocal, hremote⟩ := hsole l hstaged hmode
    obtain h | ⟨j, hne, h⟩ := howner
    · exact hlocal h
    · rw [hremote j hne] at h
      cases h
  simp [State.judgeCommand, State.judgeCommit, selectedEntry_source htable hindex, State.judgeSourceCommit, htest3,
    State.claimsSource_eq_false.mpr hclaim, htest7]

end

/-! ### COMMIT to a remote source (R39 to R42, R58, R152) -/

/-- The entry after a COMMIT, field by field. -/
theorem SourceEntry.commit_eq (e : SourceEntry) (t : Staging) :
    e.commit t = { e with
      ownership := t.w0
      state := if t.w0 = e.ownership then e.state else if t.w0 = 0#32 then .vacant
        else if e.state = .vacant then .awaiting else e.state
      quietRemaining := if t.w0 ≠ e.ownership ∧ t.w0 = 0#32 then 0 else e.quietRemaining
      seqKnown := if t.w0 ≠ e.ownership ∧ t.w0 = 0#32 then false else e.seqKnown
      foreignStreak := if t.w0 ≠ e.ownership ∧ t.w0 = 0#32 then 0 else e.foreignStreak
      quietReload := t.w1.extractLsb' 0 8
      tier := tierOf (t.w1.extractLsb' 8 2)
      barThreshold := t.w1.extractLsb' 12 4 } := by
  unfold SourceEntry.commit SourceEntry.own Staging.ownership Staging.quietReload Staging.tier Staging.barThreshold
  by_cases hsame : t.w0 = e.ownership
  · simp [hsame]
  · by_cases hempty : t.w0 = 0#32
    · have hne : ¬ 0#32 = e.ownership := hempty ▸ hsame
      simp [hempty, hne]
    · simp [hsame, hempty]

theorem State.commitSource_source (s : State) (k j : RemoteId) :
    (s.commitSource k).source j = if j = k then (s.source k).commit s.staging else s.source j := by
  rw [State.commitSource, State.withdraw_source, State.source_setSource]

/-- The source leaves the sets of the lines it gave up (R40). -/
theorem State.commitSource_line (s : State) (k : RemoteId) (l : LineId) :
    (s.commitSource k).line l =
      if (s.source k).ownership.getLsbD l.val = true ∧ s.staging.w0.getLsbD l.val = false then without (s.line l) k
      else s.line l := by
  have hbit : ((s.source k).ownership &&& ~~~s.staging.ownership).getLsbD l.val = true ↔
      (s.source k).ownership.getLsbD l.val = true ∧ s.staging.w0.getLsbD l.val = false := by
    rw [BitVec.getLsbD_and, BitVec.getLsbD_not, decide_eq_true l.isLt, Bool.true_and, Bool.and_eq_true,
      Bool.not_eq_true', Staging.ownership]
  rw [State.commitSource, State.line_withdraw, State.setSource_line]
  simp only [hbit, without_eq]

/-- Settles O39. -/
theorem sourceCommitWritesTheEntry : Obligations.SourceCommitWritesTheEntry := by
  unfold Obligations.SourceCommitWritesTheEntry
  intro s k hheld htable hindex hpaused hclaim hsole was own emptied
  have hj := State.judgeCommit_source_ok htable hindex hclaim hpaused hsole
  have hperform : s.perform .commit = s.commitSource k := by
    simp only [State.perform, State.performCommit, selectedEntry_source htable hindex]
  obtain ⟨hsource, hline, hmonitor, hframe⟩ := State.tableCommand_spec hj hperform rfl
  refine ⟨(s.tableCommand .commit).answer .done 0, ?_, ?_, fun j hne => ?_, fun l => ?_, hmonitor, hframe⟩
  · rw [exec_commit, State.registerDone_of_free hheld]
  · rw [hsource, State.commitSource_source, if_pos rfl, SourceEntry.commit_eq]
  · rw [hsource, State.commitSource_source, if_neg hne]
  · rw [hline, State.commitSource_line]

/-! ### BAR, UNBAR and CLEAR_COUNTERS (R47, R49, R51, R156) -/

theorem State.onSelectedSource_of_source {s : State} {k : RemoteId} (htable : s.tsel.table = 0#2)
    (hindex : s.tsel.index.toNat = k.val) (f : State → RemoteId → State) : s.onSelectedSource f = f s k := by
  simp only [State.onSelectedSource, selectedEntry_source htable hindex]

theorem State.barSource_of_barred {s : State} {k : RemoteId} (h : (s.source k).state = .barred) :
    s.barSource k = s :=
  if_pos h

theorem State.barSource_of_not_barred {s : State} {k : RemoteId} (h : (s.source k).state ≠ .barred) :
    s.barSource k = (s.setSource k (s.source k).toBarred).withdraw k (BitVec.allOnes 32) :=
  if_neg h

/-- Settles O42. -/
theorem barWithdrawsTheSource : Obligations.BarWithdrawsTheSource := by
  unfold Obligations.BarWithdrawsTheSource
  intro s k hheld htable hindex hclaim henrolled
  have hj : s.judgeCommand .bar = .ok := State.judgeSourceCommand_ok htable hindex hclaim fun _ => henrolled
  have hperform : s.perform .bar = s.barSource k := State.onSelectedSource_of_source htable hindex _
  have hexec : exec .bar s = .next ((s.tableCommand .bar).answer .done 0) := by
    rw [exec_bar, State.registerDone_of_free hheld]
  refine ⟨fun hbarred => ?_, fun hbarred => ?_⟩
  · rw [State.barSource_of_barred hbarred] at hperform
    rw [hexec, State.tableCommand_spec_of_lines hj hperform rfl]
  · rw [State.barSource_of_not_barred hbarred] at hperform
    obtain ⟨hsource, hline, hmonitor, hframe⟩ := State.tableCommand_spec hj hperform rfl
    refine ⟨_, hexec, ?_, fun j hne => ?_, fun l => ?_, hmonitor, hframe⟩
    · rw [hsource, State.withdraw_source, State.source_setSource_self]
      rfl
    · rw [hsource, State.withdraw_source, State.source_setSource_ne _ _ hne]
    · rw [hline, State.line_withdraw_all, State.setSource_line]

/-- The entry after UNBAR (R49). -/
def SourceEntry.unbar (e : SourceEntry) : SourceEntry :=
  if e.state = .barred then { e with state := .awaiting, foreignStreak := 0 } else e

theorem State.setSource_source (s : State) (k : RemoteId) : s.setSource k (s.source k) = s := by
  have hsame : s.sources.set k (s.source k) = s.sources := Vector.set_getElem_self ..
  rw [State.setSource, hsame]

theorem State.unbarSource_eq (s : State) (k : RemoteId) : s.unbarSource k = s.setSource k (s.source k).unbar := by
  unfold State.unbarSource SourceEntry.unbar
  split
  · rfl
  · exact (s.setSource_source k).symm

/-- A carried-out command that gives the selected source a new entry, and nothing else but TSTAT. -/
theorem State.tableCommand_of_setSource {s : State} {c : TableCommand} {k : RemoteId} {e : SourceEntry}
    (hj : s.judgeCommand c = .ok) (hperform : s.perform c = s.setSource k e) :
    let t := (s.tableCommand c).answer .done 0
    t.source k = e ∧ (∀ j : RemoteId, j ≠ k → t.source j = s.source j) ∧
      t = { s with sources := t.sources, tstat := ⟨.ok, some c⟩, reply := .answered .done 0 } := by
  rw [State.tableCommand_spec_of_lines hj hperform rfl]
  exact ⟨s.source_setSource_self k e, fun j hne => s.source_setSource_ne e hne, rfl⟩

/-- Settles O43: both commands give the selected source a new entry. -/
theorem unbarAndClearCounters : Obligations.UnbarAndClearCounters := by
  unfold Obligations.UnbarAndClearCounters
  intro s k hheld htable hindex hclaim
  have hj : s.judgeSourceCommand false = .ok := State.judgeSourceCommand_ok htable hindex hclaim nofun
  refine ⟨⟨(s.tableCommand .unbar).answer .done 0, ?_, ?_⟩,
    ⟨(s.tableCommand .clearCounters).answer .done 0, ?_, ?_⟩⟩
  · rw [exec_unbar, State.registerDone_of_free hheld]
  · refine State.tableCommand_of_setSource (e := (s.source k).unbar) hj ?_
    rw [← State.unbarSource_eq]
    exact State.onSelectedSource_of_source htable hindex _
  · rw [exec_clearCounters, State.registerDone_of_free hheld]
  · exact State.tableCommand_of_setSource (e := (s.source k).clearCounters) hj
      (State.onSelectedSource_of_source htable hindex fun s k => s.setSource k (s.source k).clearCounters)

end Sys2Proof.Machine
end

