-- ==== Sys2Proof/Proofs/SourceTable.lean ====
section
/-! The source table and the remote contributors of the lines. Both laws about them are about one entry and one
membership at a time, so that here is said once what a step does to each of them (`SourceTableStep`): the few operations
that move a source between its states, and the many that leave all of them as they stand. Settles the two laws. -/

namespace Sys2Proof.Machine

open Sys2Proof.Safety

/-! ### One entry and one membership -/

/-- R36, R37 for one source entry. -/
def SourceEntry.Consistent (e : SourceEntry) : Prop :=
  (e.state = .vacant ↔ e.ownership = 0) ∧
  (e.seqKnown = true ↔ e.state = .live ∨ e.state = .silent) ∧
  (e.state ≠ .live → e.quietRemaining = 0)

/-- The source is LIVE and owns the line: it may be a contributor of the line (R66). -/
def SourceEntry.MayContribute (e : SourceEntry) (l : LineId) : Prop :=
  e.state = .live ∧ e.ownership.getLsbD l.val = true

/-- Remote source `k` is a member of the line's contributor set. -/
def State.Contributes (s : State) (k : RemoteId) (l : LineId) : Prop :=
  (s.line l).contributors.getLsbD k.val = true

theorem sourcesConsistent_iff {s : State} : SourcesConsistent s ↔ ∀ k, (s.source k).Consistent := Iff.rfl

theorem membersLiveOwners_iff {s : State} :
    MembersLiveOwners s ↔ ∀ k l, s.Contributes k l → (s.source k).MayContribute l :=
  forall_comm

/-- The two laws carry over from `s` to `t`, entry by entry and membership by membership. -/
structure SourceTableStep (s t : State) : Prop where
  consistent : ∀ k, (s.source k).Consistent → (t.source k).Consistent
  members : ∀ k l, (s.Contributes k l → (s.source k).MayContribute l) →
    t.Contributes k l → (t.source k).MayContribute l

theorem SourceTableStep.sourcesConsistent {s t : State} (h : SourceTableStep s t) (hs : SourcesConsistent s) :
    SourcesConsistent t :=
  sourcesConsistent_iff.mpr fun k => h.consistent k (sourcesConsistent_iff.mp hs k)

theorem SourceTableStep.membersLiveOwners {s t : State} (h : SourceTableStep s t) (hs : MembersLiveOwners s) :
    MembersLiveOwners t :=
  membersLiveOwners_iff.mpr fun k l => h.members k l (membersLiveOwners_iff.mp hs k l)

theorem SourceTableStep.trans {s t u : State} (h : SourceTableStep s t) (h' : SourceTableStep t u) :
    SourceTableStep s u where
  consistent k hs := h'.consistent k (h.consistent k hs)
  members k l hs := h'.members k l (h.members k l hs)

/-! ### The kinds of change -/

/-- No source changes, and no line gains a remote contributor. -/
theorem SourceTableStep.of_members {s t : State} (hsources : t.sources = s.sources)
    (hmembers : ∀ k l, t.Contributes k l → s.Contributes k l) : SourceTableStep s t := by
  have hsource : ∀ k, t.source k = s.source k := fun k => by simp only [State.source, hsources]
  refine ⟨fun k hs => ?_, fun k l hs ht => ?_⟩
  · rw [hsource]; exact hs
  · rw [hsource]; exact hs (hmembers k l ht)

/-- Neither a source nor a line changes. -/
theorem SourceTableStep.of_same {s t : State} (hsources : t.sources = s.sources) (hlines : t.lines = s.lines) :
    SourceTableStep s t :=
  .of_members hsources fun k l ht => by rwa [State.Contributes, ← State.line_congr hlines]

theorem SourceTableStep.refl (s : State) : SourceTableStep s s := .of_same rfl rfl

/-- What the two laws read of an entry is kept; a timer counts in LIVE alone. -/
structure SourceEntry.SameStanding (e e' : SourceEntry) : Prop where
  state : e'.state = e.state
  ownership : e'.ownership = e.ownership
  seqKnown : e'.seqKnown = e.seqKnown
  timer : e.state ≠ .live → e'.quietRemaining = e.quietRemaining

theorem SourceEntry.SameStanding.consistent {e e' : SourceEntry} (h : e.SameStanding e') (he : e.Consistent) :
    e'.Consistent := by
  obtain ⟨hvacant, hseq, htimer⟩ := he
  refine ⟨?_, ?_, fun hs => ?_⟩
  · rw [h.state, h.ownership]; exact hvacant
  · rw [h.state, h.seqKnown]; exact hseq
  · rw [h.state] at hs
    rw [h.timer hs, htimer hs]

theorem SourceEntry.SameStanding.mayContribute {e e' : SourceEntry} (h : e.SameStanding e') {l : LineId}
    (he : e.MayContribute l) : e'.MayContribute l := by
  unfold SourceEntry.MayContribute
  rw [h.state, h.ownership]
  exact he

/-- Every source keeps its standing, and no line changes. -/
theorem SourceTableStep.of_standing {s t : State} (hsource : ∀ k, (s.source k).SameStanding (t.source k))
    (hlines : t.lines = s.lines) : SourceTableStep s t where
  consistent k := (hsource k).consistent
  members k l hs ht := (hsource k).mayContribute (hs (by rwa [State.Contributes, ← State.line_congr hlines]))

theorem SourceEntry.consistent_reset : SourceEntry.reset.Consistent := by
  simp [SourceEntry.Consistent, SourceEntry.reset]

/-- Every source and every line takes its reset state (R60, R62). -/
theorem SourceTableStep.of_reset {s t : State} (hsources : t.sources = State.reset.sources)
    (hlines : t.lines = State.reset.lines) : SourceTableStep s t := by
  have hsource : ∀ k, t.source k = SourceEntry.reset := fun k => by simp [State.source, hsources, State.reset]
  have hline : ∀ l, t.line l = LineEntry.reset := fun l => by simp [State.line, hlines, State.reset]
  refine ⟨fun k _ => ?_, fun k l _ ht => ?_⟩
  · rw [hsource]; exact SourceEntry.consistent_reset
  · rw [State.Contributes, hline] at ht
    simp [LineEntry.reset] at ht

theorem State.contributes_withdraw {s : State} {j k : RemoteId} {m : LineSet} {l : LineId} :
    (s.withdraw k m).Contributes j l ↔ s.Contributes j l ∧ ¬ (j = k ∧ m.getLsbD l.val = true) := by
  have hk : k.val < 25 := by omega
  unfold State.Contributes
  rw [State.line_withdraw]
  by_cases hm : m.getLsbD l.val = true
  · rw [if_pos hm, putMember_getLsbD _ _ _ _ hk]
    by_cases hj : j = k
    · simp [hj, hm]
    · simp [hj, mt Fin.ext hj]
  · rw [if_neg hm]
    exact (and_iff_left fun h => hm h.2).symm

/-- One source takes a new entry and leaves the contributor sets of the lines `m`: those it may contribute to with the
old entry and not with the new one are among them. -/
theorem SourceTableStep.of_change {s : State} {k : RemoteId} {e : SourceEntry} {m : LineSet}
    (hentry : (s.source k).Consistent → e.Consistent)
    (hleft : ∀ l, (s.source k).MayContribute l → m.getLsbD l.val = true ∨ e.MayContribute l) :
    SourceTableStep s ((s.setSource k e).withdraw k m) := by
  have hsource : ∀ j, ((s.setSource k e).withdraw k m).source j = if j = k then e else s.source j := fun j => by
    rw [State.withdraw_source, State.source_setSource]
  refine ⟨fun j hs => ?_, fun j l hs ht => ?_⟩
  · rw [hsource]
    split
    · next hj => subst hj; exact hentry hs
    · exact hs
  · obtain ⟨hmember, hstays⟩ := State.contributes_withdraw.mp ht
    rw [hsource]
    split
    · next hj =>
      subst hj
      exact (hleft l (hs hmember)).resolve_left fun hm => hstays ⟨rfl, hm⟩
    · exact hs hmember

/-- One source takes a new entry, under which it may contribute to all it might before. -/
theorem SourceTableStep.of_setSource {s : State} {k : RemoteId} {e : SourceEntry}
    (hentry : (s.source k).Consistent → e.Consistent)
    (hstays : ∀ l, (s.source k).MayContribute l → e.MayContribute l) : SourceTableStep s (s.setSource k e) :=
  (SourceTableStep.of_change (m := 0) hentry fun l h => .inr (hstays l h)).trans
    (.of_members (State.withdraw_sources ..).symm fun _ _ h => State.contributes_withdraw.mpr ⟨h, by simp⟩)

/-- One source takes a new entry and leaves every contributor set (R46). -/
theorem SourceTableStep.of_withdrawn {s : State} {k : RemoteId} {e : SourceEntry}
    (hentry : (s.source k).Consistent → e.Consistent) :
    SourceTableStep s ((s.setSource k e).withdraw k (BitVec.allOnes 32)) :=
  .of_change hentry fun l _ => .inl (by rw [BitVec.getLsbD_allOnes]; exact decide_eq_true l.isLt)

/-- A source that is not LIVE contributes to no line, and may take any consistent entry. -/
theorem SourceTableStep.of_not_live {s : State} {k : RemoteId} {e : SourceEntry} (hlive : (s.source k).state ≠ .live)
    (hentry : (s.source k).Consistent → e.Consistent) : SourceTableStep s (s.setSource k e) :=
  .of_setSource hentry fun _ h => absurd h.1 hlive

theorem SourceTableStep.of_setSource_standing {s : State} {k : RemoteId} {e : SourceEntry}
    (h : (s.source k).SameStanding e) : SourceTableStep s (s.setSource k e) :=
  .of_setSource h.consistent fun _ => h.mayContribute

/-! ### The remote members of a line entry after its operations -/

@[simp] theorem LineEntry.setMember_local_getLsbD (e : LineEntry) (b : Bool) (k : RemoteId) :
    (e.setMember 24 b).contributors.getLsbD k.val = e.contributors.getLsbD k.val := by
  have hk : k.val ≠ 24 := by omega
  unfold LineEntry.setMember
  split
  · simp [putMember_getLsbD, hk]
  · rfl

@[simp] theorem LineEntry.pulse_contributors (e : LineEntry) (src : BitVec 5) :
    (e.pulse src).contributors = e.contributors := by
  unfold LineEntry.pulse
  split
  · split <;> rfl
  · rfl

@[simp] theorem LineEntry.urgentClear_contributors (e : LineEntry) : e.urgentClear.contributors = e.contributors := by
  unfold LineEntry.urgentClear
  split <;> rfl

theorem LineEntry.stated_contributes {e : LineEntry} {k j : RemoteId} {level : Bool}
    (h : (e.stated k level).contributors.getLsbD j.val = true) : e.contributors.getLsbD j.val = true ∨ j = k := by
  by_cases hj : j = k
  · exact .inr hj
  have hne : j.val ≠ k.val := fun hv => hj (Fin.ext hv)
  have hk : k.val < 25 := by omega
  cases hm : e.mode with
  | off => rw [LineEntry.stated_off hm] at h; exact .inl h
  | edge => rw [LineEntry.stated_edge hm] at h; split at h <;> exact .inl h
  | shared | sole =>
    simp only [LineEntry.stated, LineEntry.setMember, LineMode.isLevel, hm, if_true, putMember_getLsbD _ _ _ _ hk,
      if_neg hne] at h
    exact .inl h

theorem LineEntry.setMode_contributes {e : LineEntry} {mode : LineMode} {n : Nat}
    (h : (e.setMode mode).contributors.getLsbD n = true) : e.contributors.getLsbD n = true := by
  unfold LineEntry.setMode at h
  split at h
  · exact h
  · have hkept : (if e.mode.isLevel && mode.isLevel then e.contributors else 0).getLsbD n = true := by
      dsimp only at h
      split at h <;> exact h
    split at hkept
    · exact hkept
    · simp at hkept

/-! ### The operations that move no source -/

theorem State.contributes_recomputeLocal {s : State} {m : LineId} {k : RemoteId} {l : LineId} :
    (s.recomputeLocal m).Contributes k l ↔ s.Contributes k l := by
  unfold State.Contributes
  rw [State.line_recomputeLocal]
  split <;> simp [Config.localCode]

theorem State.contributes_propagate {b s : State} {k : RemoteId} {l : LineId} :
    (State.propagate b s).Contributes k l ↔ s.Contributes k l := by
  unfold State.Contributes
  rw [State.propagate_line]
  split <;> simp

/-- What an event passes on reaches the local source's membership and the monitor alone. -/
theorem SourceTableStep.propagate {b s t : State} (h : SourceTableStep s t) : SourceTableStep s (State.propagate b t) :=
  h.trans (.of_members (State.propagate_sources b t) fun _ _ => State.contributes_propagate.mp)

theorem SourceTableStep.recomputeLocal (s : State) (l : LineId) : SourceTableStep s (s.recomputeLocal l) :=
  .of_members rfl fun _ _ => State.contributes_recomputeLocal.mp

/-- A line takes a new entry without a new remote contributor. -/
theorem SourceTableStep.of_setLine {s : State} {l : LineId} {e : LineEntry}
    (h : ∀ k : RemoteId, e.contributors.getLsbD k.val = true → s.Contributes k l) :
    SourceTableStep s (s.setLine l e) :=
  .of_members rfl fun k m hm => by
    rw [State.Contributes, State.line_setLine] at hm
    split at hm
    · next hl => subst hl; exact h k hm
    · exact hm

theorem SourceTableStep.of_mapLines {s : State} {f : LineId → LineEntry → LineEntry}
    (h : ∀ l, (f l (s.line l)).contributors = (s.line l).contributors) : SourceTableStep s (s.mapLines f) :=
  .of_members (State.mapLines_sources ..) fun k l hl => by rwa [State.Contributes, State.line_mapLines, h] at hl

theorem SourceTableStep.push (s : State) (l : LineId) : SourceTableStep s (s.push l) := by
  have hstack : SourceTableStep s
      { s with stack := s.stack ++ [⟨l, (s.line l).priority, (s.line l).mode.kind, none⟩] } := .of_same rfl rfl
  unfold State.push
  dsimp only
  split
  · exact hstack.trans (.of_setLine fun _ hk => hk)
  · exact hstack

theorem SourceTableStep.watchTake (s : State) : SourceTableStep s s.watchTake := by
  rw [State.watchTake_eq]
  exact .of_same rfl rfl

theorem SourceTableStep.eosEffect (s : State) (w : Word) : SourceTableStep s (s.eosEffect w).1 := by
  unfold State.eosEffect
  cases s.eosSelected w with
  | none => exact .refl s
  | some e =>
    dsimp only
    split
    · exact .refl s
    · split
      · exact .of_same rfl rfl
      · cases s.newestMatch e.line <;> exact .of_same rfl rfl

theorem SourceTableStep.endOfService (s : State) (w : Word) : SourceTableStep s (s.endOfService w) :=
  .propagate (.trans (.eosEffect s w) (.of_same rfl rfl))

theorem SourceTableStep.clearUrgent (s : State) (w : Word) : SourceTableStep s (s.clearUrgent w) := by
  have hmap : SourceTableStep s
      (s.mapLines fun l e => if l.val < 31 && w.getLsbD l.val then e.urgentClear else e) :=
    .of_mapLines fun l => by split <;> simp
  exact .propagate (hmap.trans (.of_same (State.setWarning_sources ..) (State.setWarning_lines ..)))

/-- A write of the mode reaches the monitor alone (R117). -/
theorem State.monitorModeWrite_eq (s : State) (m : DeadlineMode) :
    s.monitorModeWrite m = { s with monitor := (s.monitorModeWrite m).monitor } := by
  unfold State.monitorModeWrite
  cases s.monitor with
  | tripped n => rfl
  | idle => dsimp only; split <;> rfl
  | counting n | warned n => dsimp only; split <;> rfl

theorem SourceTableStep.writeDeadline (s : State) (w : Word) : SourceTableStep s (s.writeDeadline w) := by
  rw [State.writeDeadline, State.monitorModeWrite_eq]
  exact .of_same rfl rfl

theorem SourceTableStep.writeControl (s : State) (w : Word) : SourceTableStep s (s.writeControl w) := by
  unfold State.writeControl
  split
  · exact .of_reset rfl rfl
  · dsimp only
    split <;> exact .propagate (.of_same rfl rfl)

theorem SourceTableStep.closeUnitBoundary (s : State) : SourceTableStep s s.closeUnitBoundary := by
  unfold State.closeUnitBoundary
  split <;> exact .of_same rfl rfl

theorem SourceTableStep.closeTimerExpiry (s : State) (l : LineId) : SourceTableStep s (s.closeTimerExpiry l) := by
  unfold State.closeTimerExpiry
  split
  · exact .propagate (.of_same rfl rfl)
  · exact .refl s

theorem SourceTableStep.pinLevelChanged (s : State) (p : PinId) : SourceTableStep s (s.pinLevelChanged p) := by
  unfold State.pinLevelChanged
  split
  · exact .recomputeLocal s _
  · exact .refl s

theorem SourceTableStep.pinPulse (s : State) (p : PinId) : SourceTableStep s (s.pinPulse p) :=
  .of_setLine fun _ hk => by rwa [LineEntry.pulse_contributors] at hk

/-- The filter of a pin takes its sampled level, and a level-mode entry's target follows (R125, R128). -/
theorem SourceTableStep.adopt (s : State) (p : SenseId) (f : PinFilter) :
    SourceTableStep s ((s.setFilter p f).pinLevelChanged (pinOfSense p)) :=
  .trans (t := s.setFilter p f) (.of_same rfl rfl) (.pinLevelChanged _ _)

theorem SourceTableStep.settle (s : State) (p : SenseId) : SourceTableStep s (s.settle p) := by
  unfold State.settle
  split
  · exact .propagate (.adopt s p _)
  · exact .refl s

theorem SourceTableStep.transition (s : State) (p : SenseId) : SourceTableStep s (s.transition p) := by
  unfold State.transition
  split
  · dsimp only
    split
    · exact .propagate (.trans (.adopt s p _) (.pinPulse _ _))
    · exact .propagate (.adopt s p _)
  · exact .refl s

theorem SourceTableStep.intervalExpiry (s : State) : SourceTableStep s s.intervalExpiry := by
  obtain h | h | ⟨left, latch, h⟩ := s.intervalExpiry_cases <;> rw [h]
  · exact .refl s
  · exact .of_reset rfl rfl
  · exact .of_same rfl rfl

theorem SourceTableStep.sampleResetLow (s : State) : SourceTableStep s s.sampleResetLow := by
  unfold State.sampleResetLow State.resetByPin
  split
  · exact .refl s
  · cases s.held with
    | true => exact .of_same rfl rfl
    | false => exact .of_reset rfl rfl

/-! ### The quiet timers (R53 to R56) -/

/-- A boundary decrements armed timers alone, which are those of LIVE sources. -/
theorem SourceEntry.sameStanding_tierBoundary (e : SourceEntry) (t : Tier) (paused : Bool) :
    e.SameStanding (e.tierBoundary t paused) := by
  cases howed : e.owesBoundary t with
  | false => rw [SourceEntry.tierBoundary_of_taken howed]; exact ⟨rfl, rfl, rfl, fun _ => rfl⟩
  | true =>
    by_cases hcounts : paused = false ∧ e.armedIn t = true
    · obtain ⟨hp, harmed⟩ := hcounts
      obtain ⟨hlive, -⟩ := SourceEntry.armedIn_eq_true.mp harmed
      rw [SourceEntry.tierBoundary_of_armed howed hp harmed]
      split
      · exact ⟨rfl, rfl, rfl, fun _ => rfl⟩
      · exact ⟨rfl, rfl, rfl, fun h => absurd hlive h⟩
    · rw [SourceEntry.tierBoundary_of_lost howed hcounts]
      exact ⟨rfl, rfl, rfl, fun _ => rfl⟩

theorem SourceTableStep.tierBoundary (s : State) (t : Tier) : SourceTableStep s (s.tierBoundary t) := by
  cases hheld : s.held with
  | true => rw [State.tierBoundary_of_held hheld]; exact .refl s
  | false =>
    rw [State.tierBoundary_of_free hheld]
    refine .of_standing (fun k => ?_) (State.mapSources_lines ..)
    rw [State.source_mapSources]
    exact SourceEntry.sameStanding_tierBoundary _ t s.paused

theorem SourceTableStep.runningTick (s : State) (sns : BitVec 8) : SourceTableStep s (s.runningTick sns) :=
  .of_standing (fun k => by rw [State.runningTick_source]; exact ⟨rfl, rfl, rfl, fun _ => rfl⟩) rfl

theorem SourceEntry.Consistent.expire {e : SourceEntry} (h : e.Consistent) (hlive : e.state = .live) :
    e.expire.Consistent := by
  simpa [SourceEntry.Consistent, SourceEntry.expire, SourceEntry.boundaryTaken, hlive] using h

theorem SourceTableStep.quietExpiry (s : State) (k : RemoteId) : SourceTableStep s (s.quietExpiry k) := by
  cases hdue : s.quietExpiryDue k with
  | false => rw [State.quietExpiry_of_not_due hdue]; exact .refl s
  | true =>
    obtain ⟨-, -, hlive, -⟩ := State.quietExpiryDue_eq_true.mp hdue
    have hwithdrawn : SourceTableStep s ((s.setSource k (s.source k).expire).withdraw k (BitVec.allOnes 32)) :=
      .of_withdrawn fun h => h.expire hlive
    rw [State.quietExpiry_of_due hdue]
    exact .propagate (hwithdrawn.trans (.of_same rfl rfl))

/-! ### The table port (R39 to R42, R47, R49, R51) -/

theorem SourceEntry.Consistent.toBarred {e : SourceEntry} (h : e.Consistent) (hvacant : e.state ≠ .vacant) :
    e.toBarred.Consistent := by
  have hown : e.ownership ≠ 0 := mt h.1.mpr hvacant
  simpa [SourceEntry.Consistent, SourceEntry.toBarred] using hown

/-- What a COMMIT leaves of the entry's standing, by the staged ownership set. -/
theorem SourceEntry.Consistent.own {e : SourceEntry} (h : e.Consistent) (o : LineSet) : (e.own o).Consistent := by
  obtain ⟨hvacant, hseq, htimer⟩ := h
  unfold SourceEntry.own
  split
  · exact ⟨hvacant, hseq, htimer⟩
  · split
    · simp [SourceEntry.Consistent]
    · next hne =>
      by_cases hv : e.state = .vacant
      · have hseq' : e.seqKnown = false := by simpa [hv] using hseq
        have htimer' : e.quietRemaining = 0 := htimer (by simp [hv])
        simpa [SourceEntry.Consistent, hv, hseq', htimer'] using hne
      · exact ⟨by simpa [hv] using hne, by simpa [hv] using hseq, by simpa [hv] using htimer⟩

theorem SourceEntry.Consistent.commit {e : SourceEntry} (h : e.Consistent) (t : Staging) : (e.commit t).Consistent :=
  h.own t.ownership

/-- A LIVE source with a line of the new ownership set stays LIVE (R41). -/
theorem SourceEntry.mayContribute_commit {e : SourceEntry} {t : Staging} {l : LineId} (hlive : e.state = .live)
    (hl : t.ownership.getLsbD l.val = true) : (e.commit t).MayContribute l := by
  have hne : t.w0 ≠ 0#32 := fun h0 => by
    rw [Staging.ownership, h0, BitVec.getLsbD_zero] at hl
    cases hl
  rw [SourceEntry.commit_eq]
  exact ⟨by simp [hlive, hne], hl⟩

theorem SourceTableStep.commitSource (s : State) (k : RemoteId) : SourceTableStep s (s.commitSource k) := by
  refine .of_change (fun h => h.commit s.staging) fun l hl => ?_
  obtain ⟨hlive, hown⟩ := hl
  by_cases hstaged : s.staging.ownership.getLsbD l.val = true
  · exact .inr (SourceEntry.mayContribute_commit hlive hstaged)
  · refine .inl ?_
    rw [Bool.not_eq_true] at hstaged
    rw [BitVec.getLsbD_and, BitVec.getLsbD_not, hown, hstaged]
    simp

theorem SourceTableStep.commitLine (s : State) (l : LineId) : SourceTableStep s (s.commitLine l) := by
  have hentry : SourceTableStep s (s.setLine l ((s.line l).commit s.staging)) :=
    .of_setLine fun _ hk => LineEntry.setMode_contributes hk
  unfold State.commitLine
  dsimp only
  split
  · exact hentry.trans (.recomputeLocal _ l)
  · exact hentry

theorem SourceTableStep.commitPin (s : State) (p : PinId) : SourceTableStep s (s.commitPin p) := by
  unfold State.commitPin
  split
  · exact .refl s
  · next mode _ =>
    have hpin : SourceTableStep s (s.setPin p ⟨mode, s.staging.target⟩) := .of_same rfl rfl
    exact (hpin.trans (.recomputeLocal _ _)).trans (.recomputeLocal _ _)

theorem SourceTableStep.performCommit (s : State) : SourceTableStep s s.performCommit := by
  unfold State.performCommit
  split
  · exact .commitSource s _
  · exact .commitLine s _
  · exact .commitPin s _
  · exact .refl s
  · exact .refl s

theorem SourceTableStep.barSource {s : State} {k : RemoteId} (hvacant : (s.source k).state ≠ .vacant) :
    SourceTableStep s (s.barSource k) := by
  by_cases hbarred : (s.source k).state = .barred
  · rw [State.barSource_of_barred hbarred]
    exact .refl s
  · rw [State.barSource_of_not_barred hbarred]
    exact .of_withdrawn fun h => h.toBarred hvacant

/-- UNBAR moves a BARRED source to AWAITING, neither of which is LIVE (R49). -/
theorem SourceTableStep.unbarSource (s : State) (k : RemoteId) : SourceTableStep s (s.unbarSource k) := by
  unfold State.unbarSource
  split
  · next hbarred =>
    refine .of_not_live (by rw [hbarred]; decide) fun h => ?_
    simpa [SourceEntry.Consistent, hbarred] using h
  · exact .refl s

/-- A source command on the selected source, where the command answers OK. -/
theorem SourceTableStep.onSelectedSource {s : State} {f : State → RemoteId → State}
    (h : ∀ k, selectedEntry s.tsel = .source k → SourceTableStep s (f s k)) :
    SourceTableStep s (s.onSelectedSource f) := by
  unfold State.onSelectedSource
  split
  · next k hk => exact h k hk
  all_goals exact .refl s

/-- A BAR that passes its tests finds its source enrolled (R149, R156). -/
theorem State.enrolled_of_judgeBar {s : State} {k : RemoteId} (hk : selectedEntry s.tsel = .source k)
    (hj : s.judgeCommand .bar = .ok) : (s.source k).state ≠ .vacant := by
  intro hvacant
  simp only [State.judgeCommand, State.judgeSourceCommand, hk, hvacant] at hj
  split at hj
  · cases hj
  · split at hj <;> cases hj

theorem SourceTableStep.perform {s : State} {c : TableCommand} (hj : s.judgeCommand c = .ok) :
    SourceTableStep s (s.perform c) := by
  cases c with
  | load => exact .of_same rfl rfl
  | commit => exact .performCommit s
  | bar => exact .onSelectedSource fun k hk => .barSource (State.enrolled_of_judgeBar hk hj)
  | unbar => exact .onSelectedSource fun k _ => .unbarSource s k
  | clearCounters =>
    refine .onSelectedSource (f := fun s k => s.setSource k (s.source k).clearCounters) fun k _ => ?_
    exact .of_setSource_standing ⟨rfl, rfl, rfl, fun _ => rfl⟩

theorem SourceTableStep.tableCommand (s : State) (c : TableCommand) : SourceTableStep s (s.tableCommand c) := by
  unfold State.tableCommand
  dsimp only
  split
  · next hj => exact .propagate (.trans (.perform hj) (.of_same rfl rfl))
  · exact .propagate (.of_same rfl rfl)

/-! ### The completion of an application (R25 to R32) -/

/-- The branches of a verdict, with what each has found of the word's source (R26, R29). -/
theorem State.judge_cases (s : State) (w : Word) :
    (∃ r, s.judge w = .reject r ∧
      (r = .foreign → ∃ k, wordRemote w = some k ∧ (s.source k).state ≠ .vacant)) ∨
    (∃ k, s.judge w = .duplicate k ∧ (s.source k).state = .live) ∨
    (∃ k, s.judge w = .accept k ∧ (s.source k).state ≠ .vacant ∧
      (wordKind w = .state → statedLines w &&& ~~~(s.source k).ownership = 0#32)) := by
  by_cases hcheck : checkPasses w = true
  swap
  · exact .inl ⟨_, State.judge_of_check (by simpa using hcheck), by simp⟩
  by_cases hkind : wordKind w = .noKind
  · exact .inl ⟨_, State.judge_of_noKind hcheck hkind, by simp⟩
  cases hremote : wordRemote w with
  | none => exact .inl ⟨_, State.judge_of_unknownSource hcheck hkind hremote, by simp⟩
  | some k =>
    rw [State.judge_of_remote hcheck hkind hremote]
    by_cases hvacant : (s.source k).state = .vacant
    · exact .inl ⟨.vacant, if_pos hvacant, by simp⟩
    rw [if_neg hvacant]
    by_cases hbarred : (s.source k).state = .barred
    · exact .inl ⟨.barred, if_pos hbarred, by simp⟩
    rw [if_neg hbarred]
    by_cases hforeign : wordKind w = .state ∧ statedLines w &&& ~~~(s.source k).ownership ≠ 0#32
    · exact .inl ⟨.foreign, if_pos hforeign, fun _ => ⟨k, rfl, hvacant⟩⟩
    rw [if_neg hforeign]
    by_cases hdup : (s.source k).state = .live ∧ wordSeq w = (s.source k).lastSeq
    · exact .inr (.inl ⟨k, if_pos hdup, hdup.1⟩)
    · exact .inr (.inr ⟨k, if_neg hdup, hvacant, fun hs => not_not.mp fun hne => hforeign ⟨hs, hne⟩⟩)

theorem SourceTableStep.rejectForeign {s : State} {k : RemoteId} (hvacant : (s.source k).state ≠ .vacant) :
    SourceTableStep s (s.rejectForeign k) := by
  have hcharge : (s.source k).SameStanding (s.source k).chargeForeign := ⟨rfl, rfl, rfl, fun _ => rfl⟩
  by_cases hb : (s.source k).chargeForeign.streakBars = true
  · rw [State.rejectForeign_of_bars hb]
    exact (SourceTableStep.of_withdrawn fun h => (hcharge.consistent h).toBarred hvacant).trans (.of_same rfl rfl)
  · rw [State.rejectForeign_of_not_bars hb]
    exact .of_setSource_standing hcharge

theorem SourceTableStep.chargeReject {s : State} {w : Word} {r : RejectReason}
    (hforeign : r = .foreign → ∃ k, wordRemote w = some k ∧ (s.source k).state ≠ .vacant) :
    SourceTableStep s (s.chargeReject w r) := by
  cases r with
  | check | kind | unknownSource => exact .of_same rfl rfl
  | vacant | barred =>
    simp only [State.chargeReject]
    cases wordRemote w with
    | none => exact .refl s
    | some k => exact .of_setSource_standing ⟨rfl, rfl, rfl, fun _ => rfl⟩
  | foreign =>
    obtain ⟨k, hk, hvacant⟩ := hforeign rfl
    simp only [State.chargeReject, hk]
    exact .rejectForeign hvacant

theorem SourceEntry.Consistent.acceptLive {e : SourceEntry} (h : e.Consistent) (hvacant : e.state ≠ .vacant)
    (seq : BitVec 3) : (e.acceptLive seq).Consistent := by
  have hown : e.ownership ≠ 0 := mt h.1.mpr hvacant
  simpa [SourceEntry.Consistent, SourceEntry.acceptLive_eq] using hown

theorem SourceEntry.Consistent.acceptRelease {e : SourceEntry} (h : e.Consistent) (hvacant : e.state ≠ .vacant)
    (seq : BitVec 3) : (e.acceptRelease seq).Consistent := by
  have hown : e.ownership ≠ 0 := mt h.1.mpr hvacant
  simpa [SourceEntry.Consistent, SourceEntry.acceptRelease_eq] using hown

/-- The stated levels reach lines that the LIVE source owns, and no other membership than its own (R67). -/
theorem SourceTableStep.applyLevels {s : State} {k : RemoteId} {w : Word}
    (h : ∀ l, wordStates w l = true → (s.source k).MayContribute l) : SourceTableStep s (s.applyLevels k w) := by
  have hsource : ∀ j, (s.applyLevels k w).source j = s.source j := fun j =>
    State.mapLines_source ..
  refine ⟨fun j hs => by rwa [hsource], fun j l hs ht => ?_⟩
  rw [hsource]
  rw [State.Contributes, State.applyLevels, State.line_mapLines] at ht
  split at ht
  · next hstates =>
    obtain hmember | rfl := LineEntry.stated_contributes ht
    · exact hs hmember
    · exact h l hstates
  · exact hs ht

/-- A word whose stated lines are all owned states owned lines alone (R26). -/
theorem owned_of_stated {w : Word} {o : LineSet} (h : statedLines w &&& ~~~o = 0#32) {l : LineId}
    (hl : wordStates w l = true) : o.getLsbD l.val = true := by
  have hbit := congrArg (fun b : LineSet => b.getLsbD l.val) h
  simpa [statedLines, hl] using hbit

theorem SourceTableStep.revive (s : State) (k : RemoteId) : SourceTableStep s (s.revive k) := by
  unfold State.revive
  split <;> exact .of_same rfl rfl

/-- The source of an accepted STATE or REFRESH becomes LIVE (R31, R44). -/
theorem SourceTableStep.becomesLive {s : State} {k : RemoteId} (hvacant : (s.source k).state ≠ .vacant)
    (seq : BitVec 3) : SourceTableStep s ((s.revive k).setSource k ((s.source k).acceptLive seq)) := by
  refine (SourceTableStep.revive s k).trans (.of_setSource (fun h => ?_) fun l hl => ?_)
  · rw [State.revive_source] at h
    exact h.acceptLive hvacant seq
  · rw [State.revive_source] at hl
    exact ⟨rfl, hl.2⟩

theorem SourceTableStep.acceptWord {s : State} {k : RemoteId} {w : Word} (hvacant : (s.source k).state ≠ .vacant)
    (hstated : wordKind w = .state → statedLines w &&& ~~~(s.source k).ownership = 0#32) :
    SourceTableStep s (s.acceptWord k w) := by
  cases hkind : wordKind w with
  | state =>
    simp only [State.acceptWord, hkind]
    refine (SourceTableStep.becomesLive hvacant _).trans (.applyLevels fun l hl => ?_)
    rw [State.source_setSource_self]
    exact ⟨rfl, owned_of_stated (hstated hkind) hl⟩
  | refresh =>
    simp only [State.acceptWord, hkind]
    exact .becomesLive hvacant _
  | release =>
    simp only [State.acceptWord, hkind]
    split
    · exact .of_withdrawn fun h => h.acceptRelease hvacant _
    · next hlive => exact .of_not_live hlive fun h => h.acceptRelease hvacant _
  | noKind =>
    simp only [State.acceptWord, hkind]
    exact .refl s

theorem SourceTableStep.applyWord (s : State) (e : QueueEntry) : SourceTableStep s (s.applyWord e) := by
  obtain ⟨r, hj, hforeign⟩ | ⟨k, hj, hlive⟩ | ⟨k, hj, hvacant, hstated⟩ := s.judge_cases e.word
  · rw [State.applyWord_of_reject hj, State.logReject_frame]
    exact (SourceTableStep.chargeReject hforeign).trans (.of_same rfl rfl)
  · rw [State.applyWord_of_duplicate hj]
    exact .of_setSource_standing ⟨rfl, rfl, rfl, fun h => absurd hlive h⟩
  · rw [State.applyWord_of_accept hj]
    exact .acceptWord hvacant hstated

theorem SourceTableStep.complete (s : State) : SourceTableStep s s.complete := by
  unfold State.complete
  split
  · exact .refl s
  · split
    · exact .refl s
    · exact .propagate (.trans (.applyWord s _) (.of_same rfl rfl))

/-! ### Every step -/

/-- Each effect that a step is made of is a `SourceTableStep`. -/
theorem sourceTableStep_kept (s₀ : State) : Kept (SourceTableStep s₀) where
  pending _ _ h := h.trans (.of_same rfl rfl)
  reply _ _ h := h.trans (.of_same rfl rfl)
  refclk _ _ h := h.trans (.of_same rfl rfl)
  enqueue _ _ _ _ h := h.trans (.of_same rfl rfl)
  retry _ _ h := .propagate (h.trans (.of_same rfl rfl))
  fault _ _ h := .propagate (h.trans (.of_same rfl rfl))
  reportBase _ _ _ h := h.trans (.of_same rfl rfl)
  control s w _ h := h.trans (.writeControl s w)
  table s c _ h := h.trans (.tableCommand s c)
  take s l _ _ h := (h.trans (.push s l)).trans (.watchTake _)
  eos s w _ h := h.trans (.endOfService s w)
  urgent s w _ h := h.trans (.clearUrgent s w)
  deadline s w _ h := h.trans (.writeDeadline s w)
  flags _ _ _ h := .propagate (h.trans (.of_same rfl rfl))
  enables _ _ _ h := .propagate (h.trans (.of_same rfl rfl))
  log _ _ h := h.trans (.of_same rfl rfl)
  counts _ _ _ h := h.trans (.of_same rfl rfl)
  causes _ _ _ h := h.trans (.of_same rfl rfl)
  tsel _ _ _ h := h.trans (.of_same rfl rfl)
  staging _ _ _ h := h.trans (.of_same rfl rfl)
  complete s h := h.trans (.complete s)
  tierBoundary s t h := h.trans (.tierBoundary s t)
  quietExpiry s k h := h.trans (.quietExpiry s k)
  closeUnitBoundary s h := h.trans (.closeUnitBoundary s)
  closeTimerExpiry s l h := h.trans (.closeTimerExpiry s l)
  intervalExpiry s h := h.trans (.intervalExpiry s)
  pulseEnd s h := h.trans (by unfold State.pulseEnd; split <;> exact .of_same rfl rfl)
  settle s p h := h.trans (.settle s p)
  transition s p h := h.trans (.transition s p)
  heldTick _ _ h := h.trans (.of_same rfl rfl)
  runningTick s sns _ h := h.trans (.runningTick s sns)
  powerOn _ h := h.trans (.of_reset rfl rfl)
  sampleResetLow s h := h.trans (.sampleResetLow s)
  release s h := h.trans (by unfold State.release; split <;> exact .of_same rfl rfl)

theorem sourceTableStep_of_step {s t : State} (hstep : step s = .next t) : SourceTableStep s t :=
  (sourceTableStep_kept s).step (.refl s) hstep

/-- Settles O10: each step carries the law over entry by entry. -/
theorem stepKeepsSourcesConsistent : Obligations.StepKeepsSourcesConsistent := by
  unfold Obligations.StepKeepsSourcesConsistent
  exact fun s t hs hstep => (sourceTableStep_of_step hstep).sourcesConsistent hs

/-- Settles O11: each step carries the law over membership by membership. -/
theorem stepKeepsMembersLiveOwners : Obligations.StepKeepsMembersLiveOwners := by
  unfold Obligations.StepKeepsMembersLiveOwners
  exact fun s t hs hstep => (sourceTableStep_of_step hstep).membersLiveOwners hs

end Sys2Proof.Machine
end

