-- ==== Sys2Proof/Proofs/LineWork.lean ====
section
/-! The line table at work. Only a COMMIT and a reset give a line another mode or route, and only they and the pin table
its owners; every other effect of a step is a `LineWork` on the tables, after which the event passes a change of the
summary on. Here that is said once of each effect. A law about lines, owners and the stack then has to be shown of a
`LineWork`, an adopted pin level, a push, the three COMMITs and a reset (`LineLaw.kept`). -/

namespace Sys2Proof.Machine

open Sys2Proof.Safety

/-! ### One line entry -/

/-- R63, R70, R71 for one line entry. -/
def LineEntry.StateByMode (e : LineEntry) : Prop :=
  (e.mode.isLevel = false → e.contributors = 0) ∧ (e.mode ≠ .edge → e.latch = false) ∧
  (e.lastEdge = 31 ↔ e.latch = false) ∧ (e.latch = false → e.repeatCount = 0)

/-- Mode and route stay, and the entry's state stays one that the mode can use. -/
structure LineEntry.SameUse (e e' : LineEntry) : Prop where
  mode : e'.mode = e.mode
  route : e'.route = e.route
  stateByMode : e.StateByMode → e'.StateByMode

theorem LineEntry.SameUse.refl (e : LineEntry) : e.SameUse e := ⟨rfl, rfl, id⟩

theorem LineEntry.SameUse.trans {e e' e'' : LineEntry} (h : e.SameUse e') (h' : e'.SameUse e'') : e.SameUse e'' :=
  ⟨h'.mode.trans h.mode, h'.route.trans h.route, h'.stateByMode ∘ h.stateByMode⟩

/-- Only a line whose mode uses contributors gets other ones, or the empty set stays empty. -/
theorem LineEntry.sameUse_contributors {e : LineEntry} {c : SourceSet}
    (h : e.mode.isLevel = false → e.contributors = 0 → c = 0) : e.SameUse { e with contributors := c } :=
  ⟨rfl, rfl, fun ⟨hlevel, hrest⟩ => ⟨fun hm => h hm (hlevel hm), hrest⟩⟩

theorem LineEntry.sameUse_setMember (e : LineEntry) (n : Nat) (b : Bool) : e.SameUse (e.setMember n b) := by
  unfold LineEntry.setMember
  split
  · next hlevel => exact sameUse_contributors fun h => absurd hlevel (by simp [h])
  · exact .refl e

theorem LineEntry.sameUse_without (e : LineEntry) (k : RemoteId) : e.SameUse (without e k) :=
  sameUse_contributors fun _ h => by rw [h]; exact BitVec.zero_and

theorem LineEntry.StateByMode.clearLatch {e : LineEntry} (h : e.StateByMode) : e.clearLatch.StateByMode := by
  obtain ⟨hlevel, _⟩ := h
  exact ⟨hlevel, fun _ => rfl, iff_of_true rfl rfl, fun _ => rfl⟩

theorem LineEntry.sameUse_clearLatch (e : LineEntry) : e.SameUse e.clearLatch := ⟨rfl, rfl, .clearLatch⟩

theorem LineEntry.sameUse_urgentClear (e : LineEntry) : e.SameUse e.urgentClear := by
  unfold LineEntry.urgentClear
  split
  · exact e.sameUse_clearLatch
  · exact .refl e

/-- A pulse reaches the latch of an EDGE line alone, and its source code is not 31 (R70). -/
theorem LineEntry.sameUse_pulse (e : LineEntry) {src : BitVec 5} (hsrc : src ≠ 31) : e.SameUse (e.pulse src) := by
  unfold LineEntry.pulse
  split
  · next hedge =>
    split
    · next hlatch =>
      refine ⟨rfl, rfl, fun ⟨hlevel, hmode, _⟩ => ⟨hlevel, hmode, iff_of_false hsrc ?_, fun h => ?_⟩⟩
      · simp [hlatch]
      · simp [hlatch] at h
    · exact ⟨rfl, rfl, fun ⟨hlevel, _⟩ => ⟨hlevel, fun hne => absurd hedge hne, iff_of_false hsrc nofun, nofun⟩⟩
  · exact .refl e

theorem remoteCode_ne_none (k : RemoteId) : BitVec.ofNat 5 k.val ≠ 31 := by
  revert k
  decide

theorem LineEntry.sameUse_stated (e : LineEntry) (k : RemoteId) (level : Bool) : e.SameUse (e.stated k level) := by
  unfold LineEntry.stated
  split
  · exact .refl e
  · split
    · exact e.sameUse_pulse (remoteCode_ne_none k)
    · exact .refl e
  all_goals exact e.sameUse_setMember k.val level

/-! ### The local source's membership of one line entry -/

theorem putMember_remote_getLsbD_local (c : SourceSet) (k : RemoteId) (b : Bool) :
    (putMember c k.val b).getLsbD 24 = c.getLsbD 24 := by
  rw [putMember_getLsbD _ _ _ _ (by omega), if_neg (by omega)]

theorem LineEntry.stated_getLsbD_local (e : LineEntry) (k : RemoteId) (level : Bool) :
    (e.stated k level).contributors.getLsbD 24 = e.contributors.getLsbD 24 := by
  unfold LineEntry.stated
  split
  · rfl
  · split
    · rw [LineEntry.pulse_contributors]
    · rfl
  all_goals
    unfold LineEntry.setMember
    split
    · exact putMember_remote_getLsbD_local ..
    · rfl

/-! ### The frame of the line table -/

/-- No line changes its use, no line enters the stack, and no owner changes. A part that the change from `s` to `t` does
not write is left out where one is built: its field holds by unfolding. -/
structure LineFrame (s t : State) : Prop where
  line : ∀ l, (s.line l).SameUse (t.line l) := by exact fun _ => .refl _
  stack : ∀ l, t.inStack l = true → s.inStack l = true := by exact fun _ h => h
  ownership : ∀ k, (t.source k).ownership = (s.source k).ownership := by exact fun _ => rfl
  pins : t.pins = s.pins := by rfl

theorem LineFrame.trans {s t u : State} (h : LineFrame s t) (h' : LineFrame t u) : LineFrame s u where
  line l := (h.line l).trans (h'.line l)
  stack l hl := h.stack l (h'.stack l hl)
  ownership k := (h'.ownership k).trans (h.ownership k)
  pins := h'.pins.trans h.pins

theorem LineFrame.recomputeLocal (s : State) (l : LineId) : LineFrame s (s.recomputeLocal l) where
  line m := by
    rw [State.line_recomputeLocal]
    split
    · exact LineEntry.sameUse_setMember ..
    · exact .refl _

theorem LineFrame.pinLevelChanged (s : State) (p : PinId) : LineFrame s (s.pinLevelChanged p) := by
  unfold State.pinLevelChanged
  split
  · exact .recomputeLocal s _
  · exact { }

/-- A change of the summary is a change of the level of pin entry 8 (R127). -/
theorem State.watchSummary_of_ne {b s : State} (h : b.summary ≠ s.summary) :
    State.watchSummary b s = s.pinLevelChanged 8 := by
  simp [State.watchSummary, State.pinLevelChanged, h]

theorem LineFrame.watchSummary {b s t : State} (h : LineFrame s t) : LineFrame s (State.watchSummary b t) := by
  by_cases hsum : b.summary = t.summary
  · rwa [State.watchSummary_of_eq hsum]
  · rw [State.watchSummary_of_ne hsum]
    exact h.trans (.pinLevelChanged t 8)

/-- The filter of a pin takes its sampled level, and the target of a level-mode entry follows (R125, R128). -/
theorem LineFrame.adopt (s : State) (p : SenseId) (f : PinFilter) :
    LineFrame s ((s.setFilter p f).pinLevelChanged (pinOfSense p)) :=
  .trans (t := s.setFilter p f) { } (.pinLevelChanged _ _)

/-! ### Work on the tables -/

/-- A change within the frame that leaves the local source's memberships and every filtered level as they are. -/
structure LineWork (s t : State) : Prop extends LineFrame s t where
  member : ∀ l, (t.line l).contributors.getLsbD 24 = (s.line l).contributors.getLsbD 24 := by exact fun _ => rfl
  level : ∀ p, (t.filter p).level = (s.filter p).level := by exact fun _ => rfl

theorem LineWork.refl (s : State) : LineWork s s := { }

theorem LineWork.trans {s t u : State} (h : LineWork s t) (h' : LineWork t u) : LineWork s u where
  toLineFrame := h.toLineFrame.trans h'.toLineFrame
  member l := (h'.member l).trans (h.member l)
  level p := (h'.level p).trans (h.level p)

theorem LineWork.raise (s : State) (flag : BitVec 8) : LineWork s (s.raise flag) := { }

theorem LineWork.setTstat (s : State) (t : TableStatus) : LineWork s (s.setTstat t) := { }

theorem LineWork.setEosResult (s : State) (r : EosResult) : LineWork s (s.setEosResult r) := { }

theorem LineWork.setWarning (s : State) (b : Bool) : LineWork s (s.setWarning b) := { }

/-- A source takes a new entry with the ownership set it has. -/
theorem LineWork.setSource (s : State) (k : RemoteId) (e : SourceEntry)
    (h : e.ownership = (s.source k).ownership := by rfl) : LineWork s (s.setSource k e) where
  ownership j := by
    rw [State.source_setSource]
    split
    · next hj => rw [h, hj]
    · rfl

/-- The sources take new entries with the ownership sets they have. -/
theorem LineWork.of_sources (s : State) {sources : Vector SourceEntry 24}
    (h : ∀ k : RemoteId, sources[k].ownership = (s.source k).ownership) :
    LineWork s { s with sources := sources } where
  ownership := h

/-- The lines take new entries. -/
theorem LineWork.of_lines (s : State) {lines : Vector LineEntry 32}
    (huse : ∀ l : LineId, (s.line l).SameUse lines[l])
    (hmember : ∀ l : LineId, lines[l].contributors.getLsbD 24 = (s.line l).contributors.getLsbD 24) :
    LineWork s { s with lines := lines } where
  line := huse
  member := hmember

theorem LineWork.mapLines (s : State) {f : LineId → LineEntry → LineEntry}
    (huse : ∀ l, (s.line l).SameUse (f l (s.line l)))
    (hmember : ∀ l, (f l (s.line l)).contributors.getLsbD 24 = (s.line l).contributors.getLsbD 24) :
    LineWork s (s.mapLines f) := by
  have hline : ∀ l : LineId, (Vector.ofFn fun l : LineId => f l s.lines[l])[l] = f l (s.line l) := s.line_mapLines f
  refine .of_lines s (fun l => ?_) (fun l => ?_)
  · rw [hline]; exact huse l
  · rw [hline]; exact hmember l

theorem LineWork.withdraw (s : State) (k : RemoteId) (m : LineSet) : LineWork s (s.withdraw k m) :=
  .mapLines s
    (fun l => by
      split
      · exact (s.line l).sameUse_without k
      · exact .refl _)
    (fun l => by
      split
      · exact putMember_remote_getLsbD_local ..
      · rfl)

/-- A source takes a new entry with the ownership set it has and leaves the sets of the lines `m`. -/
theorem LineWork.withdrawn (s : State) (k : RemoteId) (e : SourceEntry) (m : LineSet)
    (h : e.ownership = (s.source k).ownership := by rfl) : LineWork s ((s.setSource k e).withdraw k m) :=
  (LineWork.setSource s k e h).trans (.withdraw _ k m)

theorem LineWork.setLine (s : State) {l : LineId} {e : LineEntry} (huse : (s.line l).SameUse e)
    (hmember : e.contributors.getLsbD 24 = (s.line l).contributors.getLsbD 24) : LineWork s (s.setLine l e) where
  line m := by
    rw [State.line_setLine]
    split
    · next hm => rw [hm]; exact huse
    · exact .refl _
  member m := by
    rw [State.line_setLine]
    split
    · next hm => rw [hm]; exact hmember
    · rfl

/-- Entries leave the stack, or keep their lines. -/
theorem LineWork.of_stack (s : State) {stack : List StackEntry} (h : ∀ e ∈ stack, ∃ e' ∈ s.stack, e'.line = e.line) :
    LineWork s { s with stack := stack } where
  stack l hl := by
    obtain ⟨e, he, rfl⟩ := State.inStack_eq_true.mp hl
    exact State.inStack_eq_true.mpr (h e he)

theorem LineWork.filterStack (s : State) (p : StackEntry → Bool) :
    LineWork s { s with stack := s.stack.filter p } :=
  .of_stack s fun e he => ⟨e, List.mem_of_mem_filter he, rfl⟩

theorem LineWork.mapStack (s : State) {f : StackEntry → StackEntry} (hf : ∀ e, (f e).line = e.line) :
    LineWork s { s with stack := s.stack.map f } :=
  .of_stack s fun e he => by
    obtain ⟨e', he', rfl⟩ := List.mem_map.mp he
    exact ⟨e', he', (hf e').symm⟩

/-! ### The work of an application (R25 to R32) -/

theorem LineWork.rejectForeign (s : State) (k : RemoteId) : LineWork s (s.rejectForeign k) := by
  by_cases hbars : (s.source k).chargeForeign.streakBars = true
  · rw [State.rejectForeign_of_bars hbars]
    exact (LineWork.withdrawn s k _ _).trans (.raise _ _)
  · rw [State.rejectForeign_of_not_bars hbars]
    exact .setSource s _ _

theorem LineWork.chargeReject (s : State) (w : Word) (r : RejectReason) : LineWork s (s.chargeReject w r) := by
  cases r with
  | check => exact { }
  | kind | unknownSource => exact .refl s
  | vacant | barred =>
    simp only [State.chargeReject]
    cases wordRemote w with
    | none => exact .refl s
    | some k => exact .setSource s _ _
  | foreign =>
    simp only [State.chargeReject]
    cases wordRemote w with
    | none => exact .refl s
    | some k => exact .rejectForeign s k

theorem LineWork.logReject (s : State) (e : LogEntry) : LineWork s (s.logReject e) := by
  rw [State.logReject_frame]
  exact { }

theorem LineWork.revive (s : State) (k : RemoteId) : LineWork s (s.revive k) := by
  unfold State.revive
  split <;> exact { }

/-- An accepted STATE or REFRESH gives its source an entry with the same ownership set (R31, R44). -/
theorem LineWork.becomesLive (s : State) (k : RemoteId) (seq : BitVec 3) :
    LineWork s ((s.revive k).setSource k ((s.source k).acceptLive seq)) :=
  (LineWork.revive s k).trans (.setSource _ k _ (by rw [State.revive_source]; rfl))

theorem LineWork.applyLevels (s : State) (k : RemoteId) (w : Word) : LineWork s (s.applyLevels k w) :=
  .mapLines s
    (fun l => by
      split
      · exact (s.line l).sameUse_stated k _
      · exact .refl _)
    (fun l => by
      split
      · exact (s.line l).stated_getLsbD_local k _
      · rfl)

theorem LineWork.acceptWord (s : State) (k : RemoteId) (w : Word) : LineWork s (s.acceptWord k w) := by
  cases hkind : wordKind w with
  | state =>
    simp only [State.acceptWord, hkind]
    exact (LineWork.becomesLive s k _).trans (.applyLevels _ k w)
  | refresh =>
    simp only [State.acceptWord, hkind]
    exact .becomesLive s k _
  | release =>
    simp only [State.acceptWord, hkind]
    split
    · exact .withdrawn s k _ _
    · exact .setSource s _ _
  | noKind =>
    simp only [State.acceptWord, hkind]
    exact .refl s

theorem LineWork.applyWord (s : State) (e : QueueEntry) : LineWork s (s.applyWord e) := by
  unfold State.applyWord
  split
  · exact (LineWork.chargeReject s _ _).trans (.logReject _ _)
  · exact .setSource s _ _
  · exact .acceptWord s _ _

theorem LineWork.departed (s : State) (e : QueueEntry) :
    LineWork s (((s.applyWord e).depart).departStamp e.stamp) :=
  (LineWork.applyWord s e).trans (.trans (t := (s.applyWord e).depart) { } (.filterStack _ _))

/-! ### The work of the other effects -/

theorem LineWork.eosEffect (s : State) (w : Word) : LineWork s (s.eosEffect w).1 := by
  unfold State.eosEffect
  cases s.eosSelected w with
  | none => exact .refl s
  | some e =>
    dsimp only
    split
    · exact .refl s
    · split
      · exact .filterStack s _
      · cases s.newestMatch e.line with
        | none => exact .filterStack s _
        | some stamp => exact .mapStack s fun e => by split <;> rfl

theorem LineWork.closeUnitBoundary (s : State) : LineWork s s.closeUnitBoundary := by
  unfold State.closeUnitBoundary
  split
  · exact .trans (t := { s with closeUnitDue := false }) { } (.mapStack _ fun _ => rfl)
  · exact .refl s

theorem LineWork.clearUrgent (s : State) (w : Word) :
    LineWork s (s.mapLines fun l e => if l.val < 31 && w.getLsbD l.val then e.urgentClear else e) :=
  .mapLines s
    (fun l => by
      split
      · exact (s.line l).sameUse_urgentClear
      · exact .refl _)
    (fun l => by
      split
      · rw [LineEntry.urgentClear_contributors]
      · rfl)

theorem LineWork.writeDeadline (s : State) (w : Word) : LineWork s (s.writeDeadline w) := by
  rw [State.writeDeadline, State.monitorModeWrite_eq]
  exact { }

theorem LineWork.watchTake (s : State) : LineWork s s.watchTake := by
  rw [State.watchTake_eq]
  exact { }

theorem LineWork.watchSreq (b s : State) : LineWork s (State.watchSreq b s) := by
  rw [State.watchSreq_eq]
  exact { }

/-- The latch of a pushed EDGE line is cleared (R87). -/
theorem LineWork.push (s : State) (l : LineId) :
    LineWork { s with stack := s.stack ++ [⟨l, (s.line l).priority, (s.line l).mode.kind, none⟩] } (s.push l) := by
  unfold State.push
  dsimp only
  split
  · exact .setLine _ (s.line l).sameUse_clearLatch rfl
  · exact .refl _

theorem LineWork.pinPulse (s : State) (p : PinId) : LineWork s (s.pinPulse p) :=
  .setLine s (LineEntry.sameUse_pulse _ (by decide)) (by rw [LineEntry.pulse_contributors])

theorem SourceEntry.tierBoundary_ownership (e : SourceEntry) (t : Tier) (paused : Bool) :
    (e.tierBoundary t paused).ownership = e.ownership :=
  (e.sameStanding_tierBoundary t paused).ownership

theorem LineWork.tierBoundary (s : State) (t : Tier) : LineWork s (s.tierBoundary t) := by
  unfold State.tierBoundary
  split
  · exact .refl s
  · refine .of_sources s fun k => ?_
    have hsource := congrArg SourceEntry.ownership (s.source_mapSources (fun _ e => e.tierBoundary t s.paused) k)
    exact hsource.trans (SourceEntry.tierBoundary_ownership ..)

theorem LineWork.runningTick (s : State) (sns : BitVec 8) : LineWork s (s.runningTick sns) where
  ownership k := by rw [State.runningTick_source]
  level p := by rw [State.runningTick_filter]; rfl

theorem LineWork.barSource (s : State) (k : RemoteId) : LineWork s (s.barSource k) := by
  unfold State.barSource
  split
  · exact .refl s
  · exact .withdrawn s k _ _

theorem LineWork.unbarSource (s : State) (k : RemoteId) : LineWork s (s.unbarSource k) := by
  unfold State.unbarSource
  split
  · exact .setSource s _ _
  · exact .refl s

theorem LineWork.onSelectedSource {s : State} {f : State → RemoteId → State} (h : ∀ k, LineWork s (f s k)) :
    LineWork s (s.onSelectedSource f) := by
  unfold State.onSelectedSource
  split
  · exact h _
  all_goals exact .refl s

/-- Every command of the table port but COMMIT. -/
theorem LineWork.perform (s : State) {c : TableCommand} (hc : c ≠ .commit) : LineWork s (s.perform c) := by
  cases c with
  | load => exact { }
  | commit => exact absurd rfl hc
  | bar => exact .onSelectedSource (.barSource s)
  | unbar => exact .onSelectedSource (.unbarSource s)
  | clearCounters =>
    exact .onSelectedSource (f := fun s k => s.setSource k (s.source k).clearCounters) fun _ => .setSource s _ _

/-! ### The effects that leave the summary -/

theorem State.watchSreq_summary (b s : State) : s.summary = (State.watchSreq b s).summary := by
  rw [State.watchSreq_eq]
  rfl

theorem State.watchTake_summary (s : State) : s.summary = s.watchTake.summary := by
  rw [State.watchTake_eq]
  rfl

theorem State.push_summary (s : State) (l : LineId) : s.summary = (s.push l).summary := by
  rw [State.push_eq]
  rfl

theorem State.writeDeadline_summary (s : State) (w : Word) : s.summary = (s.writeDeadline w).summary := by
  rw [State.writeDeadline, State.monitorModeWrite_eq]
  rfl

theorem State.closeUnitBoundary_summary (s : State) : s.summary = s.closeUnitBoundary.summary := by
  unfold State.closeUnitBoundary
  split <;> rfl

theorem State.tierBoundary_summary (s : State) (t : Tier) : s.summary = (s.tierBoundary t).summary := by
  unfold State.tierBoundary
  split
  · rfl
  · rw [State.mapSources_summary]

theorem State.runningTick_summary (s : State) (sns : BitVec 8) : s.summary = (s.runningTick sns).summary := by
  simp only [State.summary, State.runningTick]

theorem State.adopted_summary (s : State) (p : SenseId) (f : PinFilter) :
    s.summary = ((s.setFilter p f).pinLevelChanged (pinOfSense p)).summary := by
  unfold State.pinLevelChanged
  split <;> rfl

theorem State.performCommit_summary (s : State) : s.summary = s.performCommit.summary := by
  unfold State.performCommit
  cases selectedEntry s.tsel with
  | source k => rfl
  | localSource | noEntry => rfl
  | line l => simp only [State.commitLine]; split <;> rfl
  | pin p => simp only [State.commitPin]; cases s.staging.pinMode <;> rfl

/-! ### A law about the line table -/

/-- Of two candidates the arbiter keeps one that is deliverable (R84). -/
theorem State.deliverable_of_foldl_better {s : State} {l : LineId} :
    ∀ (ls : List LineId) (b : Option LineId), (∀ m, b = some m → s.deliverable m = true) →
      ls.foldl s.better b = some l → s.deliverable l = true
  | [], _, hb, h => hb l h
  | m :: ls, b, hb, h => by
    refine State.deliverable_of_foldl_better ls (s.better b m) (fun x hx => ?_) h
    unfold State.better at hx
    split at hx
    · next hm =>
      cases hbest : b with
      | none =>
        rw [hbest] at hx
        cases hx
        exact hm
      | some y =>
        rw [hbest] at hx
        dsimp only at hx
        split at hx <;> cases hx
        · exact hm
        · exact hb _ hbest
    · exact hb x hx

/-- The offered line may be offered (R83, R84). -/
theorem State.deliverable_of_offer {s : State} {l : LineId} (h : s.offer = some l) : s.deliverable l = true :=
  State.deliverable_of_foldl_better _ none nofun h

/-- A property of the lines, their owners, the stack and the pins that reset has and that each kind of change to them
keeps: work with what an event passes on of the summary, an adopted pin level, a pushed line, the three COMMITs. -/
structure LineLaw (P : State → Prop) : Prop where
  work : ∀ {s t}, LineWork s t → P s → P (State.watchSummary s t)
  adopt : ∀ s p, P s → P ((s.setFilter p (s.filter p).adopt).pinLevelChanged (pinOfSense p))
  push : ∀ s l, s.deliverable l = true → P s →
    P { s with stack := s.stack ++ [⟨l, (s.line l).priority, (s.line l).mode.kind, none⟩] }
  commitSource : ∀ s k, s.judgeSourceCommit k = .ok → P s → P (s.setSource k ((s.source k).commit s.staging))
  commitLine : ∀ s l, s.judgeLineCommit l = .ok → P s → P (s.commitLine l)
  commitPin : ∀ s p, s.judgePinCommit p = .ok → P s → P (s.commitPin p)
  reset : ∀ {t}, t.lines = State.reset.lines → t.stack = [] → P t

section
variable {P : State → Prop}

/-- Work that leaves the summary. -/
theorem LineLaw.quiet (L : LineLaw P) {s t : State} (hwork : LineWork s t) (h : P s)
    (hsum : s.summary = t.summary := by rfl) : P t := by
  rw [← State.watchSummary_of_eq hsum]
  exact L.work hwork h

/-- An event that is work on the tables, with all that it passes on. -/
theorem LineLaw.propagate (L : LineLaw P) {s t : State} (hwork : LineWork s t) (h : P s) :
    P (State.propagate s t) :=
  L.quiet (.watchSreq s _) (L.work hwork h) (State.watchSreq_summary ..)

/-- An event that leaves the summary, with what it passes on to the monitor. -/
theorem LineLaw.propagate_of_summary (L : LineLaw P) {b t : State} (hsum : b.summary = t.summary) (h : P t) :
    P (State.propagate b t) := by
  rw [State.propagate, State.watchSummary_of_eq hsum]
  exact L.quiet (.watchSreq b t) h (State.watchSreq_summary b t)

theorem LineLaw.writeControl (L : LineLaw P) {s : State} (w : Word) (h : P s) : P (s.writeControl w) := by
  unfold State.writeControl
  split
  · exact L.reset rfl rfl
  · refine L.propagate ?_ h
    split
    · exact { stack := fun _ => nofun }
    · exact { }

/-- A COMMIT that passes its tests, on the entry that TSEL names. -/
theorem LineLaw.performCommit (L : LineLaw P) {s : State} (hj : s.judgeCommit = .ok) (h : P s) :
    P s.performCommit := by
  unfold State.judgeCommit at hj
  unfold State.performCommit
  split
  · next k hk =>
    rw [hk] at hj
    exact L.quiet (.withdraw _ k _) (L.commitSource s k hj h) (State.withdraw_summary ..).symm
  · next l hl =>
    rw [hl] at hj
    exact L.commitLine s l hj h
  · next p hp =>
    rw [hp] at hj
    exact L.commitPin s p hj h
  all_goals exact h

theorem LineLaw.tableCommand (L : LineLaw P) {s : State} (c : TableCommand) (h : P s) : P (s.tableCommand c) := by
  by_cases hj : s.judgeCommand c = .ok
  · rw [State.tableCommand_done hj]
    by_cases hc : c = .commit
    · subst hc
      exact L.propagate_of_summary (by rw [State.setTstat_summary]; exact s.performCommit_summary)
        (L.quiet (.setTstat _ _) (L.performCommit hj h) (State.setTstat_summary ..).symm)
    · exact L.propagate ((LineWork.perform s hc).trans (.setTstat _ _)) h
  · rw [State.tableCommand_refused rfl hj]
    exact L.quiet (.setTstat s _) h

theorem LineLaw.complete (L : LineLaw P) {s : State} (h : P s) : P s.complete := by
  unfold State.complete
  split
  · exact h
  · split
    · exact h
    · exact L.propagate (.departed s _) h

theorem LineLaw.quietExpiry (L : LineLaw P) {s : State} (k : RemoteId) (h : P s) : P (s.quietExpiry k) := by
  unfold State.quietExpiry
  split
  · exact L.propagate ((LineWork.withdrawn s k _ _).trans (.raise _ _)) h
  · exact h

theorem LineLaw.closeTimerExpiry (L : LineLaw P) {s : State} (l : LineId) (h : P s) : P (s.closeTimerExpiry l) := by
  unfold State.closeTimerExpiry
  split
  · exact L.propagate ((LineWork.filterStack s _).trans (.raise _ _)) h
  · exact h

theorem LineLaw.intervalExpiry (L : LineLaw P) {s : State} (h : P s) : P s.intervalExpiry := by
  obtain he | he | ⟨left, latch, he⟩ := s.intervalExpiry_cases <;> rw [he]
  · exact h
  · exact L.reset rfl rfl
  · exact L.quiet { } h

theorem LineLaw.settle (L : LineLaw P) {s : State} (p : SenseId) (h : P s) : P (s.settle p) := by
  unfold State.settle
  split
  · exact L.propagate_of_summary (s.adopted_summary p _) (L.adopt s p h)
  · exact h

theorem LineLaw.transition (L : LineLaw P) {s : State} (p : SenseId) (h : P s) : P (s.transition p) := by
  unfold State.transition
  split
  · dsimp only
    split
    · exact L.propagate_of_summary (s.adopted_summary p _) (L.quiet (.pinPulse _ _) (L.adopt s p h))
    · exact L.propagate_of_summary (s.adopted_summary p _) (L.adopt s p h)
  · exact h

theorem LineLaw.sampleResetLow (L : LineLaw P) {s : State} (h : P s) : P s.sampleResetLow := by
  unfold State.sampleResetLow State.resetByPin
  split
  · exact h
  · cases s.held with
    | true => exact L.quiet { } h
    | false => exact L.reset rfl rfl

theorem LineLaw.pulseEnd (L : LineLaw P) {s : State} (h : P s) : P s.pulseEnd := by
  unfold State.pulseEnd
  split
  · exact L.quiet { } h
  · exact h

theorem LineLaw.release (L : LineLaw P) {s : State} (h : P s) : P s.release := by
  unfold State.release
  split
  · exact L.quiet { } h
  · exact h

/-- A law about the line table is kept by every effect that a step is made of. -/
theorem LineLaw.kept (L : LineLaw P) : Kept P where
  pending _ _ := L.quiet { }
  reply _ _ := L.quiet { }
  refclk _ _ := L.quiet { }
  enqueue _ _ _ _ := L.quiet { }
  retry _ _ := L.propagate { }
  fault _ _ := L.propagate { }
  reportBase _ _ _ := L.quiet { }
  control _ w _ := L.writeControl w
  table _ c _ := L.tableCommand c
  take s l _ hoffer h :=
    L.quiet (.watchTake _) (L.quiet (.push s l) (L.push s l (State.deliverable_of_offer hoffer) h) (s.push_summary l))
      (State.watchTake_summary _)
  eos s w _ := L.propagate ((LineWork.eosEffect s w).trans (.setEosResult _ _))
  urgent s w _ := L.propagate ((LineWork.clearUrgent s w).trans (.setWarning _ _))
  deadline s w _ h := L.quiet (.writeDeadline s w) h (s.writeDeadline_summary w)
  flags _ _ _ := L.propagate { }
  enables _ _ _ := L.propagate { }
  log _ _ := L.quiet { }
  counts _ _ _ := L.quiet { }
  causes _ _ _ := L.quiet { }
  tsel _ _ _ := L.quiet { }
  staging _ _ _ := L.quiet { }
  complete _ := L.complete
  tierBoundary s t h := L.quiet (.tierBoundary s t) h (s.tierBoundary_summary t)
  quietExpiry _ k := L.quietExpiry k
  closeUnitBoundary s h := L.quiet (.closeUnitBoundary s) h s.closeUnitBoundary_summary
  closeTimerExpiry _ l := L.closeTimerExpiry l
  intervalExpiry _ := L.intervalExpiry
  pulseEnd _ := L.pulseEnd
  settle _ p := L.settle p
  transition _ p := L.transition p
  heldTick _ _ := L.quiet { }
  runningTick s sns _ h := L.quiet (.runningTick s sns) h (s.runningTick_summary sns)
  powerOn _ _ := L.reset rfl rfl
  sampleResetLow _ := L.sampleResetLow
  release _ := L.release

end

end Sys2Proof.Machine
end

