-- ==== Sys2Proof/Proofs/LineCommit.lean ====
section
/-! A COMMIT to a line of the table port (sections 4.6 and 9.5): the entry it writes, when it passes its tests, and how
it is refused otherwise. Settles the two statements about it. -/

namespace Sys2Proof.Machine

open Sys2Proof.Safety

/-! ### The local source in a line entry -/

theorem LineMode.isLevel_eq_true {m : LineMode} : m.isLevel = true ↔ m = .shared ∨ m = .sole := by
  cases m <;> simp [LineMode.isLevel]

theorem LineEntry.setMember_eq (e : LineEntry) (n : Nat) (b : Bool) :
    e.setMember n b = { e with contributors := (e.setMember n b).contributors } := by
  unfold LineEntry.setMember
  split <;> rfl

theorem LineEntry.setMember_of_level {e : LineEntry} (h : e.mode.isLevel = true) (n : Nat) (b : Bool) :
    e.setMember n b = { e with contributors := putMember e.contributors n b } :=
  if_pos h

theorem LineEntry.setMember_of_not_level {e : LineEntry} (h : e.mode.isLevel = false) (n : Nat) (b : Bool) :
    e.setMember n b = e :=
  if_neg (by simp [h])

/-- The local source in the set of a line where it may stand in no other set (R63, R68). -/
theorem LineEntry.setMember_getLsbD_local {e : LineEntry}
    (h : e.mode.isLevel = false → e.contributors.getLsbD 24 = false) (b : Bool) :
    (e.setMember 24 b).contributors.getLsbD 24 = (e.mode.isLevel && b) := by
  cases hm : e.mode.isLevel with
  | true =>
    rw [LineEntry.setMember_of_level hm, putMember_getLsbD _ _ _ _ (by decide), if_pos rfl]
    rfl
  | false =>
    rw [LineEntry.setMember_of_not_level hm, h hm]
    rfl

/-! ### The entry that a COMMIT writes (R75 to R79) -/

theorem LineEntry.setMode_of_same (e : LineEntry) : e.setMode e.mode = e := if_pos rfl

/-- A former EDGE line has no contributors to keep, and its latch is cleared (R71, R75). -/
theorem LineEntry.setMode_of_edge {e : LineEntry} {mode : LineMode} (hnew : mode ≠ e.mode) (hedge : e.mode = .edge) :
    e.setMode mode = LineEntry.clearLatch { e with mode := mode, contributors := 0 } := by
  simp only [LineEntry.setMode, if_neg hnew, if_pos hedge]
  simp [hedge, LineMode.isLevel]

theorem LineEntry.setMode_of_not_edge {e : LineEntry} {mode : LineMode} (hnew : mode ≠ e.mode)
    (hedge : e.mode ≠ .edge) :
    e.setMode mode =
      { e with mode := mode, contributors := if e.mode.isLevel && mode.isLevel then e.contributors else 0 } := by
  simp [LineEntry.setMode, hnew, hedge]

theorem LineEntry.setMode_contributors {e : LineEntry} {mode : LineMode} (hnew : mode ≠ e.mode) :
    (e.setMode mode).contributors = if e.mode.isLevel && mode.isLevel then e.contributors else 0 := by
  by_cases hedge : e.mode = .edge
  · rw [LineEntry.setMode_of_edge hnew hedge, hedge]
    rfl
  · rw [LineEntry.setMode_of_not_edge hnew hedge]

@[simp] theorem LineEntry.setMode_mode (e : LineEntry) (mode : LineMode) : (e.setMode mode).mode = mode := by
  by_cases hnew : mode = e.mode
  · rw [hnew, LineEntry.setMode_of_same]
  · by_cases hedge : e.mode = .edge
    · rw [LineEntry.setMode_of_edge hnew hedge]
      rfl
    · rw [LineEntry.setMode_of_not_edge hnew hedge]

@[simp] theorem LineEntry.commit_mode (e : LineEntry) (t : Staging) : (e.commit t).mode = t.lineMode :=
  e.setMode_mode t.lineMode

/-- A mode commit to a mode that uses no contributors leaves no local source (R75). -/
theorem LineEntry.commit_local_of_not_level {e : LineEntry} {t : Staging} (hnew : t.lineMode ≠ e.mode)
    (h : (e.commit t).mode.isLevel = false) : (e.commit t).contributors.getLsbD 24 = false := by
  have hcontributors : (e.commit t).contributors = _ := LineEntry.setMode_contributors hnew
  rw [LineEntry.commit_mode] at h
  simp [hcontributors, h]

theorem State.lineModeChanged_eq_true {s : State} {l : LineId} :
    s.lineModeChanged l = true ↔ s.staging.lineMode ≠ (s.line l).mode := by
  simp [State.lineModeChanged]

theorem State.commitLine_eq (s : State) (l : LineId) :
    s.commitLine l = { s with lines := (s.commitLine l).lines } := by
  unfold State.commitLine
  dsimp only
  split <;> rfl

theorem State.commitLine_line_ne (s : State) {l m : LineId} (h : m ≠ l) : (s.commitLine l).line m = s.line m := by
  unfold State.commitLine
  dsimp only
  split
  · rw [State.line_recomputeLocal, if_neg h, State.line_setLine_ne _ _ h]
  · rw [State.line_setLine_ne _ _ h]

/-- A hot commit leaves the contributor set and the latch. -/
theorem State.commitLine_line_hot {s : State} {l : LineId} (h : s.staging.lineMode = (s.line l).mode) :
    (s.commitLine l).line l = (s.line l).commit s.staging := by
  have hnew : ¬ s.lineModeChanged l = true := fun hc => State.lineModeChanged_eq_true.mp hc h
  rw [State.commitLine, if_neg hnew, State.line_setLine_self]

/-- A mode commit derives the local source's membership (R76). -/
theorem State.commitLine_line_mode {s : State} {l : LineId} (h : s.staging.lineMode ≠ (s.line l).mode) :
    (s.commitLine l).line l = ((s.line l).commit s.staging).setMember 24 (s.localActive l) := by
  rw [State.commitLine, if_pos (State.lineModeChanged_eq_true.mpr h), State.line_recomputeLocal, if_pos rfl,
    State.line_setLine_self, State.setLine_localActive]
  rfl

/-- In both cases the entry is the committed one, but for its contributors. -/
theorem State.commitLine_line_self (s : State) (l : LineId) :
    (s.commitLine l).line l =
      { (s.line l).commit s.staging with contributors := ((s.commitLine l).line l).contributors } := by
  by_cases h : s.staging.lineMode = (s.line l).mode
  · rw [State.commitLine_line_hot h]
  · rw [State.commitLine_line_mode h]
    exact LineEntry.setMember_eq ..

/-! ### The tests (R149, R154) -/

theorem State.judgeCommand_commit_line {s : State} {l : LineId} (htable : s.tsel.table = 1#2)
    (hindex : s.tsel.index.toNat = l.val) : s.judgeCommand .commit = s.judgeLineCommit l := by
  simp only [State.judgeCommand, State.judgeCommit, selectedEntry_line htable hindex]

/-- A test that refuses with `r` is passed where its condition fails. -/
theorem ite_refused_eq_ok {c : Prop} [Decidable c] {r x : TableResult} (hr : r ≠ .ok) :
    (if c then r else x) = .ok ↔ ¬ c ∧ x = .ok := by
  by_cases hc : c <;> simp [hc, hr]

/-- A COMMIT to a line passes its tests: outside PAUSED and in service it changes neither mode nor route, the line is
not claimed, and a new mode fits the owners and the pin entries. -/
theorem State.judgeLineCommit_eq_ok {s : State} {l : LineId} :
    s.judgeLineCommit l = .ok ↔
      (s.lineModeChanged l = true ∨ s.lineRouteChanged l = true → s.paused = true ∧ s.inStack l = false) ∧
      s.claimsLine l = false ∧
      (s.lineModeChanged l = true →
        (s.staging.lineMode = .sole → s.ownerCount l < 2) ∧ s.lineBreaksPins l s.staging.lineMode = false) := by
  simp only [State.judgeLineCommit, ite_refused_eq_ok, ne_eq, reduceCtorEq, not_false_eq_true, Bool.and_eq_true,
    Bool.or_eq_true, Bool.not_eq_true', Bool.not_eq_true, beq_iff_eq, decide_eq_true_eq, and_true, not_and]
  constructor
  · intro ⟨hpaused, hclaim, hstack, howners, hpins⟩
    refine ⟨fun h => ⟨by simpa using hpaused h, hstack h⟩, hclaim, fun hm => ⟨fun hsole => ?_, hpins hm⟩⟩
    exact Nat.lt_of_not_le (howners ⟨hm, hsole⟩)
  · intro ⟨hprotected, hclaim, hfits⟩
    refine ⟨fun h => by simp [(hprotected h).1], hclaim, fun h => (hprotected h).2, fun ⟨hm, hsole⟩ => ?_,
      fun hm => (hfits hm).2⟩
    exact Nat.not_le_of_lt ((hfits hm).1 hsole)

/-- Settles O37: the tests in their order, each read off the raw fields. -/
theorem lineCommitRefusals : Obligations.LineCommitRefusals := by
  unfold Obligations.LineCommitRefusals
  intro s l hheld htable hindex refuses mode newMode newRoute crowded mismatched
  have hrefuses : ∀ r, r ≠ .ok → s.judgeLineCommit l = r → refuses r := fun r hr hj => by
    simp only [refuses]
    rw [exec_commit, State.registerDone_of_free hheld,
      State.tableCommand_refused ((State.judgeCommand_commit_line htable hindex).trans hj) hr]
    rfl
  have hmode : s.lineModeChanged l = true ↔ newMode := State.lineModeChanged_eq_true
  have hroute : s.lineRouteChanged l = true ↔ newRoute := State.lineRouteChanged_eq_true
  have hchanged : newMode ∨ newRoute → (s.lineModeChanged l || s.lineRouteChanged l) = true := fun h => by
    rwa [Bool.or_eq_true, hmode, hroute]
  refine ⟨fun hnew hrun => ?_, fun hm hr hclaim => ?_, fun hpaused => ?_⟩
  · refine hrefuses .notPaused nofun ?_
    simp [State.judgeLineCommit, hchanged hnew, State.paused_eq_false.mpr hrun]
  · refine hrefuses .busy nofun ?_
    rw [← hmode, Bool.not_eq_true] at hm
    rw [← hroute, Bool.not_eq_true] at hr
    simp [State.judgeLineCommit, hm, hr, State.claimsLine_eq_true.mpr hclaim]
  · have hpaused' := State.paused_eq_true.mpr hpaused
    have hfree := State.claimsLine_eq_false.mpr (State.not_lineClaimed_of_paused (l := l) hpaused)
    refine ⟨fun hnew hstack => ?_, fun hnew hstack => ⟨fun hcrowded => ?_, fun hcrowded hpins => ?_⟩⟩
    · refine hrefuses .inService nofun ?_
      simp [State.judgeLineCommit, hpaused', hfree, hchanged hnew, State.inStack_eq_true.mpr hstack]
    all_goals
      rw [← State.inStack_eq_true, Bool.not_eq_true] at hstack
    · refine hrefuses .soleConflict nofun ?_
      obtain ⟨hsole, howners⟩ : s.staging.lineMode = .sole ∧ 2 ≤ s.ownerCount l := hcrowded
      simp [State.judgeLineCommit, hpaused', hfree, hstack, hmode.mpr hnew, hsole, howners]
    · refine hrefuses .pinMismatch nofun ?_
      have hcrowded' : ¬ (s.staging.lineMode = .sole ∧ 2 ≤ s.ownerCount l) := hcrowded
      have hpins' : s.lineBreaksPins l s.staging.lineMode = true := State.lineBreaksPins_eq_true.mpr hpins
      simp [State.judgeLineCommit, hpaused', hfree, hstack, hmode.mpr hnew, hcrowded', hpins']

/-! ### What it leaves -/

/-- The line after a mode commit, field by field (R75, R76). -/
theorem State.commitLine_line_mode_fields {s : State} {l : LineId} (hnew : s.staging.lineMode ≠ (s.line l).mode) :
    let was := s.line l
    let now := (s.commitLine l).line l
    now.mode = s.staging.lineMode ∧ now.route = s.staging.route ∧ now.masked = s.staging.masked ∧
    now.priority = s.staging.priority ∧
    (∀ n : Nat, n < 24 → (now.contributors.getLsbD n = true ↔
      was.contributors.getLsbD n = true ∧ was.mode.isLevel = true ∧ s.staging.lineMode.isLevel = true)) ∧
    (now.contributors.getLsbD 24 = true ↔ s.staging.lineMode.isLevel = true ∧ s.localActive l = true) ∧
    (was.mode = .edge → now.latch = false ∧ now.repeatCount = 0 ∧ now.lastEdge = 31#5) ∧
    (was.mode ≠ .edge →
      now.latch = was.latch ∧ now.repeatCount = was.repeatCount ∧ now.lastEdge = was.lastEdge) := by
  intro was now
  have hset : now = (was.commit s.staging).setMember 24 (s.localActive l) := State.commitLine_line_mode hnew
  have hnow : now = { was.commit s.staging with contributors := now.contributors } := s.commitLine_line_self l
  refine ⟨?_, ?_, ?_, ?_, fun n hn => ?_, ?_, fun hedge => ?_, fun hedge => ?_⟩
  · rw [hnow]; exact was.commit_mode _
  · rw [hnow]; rfl
  · rw [hnow]; rfl
  · rw [hnow]; rfl
  · have hremote : now.contributors.getLsbD n = (was.commit s.staging).contributors.getLsbD n := by
      rw [hset]
      exact LineEntry.setMember_local_getLsbD _ _ ⟨n, hn⟩
    have hkept : (was.commit s.staging).contributors = _ := LineEntry.setMode_contributors hnew
    rw [hremote, hkept]
    by_cases hlevel : was.mode.isLevel = true ∧ s.staging.lineMode.isLevel = true
    · simp [hlevel]
    · rw [← Bool.and_eq_true] at hlevel ⊢
      simp [hlevel]
  · rw [hset, LineEntry.setMember_getLsbD_local (LineEntry.commit_local_of_not_level hnew), LineEntry.commit_mode,
      Bool.and_eq_true]
  · have hmode : was.setMode s.staging.lineMode = _ := LineEntry.setMode_of_edge hnew hedge
    rw [hnow, LineEntry.commit, hmode]
    exact ⟨rfl, rfl, rfl⟩
  · have hmode : was.setMode s.staging.lineMode = _ := LineEntry.setMode_of_not_edge hnew hedge
    rw [hnow, LineEntry.commit, hmode]
    exact ⟨rfl, rfl, rfl⟩

/-- Settles O40. -/
theorem lineCommitWritesTheEntry : Obligations.LineCommitWritesTheEntry := by
  unfold Obligations.LineCommitWritesTheEntry
  intro s l hheld htable hindex was mode route level hprotected hclaim hfits
  have hlevel : ∀ m : LineMode, m.isLevel = true ↔ level m := fun _ => LineMode.isLevel_eq_true
  have hj : s.judgeCommand .commit = .ok := by
    rw [State.judgeCommand_commit_line htable hindex, State.judgeLineCommit_eq_ok]
    refine ⟨fun hnew => ?_, State.claimsLine_eq_false.mpr hclaim, fun hnew => ?_⟩
    · have hnew' : mode ≠ was.mode ∨ route ≠ was.route :=
        hnew.imp State.lineModeChanged_eq_true.mp bne_iff_ne.mp
      obtain ⟨hpaused, hstack⟩ := hprotected hnew'
      exact ⟨State.paused_eq_true.mpr hpaused, State.inStack_eq_false.mpr hstack⟩
    · obtain ⟨howners, hpins⟩ := hfits (State.lineModeChanged_eq_true.mp hnew)
      refine ⟨howners, ?_⟩
      rw [Bool.eq_false_iff, Ne, State.lineBreaksPins_eq_true]
      rintro ⟨p, htarget, ⟨hp, hbad⟩ | ⟨hp, hbad⟩⟩
      · rcases (hpins p htarget).1 hp with h | h <;> rcases hbad with hbad | hbad <;> cases h.symm.trans hbad
      · exact hbad ((hpins p htarget).2 hp)
  have hperform : s.perform .commit = s.commitLine l := by
    simp only [State.perform, State.performCommit, selectedEntry_line htable hindex]
  have hu : s.commitLine l =
      { s with sources := (s.commitLine l).sources, lines := (s.commitLine l).lines } := by
    rw [State.commitLine_eq]
  obtain ⟨-, hline, hmonitor, hframe⟩ := State.tableCommand_spec hj hperform hu
  have hsources : ((s.tableCommand .commit).answer .done 0).sources = s.sources := by
    rw [State.answer_sources, State.tableCommand_done hj, hperform, State.propagate_sources, State.setTstat_sources,
      State.commitLine_eq]
  rw [hsources] at hframe
  refine ⟨(s.tableCommand .commit).answer .done 0, ?_, fun hsame => ?_, fun hnew => ?_, fun m hm => ?_, hmonitor,
    hframe⟩
  · rw [exec_commit, State.registerDone_of_free hheld]
  · have hsame' : s.staging.lineMode = (s.line l).mode := hsame
    rw [hline, State.commitLine_line_hot hsame', LineEntry.commit, hsame', LineEntry.setMode_of_same]
    rfl
  · rw [hline]
    simp only [← hlevel]
    exact State.commitLine_line_mode_fields hnew
  · rw [hline, State.commitLine_line_ne s hm]

end Sys2Proof.Machine
end

