-- ==== Sys2Proof/Proofs/LineLaws.lean ====
section
/-! Three laws about the line table, each as a `LineLaw`: a line in service stays served, a line holds only state that
its mode can use, a SOLE line has at most one owner. Settles the three. -/

namespace Sys2Proof.Machine

open Sys2Proof.Safety

/-! ### What the three COMMITs leave of lines, stack and owners -/

/-- A COMMIT to a line moves mode and route of that line to the staged ones, and of no other. -/
theorem State.commitLine_mode_route (s : State) (l m : LineId) :
    (((s.commitLine l).line m).mode = if m = l then s.staging.lineMode else (s.line m).mode) ∧
    (((s.commitLine l).line m).route = if m = l then s.staging.route else (s.line m).route) := by
  by_cases h : m = l
  · rw [h, State.commitLine_line_self, if_pos rfl, if_pos rfl]
    exact ⟨LineEntry.commit_mode .., rfl⟩
  · rw [State.commitLine_line_ne s h, if_neg h, if_neg h]
    exact ⟨rfl, rfl⟩

/-- The lines and the stack of a COMMIT to a pin entry change as the frame allows, whatever it does to the owners. -/
theorem LineFrame.commitPin {s : State} {p : PinId} {mode : PinMode} (h : s.staging.pinMode = some mode) :
    LineFrame (s.setPin p ⟨mode, s.staging.target⟩) (s.commitPin p) := by
  simp only [State.commitPin, h]
  exact (LineFrame.recomputeLocal _ _).trans (.recomputeLocal _ _)

theorem State.commitPin_of_none {s : State} (h : s.staging.pinMode = none) (p : PinId) : s.commitPin p = s := by
  simp only [State.commitPin, h]

/-! ### A line in service stays served (R76, R77, R81, R87) -/

theorem stackedLinesServed_iff {s : State} :
    StackedLinesServed s ↔ ∀ l, s.inStack l = true → (s.line l).route = .service ∧ (s.line l).mode ≠ .off := by
  constructor
  · intro h l hl
    obtain ⟨e, he, rfl⟩ := State.inStack_eq_true.mp hl
    exact h e he
  · intro h e he
    exact h e.line (State.inStack_eq_true.mpr ⟨e, he, rfl⟩)

theorem LineFrame.stackedLinesServed {s t : State} (h : LineFrame s t) (hs : StackedLinesServed s) :
    StackedLinesServed t := by
  rw [stackedLinesServed_iff] at hs ⊢
  intro l hl
  rw [(h.line l).route, (h.line l).mode]
  exact hs l (h.stack l hl)

/-- A deliverable line is routed SERVICE and, since it requests, not OFF (R73, R83). -/
theorem State.served_of_deliverable {s : State} {l : LineId} (h : s.deliverable l = true) :
    (s.line l).route = .service ∧ (s.line l).mode ≠ .off := by
  simp only [State.deliverable, Bool.and_eq_true, beq_iff_eq] at h
  obtain ⟨⟨⟨⟨hroute, hrequesting⟩, -⟩, -⟩, -⟩ := h
  refine ⟨hroute, fun hoff => ?_⟩
  simp [LineEntry.requesting, hoff] at hrequesting

/-- A COMMIT that passes its tests changes neither mode nor route of a line in service (R149, R154). -/
theorem State.commit_keeps_of_inStack {s : State} {l : LineId} (hj : s.judgeLineCommit l = .ok)
    (hl : s.inStack l = true) : s.staging.lineMode = (s.line l).mode ∧ s.staging.route = (s.line l).route := by
  obtain ⟨hprotected, -⟩ := State.judgeLineCommit_eq_ok.mp hj
  have hnot : ¬ (s.lineModeChanged l = true ∨ s.lineRouteChanged l = true) := fun h => by
    rw [(hprotected h).2] at hl
    cases hl
  simpa [State.lineModeChanged, State.lineRouteChanged] using hnot

theorem stackedLinesServed_commitLine {s : State} {l : LineId} (hj : s.judgeLineCommit l = .ok)
    (h : StackedLinesServed s) : StackedLinesServed (s.commitLine l) := by
  rw [stackedLinesServed_iff] at h ⊢
  intro m hm
  have hstack : s.inStack m = true := by rwa [State.commitLine_eq] at hm
  obtain ⟨hmode, hroute⟩ := s.commitLine_mode_route l m
  rw [hmode, hroute]
  by_cases hml : m = l
  · obtain ⟨hsameMode, hsameRoute⟩ := State.commit_keeps_of_inStack hj (hml ▸ hstack)
    rw [if_pos hml, if_pos hml, hsameMode, hsameRoute]
    exact hml ▸ h m hstack
  · rw [if_neg hml, if_neg hml]
    exact h m hstack

theorem lineLaw_stackedLinesServed : LineLaw StackedLinesServed where
  work h := h.watchSummary.stackedLinesServed
  adopt s p := (LineFrame.adopt s p _).stackedLinesServed
  push s l hl h e he := by
    rcases List.mem_append.mp he with he | he
    · exact h e he
    · have hserved := State.served_of_deliverable hl
      rw [List.mem_singleton.mp he]
      exact hserved
  commitSource _ _ _ h := h
  commitLine _ _ := stackedLinesServed_commitLine
  commitPin s p _ h := by
    cases hm : s.staging.pinMode with
    | none => rwa [State.commitPin_of_none hm]
    | some mode => exact (LineFrame.commitPin hm).stackedLinesServed h
  reset {t} _ hstack := by
    intro e he
    rw [hstack] at he
    cases he

/-- Settles O8. -/
theorem stepKeepsStackedLinesServed : Obligations.StepKeepsStackedLinesServed := by
  unfold Obligations.StepKeepsStackedLinesServed
  exact fun s t h hstep => lineLaw_stackedLinesServed.kept.step h hstep

/-! ### A line holds only state that its mode can use (R63, R70, R71) -/

theorem lineStateByMode_iff {s : State} : LineStateByMode s ↔ ∀ l, (s.line l).StateByMode := Iff.rfl

theorem LineFrame.lineStateByMode {s t : State} (h : LineFrame s t) (hs : LineStateByMode s) : LineStateByMode t :=
  lineStateByMode_iff.mpr fun l => (h.line l).stateByMode (lineStateByMode_iff.mp hs l)

/-- A new mode empties the set of a former level line and clears the latch of a former EDGE line (R75). -/
theorem LineEntry.StateByMode.setMode {e : LineEntry} (h : e.StateByMode) (mode : LineMode) :
    (e.setMode mode).StateByMode := by
  by_cases hnew : mode = e.mode
  · rwa [hnew, LineEntry.setMode_of_same]
  by_cases hedge : e.mode = .edge
  · rw [LineEntry.setMode_of_edge hnew hedge]
    exact ⟨fun _ => rfl, fun _ => rfl, iff_of_true rfl rfl, fun _ => rfl⟩
  · obtain ⟨-, hlatch, hrest⟩ := h
    rw [LineEntry.setMode_of_not_edge hnew hedge]
    exact ⟨fun hm => by simp [show mode.isLevel = false from hm], fun _ => hlatch hedge, hrest⟩

theorem LineEntry.StateByMode.commit {e : LineEntry} (h : e.StateByMode) (t : Staging) : (e.commit t).StateByMode :=
  h.setMode t.lineMode

theorem lineStateByMode_commitLine {s : State} (l : LineId) (h : LineStateByMode s) :
    LineStateByMode (s.commitLine l) := by
  rw [lineStateByMode_iff] at h ⊢
  intro m
  by_cases hml : m = l
  · subst hml
    by_cases hm : s.staging.lineMode = (s.line m).mode
    · rw [State.commitLine_line_hot hm]
      exact (h m).commit _
    · rw [State.commitLine_line_mode hm]
      exact (LineEntry.sameUse_setMember ..).stateByMode ((h m).commit _)
  · rw [State.commitLine_line_ne s hml]
    exact h m

theorem LineEntry.stateByMode_reset : LineEntry.reset.StateByMode :=
  ⟨fun _ => rfl, fun _ => rfl, iff_of_true rfl rfl, fun _ => rfl⟩

theorem State.line_of_reset {t : State} (h : t.lines = State.reset.lines) (l : LineId) :
    t.line l = LineEntry.reset := by
  simp [State.line, h, State.reset]

theorem lineLaw_lineStateByMode : LineLaw LineStateByMode where
  work h := h.watchSummary.lineStateByMode
  adopt s p := (LineFrame.adopt s p _).lineStateByMode
  push _ _ _ h := h
  commitSource _ _ _ h := h
  commitLine _ l _ := lineStateByMode_commitLine l
  commitPin s p _ h := by
    cases hm : s.staging.pinMode with
    | none => rwa [State.commitPin_of_none hm]
    | some mode => exact (LineFrame.commitPin hm).lineStateByMode h
  reset {t} hlines _ := lineStateByMode_iff.mpr fun l => by
    rw [State.line_of_reset hlines]
    exact LineEntry.stateByMode_reset

/-- Settles O9: the law holds entry by entry, and each effect keeps it of the entry that it writes. -/
theorem stepKeepsLineStateByMode : Obligations.StepKeepsLineStateByMode := by
  unfold Obligations.StepKeepsLineStateByMode
  exact fun s t h hstep => lineLaw_lineStateByMode.kept.step h hstep

/-! ### A SOLE line has at most one owner (R64, R65) -/

/-- The owners of a line are read off the ownership sets and the pin table (R64). -/
theorem State.owns_congr {s t : State} (hown : ∀ k, (t.source k).ownership = (s.source k).ownership)
    (hpins : t.pins = s.pins) : t.owns = s.owns := by
  funext l n
  simp only [State.owns, State.localOwns, State.pin, hpins, hown]

theorem State.ownerCount_mono {s t : State} {l : LineId} (h : ∀ n, t.owns l n = true → s.owns l n = true) :
    t.ownerCount l ≤ s.ownerCount l :=
  List.countP_mono_left fun n _ => h n

/-- A line whose owners all are the source code `n` has at most one. -/
theorem State.ownerCount_le_one {s : State} {l : LineId} {n : Nat} (h : ∀ m < 25, s.owns l m = true → m = n) :
    s.ownerCount l ≤ 1 :=
  calc s.ownerCount l ≤ (List.range 25).countP (· == n) :=
        List.countP_mono_left fun m hm ho => beq_iff_eq.mpr (h m (List.mem_range.mp hm) ho)
    _ ≤ 1 := List.nodup_iff_count_le_one.mp List.nodup_range n

/-- No line changes its mode, and no owner changes. -/
theorem soleOneOwner_of_same {s t : State} (hmode : ∀ l, (t.line l).mode = (s.line l).mode)
    (howns : t.owns = s.owns) (h : SoleOneOwner s) : SoleOneOwner t := by
  intro l hsole
  rw [hmode] at hsole
  rw [State.ownerCount, howns]
  exact h l hsole

theorem LineFrame.soleOneOwner {s t : State} (h : LineFrame s t) : SoleOneOwner s → SoleOneOwner t :=
  soleOneOwner_of_same (fun l => (h.line l).mode) (State.owns_congr h.ownership h.pins)

theorem State.setSource_owns (s : State) (k : RemoteId) (e : SourceEntry) (l : LineId) (n : Nat) :
    (s.setSource k e).owns l n = if n = k.val then e.ownership.getLsbD l.val else s.owns l n := by
  have hlocal : (s.setSource k e).localOwns = s.localOwns := rfl
  unfold State.owns
  by_cases hn : n < 24
  · rw [dif_pos hn, dif_pos hn, State.source_setSource]
    by_cases hk : n = k.val
    · rw [if_pos (Fin.ext hk), if_pos hk]
    · rw [if_neg fun h => hk (congrArg Fin.val h), if_neg hk]
  · rw [dif_neg hn, dif_neg hn, if_neg (by omega), hlocal]

/-- A COMMIT to a source that passes its tests takes a SOLE line only where no other owner stands (R149, R153). -/
theorem State.no_other_owner_of_commit {s : State} {k : RemoteId} {l : LineId} (hj : s.judgeSourceCommit k = .ok)
    (hchanged : s.staging.ownership ≠ (s.source k).ownership) (hstaged : s.staging.ownership.getLsbD l.val = true)
    (hsole : (s.line l).mode = .sole) {n : Nat} (hn : n < 25) (howns : s.owns l n = true) : n = k.val := by
  by_contra hne
  have hbreaks : s.sourceBreaksSole k = true := by
    simp only [State.sourceBreaksSole, List.any_eq_true, List.mem_finRange, List.mem_range, Bool.and_eq_true,
      beq_iff_eq, bne_iff_ne, true_and]
    exact ⟨l, ⟨hstaged, hsole⟩, n, hn, hne, howns⟩
  have hsource : s.sourceChanged k = true := by
    simp [State.sourceChanged, State.ownershipChanged, hchanged]
  simp only [State.judgeSourceCommit, hsource, hbreaks, ite_refused_eq_ok, ne_eq, reduceCtorEq, not_false_eq_true,
    Bool.and_self, if_true, and_false] at hj

theorem soleOneOwner_commitSource {s : State} {k : RemoteId} (hj : s.judgeSourceCommit k = .ok)
    (h : SoleOneOwner s) : SoleOneOwner (s.setSource k ((s.source k).commit s.staging)) := by
  have hown : ((s.source k).commit s.staging).ownership = s.staging.ownership := by
    rw [SourceEntry.commit_eq]
    rfl
  have howns := s.setSource_owns k ((s.source k).commit s.staging)
  simp only [hown] at howns
  intro l hsole
  have hsole' : (s.line l).mode = .sole := hsole
  by_cases hnew : s.staging.ownership ≠ (s.source k).ownership ∧ s.staging.ownership.getLsbD l.val = true
  · obtain ⟨hchanged, hstaged⟩ := hnew
    refine State.ownerCount_le_one (n := k.val) fun n hn ho => ?_
    by_contra hne
    rw [howns, if_neg hne] at ho
    exact hne (State.no_other_owner_of_commit hj hchanged hstaged hsole' hn ho)
  · refine (State.ownerCount_mono fun n hn => ?_).trans (h l hsole')
    rw [howns] at hn
    split at hn
    · next hk =>
      have hsame : s.staging.ownership = (s.source k).ownership := not_not.mp fun hc => hnew ⟨hc, hn⟩
      rwa [hk, State.owns_remote, ← hsame]
    · exact hn

/-- A COMMIT to a line that passes its tests makes it SOLE only with fewer than two owners (R149, R154). -/
theorem soleOneOwner_commitLine {s : State} {l : LineId} (hj : s.judgeLineCommit l = .ok) (h : SoleOneOwner s) :
    SoleOneOwner (s.commitLine l) := by
  obtain ⟨-, -, hfits⟩ := State.judgeLineCommit_eq_ok.mp hj
  have hcount : ∀ m, (s.commitLine l).ownerCount m = s.ownerCount m := fun m => by
    rw [State.commitLine_eq]
    rfl
  intro m hsole
  rw [hcount]
  rw [(s.commitLine_mode_route l m).1] at hsole
  split at hsole
  · next hml =>
    subst hml
    by_cases hm : s.staging.lineMode = (s.line m).mode
    · exact h m (hm ▸ hsole)
    · exact Nat.le_of_lt_succ ((hfits (State.lineModeChanged_eq_true.mpr hm)).1 hsole)
  · exact h m hsole

/-- A COMMIT to a pin entry that passes its tests targets a SOLE line that no remote source owns, or changes nothing
of the entry (R149, R155). -/
theorem State.unowned_of_commitPin {s : State} {p : PinId} {mode : PinMode} (hj : s.judgePinCommit p = .ok)
    (hmode : s.staging.pinMode = some mode) (hoff : mode ≠ .off)
    (hsole : (s.line s.staging.target).mode = .sole) :
    s.pin p = ⟨mode, s.staging.target⟩ ∨ s.remoteOwned s.staging.target = false := by
  cases hchanged : s.pinChanged p with
  | false =>
    simp only [State.pinChanged, hmode, Bool.or_eq_false_iff, bne_eq_false_iff_eq, Option.some.injEq] at hchanged
    exact .inl (by rw [hchanged.1, hchanged.2])
  | true =>
    refine .inr ?_
    rw [← Bool.not_eq_true]
    intro howned
    have hconflict : s.judgePinMode mode s.staging.target = .soleConflict := by
      simp [State.judgePinMode, hoff, hsole, howned]
    simp [State.judgePinCommit, hchanged, hmode, hconflict, ite_refused_eq_ok] at hj

theorem State.setPin_localOwns {s : State} {p : PinId} {e : PinEntry} {l : LineId}
    (h : (s.setPin p e).localOwns l = true) : s.localOwns l = true ∨ e.mode ≠ .off ∧ e.target = l := by
  obtain ⟨q, hq, htarget⟩ := State.localOwns_eq_true.mp h
  rw [State.pin_setPin] at hq htarget
  split at hq
  · next hqp => exact .inr ⟨hq, by rwa [if_pos hqp] at htarget⟩
  · next hqp => exact .inl (State.localOwns_eq_true.mpr ⟨q, hq, by rwa [if_neg hqp] at htarget⟩)

/-- A pin entry is the local source's alone: the other owners stay. -/
theorem State.setPin_owns {s : State} {p : PinId} {e : PinEntry} {l : LineId} {n : Nat}
    (h : (s.setPin p e).owns l n = true) : s.owns l n = true ∨ n = 24 ∧ e.mode ≠ .off ∧ e.target = l := by
  unfold State.owns at h ⊢
  by_cases hn : n < 24
  · rw [dif_pos hn] at h ⊢
    exact .inl h
  · rw [dif_neg hn, Bool.and_eq_true, beq_iff_eq] at h ⊢
    obtain ⟨hlocal, howns⟩ := h
    exact (State.setPin_localOwns howns).imp (⟨hlocal, ·⟩) (⟨hlocal, ·⟩)

theorem soleOneOwner_setPin {s : State} {p : PinId} {mode : PinMode} (hj : s.judgePinCommit p = .ok)
    (hmode : s.staging.pinMode = some mode) (h : SoleOneOwner s) :
    SoleOneOwner (s.setPin p ⟨mode, s.staging.target⟩) := by
  intro l hsole
  have hsole' : (s.line l).mode = .sole := hsole
  by_cases hlocal : s.localOwns l = true ∨ ¬ (mode ≠ .off ∧ s.staging.target = l)
  · refine (State.ownerCount_mono fun n hn => ?_).trans (h l hsole')
    obtain hn | ⟨rfl, hnew⟩ := State.setPin_owns hn
    · exact hn
    · rw [State.owns_local]
      exact hlocal.resolve_right fun hno => hno hnew
  · simp only [not_or, not_not] at hlocal
    obtain ⟨hnotLocal, hoff, rfl⟩ := hlocal
    have hunowned : s.remoteOwned s.staging.target = false := by
      refine (State.unowned_of_commitPin hj hmode hoff hsole').resolve_left fun hsame => hnotLocal ?_
      exact State.localOwns_eq_true.mpr ⟨p, by rwa [hsame], by rw [hsame]⟩
    refine State.ownerCount_le_one (n := 24) fun n hn ho => ?_
    obtain ho | ⟨hn24, -⟩ := State.setPin_owns ho
    · by_contra hne
      have howned : s.remoteOwned s.staging.target = true :=
        List.any_eq_true.mpr ⟨n, List.mem_range.mpr (by omega), ho⟩
      rw [hunowned] at howned
      cases howned
    · exact hn24

theorem lineLaw_soleOneOwner : LineLaw SoleOneOwner where
  work h := h.watchSummary.soleOneOwner
  adopt s p := (LineFrame.adopt s p _).soleOneOwner
  push _ _ _ h := h
  commitSource _ _ := soleOneOwner_commitSource
  commitLine _ _ := soleOneOwner_commitLine
  commitPin s p hj h := by
    cases hm : s.staging.pinMode with
    | none => rwa [State.commitPin_of_none hm]
    | some mode => exact (LineFrame.commitPin hm).soleOneOwner (soleOneOwner_setPin hj hm h)
  reset {t} hlines _ := by
    intro l hsole
    rw [State.line_of_reset hlines] at hsole
    cases hsole

/-- Settles O13. -/
theorem stepKeepsSoleOneOwner : Obligations.StepKeepsSoleOneOwner := by
  unfold Obligations.StepKeepsSoleOneOwner
  refine ⟨fun s l => ?_, fun s t h hstep => lineLaw_soleOneOwner.kept.step h hstep⟩
  refine ⟨fun hlocal => ?_, fun hlocal => ?_⟩
  · rw [State.ownerCount_eq, if_pos (State.localOwns_eq_true.mpr hlocal)]
  · rw [State.ownerCount_eq, if_neg (mt State.localOwns_eq_true.mp hlocal)]
    rfl

end Sys2Proof.Machine
end

