-- ==== Sys2Proof/Proofs/LocalMembership.lean ====
section
/-! The local source's membership follows the active pin entries (R68, R128). A change of one filtered level or of the
summary reaches one pin entry, and the recomputation of that entry's target line restores the law
(`State.LocalFollows.pinLevelChanged`). Settles the law, as a `LineLaw`. -/

namespace Sys2Proof.Machine

open Sys2Proof.Safety

/-! ### Which entries are active (R128) -/

/-- An entry that is in no level mode is inactive at every level. -/
theorem State.pinActive_of_not_level {s : State} {p : PinId} (h : (s.pin p).mode.isLevel = false) :
    s.pinActive p = false := by
  unfold State.pinActive
  cases hm : (s.pin p).mode <;> simp_all [PinMode.isLevel]

theorem State.pinActive_congr {s t : State} {p : PinId} (hpin : t.pin p = s.pin p)
    (hlevel : t.pinLevel p = s.pinLevel p) : t.pinActive p = s.pinActive p := by
  unfold State.pinActive
  rw [hpin, hlevel]

/-- The activity of the entries that target a line decides. -/
theorem State.localActive_eq_of_pins {s t : State} {l : LineId}
    (htarget : ∀ p, (t.pin p).target = l ↔ (s.pin p).target = l)
    (hactive : ∀ p, (s.pin p).target = l → t.pinActive p = s.pinActive p) : t.localActive l = s.localActive l := by
  rw [Bool.eq_iff_iff, State.localActive_eq_true, State.localActive_eq_true]
  refine exists_congr fun p => ?_
  rw [htarget]
  exact and_congr_right fun hp => by rw [hactive p hp]

/-- The level of entry 0 to 7 is its filter's, of entry 8 the summary (R124, R127). -/
theorem State.pinLevel_eq_of_filters {s t : State} {p : PinId} (hfilters : ∀ n, (t.filter n).level = (s.filter n).level)
    (hsummary : p = 8 → t.summary = s.summary) : t.pinLevel p = s.pinLevel p := by
  unfold State.pinLevel
  by_cases hp : p.val < 8
  · rw [dif_pos hp, dif_pos hp, hfilters]
  · rw [dif_neg hp, dif_neg hp, hsummary (Fin.ext (by omega))]

/-! ### The law, line by line -/

/-- R68 for one line. -/
def State.LocalFollows (s : State) (l : LineId) : Prop :=
  (s.line l).contributors.getLsbD 24 = ((s.line l).mode.isLevel && s.localActive l)

theorem localFollowsPins_iff {s : State} : LocalFollowsPins s ↔ ∀ l, s.LocalFollows l := Iff.rfl

theorem State.LocalFollows.congr {s t : State} {l : LineId} (h : s.LocalFollows l)
    (hmode : (t.line l).mode = (s.line l).mode)
    (hmember : (t.line l).contributors.getLsbD 24 = (s.line l).contributors.getLsbD 24)
    (hactive : t.localActive l = s.localActive l) : t.LocalFollows l := by
  rw [State.LocalFollows, hmode, hmember, hactive]
  exact h

/-- A line that is not SHARED or SOLE does not hold the local source. -/
def LineEntry.LocalIdle (e : LineEntry) : Prop := e.mode.isLevel = false → e.contributors.getLsbD 24 = false

theorem State.LocalFollows.localIdle {s : State} {l : LineId} (h : s.LocalFollows l) : (s.line l).LocalIdle :=
  fun hm => by rw [h, hm]; rfl

theorem LineEntry.LocalIdle.congr {e e' : LineEntry} (h : e.LocalIdle) (hmode : e'.mode = e.mode)
    (hmember : e'.contributors.getLsbD 24 = e.contributors.getLsbD 24) : e'.LocalIdle := by
  rw [LineEntry.LocalIdle, hmode, hmember]
  exact h

theorem State.localIdle_recomputeLocal {s : State} {m l : LineId} (h : (s.line l).LocalIdle) :
    ((s.recomputeLocal m).line l).LocalIdle := by
  rw [State.line_recomputeLocal]
  split
  · intro hm
    rw [(LineEntry.sameUse_setMember ..).mode] at hm
    rw [LineEntry.setMember_of_not_level hm]
    exact h hm
  · exact h

/-- The recomputation of a line makes the law hold of it, and changes no other line. -/
theorem State.LocalFollows.recomputeLocal {s : State} {m l : LineId} (hidle : (s.line l).LocalIdle)
    (h : l ≠ m → s.LocalFollows l) : (s.recomputeLocal m).LocalFollows l := by
  by_cases hl : l = m
  · rw [State.LocalFollows, State.line_recomputeLocal, if_pos hl, State.recomputeLocal_localActive,
      (LineEntry.sameUse_setMember ..).mode]
    exact LineEntry.setMember_getLsbD_local hidle _
  · refine (h hl).congr ?_ ?_ (State.recomputeLocal_localActive ..) <;> rw [State.line_recomputeLocal, if_neg hl]

/-- The level of one pin entry changes, and the membership of its target line is recomputed. -/
theorem State.LocalFollows.pinLevelChanged {s t : State} (q : PinId) {l : LineId} (h : s.LocalFollows l)
    (hmode : (t.line l).mode = (s.line l).mode)
    (hmember : (t.line l).contributors.getLsbD 24 = (s.line l).contributors.getLsbD 24)
    (hpins : t.pins = s.pins) (hlevel : ∀ p, p ≠ q → t.pinLevel p = s.pinLevel p) :
    (t.pinLevelChanged q).LocalFollows l := by
  have hpin : ∀ p, t.pin p = s.pin p := fun p => by simp only [State.pin, hpins]
  have hother : ((t.pin q).mode.isLevel = true → l ≠ (t.pin q).target) → t.LocalFollows l := fun hq => by
    refine h.congr hmode hmember (State.localActive_eq_of_pins (fun p => by rw [hpin]) fun p hp => ?_)
    by_cases hpq : p = q
    · subst hpq
      have hnot : (s.pin p).mode.isLevel = false := by
        rw [hpin] at hq
        rw [← Bool.not_eq_true]
        exact fun hm => hq hm hp.symm
      rw [State.pinActive_of_not_level hnot, State.pinActive_of_not_level (by rwa [hpin])]
    · exact State.pinActive_congr (hpin p) (hlevel p hpq)
  unfold State.pinLevelChanged
  split
  · exact .recomputeLocal (h.localIdle.congr hmode hmember) fun hl => hother fun _ => hl
  · next hq => exact hother fun hm => absurd hm hq

/-! ### Every step -/

/-- Work on the tables leaves every level but that of entry 8, which the event passes on (R127, R138). -/
theorem localFollowsPins_watchSummary {s t : State} (hwork : LineWork s t) (h : LocalFollowsPins s) :
    LocalFollowsPins (State.watchSummary s t) := by
  rw [localFollowsPins_iff] at h ⊢
  intro l
  by_cases hsum : s.summary = t.summary
  · rw [State.watchSummary_of_eq hsum]
    have hpin : ∀ p, t.pin p = s.pin p := fun p => by simp only [State.pin, hwork.pins]
    refine (h l).congr (hwork.line l).mode (hwork.member l) (State.localActive_eq_of_pins (fun p => by rw [hpin]) ?_)
    exact fun p _ => State.pinActive_congr (hpin p) (State.pinLevel_eq_of_filters hwork.level fun _ => hsum.symm)
  · rw [State.watchSummary_of_ne hsum]
    exact (h l).pinLevelChanged 8 (hwork.line l).mode (hwork.member l) hwork.pins fun p hp =>
      State.pinLevel_eq_of_filters hwork.level fun h8 => absurd h8 hp

theorem State.pinLevel_setFilter_ne (s : State) {p : PinId} {n : SenseId} (f : PinFilter) (h : p ≠ pinOfSense n) :
    (s.setFilter n f).pinLevel p = s.pinLevel p := by
  unfold State.pinLevel
  by_cases hp : p.val < 8
  · have hne : (⟨p.val, hp⟩ : SenseId) ≠ n := by
      rintro rfl
      exact h rfl
    rw [dif_pos hp, dif_pos hp, State.filter_setFilter, if_neg hne]
  · rw [dif_neg hp, dif_neg hp, State.setFilter_summary]

theorem localFollowsPins_commitLine {s : State} (l : LineId) (h : LocalFollowsPins s) :
    LocalFollowsPins (s.commitLine l) := by
  have hactive : (s.commitLine l).localActive = s.localActive := by
    rw [State.commitLine_eq]
    exact State.localActive_congr rfl rfl rfl
  rw [localFollowsPins_iff] at h ⊢
  intro m
  by_cases hml : m = l
  · subst hml
    by_cases hm : s.staging.lineMode = (s.line m).mode
    · have hcommit : (s.commitLine m).line m = { s.line m with
          route := s.staging.route, masked := s.staging.masked, priority := s.staging.priority } := by
        rw [State.commitLine_line_hot hm, LineEntry.commit, hm, LineEntry.setMode_of_same]
      refine (h m).congr ?_ ?_ (congrFun hactive m) <;> rw [hcommit]
    · rw [State.LocalFollows, hactive, State.commitLine_line_mode hm, (LineEntry.sameUse_setMember ..).mode]
      exact LineEntry.setMember_getLsbD_local (LineEntry.commit_local_of_not_level hm) _
  · refine (h m).congr ?_ ?_ (congrFun hactive m) <;> rw [State.commitLine_line_ne s hml]

/-- The old and the new target of a committed pin entry are recomputed; no other line sees the entry (R132). -/
theorem localFollowsPins_commitPin {s : State} (p : PinId) (h : LocalFollowsPins s) :
    LocalFollowsPins (s.commitPin p) := by
  cases hm : s.staging.pinMode with
  | none => rwa [State.commitPin_of_none hm]
  | some mode =>
    simp only [State.commitPin, hm]
    rw [localFollowsPins_iff] at h ⊢
    intro l
    have hidle : ((s.setPin p ⟨mode, s.staging.target⟩).line l).LocalIdle := (h l).localIdle
    refine .recomputeLocal (State.localIdle_recomputeLocal hidle) fun hnew => .recomputeLocal hidle fun hold => ?_
    refine (h l).congr rfl rfl (State.localActive_eq_of_pins (fun q => ?_) fun q hq => ?_)
    · rw [State.pin_setPin]
      split
      · next hqp => exact iff_of_false hnew.symm (hqp ▸ hold.symm)
      · rfl
    · have hqp : q ≠ p := fun hqp => hold (hqp ▸ hq.symm)
      exact State.pinActive_congr (by rw [State.pin_setPin, if_neg hqp]) rfl

theorem lineLaw_localFollowsPins : LineLaw LocalFollowsPins where
  work := localFollowsPins_watchSummary
  adopt s p h := localFollowsPins_iff.mpr fun l =>
    (localFollowsPins_iff.mp h l).pinLevelChanged (pinOfSense p) rfl rfl rfl fun _ hq => s.pinLevel_setFilter_ne _ hq
  push _ _ _ h := h
  commitSource _ _ _ h := h
  commitLine _ l _ := localFollowsPins_commitLine l
  commitPin _ p _ := localFollowsPins_commitPin p
  reset {t} hlines _ := localFollowsPins_iff.mpr fun l => by
    rw [State.LocalFollows, State.line_of_reset hlines]
    rfl

/-- Settles O12. -/
theorem stepKeepsLocalFollowsPins : Obligations.StepKeepsLocalFollowsPins := by
  unfold Obligations.StepKeepsLocalFollowsPins
  refine ⟨fun s l => ?_, fun m => LineMode.isLevel_eq_true, fun e n => ⟨fun hm b => ?_, fun hm => ?_⟩,
    fun s t h hstep => lineLaw_localFollowsPins.kept.step h hstep⟩
  · simp only [State.localActive_eq_true, State.pinActive_eq_true]
  · refine LineEntry.setMember_of_not_level ?_ n b
    rcases hm with hm | hm <;> rw [hm] <;> rfl
  · have hlevel : e.mode.isLevel = true := LineMode.isLevel_eq_true.mpr hm
    exact ⟨LineEntry.setMember_of_level hlevel n true, LineEntry.setMember_of_level hlevel n false⟩

end Sys2Proof.Machine
end

