-- ==== Sys2Proof/Proofs/Arbiter.lean ====
section
/-! The arbiter (R83 to R85): the order in which the lines stand before it, and its pass over the line table, after
which the best line seen is ahead of every deliverable one. Settles the statement about SREQ and the offer. -/

namespace Sys2Proof.Machine

/-! ### The deliverable test (R83) -/

theorem State.deliverable_eq_true {s : State} {l : LineId} :
    s.deliverable l = true ↔
      (s.line l).route = .service ∧ (s.line l).requesting = true ∧ (s.line l).masked = false ∧
      (∀ e ∈ s.stack, e.line ≠ l) ∧
      ∀ top, s.stack.getLast? = some top → (s.line l).priority.toNat < top.priority.toNat := by
  simp only [State.deliverable, Bool.and_eq_true, Bool.not_eq_true', beq_iff_eq, State.inStack_eq_false,
    State.passesGate_eq_true, and_assoc]

/-! ### The arbiter's order (R84) -/

/-- Line `l` is offered before line `m`: it has the lower priority value, or the lower number among equals. -/
def State.ahead (s : State) (l m : LineId) : Prop :=
  (s.line l).priority.toNat < (s.line m).priority.toNat ∨ ((s.line l).priority = (s.line m).priority ∧ l ≤ m)

theorem State.ahead_refl (s : State) (l : LineId) : s.ahead l l := .inr ⟨rfl, le_rfl⟩

theorem State.ahead_trans {s : State} {l m n : LineId} (hlm : s.ahead l m) (hmn : s.ahead m n) : s.ahead l n := by
  simp only [State.ahead, ← BitVec.toNat_inj, Fin.le_def] at *
  omega

theorem State.ahead_antisymm {s : State} {l m : LineId} (hlm : s.ahead l m) (hml : s.ahead m l) : l = m := by
  simp only [State.ahead, ← BitVec.toNat_inj, Fin.le_def, Fin.ext_iff] at *
  omega

/-- The offer is the first of the deliverable lines. -/
def State.firstDeliverable (s : State) (l : LineId) : Prop :=
  s.deliverable l = true ∧ ∀ m, s.deliverable m = true → s.ahead l m

theorem State.firstDeliverable_unique {s : State} {l m : LineId} (hl : s.firstDeliverable l)
    (hm : s.firstDeliverable m) : l = m :=
  State.ahead_antisymm (hl.2 m hm.1) (hm.2 l hl.1)

/-! ### The arbiter's pass -/

theorem State.better_of_not_deliverable {s : State} {l : LineId} (h : s.deliverable l = false) (best : Option LineId) :
    s.better best l = best := by
  simp [State.better, h]

/-- One candidate more, of a higher number than the best line so far: the line kept is ahead of both. -/
theorem State.better_of_deliverable {s : State} {l : LineId} (h : s.deliverable l = true) {best : Option LineId}
    (hlow : ∀ b, best = some b → b < l) :
    ∃ kept, s.better best l = some kept ∧ kept ≤ l ∧ s.ahead kept l ∧ ∀ b, best = some b → s.ahead kept b := by
  cases best with
  | none => exact ⟨l, by simp [State.better, h], le_rfl, s.ahead_refl l, nofun⟩
  | some b =>
    by_cases hlt : (s.line l).priority.toNat < (s.line b).priority.toNat
    · refine ⟨l, by simp [State.better, h, BitVec.ult, hlt], le_rfl, s.ahead_refl l, fun c hc => ?_⟩
      cases hc
      exact .inl hlt
    · have hbl : b ≤ l := (hlow b rfl).le
      refine ⟨b, by simp [State.better, h, BitVec.ult, hlt], hbl, ?_, fun c hc => ?_⟩
      · simp only [State.ahead, ← BitVec.toNat_inj, hbl, and_true]
        omega
      · cases hc
        exact s.ahead_refl b

/-- After a pass over lines in the order of their numbers, the line kept is ahead of the one before the pass and of every
deliverable line passed. -/
theorem State.foldl_better_ahead {s : State} {l : LineId} :
    ∀ (ls : List LineId) (best : Option LineId), ls.Pairwise (· < ·) → (∀ b, best = some b → ∀ m ∈ ls, b < m) →
      ls.foldl s.better best = some l →
      (∀ b, best = some b → s.ahead l b) ∧ ∀ m ∈ ls, s.deliverable m = true → s.ahead l m
  | [], best, _, _, h => by
    refine ⟨fun b hb => ?_, nofun⟩
    have hbl : b = l := Option.some.inj (hb.symm.trans h)
    rw [hbl]
    exact s.ahead_refl l
  | n :: ls, best, hsorted, hlow, h => by
    obtain ⟨hn, hls⟩ := List.pairwise_cons.mp hsorted
    rw [List.foldl_cons] at h
    cases hd : s.deliverable n with
    | false =>
      rw [State.better_of_not_deliverable hd] at h
      obtain ⟨hbest, hrest⟩ :=
        State.foldl_better_ahead ls best hls (fun b hb m hm => hlow b hb m (List.mem_cons_of_mem n hm)) h
      refine ⟨hbest, fun m hm hdm => ?_⟩
      rcases List.mem_cons.mp hm with rfl | hm
      · simp [hd] at hdm
      · exact hrest m hm hdm
    | true =>
      obtain ⟨kept, hkept, hkn, hahead, hbest⟩ :=
        State.better_of_deliverable hd fun b hb => hlow b hb n List.mem_cons_self
      rw [hkept] at h
      obtain ⟨hlk, hrest⟩ := State.foldl_better_ahead ls (some kept) hls
        (fun b hb m hm => by cases hb; exact lt_of_le_of_lt hkn (hn m hm)) h
      have hlkept : s.ahead l kept := hlk kept rfl
      refine ⟨fun b hb => State.ahead_trans hlkept (hbest b hb), fun m hm hdm => ?_⟩
      rcases List.mem_cons.mp hm with rfl | hm
      · exact State.ahead_trans hlkept hahead
      · exact hrest m hm hdm

theorem State.firstDeliverable_of_offer {s : State} {l : LineId} (h : s.offer = some l) : s.firstDeliverable l :=
  ⟨State.deliverable_of_offer h, fun m hm =>
    (State.foldl_better_ahead _ none (List.pairwise_lt_finRange 32) nofun h).2 m (List.mem_finRange m) hm⟩

theorem State.offer_eq_some {s : State} {l : LineId} : s.offer = some l ↔ s.firstDeliverable l := by
  refine ⟨State.firstDeliverable_of_offer, fun hl => ?_⟩
  have hsome : s.offer.isSome = true := by
    rw [State.offer_isSome, State.sreq_eq_true]
    exact ⟨l, hl.1⟩
  obtain ⟨m, hm⟩ := Option.isSome_iff_exists.mp hsome
  rw [hm, State.firstDeliverable_unique hl (State.firstDeliverable_of_offer hm)]

/-- Settles O44: an offer is the first deliverable line, and there is only one such line. -/
theorem offerIsTheMostUrgentDeliverable : Obligations.OfferIsTheMostUrgentDeliverable := by
  unfold Obligations.OfferIsTheMostUrgentDeliverable
  intro s
  refine ⟨fun l => State.deliverable_eq_true, State.sreq_eq_true, ?_, fun l => State.offer_eq_some⟩
  rw [State.offer_eq_none, ← Bool.not_eq_true, State.sreq_eq_true]
  simp only [not_exists, Bool.not_eq_true]

end Sys2Proof.Machine
end

