-- ==== Sys2Proof/Proofs/Service.lean ====
section
/-! The commands of the service unit (sections 5.3 to 5.5): TAKE, EOS with its four outcomes, the 8 µs boundary and the
close-timer expiry. Settles the statements about them. -/

namespace Sys2Proof.Machine

open Sys2Proof.Safety

/-! ### TAKE (R87 to R90, R117) -/

theorem LineMode.kind_eq (m : LineMode) : m.kind = if m = .edge then .edge else .level := by cases m <;> rfl

/-- The hint source of an EDGE line is the source of its last edge (R89). -/
theorem LineEntry.hint_of_edge {e : LineEntry} (h : e.mode = .edge) : e.hint = e.lastEdge := by
  simp only [LineEntry.hint, h]

/-- The hint source of a requesting line of another mode is its lowest contributor (R89). -/
theorem LineEntry.hint_of_level {e : LineEntry} (hreq : e.requesting = true) (h : e.mode ≠ .edge) :
    e.contributors.getLsbD e.hint.toNat = true ∧ ∀ n < e.hint.toNat, e.contributors.getLsbD n = false := by
  obtain ⟨hedge, -⟩ | ⟨hlevel, hne⟩ := LineEntry.requesting_eq_true.mp hreq
  · exact absurd hedge h
  · have hhint : e.hint = lowestMember e.contributors := by
      rcases hlevel with hm | hm <;> simp only [LineEntry.hint, hm]
    rw [hhint]
    exact lowestMember_spec hne

theorem State.push_depth (s : State) (l : LineId) : (s.push l).depth = BitVec.ofNat 4 (s.stack.length + 1) := by
  simp only [State.depth, State.push_eq, List.length_append, List.length_singleton]

theorem State.push_line (s : State) (l m : LineId) :
    (s.push l).line m = if (s.line l).mode = .edge ∧ m = l then (s.line l).clearLatch else s.line m := by
  by_cases h : (s.line l).mode = .edge
  · simp only [State.push, h, if_true, true_and, State.line_setLine]
    rfl
  · simp only [State.push, h, if_false, false_and]
    rfl

theorem State.watchTake_line (s : State) (l : LineId) : s.watchTake.line l = s.line l := by
  rw [State.watchTake_eq]
  rfl

theorem State.watchTake_sreq (s : State) : s.watchTake.sreq = s.sreq := by
  rw [State.watchTake_eq]
  exact State.sreq_congr rfl rfl

/-- What a VALID TAKE does to the monitor (R117). -/
theorem State.watchTake_monitor (s : State) :
    s.watchTake.monitor =
      match s.monitor with
      | .counting _ | .warned _ => if s.watchTake.sreq then .counting s.intervalTicks else .idle
      | .idle | .tripped _ => s.monitor := by
  rw [State.watchTake_sreq]
  unfold State.watchTake
  cases h : s.monitor <;> simp only [h]

theorem State.take_of_offer {s : State} {l : LineId} (hheld : s.held = false) (h : s.offer = some l) :
    s.take = (s.push l).watchTake.answer .done (takeRecord l (s.line l) (BitVec.ofNat 4 (s.stack.length + 1))) := by
  rw [State.take, hheld, h, ← State.push_depth]
  rfl

theorem State.take_of_none {s : State} (hheld : s.held = false) (h : s.offer = none) :
    s.take = s.answer .done (emptyRecord s.depth) := by
  rw [State.take, hheld, h]
  rfl

/-- What a VALID TAKE leaves unchanged (R87). -/
theorem State.take_frame (s : State) (l : LineId) (record : Word) :
    let t := (s.push l).watchTake.answer .done record
    t = { s with lines := t.lines, stack := t.stack, monitor := t.monitor, reply := t.reply } := by
  dsimp only
  rw [State.watchTake_eq, State.push_eq]
  rfl

/-- Settles O45. -/
theorem takePushesTheOffer : Obligations.TakePushesTheOffer := by
  unfold Obligations.TakePushesTheOffer
  intro s hheld
  refine ⟨?_, fun hoffer => ?_⟩
  · intro l hoffer e edge depth
    have hreq : e.requesting = true := by
      obtain ⟨-, hreq, -⟩ := State.deliverable_eq_true.mp (State.deliverable_of_offer hoffer)
      exact hreq
    have hline : ∀ m, ((s.push l).watchTake.answer .done (takeRecord l e depth)).line m =
        if e.mode = .edge ∧ m = l then e.clearLatch else s.line m := fun m => by
      rw [State.answer_line, State.watchTake_line, State.push_line]
    refine ⟨(s.push l).watchTake.answer .done (takeRecord l e depth), e.hint, ?_, ?_, fun hedge => ⟨?_, ?_, ?_⟩,
      fun hlevel => ⟨?_, ?_, ?_, ?_⟩, fun m hne => ?_, ?_, State.take_frame s l _⟩
    · rw [exec_take, State.take_of_offer hheld hoffer]
    · rw [State.answer_stack, State.watchTake_eq, State.push_eq, LineMode.kind_eq]
    · exact LineEntry.hint_of_edge hedge
    · rw [hline, if_pos ⟨hedge, rfl⟩]
      rfl
    · rw [State.answer_reply, takeRecord_eq, if_pos hedge, LineMode.kind_eq, if_pos hedge]
      rfl
    · exact (LineEntry.hint_of_level hreq hlevel).1
    · exact (LineEntry.hint_of_level hreq hlevel).2
    · rw [hline, if_neg fun h => hlevel h.1]
    · rw [State.answer_reply, takeRecord_eq, if_neg hlevel, LineMode.kind_eq, if_neg hlevel]
      rfl
    · rw [hline, if_neg fun h => hne h.2]
    · rw [State.answer_monitor, State.answer_sreq, State.watchTake_monitor, State.push_eq]
      rfl
  · rw [exec_take, State.take_of_none hheld hoffer, emptyRecord_eq]
    rfl

/-! ### What an EOS selects and does (R93 to R97) -/

section
variable {s : State} {w : Word} {e : StackEntry}

theorem State.eosEffect_of_none (h : s.eosSelected w = none) :
    s.eosEffect w = (s, .notInService, if w.getLsbD 8 then 63#6 else 0#1 ++ w.extractLsb' 0 5) := by
  have hline : (lineCode (eosLine w)).setWidth 6 = 0#1 ++ w.extractLsb' 0 5 := by
    have hcode : lineCode (eosLine w) = w.extractLsb' 0 5 := by
      rw [lineCode, eosLine, lineOf, BitVec.ofNat_toNat, BitVec.setWidth_eq]
    rw [lineCode_setWidth, ofNat6_line, hcode]
  simp only [State.eosEffect, h, hline]
  rfl

theorem State.eosEffect_of_closing (h : s.eosSelected w = some e) (hclosing : e.closing ≠ none) :
    s.eosEffect w = (s, .alreadyClosing, BitVec.ofNat 6 e.line.val) := by
  simp only [State.eosEffect, h, Option.isSome_iff_ne_none.mpr hclosing, if_true, lineCode_setWidth]

/-- The close limit 0, or no matching queue entry: the OPEN entry leaves the stack (R94). -/
theorem State.eosEffect_of_unmatched (h : s.eosSelected w = some e) (hopen : e.closing = none)
    (hnone : s.closeLimit = 0 ∨ s.newestMatch e.line = none) :
    s.eosEffect w = (s.removeEntry e.line, .closed, BitVec.ofNat 6 e.line.val) := by
  simp only [State.eosEffect, h, hopen, Option.isSome_none, Bool.false_eq_true, if_false, lineCode_setWidth]
  by_cases hlimit : s.closeLimit = 0
  · rw [if_pos hlimit]
  · rw [if_neg hlimit, hnone.resolve_left hlimit]

/-- A close limit above 0 and a matching queue entry: the OPEN entry becomes CLOSING (R94, R96). -/
theorem State.eosEffect_of_match {stamp : Stamp} (h : s.eosSelected w = some e) (hopen : e.closing = none)
    (hlimit : s.closeLimit ≠ 0) (hmatch : s.newestMatch e.line = some stamp) :
    s.eosEffect w = (s.closeEntry e.line stamp, .deferred, BitVec.ofNat 6 e.line.val) := by
  simp only [State.eosEffect, h, hopen, Option.isSome_none, Bool.false_eq_true, if_false, hlimit, hmatch,
    lineCode_setWidth]

/-- An EOS passes its effect on, with the record of it in EOS_RESULT (R98). -/
theorem State.endOfService_eq {u : State} {outcome : EosOutcome} {line : BitVec 6}
    (h : s.eosEffect w = (u, outcome, line)) :
    s.endOfService w = s.propagate (u.setEosResult ⟨outcome, line, u.depth⟩) := by
  simp only [State.endOfService, h]

/-- An effect that leaves the summary and SREQ passes nothing on. -/
theorem State.endOfService_of_same {u : State} {outcome : EosOutcome} {line : BitVec 6}
    (h : s.eosEffect w = (u, outcome, line)) (hsummary : s.summary = u.summary) (hsreq : s.sreq = u.sreq) :
    s.endOfService w = u.setEosResult ⟨outcome, line, u.depth⟩ := by
  rw [State.endOfService_eq h]
  exact State.propagate_same (by rw [hsummary, State.setEosResult_summary]) (by rw [hsreq, State.setEosResult_sreq])

end

/-- An entry that becomes CLOSING stays in its place with its line and its priority, so that the same lines are
deliverable (R83, R96). -/
theorem State.closeEntry_sreq (s : State) (l : LineId) (stamp : Stamp) : (s.closeEntry l stamp).sreq = s.sreq := by
  have hdeliverable : (s.closeEntry l stamp).deliverable = s.deliverable := by
    funext m
    have hstack : (s.closeEntry l stamp).inStack m = s.inStack m := by
      simp only [State.inStack, State.closeEntry, List.any_map]
      congr 1
      funext e
      simp only [Function.comp_apply]
      split <;> rfl
    have hgate : (s.closeEntry l stamp).passesGate = s.passesGate := by
      funext p
      simp only [State.passesGate, State.closeEntry, List.getLast?_map]
      cases s.stack.getLast? with
      | none => rfl
      | some top =>
        simp only [Option.map_some]
        split <;> rfl
    simp only [State.deliverable, hstack, hgate]
    rfl
  simp only [State.sreq, hdeliverable]

/-- Settles O46: an EOS that leaves the stack passes nothing on; one answered CLOSED passes on the change of SREQ. -/
theorem eosEndsTheSelectedService : Obligations.EosEndsTheSelectedService := by
  unfold Obligations.EosEndsTheSelectedService
  intro s w hheld
  rw [← State.eosSelected_eq]
  refine ⟨fun hnone => ?_, fun e he => ⟨fun hclosing => ?_, fun hopen hunmatched => ?_⟩⟩
  · rw [exec_eos, State.registerDone_of_free hheld,
      State.endOfService_of_same (State.eosEffect_of_none hnone) rfl rfl]
    rfl
  · rw [exec_eos, State.registerDone_of_free hheld,
      State.endOfService_of_same (State.eosEffect_of_closing he hclosing) rfl rfl]
    rfl
  · have heffect := State.eosEffect_of_unmatched he hopen (hunmatched.imp_right State.newestMatch_eq_none.mpr)
    let u := (s.removeEntry e.line).setEosResult
      ⟨.closed, BitVec.ofNat 6 e.line.val, (s.removeEntry e.line).depth⟩
    have hlines : (s.propagate u).lines = s.lines := State.propagate_lines_of_summary rfl
    obtain ⟨hframe, -, hmonitor⟩ := State.answer_propagate_spec (s := s) (u := u) .done 0 rfl rfl rfl rfl rfl
    rw [State.answer_lines, hlines] at hframe
    refine ⟨(s.propagate u).answer .done 0, ?_, hmonitor, hframe⟩
    rw [exec_eos, State.registerDone_of_free hheld, State.endOfService_eq heffect]

/-- Settles O47. -/
theorem eosDefersOnAQueuedMatch : Obligations.EosDefersOnAQueuedMatch := by
  unfold Obligations.EosDefersOnAQueuedMatch
  intro s w e older q newer hheld hlimit hopen hselected hqueue hmatch hnewer
  rw [← State.eosSelected_eq] at hselected
  have heffect := State.eosEffect_of_match hselected hopen hlimit (State.newestMatch_of_append hqueue hmatch hnewer)
  have hdepth : (s.closeEntry e.line q.stamp).depth = s.depth := by simp [State.depth, State.closeEntry]
  rw [exec_eos, State.registerDone_of_free hheld,
    State.endOfService_of_same heffect rfl (State.closeEntry_sreq ..).symm, hdepth]
  rfl

/-! ### The close timers (R101, R103) -/

theorem State.closeUnitBoundary_of_due {s : State} (hheld : s.held = false) (hdue : s.closeUnitDue = true) :
    s.closeUnitBoundary = { s with
      closeUnitDue := false
      stack := s.stack.map fun e => { e with closing := e.closing.map Closing.unitBoundary } } := by
  simp [State.closeUnitBoundary, hheld, hdue]

theorem State.closeTimerExpiry_of_due {s : State} {l : LineId} (hheld : s.held = false)
    (hdue : s.closeExpiryDue l = true) :
    s.closeTimerExpiry l = s.propagate ((s.removeEntry l).raise flagCloseExpired) := by
  simp [State.closeTimerExpiry, hheld, hdue]

theorem State.closeExpiryDue_eq_false {s : State} {l : LineId} :
    s.closeExpiryDue l = false ↔
      ∀ e ∈ s.stack, ∀ c : Closing, e.line = l → e.closing = some c → c.expiring = false := by
  rw [← Bool.not_eq_true, State.closeExpiryDue_eq_true]
  simp only [not_exists, not_and, Bool.not_eq_true]

/-- Settles O48. -/
theorem closeTimerCountsAndExpires : Obligations.CloseTimerCountsAndExpires := by
  unfold Obligations.CloseTimerCountsAndExpires
  refine ⟨fun s h => ?_, fun s l h => ?_, fun s hheld hdue => ?_, fun s l hheld hdue => ?_⟩
  · rw [exec_closeUnitBoundary, State.closeUnitBoundary_of_not_due h]
  · rw [exec_closeTimerExpiry,
      State.closeTimerExpiry_of_not_due (h.imp_right State.closeExpiryDue_eq_false.mpr)]
  · rw [exec_closeUnitBoundary, State.closeUnitBoundary_of_due hheld hdue]
    rfl
  · let u := (s.removeEntry l).raise flagCloseExpired
    obtain ⟨hframe, hlines, hmonitor⟩ := State.propagate_spec (s := s) (u := u) rfl rfl rfl rfl
    refine ⟨s.propagate u, ?_, hlines, hmonitor, hframe⟩
    rw [exec_closeTimerExpiry, State.closeTimerExpiry_of_due hheld (State.closeExpiryDue_eq_true.mpr hdue)]

end Sys2Proof.Machine
end

