-- ==== Sys2Proof/Proofs/ServiceStack.lean ====
section
/-! The service stack (R86). Few effects of a step reach it: a TAKE, an EOS, an 8 µs boundary and a departure; after every
other one entries at most leave it. Here that is said once of each effect, so that a law about the stack, and the queue
whose entries its closings wait for, has to be shown of those few alone (`StackLaw.kept`). Settles two such laws: the
nesting of the stack, and the bounds on its closings. -/

namespace Sys2Proof.Machine

open Sys2Proof.Safety

/-! ### Effects after which entries at most leave the stack -/

/-- The queue with its stamps stays, and entries at most leave the stack. A part that the change from `s` to `t` does not
write is left out where one is built: its field holds by unfolding. -/
structure StackShrinks (s t : State) : Prop where
  queue : t.queue = s.queue := by rfl
  arrivals : t.arrivals = s.arrivals := by rfl
  applied : t.applied = s.applied := by rfl
  stack : t.stack.Sublist s.stack := by exact .refl _

theorem StackShrinks.of_reportUnit {s t : State} (hunit : t.reportUnit = s.reportUnit) (hstack : t.stack = s.stack) :
    StackShrinks s t := by
  obtain ⟨-, hqueue, harrivals, happlied, -⟩ := State.reportUnit_eq_iff.mp hunit
  exact ⟨hqueue, harrivals, happlied, hstack ▸ .refl _⟩

theorem StackShrinks.trans {s t u : State} (h : StackShrinks s t) (h' : StackShrinks t u) : StackShrinks s u where
  queue := h'.queue.trans h.queue
  arrivals := h'.arrivals.trans h.arrivals
  applied := h'.applied.trans h.applied
  stack := h'.stack.trans h.stack

theorem StackShrinks.removeEntry (s : State) (l : LineId) : StackShrinks s (s.removeEntry l) where
  stack := List.filter_sublist

theorem StackShrinks.propagate {b s t : State} (h : StackShrinks s t) : StackShrinks s (State.propagate b t) :=
  h.trans (.of_reportUnit (State.propagate_reportUnit ..) (State.propagate_stack ..))

theorem State.performCommit_stack (s : State) : s.performCommit.stack = s.stack := by
  unfold State.performCommit
  cases selectedEntry s.tsel with
  | source k => rfl
  | localSource | noEntry => rfl
  | line l => simp only [State.commitLine]; split <;> rfl
  | pin p => simp only [State.commitPin]; cases s.staging.pinMode <;> rfl

/-- A source command leaves the stack where its effect on every source does. -/
theorem State.onSelectedSource_stack {s : State} {f : State → RemoteId → State}
    (hf : ∀ k, (f s k).stack = s.stack) : (s.onSelectedSource f).stack = s.stack := by
  unfold State.onSelectedSource
  cases selectedEntry s.tsel with
  | source k => exact hf k
  | localSource | line _ | pin _ | noEntry => rfl

theorem State.perform_stack (s : State) (c : TableCommand) : (s.perform c).stack = s.stack := by
  cases c with
  | load => rfl
  | commit => exact s.performCommit_stack
  | bar => exact State.onSelectedSource_stack fun k => by unfold State.barSource; split <;> rfl
  | unbar => exact State.onSelectedSource_stack fun k => by unfold State.unbarSource; split <;> rfl
  | clearCounters => exact State.onSelectedSource_stack fun _ => rfl

theorem StackShrinks.tableCommand (s : State) (c : TableCommand) : StackShrinks s (s.tableCommand c) := by
  refine .of_reportUnit (s.tableCommand_reportUnit c) ?_
  by_cases hok : s.judgeCommand c = .ok
  · rw [State.tableCommand_done hok, State.propagate_stack, State.setTstat_stack, State.perform_stack]
  · rw [State.tableCommand_refused rfl hok, State.setTstat_stack]

theorem StackShrinks.watchTake (s : State) : StackShrinks s s.watchTake := by
  rw [State.watchTake_eq]
  exact { }

theorem StackShrinks.clearUrgent (s : State) (w : Word) : StackShrinks s (s.clearUrgent w) :=
  .of_reportUnit (s.clearUrgent_reportUnit w) (by simp [State.clearUrgent])

theorem StackShrinks.writeDeadline (s : State) (w : Word) : StackShrinks s (s.writeDeadline w) := by
  rw [State.writeDeadline, State.monitorModeWrite_eq]
  exact { }

/-- A write of CONTROL without SOFT_RESET may empty the stack (R106). -/
theorem StackShrinks.controlStored (s : State) (w : Word) : StackShrinks s (s.controlStored w) where
  stack := by
    unfold State.controlStored
    dsimp only
    split
    · exact List.nil_sublist _
    · exact .refl _

theorem StackShrinks.tierBoundary (s : State) (t : Tier) : StackShrinks s (s.tierBoundary t) := by
  refine .of_reportUnit (s.tierBoundary_reportUnit t) ?_
  unfold State.tierBoundary
  split
  · rfl
  · exact State.mapSources_stack ..

theorem StackShrinks.quietExpiry (s : State) (k : RemoteId) : StackShrinks s (s.quietExpiry k) := by
  refine .of_reportUnit (s.quietExpiry_reportUnit k) ?_
  unfold State.quietExpiry
  split <;> simp

theorem StackShrinks.closeTimerExpiry (s : State) (l : LineId) : StackShrinks s (s.closeTimerExpiry l) := by
  unfold State.closeTimerExpiry
  split
  · exact .propagate ((StackShrinks.removeEntry s l).trans { })
  · exact { }

theorem StackShrinks.pulseEnd (s : State) : StackShrinks s s.pulseEnd := by
  unfold State.pulseEnd
  split <;> exact { }

theorem StackShrinks.release (s : State) : StackShrinks s s.release := by
  unfold State.release
  split <;> exact { }

theorem StackShrinks.adopt (s : State) (p : SenseId) (f : PinFilter) :
    StackShrinks s ((s.setFilter p f).pinLevelChanged (pinOfSense p)) := by
  unfold State.pinLevelChanged
  split <;> exact { }

theorem StackShrinks.settle (s : State) (p : SenseId) : StackShrinks s (s.settle p) := by
  unfold State.settle
  split
  · exact .propagate (.adopt s p _)
  · exact { }

theorem StackShrinks.transition (s : State) (p : SenseId) : StackShrinks s (s.transition p) := by
  unfold State.transition
  split
  · dsimp only
    split
    · exact .propagate ((StackShrinks.adopt s p _).trans { })
    · exact .propagate (.adopt s p _)
  · exact { }

/-! ### The other effects -/

/-- What an EOS can do to the stack: nothing, an entry leaves it, or an entry becomes CLOSING (R94). -/
theorem State.eosEffect_cases (s : State) (w : Word) :
    StackShrinks s (s.eosEffect w).1 ∨
      ∃ l stamp, s.closeLimit ≠ 0 ∧ s.newestMatch l = some stamp ∧ (s.eosEffect w).1 = s.closeEntry l stamp := by
  cases hsel : s.eosSelected w with
  | none => rw [State.eosEffect_of_none hsel]; exact .inl { }
  | some e =>
    by_cases hopen : e.closing = none
    · by_cases hnone : s.closeLimit = 0 ∨ s.newestMatch e.line = none
      · rw [State.eosEffect_of_unmatched hsel hopen hnone]
        exact .inl (.removeEntry s e.line)
      · obtain ⟨hlimit, hmatch⟩ := not_or.mp hnone
        obtain ⟨stamp, hmatch⟩ := Option.ne_none_iff_exists'.mp hmatch
        rw [State.eosEffect_of_match hsel hopen hlimit hmatch]
        exact .inr ⟨e.line, stamp, hlimit, hmatch, rfl⟩
    · rw [State.eosEffect_of_closing hsel hopen]
      exact .inl { }

/-- The stack and the queue after a completion, which takes the head of the queue and the closings that wait for it
(R17, R102). -/
theorem StackShrinks.complete {s : State} {e : QueueEntry} {rest : List QueueEntry} (hheld : s.held = false)
    (happ : s.applying = true) (hq : s.queue = e :: rest) :
    StackShrinks (s.depart.departStamp e.stamp) s.complete := by
  rw [State.complete_eq hheld happ hq, State.departed_eq]
  exact .propagate { }

/-! ### A law about the stack -/

/-- A property of the stack and the queue that reset has, that stays when entries leave the stack, and that is kept by
each effect which does more to them: an admission, a departure, a TAKE, an EOS answered DEFERRED, an 8 µs boundary. -/
structure StackLaw (P : State → Prop) : Prop where
  shrinks : ∀ {s t}, StackShrinks s t → P s → P t
  reset : P State.reset
  enqueue : ∀ s w, s.queue.length < Config.queueCapacity → P s → P (s.enqueue w)
  depart : ∀ s e rest, s.queue = e :: rest → P s → P (s.depart.departStamp e.stamp)
  push : ∀ s l, s.deliverable l = true → P s → P (s.push l)
  close : ∀ s l stamp, s.closeLimit ≠ 0 → s.newestMatch l = some stamp → P s → P (s.closeEntry l stamp)
  unitBoundary : ∀ s, P s →
    P { s with stack := s.stack.map fun e => { e with closing := e.closing.map Closing.unitBoundary } }

section
variable {P : State → Prop}

/-- A reset leaves queue and stack of `State.reset`. -/
theorem StackLaw.of_reset (L : StackLaw P) {t : State} (hunit : t.reportUnit = State.reset.reportUnit)
    (hstack : t.stack = []) : P t :=
  L.shrinks (.of_reportUnit hunit hstack) L.reset

theorem StackLaw.writeControl (L : StackLaw P) {s : State} (w : Word) (h : P s) : P (s.writeControl w) := by
  cases hsoft : w.getLsbD 2 with
  | true =>
    have hreset : s.writeControl w = s.softResetNow := if_pos hsoft
    rw [hreset]
    exact L.of_reset s.softResetNow_reportUnit rfl
  | false =>
    rw [State.writeControl_of_noReset hsoft]
    exact L.shrinks (.propagate (.controlStored s w)) h

theorem StackLaw.endOfService (L : StackLaw P) {s : State} (w : Word) (h : P s) : P (s.endOfService w) := by
  have heffect : P (s.eosEffect w).1 := by
    obtain hshrinks | ⟨l, stamp, hlimit, hmatch, hclose⟩ := s.eosEffect_cases w
    · exact L.shrinks hshrinks h
    · rw [hclose]
      exact L.close s l stamp hlimit hmatch h
  exact L.shrinks (.propagate { }) heffect

theorem StackLaw.complete (L : StackLaw P) {s : State} (h : P s) : P s.complete := by
  by_cases hnone : s.held = true ∨ s.applying = false ∨ s.queue = []
  · rw [State.complete_of_none hnone]
    exact h
  · simp only [not_or, Bool.not_eq_true, Bool.not_eq_false] at hnone
    obtain ⟨hheld, happ, hq⟩ := hnone
    obtain ⟨e, rest, hq⟩ := List.exists_cons_of_ne_nil hq
    exact L.shrinks (.complete hheld happ hq) (L.depart s e rest hq h)

theorem StackLaw.closeUnitBoundary (L : StackLaw P) {s : State} (h : P s) : P s.closeUnitBoundary := by
  by_cases hnone : s.held = true ∨ s.closeUnitDue = false
  · rw [State.closeUnitBoundary_of_not_due hnone]
    exact h
  · simp only [not_or, Bool.not_eq_true, Bool.not_eq_false] at hnone
    obtain ⟨hheld, hdue⟩ := hnone
    rw [State.closeUnitBoundary_of_due hheld hdue]
    exact L.shrinks { } (L.unitBoundary s h)

theorem StackLaw.intervalExpiry (L : StackLaw P) {s : State} (h : P s) : P s.intervalExpiry := by
  obtain he | he | ⟨left, latch, he⟩ := s.intervalExpiry_cases <;> rw [he]
  · exact h
  · exact L.of_reset s.trip_reportUnit rfl
  · exact L.shrinks { } h

theorem StackLaw.sampleResetLow (L : StackLaw P) {s : State} (h : P s) : P s.sampleResetLow := by
  unfold State.sampleResetLow State.resetByPin
  split
  · exact h
  · cases s.held with
    | true => exact L.shrinks { } h
    | false => exact L.of_reset rfl rfl

/-- A law about the stack is kept by every effect that a step is made of. -/
theorem StackLaw.kept (L : StackLaw P) : Kept P where
  pending _ _ := L.shrinks { }
  reply _ _ := L.shrinks { }
  refclk _ _ := L.shrinks { }
  enqueue s w _ := L.enqueue s w
  retry _ _ := L.shrinks (.propagate { })
  fault _ _ := L.shrinks (.propagate { })
  reportBase _ _ _ := L.shrinks { }
  control _ w _ := L.writeControl w
  table s c _ := L.shrinks (.tableCommand s c)
  take s l _ hoffer h := L.shrinks (.watchTake _) (L.push s l (State.deliverable_of_offer hoffer) h)
  eos _ w _ := L.endOfService w
  urgent s w _ := L.shrinks (.clearUrgent s w)
  deadline s w _ := L.shrinks (.writeDeadline s w)
  flags _ _ _ := L.shrinks (.propagate { })
  enables _ _ _ := L.shrinks (.propagate { })
  log _ _ := L.shrinks { }
  counts _ _ _ := L.shrinks { }
  causes _ _ _ := L.shrinks { }
  tsel _ _ _ := L.shrinks { }
  staging _ _ _ := L.shrinks { }
  complete _ := L.complete
  tierBoundary s t := L.shrinks (.tierBoundary s t)
  quietExpiry s k := L.shrinks (.quietExpiry s k)
  closeUnitBoundary _ := L.closeUnitBoundary
  closeTimerExpiry s l := L.shrinks (.closeTimerExpiry s l)
  intervalExpiry _ := L.intervalExpiry
  pulseEnd s := L.shrinks (.pulseEnd s)
  settle s p := L.shrinks (.settle s p)
  transition s p := L.shrinks (.transition s p)
  heldTick _ _ := L.shrinks { }
  runningTick _ _ _ := L.shrinks { }
  powerOn s _ := L.of_reset s.powerOn_reportUnit rfl
  sampleResetLow _ := L.sampleResetLow
  release s := L.shrinks (.release s)

end

/-! ### The stack stays nested (R86) -/

theorem stackNested_iff {s : State} :
    StackNested s ↔
      s.stack.Pairwise fun below above => above.priority.toNat < below.priority.toNat ∧ above.line ≠ below.line := by
  simp only [StackNested, BitVec.ult, decide_eq_true_eq]

/-- A change of the entries that leaves their lines and their priorities. -/
theorem stackNested_map {s : State} {f : StackEntry → StackEntry} (hline : ∀ e, (f e).line = e.line)
    (hpriority : ∀ e, (f e).priority = e.priority) (h : StackNested s) :
    StackNested { s with stack := s.stack.map f } := by
  rw [stackNested_iff] at h ⊢
  rw [List.pairwise_map]
  simpa only [hline, hpriority] using h

/-- Through the gate of a nested stack a line passes every entry, since the top one is the most urgent (R83, R86). -/
theorem stackNested_above_of_deliverable {s : State} {l : LineId} (h : StackNested s) (hl : s.deliverable l = true)
    {e : StackEntry} (he : e ∈ s.stack) : (s.line l).priority.toNat < e.priority.toNat ∧ l ≠ e.line := by
  obtain ⟨-, -, -, hout, hgate⟩ := State.deliverable_eq_true.mp hl
  refine ⟨?_, (hout e he).symm⟩
  rw [stackNested_iff] at h
  obtain ⟨below, top, hstack⟩ := (List.eq_nil_or_concat' s.stack).resolve_left (List.ne_nil_of_mem he)
  rw [hstack] at h he hgate
  have htop : (s.line l).priority.toNat < top.priority.toNat := hgate top List.getLast?_concat
  rcases List.mem_append.mp he with hbelow | he
  · obtain ⟨-, -, hnested⟩ := List.pairwise_append.mp h
    obtain ⟨hlt, -⟩ := hnested e hbelow top (List.mem_singleton_self top)
    exact htop.trans hlt
  · rwa [List.mem_singleton.mp he]

theorem stackNested_push {s : State} {l : LineId} (hl : s.deliverable l = true) (h : StackNested s) :
    StackNested (s.push l) := by
  have habove := fun e he => stackNested_above_of_deliverable h hl (e := e) he
  rw [stackNested_iff] at h ⊢
  rw [State.push_eq]
  refine List.pairwise_append.mpr ⟨h, List.pairwise_singleton .., fun e he top htop => ?_⟩
  rw [List.mem_singleton.mp htop]
  exact habove e he

theorem stackLaw_stackNested : StackLaw StackNested where
  shrinks ht h := h.sublist ht.stack
  reset := List.Pairwise.nil
  enqueue _ _ _ h := h
  depart _ _ _ _ h := h.sublist List.filter_sublist
  push _ _ hl := stackNested_push hl
  close _ _ _ _ _ := stackNested_map (fun e => by split <;> rfl) (fun e => by split <;> rfl)
  unitBoundary _ := stackNested_map (fun _ => rfl) (fun _ => rfl)

/-- There are 8 priority values, and no two entries of a nested stack have the same. -/
theorem stackNested_length_le {s : State} (h : StackNested s) : s.stack.length ≤ 8 := by
  have hnodup : (s.stack.map fun e => e.priority.toFin).Nodup := by
    rw [stackNested_iff] at h
    refine List.pairwise_map.mpr (h.imp fun {below above} hn heq => ?_)
    exact absurd (congrArg Fin.val heq) (Nat.ne_of_gt hn.1)
  simpa using hnodup.length_le_card

/-- Settles O6: the nesting is a law about the stack, and bounds its depth. -/
theorem stepKeepsStackNested : Obligations.StepKeepsStackNested := by
  unfold Obligations.StepKeepsStackNested
  intro s t hnested hstep
  have ht : StackNested t := stackLaw_stackNested.kept.step hnested hstep
  exact ⟨ht, stackNested_length_le ht⟩

/-! ### The closings wait for entries of the queue (R86, R101, R108) -/

/-- A stamp that an entry of the queue carries, as the laws state it: its distance from APPLIED is below the number of
entries. -/
def State.stampQueued (s : State) (stamp : Stamp) : Prop := (stamp - s.applied).toNat < s.queue.length

/-- A close timer that runs, with the expiry mark only at 1 (R101; log entry 4). -/
def Closing.TimerRuns (c : Closing) : Prop := c.remaining ≠ 0 ∧ (c.expiring = true → c.remaining = 1)

theorem closingsPending_iff {s : State} :
    ClosingsPending s ↔ ∀ e ∈ s.stack, ∀ c, e.closing = some c → c.TimerRuns ∧ s.stampQueued c.watermark := by
  simp only [ClosingsPending, Closing.TimerRuns, State.stampQueued, and_assoc]

theorem Closing.unitBoundary_watermark (c : Closing) : c.unitBoundary.watermark = c.watermark := by
  unfold Closing.unitBoundary
  split <;> rfl

theorem Closing.TimerRuns.unitBoundary {c : Closing} (h : c.TimerRuns) : c.unitBoundary.TimerRuns := by
  obtain ⟨hpos, hmark⟩ := h
  unfold Closing.unitBoundary
  split
  · next hone => exact ⟨hpos, fun _ => hone⟩
  · next hone =>
    refine ⟨?_, fun hexp => absurd (hmark hexp) hone⟩
    dsimp only
    bv_omega

/-- The entries of the queue carry its stamps (R15). -/
theorem State.stampQueued_of_mem {s : State} (h : QueueInOrder s) {q : QueueEntry} (hq : q ∈ s.queue) :
    s.stampQueued q.stamp := by
  obtain ⟨hlen, -, hstamp⟩ := h
  obtain ⟨i, hi, rfl⟩ := List.getElem_of_mem hq
  have hsub : s.queue[i].stamp - s.applied = BitVec.ofNat 16 i := by rw [hstamp i hi]; bv_omega
  rw [State.stampQueued, hsub, BitVec.toNat_ofNat]
  omega

theorem State.stampQueued_of_newestMatch {s : State} (h : QueueInOrder s) {l : LineId} {stamp : Stamp}
    (hm : s.newestMatch l = some stamp) : s.stampQueued stamp := by
  obtain ⟨q, hq, rfl⟩ := Option.map_eq_some_iff.mp hm
  exact State.stampQueued_of_mem h (List.mem_of_mem_filter (List.mem_of_getLast? hq))

/-- Of the queued stamps a departure takes the head's alone (R17). -/
theorem State.stampQueued_depart {s : State} (h : QueueInOrder s) {e : QueueEntry} {rest : List QueueEntry}
    (hq : s.queue = e :: rest) {stamp : Stamp} (hne : stamp ≠ e.stamp) (hs : s.stampQueued stamp) :
    s.depart.stampQueued stamp := by
  obtain ⟨-, -, hstamp⟩ := h
  have hhead : e.stamp = s.applied := by
    have h0 := hstamp 0 (by simp [hq])
    simpa [hq] using h0
  simp only [State.stampQueued, State.depart, hq, List.tail_cons, List.length_cons] at hs ⊢
  rw [hhead] at hne
  bv_omega

theorem closingsPending_shrinks {s t : State} (ht : StackShrinks s t) (h : ClosingsPending s) : ClosingsPending t := by
  simp only [ClosingsPending, ht.queue, ht.applied] at h ⊢
  exact fun e he => h e (ht.stack.subset he)

theorem queueInOrder_shrinks {s t : State} (ht : StackShrinks s t) (h : QueueInOrder s) : QueueInOrder t := by
  simpa only [QueueInOrder, ht.queue, ht.arrivals, ht.applied] using h

/-- An admission adds a stamp to the queued ones (R15). -/
theorem closingsPending_enqueue {s : State} (w : Word) (h : ClosingsPending s) : ClosingsPending (s.enqueue w) := by
  rw [closingsPending_iff] at h ⊢
  intro e he c hc
  obtain ⟨hruns, hqueued⟩ := h e he c hc
  refine ⟨hruns, ?_⟩
  simp only [State.stampQueued, State.enqueue, List.length_append, List.length_singleton] at hqueued ⊢
  omega

/-- A departure takes the closings that wait for its stamp with it (R102). -/
theorem closingsPending_depart {s : State} (hqueue : QueueInOrder s) {e : QueueEntry} {rest : List QueueEntry}
    (hq : s.queue = e :: rest) (h : ClosingsPending s) : ClosingsPending (s.depart.departStamp e.stamp) := by
  rw [closingsPending_iff] at h ⊢
  intro x hx c hc
  obtain ⟨hx, hother⟩ := List.mem_filter.mp hx
  have hne : c.watermark ≠ e.stamp := by simpa [hc] using hother
  obtain ⟨hruns, hqueued⟩ := h x hx c hc
  exact ⟨hruns, State.stampQueued_depart hqueue hq hne hqueued⟩

/-- A pushed entry is OPEN (R87). -/
theorem closingsPending_push {s : State} (l : LineId) (h : ClosingsPending s) : ClosingsPending (s.push l) := by
  rw [State.push_eq]
  intro e he c hc
  rcases List.mem_append.mp he with he | he
  · exact h e he c hc
  · rw [List.mem_singleton.mp he] at hc
    cases hc

/-- An EOS starts a close timer above 0 and waits for an entry of the queue (R96). -/
theorem closingsPending_closeEntry {s : State} (hqueue : QueueInOrder s) {l : LineId} {stamp : Stamp}
    (hlimit : s.closeLimit ≠ 0) (hmatch : s.newestMatch l = some stamp) (h : ClosingsPending s) :
    ClosingsPending (s.closeEntry l stamp) := by
  rw [closingsPending_iff] at h ⊢
  intro x hx c hc
  obtain ⟨e, he, rfl⟩ := List.mem_map.mp hx
  split at hc
  · cases hc
    exact ⟨⟨hlimit, nofun⟩, State.stampQueued_of_newestMatch hqueue hmatch⟩
  · exact h e he c hc

theorem closingsPending_unitBoundary {s : State} (h : ClosingsPending s) :
    ClosingsPending
      { s with stack := s.stack.map fun e => { e with closing := e.closing.map Closing.unitBoundary } } := by
  rw [closingsPending_iff] at h ⊢
  intro x hx c hc
  obtain ⟨e, he, rfl⟩ := List.mem_map.mp hx
  obtain ⟨c, hold, rfl⟩ := Option.map_eq_some_iff.mp hc
  obtain ⟨hruns, hqueued⟩ := h e he c hold
  refine ⟨hruns.unitBoundary, ?_⟩
  rw [Closing.unitBoundary_watermark]
  exact hqueued

theorem stackLaw_closingsPending : StackLaw fun s => QueueInOrder s ∧ ClosingsPending s where
  shrinks ht := fun ⟨hqueue, hclosings⟩ => ⟨queueInOrder_shrinks ht hqueue, closingsPending_shrinks ht hclosings⟩
  reset := ⟨(reportUnitLaw_queueAndEngine.reset).1, nofun⟩
  enqueue _ w hroom := fun ⟨hqueue, hclosings⟩ =>
    ⟨queueInOrder_enqueue w hroom hqueue, closingsPending_enqueue w hclosings⟩
  depart _ _ _ hq := fun ⟨hqueue, hclosings⟩ =>
    ⟨queueInOrder_depart hq hqueue, closingsPending_depart hqueue hq hclosings⟩
  push s l _ := fun ⟨hqueue, hclosings⟩ => ⟨by rw [State.push_eq]; exact hqueue, closingsPending_push l hclosings⟩
  close _ _ _ hlimit hmatch := fun ⟨hqueue, hclosings⟩ =>
    ⟨hqueue, closingsPending_closeEntry hqueue hlimit hmatch hclosings⟩
  unitBoundary _ := fun ⟨hqueue, hclosings⟩ => ⟨hqueue, closingsPending_unitBoundary hclosings⟩

/-- Settles O7: with the order of the queue the bounds on the closings are a law about the stack. -/
theorem stepKeepsClosingsPending : Obligations.StepKeepsClosingsPending := by
  unfold Obligations.StepKeepsClosingsPending
  intro s t hqueue hclosings hstep
  obtain ⟨-, ht⟩ := stackLaw_closingsPending.kept.step ⟨hqueue, hclosings⟩ hstep
  exact ht

end Sys2Proof.Machine
end

