-- ==== Sys2Proof/Proofs/Deadline.lean ====
section
/-! The commands of the urgent path and of the deadline monitor (chapter 6): a write of URGENT_CLEAR, a write of
DEADLINE_CTRL, an interval expiry, the trip and the end of its pulse. Settles the statements about them. -/

namespace Sys2Proof.Machine

open Sys2Proof.Safety

/-! ### URGENT_CLEAR (R112, R116) -/

/-- Each command that is a write of URGENT_CLEAR acts as that write (log entry 7). -/
theorem exec_urgentWrite {s : State} {w : Word} {c : Instr} (hheld : s.held = false)
    (hc : c = .urgentClear w ∨ c = .deadlineBitClear w) : exec c s = .next ((s.clearUrgent w).answer .done 0) := by
  rcases hc with rfl | rfl <;> simp [hheld]

/-- What a write of URGENT_CLEAR does itself (R112, R116), before it is passed on. -/
def State.urgentCleared (s : State) (w : Word) : State :=
  (s.mapLines fun l e => if l.val < 31 && w.getLsbD l.val then e.urgentClear else e).setWarning
    (s.warning && !w.getLsbD 31)

theorem State.urgentCleared_frame (s : State) (w : Word) :
    s.urgentCleared w = { s with
      lines := (s.urgentCleared w).lines, warning := s.warning && !w.getLsbD 31 } := by
  simp only [State.urgentCleared, State.mapLines, State.setWarning]

theorem State.urgentCleared_line (s : State) (w : Word) (l : LineId) :
    (s.urgentCleared w).line l =
      if l.val < 31 ∧ w.getLsbD l.val = true ∧ (s.line l).mode = .edge ∧ (s.line l).route = .urgent then
        { s.line l with latch := false, repeatCount := 0, lastEdge := 31#5 }
      else s.line l := by
  have hline : (s.urgentCleared w).line l =
      if l.val < 31 && w.getLsbD l.val then (s.line l).urgentClear else s.line l := by
    rw [State.urgentCleared, State.setWarning_line, State.line_mapLines]
  rw [hline]
  by_cases hnamed : l.val < 31 ∧ w.getLsbD l.val = true
  · simp only [hnamed, decide_true, Bool.and_true, if_true, true_and]
    rfl
  · rw [if_neg (by simpa using hnamed), if_neg fun h => hnamed ⟨h.1, h.2.1⟩]

/-- Only lines routed URGENT change, and none of them is offered (R83, R112). -/
theorem State.urgentCleared_sreq (s : State) (w : Word) : (s.urgentCleared w).sreq = s.sreq := by
  have hdeliverable : (s.urgentCleared w).deliverable = s.deliverable := by
    funext l
    have hstack : (s.urgentCleared w).stack = s.stack := by
      rw [State.urgentCleared, State.setWarning_stack, State.mapLines_stack]
    simp only [State.deliverable, State.inStack, State.passesGate, hstack, State.urgentCleared_line]
    split
    · next hnamed =>
      obtain ⟨-, -, -, hroute⟩ := hnamed
      have hservice : ((s.line l).route == .service) = false := by rw [hroute]; rfl
      simp only [hservice, Bool.false_and]
    · rfl
  simp only [State.sreq, hdeliverable]

/-- A write of URGENT_CLEAR passes nothing on. -/
theorem State.clearUrgent_eq (s : State) (w : Word) : s.clearUrgent w = s.urgentCleared w := by
  have hsummary : s.summary = (s.urgentCleared w).summary := by
    rw [State.urgentCleared, State.setWarning_summary, State.mapLines_summary]
  exact State.propagate_same hsummary (s.urgentCleared_sreq w).symm

/-- Settles O49: the write changes the named lines and the warning latch, and passes nothing on. -/
theorem urgentClearClearsTheNamed : Obligations.UrgentClearClearsTheNamed := by
  unfold Obligations.UrgentClearClearsTheNamed
  intro s w c hheld hc
  refine ⟨(s.urgentCleared w).answer .done 0, ?_, fun l => ?_, ?_⟩
  · rw [exec_urgentWrite hheld hc, State.clearUrgent_eq]
  · rw [State.answer_line, State.urgentCleared_line]
  · have hframe := s.urgentCleared_frame w
    generalize s.urgentCleared w = u at hframe ⊢
    exact congrArg (fun u : State => u.answer .done 0) hframe

/-! ### DEADLINE_CTRL (R114, R117, R121) -/

/-- Each command that is a write of DEADLINE_CTRL acts as that write (log entry 7). -/
theorem exec_deadlineWrite {s : State} {w : Word} {c : Instr} (hheld : s.held = false)
    (hc : c = .modeWrite w ∨ c = .recordClear w) : exec c s = .next ((s.writeDeadline w).answer .done 0) := by
  rcases hc with rfl | rfl <;> simp [hheld]

/-- While no reset is held the monitor is not TRIPPED (R119, R168). -/
theorem State.not_tripped_of_free {s : State} (h : s.held = false) (n : Nat) : s.monitor ≠ .tripped n := by
  obtain ⟨-, -, -, hrstout⟩ := State.held_eq_false.mp h
  intro hm
  simp [State.rstout, hm] at hrstout

/-- The monitor of a write of the mode, outside a trip's pulse (R117). -/
theorem State.monitorModeWrite_monitor {s : State} (h : ∀ n, s.monitor ≠ .tripped n) (old : DeadlineMode) :
    (s.monitorModeWrite old).monitor =
      if s.deadlineMode = .off then .idle
      else if s.monitor = .idle ∧ old = .off ∧ s.sreq = true then .counting s.intervalTicks
      else s.monitor := by
  unfold State.monitorModeWrite
  cases hm : s.monitor with
  | tripped n => exact absurd hm (h n)
  | idle =>
    by_cases hoff : s.deadlineMode = .off
    · simp [hoff, hm]
    · simp only [hoff, ne_eq, not_false_eq_true, true_and, if_false]
      split <;> simp [hm]
  | counting n | warned n => by_cases hoff : s.deadlineMode = .off <;> simp [hoff, hm]

/-- The stored fields of a write of DEADLINE_CTRL, before the monitor takes the mode (R114, R121). -/
def State.deadlineStored (s : State) (w : Word) : State :=
  { s with
    deadlineMode := deadlineModeOf w
    deadlineInterval := deadlineIntervalOf w
    record := if w.getLsbD 31 then DeadlineRecord.cleared else s.record }

theorem State.writeDeadline_eq (s : State) (w : Word) :
    s.writeDeadline w = (s.deadlineStored w).monitorModeWrite s.deadlineMode := rfl

theorem State.deadlineStored_sreq (s : State) (w : Word) : (s.deadlineStored w).sreq = s.sreq :=
  State.sreq_congr rfl rfl

/-- Settles O52: the fields as stored, and the monitor by what the write of the mode does to it. -/
theorem deadlineCtrlWrite : Obligations.DeadlineCtrlWrite := by
  unfold Obligations.DeadlineCtrlWrite
  intro s w c hheld hc mode interval
  have hmonitor := State.monitorModeWrite_monitor (s := s.deadlineStored w) (State.not_tripped_of_free hheld)
    s.deadlineMode
  rw [State.deadlineStored_sreq] at hmonitor
  rw [exec_deadlineWrite hheld hc, State.writeDeadline_eq, State.monitorModeWrite_eq, hmonitor]
  rfl

/-! ### Interval expiries (R115 to R117) -/

theorem State.intervalDue_eq_true {s : State} :
    s.intervalDue = true ↔ s.monitor = .counting 0 ∨ s.monitor = .warned (some 0) := by
  unfold State.intervalDue
  cases hm : s.monitor with
  | idle | tripped n | counting n => simp
  | warned left => cases left <;> simp

theorem State.intervalExpiry_of_counting {s : State} (h : s.monitor = .counting 0) :
    s.intervalExpiry = { s with warning := true, monitor := .warned (some s.intervalTicks) } := by
  simp [State.intervalExpiry, State.intervalDue, h]

theorem State.intervalExpiry_of_warned {s : State} (h : s.monitor = .warned (some 0)) (hmode : s.deadlineMode = .warn) :
    s.intervalExpiry = { s with monitor := .warned none } := by
  simp [State.intervalExpiry, State.intervalDue, h, hmode]

theorem State.intervalExpiry_of_trip {s : State} (h : s.monitor = .warned (some 0))
    (hmode : s.deadlineMode = .warnReset) : s.intervalExpiry = s.trip := by
  simp [State.intervalExpiry, State.intervalDue, h, hmode]

/-- Settles O50, by the states in which an interval is at its expiry. -/
theorem intervalExpiryWarns : Obligations.IntervalExpiryWarns := by
  unfold Obligations.IntervalExpiryWarns
  intro s
  refine ⟨rfl, fun hm => ?_, fun hm hmode => ?_, fun hcounting hwarned => ?_⟩
  · rw [exec_intervalExpiry, State.intervalExpiry_of_counting hm]
    rfl
  · rw [exec_intervalExpiry, State.intervalExpiry_of_warned hm hmode]
  · have hdue : s.intervalDue = false := by
      rw [← Bool.not_eq_true, State.intervalDue_eq_true]
      rintro (hm | hm)
      · exact hcounting 0 hm rfl
      · exact hwarned 0 hm rfl
    rw [exec_intervalExpiry, State.intervalExpiry_of_not_due hdue]

/-! ### The trip and the end of its pulse (R119, R120, R123) -/

theorem State.captured_of_offer {s : State} {l : LineId} (h : s.offer = some l) :
    s.captured = ⟨true, BitVec.ofNat 5 l.val, (s.line l).priority, BitVec.ofNat 4 s.stack.length⟩ := by
  simp only [State.captured, h]
  rfl

theorem State.pulseDue_eq_true {s : State} : s.pulseDue = true ↔ s.monitor = .tripped 0 := by
  unfold State.pulseDue
  cases s.monitor <;> simp

/-- Settles O51: the trip field by field, and its pulse's end, which is due in TRIPPED at 0 alone. -/
theorem tripCapturesAndResets : Obligations.TripCapturesAndResets := by
  unfold Obligations.TripCapturesAndResets
  refine ⟨fun s l hheld hm hmode hoffer => ?_, fun s hm => ?_, fun s hm => ?_⟩
  · obtain ⟨hpower, hsoft, hpin, -⟩ := State.held_eq_false.mp hheld
    have hrstout : s.trip.rstout = true := rfl
    have htripped : s.trip.held = true := by
      rw [← Bool.not_eq_false, State.held_eq_false]
      rintro ⟨-, -, -, hnot⟩
      exact absurd hrstout (by rw [hnot]; decide)
    refine ⟨s.trip, ?_, htripped, hrstout, ?_⟩
    · rw [exec_intervalExpiry, State.intervalExpiry_of_trip hm hmode]
    · rw [State.trip_eq, State.captured_of_offer hoffer, hpower, hsoft, hpin]
      rfl
  · exact ⟨s.monitorReset, by rw [exec_rstoutPulseEnd, State.pulseEnd_of_due hm], rfl, rfl⟩
  · have hdue : s.pulseDue = false := by rwa [← Bool.not_eq_true, State.pulseDue_eq_true]
    rw [exec_rstoutPulseEnd, State.pulseEnd_of_not_due hdue]

end Sys2Proof.Machine
end

