-- ==== Sys2Proof/Proofs/MonitorLaw.lean ====
section
/-! The deadline monitor times SREQ (R115, R117): it is COUNTING or WARNED exactly while SREQ is asserted and the mode is
not OFF. Most events change lines or stack and leave the monitor to what they pass on, which restores it
(`monitorFollowsSreq_propagate`); the others leave SREQ, start a reset, or are a TAKE or a write of the mode. Settles the
law. -/

namespace Sys2Proof.Machine

open Sys2Proof.Safety

/-! ### The fields of the monitor -/

/-- The monitor stays, with the mode and the interval it goes by. A part that the change from `s` to `t` does not write is
left out where one is built: its field holds by unfolding. -/
structure MonitorFrame (s t : State) : Prop where
  monitor : t.monitor = s.monitor := by rfl
  mode : t.deadlineMode = s.deadlineMode := by rfl
  interval : t.deadlineInterval = s.deadlineInterval := by rfl

theorem MonitorFrame.refl (s : State) : MonitorFrame s s := { }

theorem MonitorFrame.trans {s t u : State} (h : MonitorFrame s t) (h' : MonitorFrame t u) : MonitorFrame s u where
  monitor := h'.monitor.trans h.monitor
  mode := h'.mode.trans h.mode
  interval := h'.interval.trans h.interval

theorem MonitorFrame.eosEffect (s : State) (w : Word) : MonitorFrame s (s.eosEffect w).1 := by
  unfold State.eosEffect
  cases s.eosSelected w with
  | none => exact .refl s
  | some e =>
    dsimp only
    split
    · exact .refl s
    · split
      · exact { }
      · cases s.newestMatch e.line <;> exact { }

theorem MonitorFrame.urgentCleared (s : State) (w : Word) : MonitorFrame s (s.urgentCleared w) := by
  rw [State.urgentCleared_frame]
  exact { }

theorem MonitorFrame.performCommit (s : State) : MonitorFrame s s.performCommit := by
  unfold State.performCommit
  cases selectedEntry s.tsel with
  | source k => exact { }
  | localSource | noEntry => exact .refl s
  | line l => simp only [State.commitLine]; split <;> exact { }
  | pin p => simp only [State.commitPin]; cases s.staging.pinMode <;> exact { }

theorem MonitorFrame.onSelectedSource {s : State} {f : State → RemoteId → State} (h : ∀ k, MonitorFrame s (f s k)) :
    MonitorFrame s (s.onSelectedSource f) := by
  unfold State.onSelectedSource
  cases selectedEntry s.tsel with
  | source k => exact h k
  | localSource | line _ | pin _ | noEntry => exact .refl s

theorem MonitorFrame.perform (s : State) (c : TableCommand) : MonitorFrame s (s.perform c) := by
  cases c with
  | load => exact { }
  | commit => exact .performCommit s
  | bar => exact .onSelectedSource fun k => by unfold State.barSource; split <;> exact { }
  | unbar => exact .onSelectedSource fun k => by unfold State.unbarSource; split <;> exact { }
  | clearCounters =>
    exact .onSelectedSource (f := fun s k => s.setSource k (s.source k).clearCounters) fun _ => { }

theorem MonitorFrame.departed (s : State) (e : QueueEntry) :
    MonitorFrame s (((s.applyWord e).depart).departStamp e.stamp) := by
  rw [State.departed_eq]
  exact { }

theorem MonitorFrame.expired (s : State) (k : RemoteId) : MonitorFrame s (s.expired k) := by
  rw [State.expired_frame]
  exact { }

theorem MonitorFrame.pinLevelChanged (s : State) (p : PinId) : MonitorFrame s (s.pinLevelChanged p) := by
  unfold State.pinLevelChanged
  split <;> exact { }

theorem MonitorFrame.adopt (s : State) (p : SenseId) (f : PinFilter) :
    MonitorFrame s ((s.setFilter p f).pinLevelChanged (pinOfSense p)) :=
  .trans (t := s.setFilter p f) { } (.pinLevelChanged _ _)

/-! ### How the law is kept -/

/-- A change that leaves SREQ, the mode, and whether the monitor times. -/
theorem monitorFollowsSreq_congr {s t : State} (h : MonitorFollowsSreq s) (hsreq : t.sreq = s.sreq)
    (hmode : t.deadlineMode = s.deadlineMode := by rfl) (htiming : timing t = timing s := by rfl) :
    MonitorFollowsSreq t := by
  rw [MonitorFollowsSreq, hsreq, hmode, htiming]
  exact h

/-- A change of neither the lines nor the stack leaves SREQ (R83, R85). -/
theorem monitorFollowsSreq_of_tables {s t : State} (h : MonitorFollowsSreq s) (hlines : t.lines = s.lines := by rfl)
    (hstack : t.stack = s.stack := by rfl) (hmode : t.deadlineMode = s.deadlineMode := by rfl)
    (htiming : timing t = timing s := by rfl) : MonitorFollowsSreq t :=
  monitorFollowsSreq_congr h (State.sreq_congr hlines hstack) hmode htiming

/-- What an event passes on keeps the law: a rise of SREQ starts an interval, and a fall stops it (R117). A TRIPPED monitor
would not follow, but then a reset is held. -/
theorem monitorFollowsSreq_propagate {s u : State} (hheld : s.held = false) (hu : MonitorFrame s u)
    (h : MonitorFollowsSreq s) : MonitorFollowsSreq (s.propagate u) := by
  have hmonitor := State.propagate_monitorAfter s u hu.monitor hu.mode hu.interval
  have hmode : (s.propagate u).deadlineMode = s.deadlineMode := (State.propagate_deadlineMode s u).trans hu.mode
  generalize s.propagate u = t at hmonitor hmode
  simp only [MonitorFollowsSreq, timing, hmonitor, hmode, monitorAfter] at h ⊢
  by_cases hsreq : s.sreq = t.sreq
  · rw [if_pos hsreq, ← hsreq]
    exact h
  · rw [if_neg hsreq]
    cases hm : s.monitor with
    | idle => by_cases hrise : t.sreq = true ∧ s.deadlineMode ≠ .off <;> simp [hrise]
    | counting n | warned left =>
      rw [hm] at h
      obtain ⟨-, hon⟩ := h.mp rfl
      cases t.sreq <;> simp [hon]
    | tripped n => exact absurd hm (State.not_tripped_of_free hheld n)

/-- After a reset no line requests service. -/
theorem monitorFollowsSreq_of_reset {t : State} (hlines : t.lines = State.reset.lines) (htiming : timing t = false) :
    MonitorFollowsSreq t := by
  have hsreq : t.sreq = false := by
    rw [← Bool.not_eq_true, State.sreq_eq_true]
    rintro ⟨l, hl⟩
    obtain ⟨-, hrequesting, -⟩ := State.deliverable_eq_true.mp hl
    rw [State.line_of_reset hlines] at hrequesting
    exact absurd hrequesting (by decide)
  rw [MonitorFollowsSreq, htiming, hsreq]
  simp

/-! ### TAKE and a write of the mode (R117) -/

/-- A VALID TAKE finds SREQ asserted, so that the monitor times exactly where the mode is not OFF. -/
theorem monitorFollowsSreq_watchTake {s : State} (h : timing s = true ↔ s.deadlineMode ≠ .off) :
    MonitorFollowsSreq s.watchTake := by
  have hmode : s.watchTake.deadlineMode = s.deadlineMode := by rw [State.watchTake_eq]
  simp only [MonitorFollowsSreq, timing, State.watchTake_monitor, hmode] at h ⊢
  cases hm : s.monitor with
  | idle | tripped n =>
    rw [hm] at h
    simpa using fun _ => h
  | counting n | warned left =>
    rw [hm] at h
    have hon := h.mp rfl
    cases s.watchTake.sreq <;> simp [hon]

theorem monitorFollowsSreq_take {s : State} {l : LineId} (hoffer : s.offer = some l) (h : MonitorFollowsSreq s) :
    MonitorFollowsSreq (s.push l).watchTake := by
  have hsreq : s.sreq = true := by rw [← State.offer_isSome, hoffer, Option.isSome_some]
  have htiming : timing s = true ↔ s.deadlineMode ≠ .off := by simpa [MonitorFollowsSreq, hsreq] using h
  refine monitorFollowsSreq_watchTake ?_
  rw [State.push_eq]
  exact htiming

/-- A write of the mode starts and stops the monitor as the law asks, which held for the mode `old` before it (R117). -/
theorem monitorFollowsSreq_monitorModeWrite {s : State} {old : DeadlineMode} (hfree : ∀ n, s.monitor ≠ .tripped n)
    (h : timing s = true ↔ s.sreq = true ∧ old ≠ .off) : MonitorFollowsSreq (s.monitorModeWrite old) := by
  have hmode : (s.monitorModeWrite old).deadlineMode = s.deadlineMode := by rw [State.monitorModeWrite_eq]
  have hsreq : (s.monitorModeWrite old).sreq = s.sreq := by
    rw [State.monitorModeWrite_eq]
    exact State.sreq_congr rfl rfl
  simp only [MonitorFollowsSreq, timing, State.monitorModeWrite_monitor hfree, hmode, hsreq] at h ⊢
  by_cases hoff : s.deadlineMode = .off
  · simp [hoff]
  · cases hm : s.monitor with
    | tripped n => exact absurd hm (hfree n)
    | counting n | warned left =>
      rw [hm] at h
      obtain ⟨hasserted, -⟩ := h.mp rfl
      simp [hoff, hasserted]
    | idle =>
      rw [hm] at h
      have hold : s.sreq = true → old = .off := fun hasserted => by_contra fun hon => nomatch h.mpr ⟨hasserted, hon⟩
      cases hasserted : s.sreq with
      | false => simp [hoff]
      | true => simp [hoff, hold hasserted]

theorem monitorFollowsSreq_writeDeadline {s : State} (w : Word) (hheld : s.held = false) (h : MonitorFollowsSreq s) :
    MonitorFollowsSreq (s.writeDeadline w) := by
  rw [State.writeDeadline_eq]
  refine monitorFollowsSreq_monitorModeWrite (State.not_tripped_of_free hheld) ?_
  rw [State.deadlineStored_sreq]
  exact h

/-! ### The stack's 8 µs boundary (R101) -/

/-- The lines and the priorities of the entries decide which lines are deliverable (R83). -/
theorem State.mapStack_sreq (s : State) {f : StackEntry → StackEntry} (hline : ∀ e, (f e).line = e.line)
    (hpriority : ∀ e, (f e).priority = e.priority) : State.sreq { s with stack := s.stack.map f } = s.sreq := by
  have hdeliverable : State.deliverable { s with stack := s.stack.map f } = s.deliverable := by
    funext l
    have hstack : State.inStack { s with stack := s.stack.map f } l = s.inStack l := by
      simp only [State.inStack, List.any_map, Function.comp_def, hline]
    have hgate : State.passesGate { s with stack := s.stack.map f } = s.passesGate := by
      funext p
      simp only [State.passesGate, List.getLast?_map]
      cases s.stack.getLast? with
      | none => rfl
      | some top => simp only [Option.map_some, hpriority]
    simp only [State.deliverable, hstack, hgate]
    rfl
  simp only [State.sreq, hdeliverable]

theorem monitorFollowsSreq_closeUnitBoundary {s : State} (h : MonitorFollowsSreq s) :
    MonitorFollowsSreq s.closeUnitBoundary := by
  by_cases hnone : s.held = true ∨ s.closeUnitDue = false
  · rwa [State.closeUnitBoundary_of_not_due hnone]
  · simp only [not_or, Bool.not_eq_true, Bool.not_eq_false] at hnone
    obtain ⟨hheld, hdue⟩ := hnone
    rw [State.closeUnitBoundary_of_due hheld hdue]
    exact monitorFollowsSreq_congr h (State.mapStack_sreq { s with closeUnitDue := false } (fun _ => rfl) fun _ => rfl)

/-! ### The events of the clock and the pins -/

theorem timing_tick (s : State) {t : State} (h : t.monitor = s.monitor.tick) : timing t = timing s := by
  simp only [timing, h]
  cases s.monitor <;> rfl

theorem monitorFollowsSreq_complete {s : State} (h : MonitorFollowsSreq s) : MonitorFollowsSreq s.complete := by
  by_cases hnone : s.held = true ∨ s.applying = false ∨ s.queue = []
  · rwa [State.complete_of_none hnone]
  · simp only [not_or, Bool.not_eq_true, Bool.not_eq_false] at hnone
    obtain ⟨hheld, happ, hq⟩ := hnone
    obtain ⟨e, rest, hq⟩ := List.exists_cons_of_ne_nil hq
    rw [State.complete_eq hheld happ hq]
    exact monitorFollowsSreq_propagate hheld (.departed s e) h

theorem monitorFollowsSreq_tierBoundary {s : State} (t : Tier) (h : MonitorFollowsSreq s) :
    MonitorFollowsSreq (s.tierBoundary t) := by
  unfold State.tierBoundary
  split
  · exact h
  · exact monitorFollowsSreq_of_tables h (State.mapSources_lines ..) (State.mapSources_stack ..)
      (State.mapSources_deadlineMode ..) (by simp only [timing, State.mapSources_monitor])

theorem monitorFollowsSreq_quietExpiry {s : State} (k : RemoteId) (h : MonitorFollowsSreq s) :
    MonitorFollowsSreq (s.quietExpiry k) := by
  cases hdue : s.quietExpiryDue k with
  | false => rwa [State.quietExpiry_of_not_due hdue]
  | true =>
    obtain ⟨hheld, -⟩ := State.quietExpiryDue_eq_true.mp hdue
    rw [State.quietExpiry_of_due hdue]
    exact monitorFollowsSreq_propagate hheld (.expired s k) h

theorem monitorFollowsSreq_closeTimerExpiry {s : State} (l : LineId) (h : MonitorFollowsSreq s) :
    MonitorFollowsSreq (s.closeTimerExpiry l) := by
  by_cases hnone : s.held = true ∨ s.closeExpiryDue l = false
  · rwa [State.closeTimerExpiry_of_not_due hnone]
  · simp only [not_or, Bool.not_eq_true, Bool.not_eq_false] at hnone
    obtain ⟨hheld, hdue⟩ := hnone
    rw [State.closeTimerExpiry_of_due hheld hdue]
    exact monitorFollowsSreq_propagate hheld { } h

/-- An expiry leaves a running monitor WARNED, or is a trip (R117, R119). -/
theorem monitorFollowsSreq_intervalExpiry {s : State} (h : MonitorFollowsSreq s) :
    MonitorFollowsSreq s.intervalExpiry := by
  by_cases hdue : s.intervalDue = true
  · have htiming : timing s = true := by
      rcases State.intervalDue_eq_true.mp hdue with hm | hm <;> simp only [timing, hm]
    obtain he | he | ⟨left, latch, he⟩ := s.intervalExpiry_cases <;> rw [he]
    · exact h
    · exact monitorFollowsSreq_of_reset rfl rfl
    · exact monitorFollowsSreq_of_tables h (htiming := htiming.symm)
  · rwa [State.intervalExpiry_of_not_due (Bool.not_eq_true _ ▸ hdue)]

/-- The end of a pulse leaves mode OFF (R123). -/
theorem monitorFollowsSreq_pulseEnd {s : State} (h : MonitorFollowsSreq s) : MonitorFollowsSreq s.pulseEnd := by
  unfold State.pulseEnd
  split
  · simp [MonitorFollowsSreq, timing]
  · exact h

theorem monitorFollowsSreq_settle {s : State} (p : SenseId) (h : MonitorFollowsSreq s) :
    MonitorFollowsSreq (s.settle p) := by
  unfold State.settle
  split
  · next hdue =>
    simp only [Bool.and_eq_true, Bool.not_eq_true', and_assoc] at hdue
    obtain ⟨hheld, -⟩ := hdue
    exact monitorFollowsSreq_propagate hheld (.adopt s p _) h
  · exact h

theorem monitorFollowsSreq_transition {s : State} (p : SenseId) (h : MonitorFollowsSreq s) :
    MonitorFollowsSreq (s.transition p) := by
  unfold State.transition
  split
  · next hdue =>
    simp only [Bool.and_eq_true, Bool.not_eq_true', and_assoc] at hdue
    obtain ⟨hheld, -⟩ := hdue
    refine monitorFollowsSreq_propagate hheld ?_ h
    split
    · exact (MonitorFrame.adopt s p _).trans { }
    · exact .adopt s p _
  · exact h

/-! ### CONTROL, the table port and the resets -/

theorem monitorFollowsSreq_writeControl {s : State} (w : Word) (hheld : s.held = false) (h : MonitorFollowsSreq s) :
    MonitorFollowsSreq (s.writeControl w) := by
  cases hsoft : w.getLsbD 2 with
  | true =>
    have hreset : s.writeControl w = s.softResetNow := if_pos hsoft
    rw [hreset]
    exact monitorFollowsSreq_of_reset rfl rfl
  | false =>
    rw [State.writeControl_of_noReset hsoft]
    exact monitorFollowsSreq_propagate hheld { } h

theorem monitorFollowsSreq_tableCommand {s : State} (c : TableCommand) (hheld : s.held = false)
    (h : MonitorFollowsSreq s) : MonitorFollowsSreq (s.tableCommand c) := by
  by_cases hok : s.judgeCommand c = .ok
  · rw [State.tableCommand_done hok]
    exact monitorFollowsSreq_propagate hheld ((MonitorFrame.perform s c).trans { }) h
  · rw [State.tableCommand_refused rfl hok]
    exact monitorFollowsSreq_of_tables h

theorem monitorFollowsSreq_sampleResetLow {s : State} (h : MonitorFollowsSreq s) :
    MonitorFollowsSreq s.sampleResetLow := by
  unfold State.sampleResetLow State.resetByPin
  split
  · exact h
  · cases s.held with
    | true => exact monitorFollowsSreq_of_tables h
    | false => exact monitorFollowsSreq_of_reset rfl rfl

theorem monitorFollowsSreq_release {s : State} (h : MonitorFollowsSreq s) : MonitorFollowsSreq s.release := by
  unfold State.release
  split
  · exact monitorFollowsSreq_of_tables h
  · exact h

/-! ### Every step -/

theorem kept_monitorFollowsSreq : Kept MonitorFollowsSreq where
  pending _ _ h := monitorFollowsSreq_of_tables h
  reply _ _ h := monitorFollowsSreq_of_tables h
  refclk _ _ h := monitorFollowsSreq_of_tables h
  enqueue _ _ _ _ h := monitorFollowsSreq_of_tables h
  retry _ hheld h := monitorFollowsSreq_propagate hheld { } h
  fault _ hheld h := monitorFollowsSreq_propagate hheld { } h
  reportBase _ _ _ h := monitorFollowsSreq_of_tables h
  control _ w hheld h := monitorFollowsSreq_writeControl w hheld h
  table _ c hheld h := monitorFollowsSreq_tableCommand c hheld h
  take _ _ _ hoffer h := monitorFollowsSreq_take hoffer h
  eos s w hheld h := monitorFollowsSreq_propagate hheld ((MonitorFrame.eosEffect s w).trans { }) h
  urgent s w hheld h := monitorFollowsSreq_propagate hheld (.urgentCleared s w) h
  deadline _ w hheld h := monitorFollowsSreq_writeDeadline w hheld h
  flags _ _ hheld h := monitorFollowsSreq_propagate hheld { } h
  enables _ _ hheld h := monitorFollowsSreq_propagate hheld { } h
  log _ _ h := monitorFollowsSreq_of_tables h
  counts _ _ _ h := monitorFollowsSreq_of_tables h
  causes _ _ _ h := monitorFollowsSreq_of_tables h
  tsel _ _ _ h := monitorFollowsSreq_of_tables h
  staging _ _ _ h := monitorFollowsSreq_of_tables h
  complete _ := monitorFollowsSreq_complete
  tierBoundary _ t := monitorFollowsSreq_tierBoundary t
  quietExpiry _ k := monitorFollowsSreq_quietExpiry k
  closeUnitBoundary _ := monitorFollowsSreq_closeUnitBoundary
  closeTimerExpiry _ l := monitorFollowsSreq_closeTimerExpiry l
  intervalExpiry _ := monitorFollowsSreq_intervalExpiry
  pulseEnd _ := monitorFollowsSreq_pulseEnd
  settle _ p := monitorFollowsSreq_settle p
  transition _ p := monitorFollowsSreq_transition p
  heldTick s _ h := monitorFollowsSreq_of_tables h (htiming := timing_tick s rfl)
  runningTick s _ _ h := monitorFollowsSreq_of_tables h (htiming := timing_tick s rfl)
  powerOn _ _ := monitorFollowsSreq_of_reset rfl rfl
  sampleResetLow _ := monitorFollowsSreq_sampleResetLow
  release _ := monitorFollowsSreq_release

/-- Settles O15: the law is kept by every effect that a step is made of. -/
theorem stepKeepsMonitorFollowsSreq : Obligations.StepKeepsMonitorFollowsSreq := by
  unfold Obligations.StepKeepsMonitorFollowsSreq
  intro s t h hstep
  exact kept_monitorFollowsSreq.step h hstep

end Sys2Proof.Machine
end

