-- ==== Sys2Proof/Proofs/PinCommit.lean ====
section
/-! A COMMIT to a pin entry of the table port (sections 7.4 and 9.5): which modes fit a line, when the COMMIT passes its
tests and how it is refused otherwise, and the entry and the two target lines that it leaves. Settles the two statements
about it. -/

namespace Sys2Proof.Machine

open Sys2Proof.Safety

/-! ### Pin modes and their codes (R124, R131) -/

theorem PinMode.isLevel_eq_true {m : PinMode} : m.isLevel = true ↔ m = .levelLow ∨ m = .levelHigh := by
  cases m <;> simp [PinMode.isLevel]

theorem PinMode.isEdge_eq_true {m : PinMode} : m.isEdge = true ↔ m = .rising ∨ m = .falling ∨ m = .anyChange := by
  cases m <;> simp [PinMode.isEdge]

theorem PinMode.code_eq_code {m n : PinMode} : m.code = n.code ↔ m = n := by
  rw [← pinModeOf_eq_some, pinModeOf_eq_some.mpr rfl, Option.some.injEq]

theorem PinMode.three_le_code {m : PinMode} : 3 ≤ m.code.toNat ↔ m.isEdge = true := by
  cases m <;> decide

/-- A pin mode fits the mode of its target line: a level mode fits a SHARED or SOLE line, an edge mode an EDGE line
(R131). -/
def PinMode.Fits (mode : PinMode) (line : LineMode) : Prop :=
  (mode.isLevel = true → line.isLevel = true) ∧ (mode.isEdge = true → line = .edge)

theorem LineMode.isLevel_eq_false {m : LineMode} : m.isLevel = false ↔ m = .off ∨ m = .edge := by
  cases m <;> simp [LineMode.isLevel]

theorem PinMode.not_fits {mode : PinMode} {line : LineMode} :
    ¬ mode.Fits line ↔ (mode.isLevel = true ∧ line.isLevel = false) ∨ (mode.isEdge = true ∧ line ≠ .edge) := by
  simp only [PinMode.Fits, Classical.not_and_iff_not_or_not, Classical.not_imp, Bool.not_eq_true, ne_eq]

/-- The modes that do not fit a line, by their codes. -/
theorem PinMode.not_fits_iff_code {mode : PinMode} {line : LineMode} :
    ¬ mode.Fits line ↔
      ((mode.code = 1#3 ∨ mode.code = 2#3) ∧ (line = .off ∨ line = .edge)) ∨
        (3 ≤ mode.code.toNat ∧ line ≠ .edge) := by
  have hlow : mode.code = 1#3 ↔ mode = .levelLow := PinMode.code_eq_code (n := .levelLow)
  have hhigh : mode.code = 2#3 ↔ mode = .levelHigh := PinMode.code_eq_code (n := .levelHigh)
  rw [PinMode.not_fits, PinMode.isLevel_eq_true, LineMode.isLevel_eq_false, PinMode.three_le_code, hlow, hhigh]

/-- Entry 8 accepts OFF and LEVEL_HIGH only (R124). -/
theorem pinAccepts_eq_true {p : PinId} {mode : PinMode} :
    pinAccepts p mode = true ↔ (p = 8 → mode = .off ∨ mode = .levelHigh) := by
  simp only [pinAccepts, Bool.or_eq_true, bne_iff_ne, beq_iff_eq, or_assoc, ne_eq]
  tauto

/-! ### The tests (R149, R155) -/

section
variable {s : State} {p : PinId} {mode : PinMode}

theorem State.judgeCommand_commit_pin (htable : s.tsel.table = 2#2) (hindex : s.tsel.index.toNat = p.val) :
    s.judgeCommand .commit = s.judgePinCommit p := by
  simp only [State.judgeCommand, State.judgeCommit, selectedEntry_pin htable hindex]

theorem State.pinChanged_eq_true :
    s.pinChanged p = true ↔
      s.staging.w0.extractLsb' 0 3 ≠ (s.pin p).mode.code ∨ s.staging.target ≠ (s.pin p).target := by
  simp only [State.pinChanged, Staging.pinMode, Bool.or_eq_true, bne_iff_ne, ne_eq, pinModeOf_eq_some]

theorem State.pinChanged_of_mode (hmode : s.staging.pinMode = some mode) :
    s.pinChanged p = true ↔ s.pin p ≠ ⟨mode, s.staging.target⟩ := by
  have hpin : s.pin p = ⟨mode, s.staging.target⟩ ↔ mode = (s.pin p).mode ∧ s.staging.target = (s.pin p).target := by
    cases s.pin p
    simp [eq_comm]
  rw [State.pinChanged_eq_true, pinModeOf_eq_some.mp hmode, ne_eq, PinMode.code_eq_code, ne_eq, ← not_and_or, ne_eq,
    hpin]

theorem State.judgePinMode_of_owned {target : LineId} (hmode : mode ≠ .off) (hsole : (s.line target).mode = .sole)
    (howned : s.remoteOwned target = true) : s.judgePinMode mode target = .soleConflict := by
  simp [State.judgePinMode, hmode, hsole, howned]

/-- The last test of an entry (R131). -/
theorem State.judgePinMode_misfits_iff {target : LineId} :
    ((mode.isLevel && !(s.line target).mode.isLevel) || (mode.isEdge && (s.line target).mode != .edge)) = true ↔
      ¬ mode.Fits (s.line target).mode := by
  simp only [PinMode.not_fits, Bool.or_eq_true, Bool.and_eq_true, Bool.not_eq_true', bne_iff_ne]

theorem State.judgePinMode_of_misfit {target : LineId}
    (hfree : ¬ ((s.line target).mode = .sole ∧ s.remoteOwned target = true))
    (hfits : ¬ mode.Fits (s.line target).mode) : s.judgePinMode mode target = .pinMismatch := by
  unfold State.judgePinMode
  rw [if_neg (by simp_all), if_pos (State.judgePinMode_misfits_iff.mpr hfits)]

theorem State.judgePinMode_eq_ok {target : LineId} :
    s.judgePinMode mode target = .ok ↔
      (mode ≠ .off → (s.line target).mode = .sole → s.remoteOwned target = false) ∧
        mode.Fits (s.line target).mode := by
  simp only [State.judgePinMode, ite_refused_eq_ok, ne_eq, reduceCtorEq, not_false_eq_true, and_true,
    State.judgePinMode_misfits_iff, not_not, Bool.and_eq_true, bne_iff_ne, beq_iff_eq, not_and, Bool.not_eq_true,
    and_imp]

/-- In PAUSED a changed entry is judged by its mode: one that it does not accept is a bad value (R149). -/
theorem State.judgePinCommit_of_refused (hchanged : s.pinChanged p = true) (hpaused : s.paused = true)
    (hbad : ∀ mode, s.staging.pinMode = some mode → pinAccepts p mode = false) : s.judgePinCommit p = .badValue := by
  cases hmode : s.staging.pinMode with
  | none => simp [State.judgePinCommit, hchanged, hpaused, hmode]
  | some mode => simp [State.judgePinCommit, hchanged, hpaused, hmode, hbad mode hmode]

theorem State.judgePinCommit_of_accepted (hchanged : s.pinChanged p = true) (hpaused : s.paused = true)
    (hmode : s.staging.pinMode = some mode) (haccepts : pinAccepts p mode = true) :
    s.judgePinCommit p = s.judgePinMode mode s.staging.target := by
  simp [State.judgePinCommit, hchanged, hpaused, hmode, haccepts]

/-- A COMMIT to a pin entry passes its tests where it changes nothing, or in PAUSED with a mode that the entry accepts
and that the target line takes. -/
theorem State.judgePinCommit_eq_ok (hmode : s.staging.pinMode = some mode) :
    s.judgePinCommit p = .ok ↔
      (s.pinChanged p = true →
        s.paused = true ∧ pinAccepts p mode = true ∧ s.judgePinMode mode s.staging.target = .ok) := by
  cases hchanged : s.pinChanged p with
  | false => simp [State.judgePinCommit, hchanged]
  | true =>
    cases hpaused : s.paused with
    | false => simp [State.judgePinCommit, hchanged, hpaused]
    | true =>
      cases haccepts : pinAccepts p mode with
      | false =>
        have hbad : ∀ m, s.staging.pinMode = some m → pinAccepts p m = false := fun m hm => by
          rwa [← Option.some.inj (hmode.symm.trans hm)]
        simp [State.judgePinCommit_of_refused hchanged hpaused hbad]
      | true =>
        simp [State.judgePinCommit_of_accepted hchanged hpaused hmode haccepts]

/-- The codes that an entry does not accept: 6 and 7, and for entry 8 all but OFF's and LEVEL_HIGH's (R124, R131). -/
theorem State.stagedMode_refused_iff :
    (∀ mode, s.staging.pinMode = some mode → pinAccepts p mode = false) ↔
      6 ≤ (s.staging.w0.extractLsb' 0 3).toNat ∨
        (p = 8 ∧ s.staging.w0.extractLsb' 0 3 ≠ 0#3 ∧ s.staging.w0.extractLsb' 0 3 ≠ 2#3) := by
  rw [← pinModeOf_eq_none]
  change _ ↔ s.staging.pinMode = none ∨ _
  cases hmode : s.staging.pinMode with
  | none => simp
  | some mode =>
    have hoff : mode.code = 0#3 ↔ mode = .off := PinMode.code_eq_code (n := .off)
    have hhigh : mode.code = 2#3 ↔ mode = .levelHigh := PinMode.code_eq_code (n := .levelHigh)
    rw [pinModeOf_eq_some.mp hmode, ne_eq, ne_eq, hoff, hhigh]
    simp [← Bool.not_eq_true, pinAccepts_eq_true]

end

/-- Settles O38: the tests in their order, each read off the raw fields. -/
theorem pinCommitRefusals : Obligations.PinCommitRefusals := by
  unfold Obligations.PinCommitRefusals
  intro s p hheld htable hindex refuses code target changed badValue shared mismatched
  have hrefuses : ∀ r, r ≠ .ok → s.judgePinCommit p = r → refuses r := fun r hr hj => by
    simp only [refuses]
    rw [exec_commit, State.registerDone_of_free hheld,
      State.tableCommand_refused ((State.judgeCommand_commit_pin htable hindex).trans hj) hr]
    rfl
  have hchanged : changed → s.pinChanged p = true := State.pinChanged_eq_true.mpr
  refine ⟨fun hnew hrun => ?_, fun hnew hpaused => ⟨fun hbad => ?_, fun hgood hon => ?_⟩⟩
  · refine hrefuses .notPaused nofun ?_
    simp [State.judgePinCommit, hchanged hnew, State.paused_eq_false.mpr hrun]
  · exact hrefuses .badValue nofun
      (State.judgePinCommit_of_refused (hchanged hnew) (State.paused_eq_true.mpr hpaused)
        (State.stagedMode_refused_iff.mpr hbad))
  · obtain ⟨mode, hmode, haccepts⟩ : ∃ mode, s.staging.pinMode = some mode ∧ pinAccepts p mode = true := by
      simpa using mt State.stagedMode_refused_iff.mp hgood
    have hcode : code = mode.code := pinModeOf_eq_some.mp hmode
    have hoff : mode ≠ .off := fun h => hon (by rw [hcode, h]; rfl)
    have hshared : shared ↔ (s.line target).mode = .sole ∧ s.remoteOwned target = true := by
      rw [State.remoteOwned_eq_true]
    have hmismatched : mismatched ↔ ¬ mode.Fits (s.line target).mode := by
      rw [PinMode.not_fits_iff_code, ← hcode]
    have hj := State.judgePinCommit_of_accepted (hchanged hnew) (State.paused_eq_true.mpr hpaused) hmode haccepts
    refine ⟨fun howned => hrefuses .soleConflict nofun (hj.trans ?_), fun hfree hbad =>
      hrefuses .pinMismatch nofun (hj.trans ?_)⟩
    · obtain ⟨hsole, howned⟩ := hshared.mp howned
      exact State.judgePinMode_of_owned hoff hsole howned
    · exact State.judgePinMode_of_misfit (mt hshared.mpr hfree) (hmismatched.mp hbad)

/-! ### What it leaves (R132) -/

theorem putMember_putMember (c : SourceSet) (n : Nat) (b : Bool) :
    putMember (putMember c n b) n b = putMember c n b := by
  unfold putMember
  cases b with
  | false => simp [BitVec.and_assoc]
  | true => simp [BitVec.or_assoc]

theorem LineEntry.setMember_setMember (e : LineEntry) (n : Nat) (b : Bool) :
    (e.setMember n b).setMember n b = e.setMember n b := by
  cases hm : e.mode.isLevel with
  | false => rw [LineEntry.setMember_of_not_level hm, LineEntry.setMember_of_not_level hm]
  | true =>
    rw [LineEntry.setMember_of_level hm, LineEntry.setMember_of_level (by exact hm), putMember_putMember]

section
variable {s : State} {mode : PinMode} (hmode : s.staging.pinMode = some mode) (p : PinId)
include hmode

theorem State.commitPin_of_mode :
    s.commitPin p =
      ((s.setPin p ⟨mode, s.staging.target⟩).recomputeLocal (s.pin p).target).recomputeLocal s.staging.target := by
  simp only [State.commitPin, hmode]

theorem State.commitPin_frame :
    s.commitPin p = { s with pins := (s.commitPin p).pins, lines := (s.commitPin p).lines } := by
  rw [State.commitPin_of_mode hmode]
  rfl

theorem State.commitPin_pin (q : PinId) :
    (s.commitPin p).pin q = if q = p then ⟨mode, s.staging.target⟩ else s.pin q := by
  rw [State.commitPin_of_mode hmode, State.recomputeLocal_pin, State.recomputeLocal_pin, State.pin_setPin]

/-- The local source's membership of the old and of the new target line is derived, and no other line changes. -/
theorem State.commitPin_line (l : LineId) :
    (s.commitPin p).line l =
      if l = (s.pin p).target ∨ l = s.staging.target then (s.line l).setMember 24 ((s.commitPin p).localActive l)
      else s.line l := by
  simp only [State.commitPin_of_mode hmode, State.line_recomputeLocal, State.recomputeLocal_localActive,
    State.setPin_line, Config.localCode]
  by_cases hnew : l = s.staging.target
  · rw [if_pos hnew, if_pos (Or.inr hnew)]
    split
    · exact LineEntry.setMember_setMember ..
    · rfl
  · simp only [if_neg hnew, or_iff_left hnew]

end

/-- Settles O41. -/
theorem pinCommitWritesTheEntry : Obligations.PinCommitWritesTheEntry := by
  unfold Obligations.PinCommitWritesTheEntry
  intro s p mode hheld htable hindex hcode target hfits
  have hmode : s.staging.pinMode = some mode := pinModeOf_eq_some.mpr hcode
  have hj : s.judgeCommand .commit = .ok := by
    rw [State.judgeCommand_commit_pin htable hindex, State.judgePinCommit_eq_ok hmode, State.pinChanged_eq_true, hcode,
      ne_eq, PinMode.code_eq_code]
    intro hnew
    obtain ⟨hpaused, haccepts, hsole, hlevel, hedge⟩ := hfits hnew
    refine ⟨State.paused_eq_true.mpr hpaused, pinAccepts_eq_true.mpr haccepts, State.judgePinMode_eq_ok.mpr
      ⟨fun hoff hm => ?_, fun hm => LineMode.isLevel_eq_true.mpr (hlevel hm), hedge⟩⟩
    rw [← Bool.not_eq_true, State.remoteOwned_eq_true]
    rintro ⟨k, hk⟩
    exact Bool.false_ne_true ((hsole hoff hm k).symm.trans hk)
  have hperform : s.perform .commit = s.commitPin p := by
    simp only [State.perform, State.performCommit, selectedEntry_pin htable hindex]
  have hdone : exec .commit s =
      .next ((s.propagate ((s.commitPin p).setTstat ⟨.ok, some .commit⟩)).answer .done 0) := by
    rw [exec_commit, State.registerDone_of_free hheld, State.tableCommand_done hj, hperform]
  have hsummary : s.summary = ((s.commitPin p).setTstat ⟨.ok, some .commit⟩).summary := by
    rw [State.commitPin_frame hmode]
    rfl
  refine ⟨_, hdone, ?_, fun q hq => ?_, fun l => ?_, ?_, ?_⟩
  · rw [State.answer_pin, State.propagate_pin, State.setTstat_pin, State.commitPin_pin hmode, if_pos rfl]
    rfl
  · rw [State.answer_pin, State.propagate_pin, State.setTstat_pin, State.commitPin_pin hmode, if_neg hq]
  · rw [State.answer_line, State.propagate_line_of_summary hsummary, State.answer_localActive,
      State.propagate_localActive]
    exact State.commitPin_line hmode p l
  · rw [State.answer_monitor, monitorAfter_answer]
    apply State.propagate_monitorAfter <;> rw [State.commitPin_frame hmode] <;> rfl
  · rw [State.propagate_eq, State.commitPin_frame hmode]
    rfl

end Sys2Proof.Machine
end

