-- ==== Sys2Proof/Proofs/PinLaws.lean ====
section
/-! Every pin entry fits its target line (R124, R131). The pin table and the modes of the lines are moved by a COMMIT to
a line or to a pin entry and by a reset alone: of every other effect it is said once that it stays within the frame of
the line table, and the two COMMITs test the fit. Settles the law. -/

namespace Sys2Proof.Machine

open Sys2Proof.Safety

/-! ### Effects within the frame of the line table -/

theorem LineFrame.refl (s : State) : LineFrame s s := { }

/-- An event within the frame, with all that it passes on. -/
theorem LineFrame.propagate {b s t : State} (h : LineFrame s t) : LineFrame s (State.propagate b t) :=
  h.watchSummary.trans (LineWork.watchSreq b _).toLineFrame

/-- STACK_CLEAR at most empties the stack (R106). -/
theorem LineFrame.controlStored (s : State) (w : Word) : LineFrame s (s.controlStored w) where
  stack l hl := by
    obtain ⟨e, he, hline⟩ := State.inStack_eq_true.mp hl
    simp only [State.controlStored] at he
    split at he
    · cases he
    · exact State.inStack_eq_true.mpr ⟨e, he, hline⟩

theorem LineFrame.complete (s : State) : LineFrame s s.complete := by
  unfold State.complete
  split
  · exact .refl s
  · split
    · exact .refl s
    · exact (LineWork.departed s _).toLineFrame.propagate

theorem LineFrame.quietExpiry (s : State) (k : RemoteId) : LineFrame s (s.quietExpiry k) := by
  unfold State.quietExpiry
  split
  · exact ((LineWork.withdrawn s k _ _).trans (.raise _ _)).toLineFrame.propagate
  · exact .refl s

theorem LineFrame.closeTimerExpiry (s : State) (l : LineId) : LineFrame s (s.closeTimerExpiry l) := by
  unfold State.closeTimerExpiry
  split
  · exact ((LineWork.filterStack s _).trans (.raise _ _)).toLineFrame.propagate
  · exact .refl s

theorem LineFrame.settle (s : State) (p : SenseId) : LineFrame s (s.settle p) := by
  unfold State.settle
  split
  · exact (LineFrame.adopt s p _).propagate
  · exact .refl s

theorem LineFrame.transition (s : State) (p : SenseId) : LineFrame s (s.transition p) := by
  unfold State.transition
  split
  · refine LineFrame.propagate ?_
    split
    · exact (LineFrame.adopt s p _).trans (LineWork.pinPulse _ _).toLineFrame
    · exact .adopt s p _
  · exact .refl s

theorem LineFrame.pulseEnd (s : State) : LineFrame s s.pulseEnd := by
  unfold State.pulseEnd
  split <;> exact { }

theorem LineFrame.release (s : State) : LineFrame s s.release := by
  unfold State.release
  split <;> exact { }

/-! ### The law, entry by entry -/

/-- R131 for one pin entry. -/
def State.PinFits (s : State) (p : PinId) : Prop := (s.pin p).mode.Fits (s.line (s.pin p).target).mode

/-- R124 and R131: every entry fits its target line, and entry 8 holds a mode that it accepts. -/
theorem pinsMatchLines_iff {s : State} :
    PinsMatchLines s ↔ (∀ p, s.PinFits p) ∧ ((s.pin 8).mode = .off ∨ (s.pin 8).mode = .levelHigh) := Iff.rfl

/-- An OFF entry fits every line. -/
theorem PinMode.fits_of_off (line : LineMode) : PinMode.Fits .off line := ⟨nofun, nofun⟩

theorem State.lineBreaksPins_eq_false {s : State} {l : LineId} {mode : LineMode} :
    s.lineBreaksPins l mode = false ↔ ∀ p, (s.pin p).target = l → (s.pin p).mode.Fits mode := by
  rw [← Bool.not_eq_true, State.lineBreaksPins_eq_true, not_exists]
  refine forall_congr' fun p => ?_
  rw [not_and, ← LineMode.isLevel_eq_false, ← PinMode.not_fits, not_not]

/-! ### How the law is kept -/

/-- The frame leaves the pin table and the mode of every line. -/
theorem LineFrame.pinsMatchLines {s t : State} (hframe : LineFrame s t) (h : PinsMatchLines s) : PinsMatchLines t := by
  have hpin : t.pin = s.pin := by
    funext p
    simp only [State.pin, hframe.pins]
  have hmode : ∀ l, (t.line l).mode = (s.line l).mode := fun l => (hframe.line l).mode
  simpa only [PinsMatchLines, hpin, hmode] using h

theorem LineWork.pinsMatchLines {s t : State} (hwork : LineWork s t) : PinsMatchLines s → PinsMatchLines t :=
  hwork.toLineFrame.pinsMatchLines

theorem pinsMatchLines_of_reset {t : State} (hpins : t.pins = State.reset.pins) : PinsMatchLines t := by
  have hoff : ∀ p, (t.pin p).mode = .off := fun p => by simp [State.pin, hpins, State.reset]
  refine pinsMatchLines_iff.mpr ⟨fun p => ?_, .inl (hoff 8)⟩
  rw [State.PinFits, hoff]
  exact PinMode.fits_of_off _

/-- A new mode of a line fits the entries that target it (R76, R154). -/
theorem pinsMatchLines_commitLine {s : State} {l : LineId} (hj : s.judgeLineCommit l = .ok) (h : PinsMatchLines s) :
    PinsMatchLines (s.commitLine l) := by
  obtain ⟨-, -, hnew⟩ := State.judgeLineCommit_eq_ok.mp hj
  obtain ⟨hfits, hevent⟩ := pinsMatchLines_iff.mp h
  have hpin : (s.commitLine l).pin = s.pin := by rw [State.commitLine_eq]; rfl
  refine pinsMatchLines_iff.mpr ⟨fun p => ?_, by rwa [hpin]⟩
  rw [State.PinFits, hpin, (s.commitLine_mode_route l _).1]
  split
  · next htarget =>
    by_cases hm : s.lineModeChanged l = true
    · exact State.lineBreaksPins_eq_false.mp (hnew hm).2 p htarget
    · rw [State.lineModeChanged_eq_true, not_not] at hm
      rw [hm, ← htarget]
      exact hfits p
  · exact hfits p

/-- A changed entry holds a mode that it accepts and that its target line takes (R124, R131). -/
theorem pinsMatchLines_setPin {s : State} {p : PinId} {mode : PinMode} (hj : s.judgePinCommit p = .ok)
    (hmode : s.staging.pinMode = some mode) (h : PinsMatchLines s) :
    PinsMatchLines (s.setPin p ⟨mode, s.staging.target⟩) := by
  have hnew := (State.judgePinCommit_eq_ok hmode).mp hj
  rw [State.pinChanged_of_mode hmode] at hnew
  obtain ⟨hfits, hevent⟩ := pinsMatchLines_iff.mp h
  by_cases hsame : s.pin p = ⟨mode, s.staging.target⟩
  · have hpin : (s.setPin p ⟨mode, s.staging.target⟩).pin = s.pin := by
      funext q
      rw [State.pin_setPin]
      split
      · next hq => rw [hq, hsame]
      · rfl
    simpa only [PinsMatchLines, hpin, State.setPin_line] using h
  · obtain ⟨-, haccepts, hline⟩ := hnew hsame
    obtain ⟨-, hline⟩ := State.judgePinMode_eq_ok.mp hline
    refine pinsMatchLines_iff.mpr ⟨fun q => ?_, ?_⟩
    · rw [State.PinFits, State.pin_setPin, State.setPin_line]
      split
      · exact hline
      · exact hfits q
    · rw [State.pin_setPin]
      split
      · next h8 => exact pinAccepts_eq_true.mp haccepts h8.symm
      · exact hevent

theorem pinsMatchLines_commitPin {s : State} {p : PinId} (hj : s.judgePinCommit p = .ok) (h : PinsMatchLines s) :
    PinsMatchLines (s.commitPin p) := by
  cases hmode : s.staging.pinMode with
  | none => rwa [State.commitPin_of_none hmode]
  | some mode => exact (LineFrame.commitPin hmode).pinsMatchLines (pinsMatchLines_setPin hj hmode h)

/-! ### CONTROL, the table port, TAKE and the resets -/

theorem pinsMatchLines_writeControl {s : State} (w : Word) (h : PinsMatchLines s) :
    PinsMatchLines (s.writeControl w) := by
  cases hsoft : w.getLsbD 2 with
  | true =>
    have hreset : s.writeControl w = s.softResetNow := if_pos hsoft
    rw [hreset]
    exact pinsMatchLines_of_reset rfl
  | false =>
    rw [State.writeControl_of_noReset hsoft]
    exact (LineFrame.controlStored s w).propagate.pinsMatchLines h

/-- A COMMIT that passes its tests, on the entry that TSEL names. -/
theorem pinsMatchLines_performCommit {s : State} (hj : s.judgeCommit = .ok) (h : PinsMatchLines s) :
    PinsMatchLines s.performCommit := by
  unfold State.judgeCommit at hj
  unfold State.performCommit
  cases hentry : selectedEntry s.tsel with
  | source k => exact (LineWork.withdraw _ k _).pinsMatchLines h
  | line l =>
    rw [hentry] at hj
    exact pinsMatchLines_commitLine hj h
  | pin p =>
    rw [hentry] at hj
    exact pinsMatchLines_commitPin hj h
  | localSource | noEntry => exact h

theorem pinsMatchLines_tableCommand {s : State} (c : TableCommand) (h : PinsMatchLines s) :
    PinsMatchLines (s.tableCommand c) := by
  by_cases hok : s.judgeCommand c = .ok
  · have hperform : PinsMatchLines (s.perform c) := by
      by_cases hc : c = .commit
      · subst hc
        exact pinsMatchLines_performCommit hok h
      · exact (LineWork.perform s hc).pinsMatchLines h
    rw [State.tableCommand_done hok]
    exact (LineWork.setTstat _ _).toLineFrame.propagate.pinsMatchLines hperform
  · rw [State.tableCommand_refused rfl hok]
    exact (LineWork.setTstat s _).pinsMatchLines h

theorem pinsMatchLines_take {s : State} (l : LineId) (h : PinsMatchLines s) : PinsMatchLines (s.push l).watchTake :=
  ((LineWork.push s l).trans (.watchTake _)).pinsMatchLines h

theorem pinsMatchLines_intervalExpiry {s : State} (h : PinsMatchLines s) : PinsMatchLines s.intervalExpiry := by
  obtain he | he | ⟨left, latch, he⟩ := s.intervalExpiry_cases <;> rw [he]
  · exact h
  · exact pinsMatchLines_of_reset rfl
  · exact h

theorem pinsMatchLines_sampleResetLow {s : State} (h : PinsMatchLines s) : PinsMatchLines s.sampleResetLow := by
  unfold State.sampleResetLow State.resetByPin
  split
  · exact h
  · cases s.held with
    | true => exact h
    | false => exact pinsMatchLines_of_reset rfl

/-! ### Every step -/

theorem kept_pinsMatchLines : Kept PinsMatchLines where
  pending _ _ h := h
  reply _ _ h := h
  refclk _ _ h := h
  enqueue _ _ _ _ h := h
  retry s _ := (LineWork.raise s _).toLineFrame.propagate.pinsMatchLines
  fault _ _ := (LineFrame.propagate { }).pinsMatchLines
  reportBase _ _ _ h := h
  control _ w _ := pinsMatchLines_writeControl w
  table _ c _ := pinsMatchLines_tableCommand c
  take _ l _ _ := pinsMatchLines_take l
  eos s w _ := ((LineWork.eosEffect s w).trans (.setEosResult _ _)).toLineFrame.propagate.pinsMatchLines
  urgent s w _ := ((LineWork.clearUrgent s w).trans (.setWarning _ _)).toLineFrame.propagate.pinsMatchLines
  deadline s w _ := (LineWork.writeDeadline s w).pinsMatchLines
  flags _ _ _ := (LineFrame.propagate { }).pinsMatchLines
  enables _ _ _ := (LineFrame.propagate { }).pinsMatchLines
  log _ _ h := h
  counts _ _ _ h := h
  causes _ _ _ h := h
  tsel _ _ _ h := h
  staging _ _ _ h := h
  complete s := (LineFrame.complete s).pinsMatchLines
  tierBoundary s t := (LineWork.tierBoundary s t).pinsMatchLines
  quietExpiry s k := (LineFrame.quietExpiry s k).pinsMatchLines
  closeUnitBoundary s := (LineWork.closeUnitBoundary s).pinsMatchLines
  closeTimerExpiry s l := (LineFrame.closeTimerExpiry s l).pinsMatchLines
  intervalExpiry _ := pinsMatchLines_intervalExpiry
  pulseEnd s := (LineFrame.pulseEnd s).pinsMatchLines
  settle s p := (LineFrame.settle s p).pinsMatchLines
  transition s p := (LineFrame.transition s p).pinsMatchLines
  heldTick _ _ h := h
  runningTick s sns _ := (LineWork.runningTick s sns).pinsMatchLines
  powerOn _ _ := pinsMatchLines_of_reset rfl
  sampleResetLow _ := pinsMatchLines_sampleResetLow
  release s := (LineFrame.release s).pinsMatchLines

/-- Settles O14: the law is kept by every effect that a step is made of. -/
theorem stepKeepsPinsMatchLines : Obligations.StepKeepsPinsMatchLines := by
  unfold Obligations.StepKeepsPinsMatchLines
  exact ⟨fun _ => ⟨PinMode.isLevel_eq_true, PinMode.isEdge_eq_true⟩,
    fun s t h hstep => kept_pinsMatchLines.step h hstep⟩

end Sys2Proof.Machine
end

