-- ==== Sys2Proof/Proofs/FilterChange.lean ====
section
/-! Filtered transitions and settlings (sections 7.2 and 7.3): when one is due, and what its event leaves of the filter
and of the pin's target line. Both are one effect, of which a settling makes no pulse (`State.sampled`). Settles the
statement about them. -/

namespace Sys2Proof.Machine

open Sys2Proof.Safety

/-! ### A pulse on a line (R70) -/

theorem LineEntry.pulse_of_edge {e : LineEntry} (h : e.mode = .edge) (src : BitVec 5) :
    e.pulse src =
      { e with latch := true, repeatCount := if e.latch then saturated e.repeatCount else 0, lastEdge := src } := by
  rw [LineEntry.pulse, if_pos h]
  cases hlatch : e.latch with
  | false => rfl
  | true => simp [satInc_eq_saturated]

theorem LineEntry.pulse_of_not_edge {e : LineEntry} (h : e.mode ≠ .edge) (src : BitVec 5) : e.pulse src = e := if_neg h

/-- The transitions at which a pin mode pulses (R129). -/
theorem PinMode.pulsesAt_levelOf {m : PinMode} {b : Bool} :
    m.pulsesAt (levelOf b) = true ↔ (m = .rising ∧ b = true) ∨ (m = .falling ∧ b = false) ∨ m = .anyChange := by
  cases m <;> cases b <;> simp [PinMode.pulsesAt, levelOf]

theorem PinMode.pulsesAt_of_level {m : PinMode} (h : m.isLevel = true) (v : Level) : m.pulsesAt v = false := by
  rcases PinMode.isLevel_eq_true.mp h with rfl | rfl <;> rfl

/-! ### The own effect of a settling and of a filtered transition -/

theorem State.pinLevelChanged_eq (s : State) (p : PinId) :
    s.pinLevelChanged p = { s with lines := (s.pinLevelChanged p).lines } := by
  unfold State.pinLevelChanged
  split <;> rfl

theorem State.pinLevelChanged_of_level {s : State} {p : PinId} (h : (s.pin p).mode.isLevel = true) :
    s.pinLevelChanged p = s.recomputeLocal (s.pin p).target :=
  if_pos h

theorem State.pinLevelChanged_of_not_level {s : State} {p : PinId} (h : (s.pin p).mode.isLevel = false) :
    s.pinLevelChanged p = s :=
  if_neg (by simp [h])

theorem State.pinPulse_line (s : State) (p : PinId) (l : LineId) :
    (s.pinPulse p).line l = if l = (s.pin p).target then (s.line l).pulse 24 else s.line l := by
  rw [State.pinPulse, State.line_setLine]
  split
  · next hl => rw [hl]; rfl
  · rfl

/-- The event that the samples make has a pulse: a matching entry has one at a transition, and none at a settling
(R125, R129). -/
def State.samplePulses (s : State) (n : SenseId) : Bool :=
  (s.filter n).level != .unset && (s.pin (pinOfSense n)).mode.pulsesAt (s.filter n).adopt.level

/-- The filter of a pin takes its sampled level, and the change reaches the target line (R125, R128, R129). -/
def State.sampled (s : State) (n : SenseId) : State :=
  let t := (s.setFilter n (s.filter n).adopt).pinLevelChanged (pinOfSense n)
  if s.samplePulses n then t.pinPulse (pinOfSense n) else t

section
variable {s : State} {n : SenseId}

theorem State.settle_of_due (hheld : s.held = false) (hdue : (s.filter n).due = true)
    (hlevel : (s.filter n).level = .unset) : s.settle n = s.propagate (s.sampled n) := by
  simp [State.settle, State.sampled, State.samplePulses, hheld, hdue, hlevel]

theorem State.transition_of_due (hheld : s.held = false) (hdue : (s.filter n).due = true)
    (hlevel : (s.filter n).level ≠ .unset) : s.transition n = s.propagate (s.sampled n) := by
  simp [State.transition, State.sampled, State.samplePulses, hheld, hdue, hlevel]

/-- The event that the samples make is a settling where the level is UNSET, else a filtered transition (R125, R126). -/
theorem exec_filterChange (hheld : s.held = false) (hdue : (s.filter n).due = true) :
    exec (if (s.filter n).level = .unset then .settling n else .filteredTransition n) s =
      .next (s.propagate (s.sampled n)) := by
  split
  · next hlevel => rw [exec_settling, State.settle_of_due hheld hdue hlevel]
  · next hlevel => rw [exec_filteredTransition, State.transition_of_due hheld hdue hlevel]

end

theorem State.sampled_frame (s : State) (n : SenseId) :
    s.sampled n = { s.setFilter n (s.filter n).adopt with lines := (s.sampled n).lines } := by
  unfold State.sampled
  dsimp only
  rw [State.pinLevelChanged_eq]
  split <;> rfl

theorem State.sampled_filter (s : State) (n m : SenseId) :
    (s.sampled n).filter m = if m = n then (s.filter n).adopt else s.filter m := by
  rw [State.sampled_frame]
  exact s.filter_setFilter m n _

theorem State.sampled_localActive (s : State) (n : SenseId) :
    (s.sampled n).localActive = (s.setFilter n (s.filter n).adopt).localActive := by
  rw [State.sampled_frame]
  exact State.localActive_congr rfl rfl rfl

theorem State.sampled_summary (s : State) (n : SenseId) : s.summary = (s.sampled n).summary := by
  rw [State.sampled_frame]
  rfl

section
variable {s : State} {n : SenseId} {l : LineId}

/-- An entry in a level mode makes no pulse (R129). -/
theorem State.not_level_of_samplePulses (h : s.samplePulses n = true) :
    (s.pin (pinOfSense n)).mode.isLevel = false := by
  obtain ⟨-, hpulse⟩ := Bool.and_eq_true_iff.mp h
  rw [← Bool.not_eq_true]
  intro hlevel
  exact Bool.false_ne_true ((PinMode.pulsesAt_of_level hlevel _).symm.trans hpulse)

/-- The target line of a level-mode entry gets the local source's membership (R68, R128). -/
theorem State.sampled_line_of_level (h : (s.pin (pinOfSense n)).mode.isLevel = true) :
    (s.sampled n).line l =
      if l = (s.pin (pinOfSense n)).target then (s.line l).setMember 24 ((s.sampled n).localActive l)
      else s.line l := by
  have hsilent : s.samplePulses n = false := by
    rw [← Bool.not_eq_true]
    exact fun hp => Bool.false_ne_true ((State.not_level_of_samplePulses hp).symm.trans h)
  have hsampled : s.sampled n =
      (s.setFilter n (s.filter n).adopt).recomputeLocal (s.pin (pinOfSense n)).target := by
    simp only [State.sampled, hsilent, Bool.false_eq_true, if_false]
    exact State.pinLevelChanged_of_level h
  rw [State.sampled_localActive, hsampled, State.line_recomputeLocal, State.setFilter_line]
  rfl

/-- The target line of another entry gets the pulse, where there is one (R129). -/
theorem State.sampled_line_of_not_level (h : (s.pin (pinOfSense n)).mode.isLevel = false) :
    (s.sampled n).line l =
      if l = (s.pin (pinOfSense n)).target ∧ s.samplePulses n = true then (s.line l).pulse 24 else s.line l := by
  have hsame : (s.setFilter n (s.filter n).adopt).pinLevelChanged (pinOfSense n) = s.setFilter n (s.filter n).adopt :=
    State.pinLevelChanged_of_not_level h
  unfold State.sampled
  rw [hsame]
  cases hpulse : s.samplePulses n with
  | false => simp
  | true =>
    rw [if_pos rfl, State.pinPulse_line, State.setFilter_pin, State.setFilter_line]
    simp only [and_true]

/-- The event reaches the pin's target line alone. -/
theorem State.sampled_line_ne (h : l ≠ (s.pin (pinOfSense n)).target) : (s.sampled n).line l = s.line l := by
  cases hlevel : (s.pin (pinOfSense n)).mode.isLevel with
  | true => rw [State.sampled_line_of_level hlevel, if_neg h]
  | false => rw [State.sampled_line_of_not_level hlevel, if_neg fun hp => h hp.1]

end

theorem pinOfSense_val (n : SenseId) : (pinOfSense n).val = n.val := rfl

theorem PinFilter.adopt_of_previous {f : PinFilter} {b : Bool} (h : f.previous = some b) :
    f.adopt = { f with level := levelOf b, due := false } := by
  simp [PinFilter.adopt, h]

/-- Settles O53: the one effect of both events, read off the target line by the entry's mode. -/
theorem filterChangesReachTheLine : Obligations.FilterChangesReachTheLine := by
  unfold Obligations.FilterChangesReachTheLine
  refine ⟨pinOfSense_val, fun s n h => ?_, fun s n h => ?_, ?_⟩
  · rw [exec_settling, State.settle_of_not_due h]
  · rw [exec_filteredTransition, State.transition_of_not_due h]
  intro s n b hheld hdue hprevious e c pulses hdiffers
  have hadopt := PinFilter.adopt_of_previous hprevious
  have hpulses : pulses ↔ s.samplePulses n = true ∧ (s.line e.target).mode = .edge := by
    rw [State.samplePulses, Bool.and_eq_true, bne_iff_ne, hadopt, PinMode.pulsesAt_levelOf]
    exact and_assoc.symm.trans and_right_comm
  have hline : ∀ l, (s.propagate (s.sampled n)).line l = (s.sampled n).line l :=
    State.propagate_line_of_summary (s.sampled_summary n)
  refine ⟨_, exec_filterChange hheld hdue, ?_, fun m hm => ?_, fun l hl => ?_, fun hlevel => ?_, fun hpulse => ?_,
    fun hlevel hpulse => ?_, ?_, ?_⟩
  · rw [State.propagate_filter, State.sampled_filter, if_pos rfl, hadopt]
    rfl
  · rw [State.propagate_filter, State.sampled_filter, if_neg hm]
  · rw [hline, State.sampled_line_ne hl]
  · rw [hline, State.sampled_line_of_level hlevel, if_pos rfl, State.propagate_localActive]
  · obtain ⟨hmatches, hedge⟩ := hpulses.mp hpulse
    rw [hline, State.sampled_line_of_not_level (State.not_level_of_samplePulses hmatches), if_pos ⟨rfl, hmatches⟩,
      LineEntry.pulse_of_edge hedge]
    rfl
  · rw [hline, State.sampled_line_of_not_level hlevel]
    split
    · next hmatches =>
      exact LineEntry.pulse_of_not_edge (fun hedge => hpulse (hpulses.mpr ⟨hmatches.2, hedge⟩)) _
    · rfl
  · apply State.propagate_monitorAfter <;> rw [State.sampled_frame] <;> rfl
  · rw [State.propagate_eq, State.sampled_frame]
    rfl

end Sys2Proof.Machine
end

