-- ==== Sys2Proof/Proofs/EventRecords.lean ====
section
/-! The part's records (chapter 8, R169): the event flags with their enables and the summary, a pop of the reject log,
and the clears of COUNTS and RESET_CAUSE. Settles the statements about them. -/

namespace Sys2Proof.Machine

open Sys2Proof.Safety

/-! ### EVENT_FLAGS and EVENT_ENABLE (R137, R138) -/

/-- What a write of EVENT_FLAGS leaves: the flags written 1 clear, and a change of the summary passed on (R137). -/
theorem State.clearFlags_spec (s : State) (w : Word) :
    let t := (s.clearFlags w).answer .done 0
    t = { s with
      eventFlags := s.eventFlags &&& ~~~w.extractLsb' 0 8, lines := t.lines, monitor := t.monitor
      reply := .answered .done 0 } ∧
    LinesAfter s t s.line ∧ t.monitor = monitorAfter s t :=
  State.answer_propagate_spec (u := { s with eventFlags := s.eventFlags &&& ~~~w.extractLsb' 0 8 })
    .done 0 rfl rfl rfl rfl rfl

/-- What a write of EVENT_ENABLE leaves: the enables as written, and a change of the summary passed on (R138). -/
theorem State.writeEnables_spec (s : State) (w : Word) :
    let t := (s.writeEnables w).answer .done 0
    t = { s with
      eventEnables := w.extractLsb' 0 8, lines := t.lines, monitor := t.monitor, reply := .answered .done 0 } ∧
    LinesAfter s t s.line ∧ t.monitor = monitorAfter s t :=
  State.answer_propagate_spec (u := { s with eventEnables := w.extractLsb' 0 8 }) .done 0 rfl rfl rfl rfl rfl

/-- An enable gives a standing flag to the summary at once (R138). -/
theorem State.writeEnables_summary {s : State} {w : Word} :
    (s.writeEnables w).summary = true ↔ ∃ i : Nat, i < 8 ∧ s.eventFlags.getLsbD i = true ∧ w.getLsbD i = true := by
  rw [State.writeEnables, State.propagate_summary, State.summary_eq_true]
  refine exists_congr fun i => and_congr_right fun hi => ?_
  have hbit : (w.extractLsb' 0 8).getLsbD i = w.getLsbD i := by simp [hi]
  rw [hbit]

/-- Settles O54: the summary on the raw bits, and each write by what it leaves. -/
theorem eventWritesMoveTheSummary : Obligations.EventWritesMoveTheSummary := by
  unfold Obligations.EventWritesMoveTheSummary
  refine ⟨fun _ => State.summary_eq_true, fun s w hheld => ⟨?_, ?_⟩⟩
  · obtain ⟨hframe, hlines, hmonitor⟩ := s.clearFlags_spec w
    exact ⟨_, by rw [exec_eventFlagClear, State.registerDone_of_free hheld], hlines, hmonitor, hframe⟩
  · obtain ⟨hframe, hlines, hmonitor⟩ := s.writeEnables_spec w
    refine ⟨_, by rw [exec_eventEnable, State.registerDone_of_free hheld], hlines, hmonitor, ?_, hframe⟩
    rw [State.answer_summary]
    exact State.writeEnables_summary

/-! ### LOG_POP, COUNTS and RESET_CAUSE (R142, R144, R169) -/

theorem State.popLog_of_nil {s : State} (hheld : s.held = false) (hlog : s.log = []) :
    s.popLog = s.answer .done 0 := by
  have htail : s.log.tail = s.log := by rw [hlog]; rfl
  have hrecord : popRecord s.log = 0 := by rw [hlog]; rfl
  rw [State.popLog, hheld, if_neg Bool.false_ne_true, htail, hrecord]

theorem State.popLog_of_cons {s : State} {e : LogEntry} {rest : List LogEntry} (hheld : s.held = false)
    (hlog : s.log = e :: rest) :
    s.popLog = State.answer { s with log := rest } .done (e.stamp ++ 0#13 ++ e.reason.code) := by
  rw [State.popLog, hheld, if_neg Bool.false_ne_true, hlog, List.tail_cons, popRecord_cons]

/-- Each command that is a write of COUNTS acts as that write (log entry 7). -/
theorem exec_countsWrite {s : State} {w : Word} {c : Instr} (hheld : s.held = false)
    (hc : c = .checkClear w ∨ c = .faultClear w) : exec c s = .next ((s.writeCounts w).answer .done 0) := by
  rcases hc with rfl | rfl <;> simp [hheld]

/-- Settles O55: the codes by evaluation, the pop by the log's two forms, each write by its register's effect. -/
theorem recordsAreReadAndCleared : Obligations.RecordsAreReadAndCleared := by
  unfold Obligations.RecordsAreReadAndCleared
  refine ⟨rfl, fun s hheld => ⟨fun hlog => ?_, fun e rest hlog => ?_, fun w c hc => ?_, fun w => ?_⟩⟩
  · rw [exec_logPop, State.popLog_of_nil hheld hlog, State.answer]
  · rw [exec_logPop, State.popLog_of_cons hheld hlog, State.answer]
  · rw [exec_countsWrite hheld hc, State.writeCounts, State.answer]
  · rw [exec_resetCauseClear, State.registerDone_of_free hheld, State.clearCauses, State.answer]

end Sys2Proof.Machine
end

