-- ==== Sys2Proof/Proofs/PortAnswers.lean ====
section
/-! How the table port answers (sections 9.1 to 9.5): the command that a write of TCMD gives, a refused command, what a
LOAD of each kind of entry copies, and the refusals for the selection, a claim, a VACANT source and a COMMIT to a remote
source; and the writes of the other registers (R161). Settles the statements about them. -/

namespace Sys2Proof.Machine

open Sys2Proof.Safety

/-! ### The commands of the table port as commands of the part (R148) -/

/-- The command of the part that carries a command of the table port. -/
def TableCommand.instr : TableCommand → Instr
  | .load => .load | .commit => .commit | .bar => .bar | .unbar => .unbar | .clearCounters => .clearCounters

theorem exec_tableInstr (c : TableCommand) (s : State) :
    exec c.instr s = .next (s.registerDone fun s => s.tableCommand c) := by
  cases c <;> rfl

/-- A refused command changes TSTAT alone, and is answered DONE (R149). -/
theorem exec_tableInstr_refused {s : State} (c : TableCommand) {r : TableResult} (hheld : s.held = false)
    (hr : r ≠ .ok) (hj : s.judgeCommand c = r) :
    exec c.instr s = .next { s with tstat := ⟨r, some c⟩, reply := .answered .done 0 } := by
  rw [exec_tableInstr, State.registerDone_of_free hheld, State.tableCommand_refused hj hr]
  rfl

/-! ### Register writes (R147, R148, R161) -/

theorem exec_registerWrite_of_accepting {i : BitVec 5} (r : Register) (s : State) (w : Word)
    (hi : registerAt i = r) (hr : r.readOnly = false) :
    exec (.registerWrite i w) s = .next (s.registerDone fun s => s.writeEffect r w) := by
  rw [exec_registerWrite, hi, State.registerWrite_of_accepting hr]

theorem exec_registerWrite_of_free {i : BitVec 5} {s : State} (r : Register) (w : Word) (hheld : s.held = false)
    (hi : registerAt i = r) (hr : r.readOnly = false) :
    exec (.registerWrite i w) s = .next ((s.writeEffect r w).answer .done 0) := by
  rw [exec_registerWrite_of_accepting r s w hi hr, State.registerDone_of_free hheld]

theorem State.writeCommand_of_some {w : Word} {c : TableCommand} (s : State) (h : commandOf w = some c) :
    s.writeCommand w = s.tableCommand c := by
  simp only [State.writeCommand, h]

theorem State.writeCommand_of_none {w : Word} (s : State) (h : commandOf w = none) : s.writeCommand w = s := by
  simp only [State.writeCommand, h]

/-- A write of TCMD that names a command is that command (R148). -/
theorem exec_tcmdWrite_of_some {w : Word} {c : TableCommand} (s : State) (h : commandOf w = some c) :
    exec (.registerWrite 0x11#5 w) s = exec c.instr s := by
  rw [exec_registerWrite_of_accepting .tcmd s w rfl rfl, exec_tableInstr]
  simp only [State.writeEffect, State.writeCommand_of_some _ h]

theorem exec_tcmdWrite_of_none {s : State} {w : Word} (hheld : s.held = false) (h : commandOf w = none) :
    exec (.registerWrite 0x11#5 w) s = .next (s.answer .done 0) := by
  rw [exec_registerWrite_of_free .tcmd w hheld rfl rfl, State.writeEffect, State.writeCommand_of_none s h]

/-- Settles O56: the plain registers by their effect, TCMD by the command that its code names, and each other register
by the equation of its own command. -/
theorem registerWriteReachesItsRegister : Obligations.RegisterWriteReachesItsRegister := by
  unfold Obligations.RegisterWriteReachesItsRegister
  constructor
  · intro s w hheld
    obtain ⟨-, -, -, -, -, hnone⟩ := commandOf_spec w
    exact ⟨exec_registerWrite_of_free .tsel w hheld rfl rfl, exec_registerWrite_of_free .tdata0 w hheld rfl rfl,
      exec_registerWrite_of_free .tdata1 w hheld rfl rfl, exec_registerWrite_of_free .tdata2 w hheld rfl rfl,
      exec_registerWrite_of_free .tdata3 w hheld rfl rfl, fun hcode => exec_tcmdWrite_of_none hheld (hnone.mpr hcode)⟩
  · intro s w
    obtain ⟨hload, hcommit, hbar, hunbar, hclear, -⟩ := commandOf_spec w
    exact ⟨(exec_registerWrite_of_accepting .control s w rfl rfl).trans (exec_pauseSet w s).symm,
      (exec_registerWrite_of_accepting .reportBase s w rfl rfl).trans (exec_reportBase w s).symm,
      (exec_registerWrite_of_accepting .eos s w rfl rfl).trans (exec_eos w s).symm,
      (exec_registerWrite_of_accepting .counts s w rfl rfl).trans (exec_checkClear w s).symm,
      (exec_registerWrite_of_accepting .urgent s w rfl rfl).trans (exec_urgentClear w s).symm,
      (exec_registerWrite_of_accepting .deadlineCtrl s w rfl rfl).trans (exec_modeWrite w s).symm,
      (exec_registerWrite_of_accepting .resetCause s w rfl rfl).trans (exec_resetCauseClear w s).symm,
      (exec_registerWrite_of_accepting .eventFlags s w rfl rfl).trans (exec_eventFlagClear w s).symm,
      (exec_registerWrite_of_accepting .eventEnable s w rfl rfl).trans (exec_eventEnable w s).symm,
      fun hcode => exec_tcmdWrite_of_some s (hload.mpr hcode),
      fun hcode => exec_tcmdWrite_of_some s (hcommit.mpr hcode),
      fun hcode => exec_tcmdWrite_of_some s (hbar.mpr hcode),
      fun hcode => exec_tcmdWrite_of_some s (hunbar.mpr hcode),
      fun hcode => exec_tcmdWrite_of_some s (hclear.mpr hcode)⟩

/-! ### The refusals by the selection (R146, R149, R156) -/

theorem selectedEntry_beyond_local {t : TableSelect} (h : t.table = 0#2) (hi : 24 ≤ t.index.toNat)
    (hne : t.index ≠ 24#5) : selectedEntry t = .noEntry := by
  have hne' : t.index.toNat ≠ 24 := fun e => hne (BitVec.eq_of_toNat_eq e)
  exact selectedEntry_none (.inr (.inl ⟨h, by omega⟩))

/-- An index above 23 of the source table names the local source or no entry. -/
theorem selectedEntry_not_remote {t : TableSelect} (h : t.table = 0#2) (hi : 24 ≤ t.index.toNat) :
    selectedEntry t = .localSource ∨ selectedEntry t = .noEntry := by
  by_cases h24 : t.index = 24#5
  · exact .inl (selectedEntry_local h h24)
  · exact .inr (selectedEntry_beyond_local h hi h24)

theorem State.judgeLoad_of_noEntry {s : State} (h : selectedEntry s.tsel = .noEntry) : s.judgeLoad = .badIndex := by
  simp only [State.judgeLoad, h]

theorem State.judgeLoad_of_entry {s : State} {e : Selected} (h : selectedEntry s.tsel = e) (he : e ≠ .noEntry) :
    s.judgeLoad = .ok := by
  unfold State.judgeLoad
  rw [h]
  cases e with
  | source _ | localSource | line _ | pin _ => rfl
  | noEntry => exact absurd rfl he

/-- A COMMIT needs an entry that can be written: the local source's is derived (R38, R149). -/
theorem State.judgeCommit_of_unwritable {s : State}
    (h : selectedEntry s.tsel = .localSource ∨ selectedEntry s.tsel = .noEntry) : s.judgeCommit = .badIndex := by
  unfold State.judgeCommit
  obtain h | h := h <;> rw [h]

section
variable {s : State} (needsEnrolled : Bool)

theorem State.judgeSourceCommand_of_otherTable (h : s.tsel.table ≠ 0#2) :
    s.judgeSourceCommand needsEnrolled = .wrongTable :=
  if_pos h

theorem State.judgeSourceCommand_of_not_remote (h : s.tsel.table = 0#2) (hi : 24 ≤ s.tsel.index.toNat) :
    s.judgeSourceCommand needsEnrolled = .badIndex := by
  unfold State.judgeSourceCommand
  rw [if_neg (not_not_intro h)]
  obtain hsel | hsel := selectedEntry_not_remote h hi <;> rw [hsel]

variable {k : RemoteId} (htable : s.tsel.table = 0#2) (hindex : s.tsel.index.toNat = k.val)
include htable hindex

theorem State.judgeSourceCommand_of_claimed (hclaim : SourceClaimed s k) :
    s.judgeSourceCommand needsEnrolled = .busy := by
  simp [State.judgeSourceCommand, htable, selectedEntry_source htable hindex, State.claimsSource_eq_true.mpr hclaim]

theorem State.judgeSourceCommand_of_vacant (hclaim : ¬ SourceClaimed s k) (hvacant : (s.source k).state = .vacant) :
    s.judgeSourceCommand true = .notEnrolled := by
  simp [State.judgeSourceCommand, htable, selectedEntry_source htable hindex,
    State.claimsSource_eq_false.mpr hclaim, hvacant]

end

/-- Settles O35: each refusal by the test that gives it. -/
theorem selectionRefusesCommands : Obligations.SelectionRefusesCommands := by
  unfold Obligations.SelectionRefusesCommands
  intro s hheld refuses
  have hrefuses : ∀ (c : TableCommand) (r : TableResult), r ≠ .ok → s.judgeCommand c = r → refuses c.instr c r :=
    fun c _ => exec_tableInstr_refused c hheld
  have hsource : ∀ r : TableResult, r ≠ .ok → (∀ b, s.judgeSourceCommand b = r) →
      refuses .bar .bar r ∧ refuses .unbar .unbar r ∧ refuses .clearCounters .clearCounters r := fun r hr hj =>
    ⟨hrefuses .bar r hr (hj true), hrefuses .unbar r hr (hj false), hrefuses .clearCounters r hr (hj false)⟩
  have hnone : selectedEntry s.tsel = .noEntry → refuses .load .load .badIndex := fun hsel =>
    hrefuses .load _ nofun (State.judgeLoad_of_noEntry hsel)
  have hunwritable : selectedEntry s.tsel = .localSource ∨ selectedEntry s.tsel = .noEntry →
      refuses .commit .commit .badIndex := fun hsel =>
    hrefuses .commit _ nofun (State.judgeCommit_of_unwritable hsel)
  refine ⟨fun htable => ?_, fun htable hindex => ?_, fun hout => ?_, fun k htable hindex => ⟨fun hclaim => ?_,
    fun hclaim hvacant => ?_⟩⟩
  · exact hsource _ nofun fun b => State.judgeSourceCommand_of_otherTable b htable
  · have hsel := selectedEntry_not_remote htable hindex
    obtain ⟨hbar, hunbar, hclear⟩ := hsource .badIndex nofun fun b =>
      State.judgeSourceCommand_of_not_remote b htable hindex
    exact ⟨hbar, hunbar, hclear, hunwritable hsel, fun hne => hnone (selectedEntry_beyond_local htable hindex hne)⟩
  · have hsel : selectedEntry s.tsel = .noEntry := selectedEntry_none (hout.imp_right .inr)
    exact ⟨hnone hsel, hunwritable (.inr hsel)⟩
  · exact hsource _ nofun fun b => State.judgeSourceCommand_of_claimed b htable hindex hclaim
  · exact hrefuses .bar _ nofun (State.judgeSourceCommand_of_vacant htable hindex hclaim hvacant)

/-! ### The refusals of a COMMIT to a remote source (R149, R151, R153) -/

theorem State.judgeCommand_commit_source {s : State} {k : RemoteId} (htable : s.tsel.table = 0#2)
    (hindex : s.tsel.index.toNat = k.val) : s.judgeCommand .commit = s.judgeSourceCommit k := by
  simp only [State.judgeCommand, State.judgeCommit, selectedEntry_source htable hindex]

theorem State.ownershipChanged_eq_true {s : State} {k : RemoteId} :
    s.ownershipChanged k = true ↔ s.staging.w0 ≠ (s.source k).ownership :=
  bne_iff_ne

/-- Settles O36: the tests in their order, each read off the raw fields. -/
theorem sourceCommitRefusals : Obligations.SourceCommitRefusals := by
  unfold Obligations.SourceCommitRefusals
  intro s k hheld htable hindex refuses changed
  have hrefuses : ∀ r, r ≠ .ok → s.judgeSourceCommit k = r → refuses r := fun _ hr hj =>
    exec_tableInstr_refused .commit hheld hr ((State.judgeCommand_commit_source htable hindex).trans hj)
  have hchanged : s.ownershipChanged k = true ↔ changed := State.ownershipChanged_eq_true
  refine ⟨fun hnew hrun => ?_, fun hsame hclaim => ?_, fun hnew hpaused hconflict => ?_⟩
  · refine hrefuses .notPaused nofun ?_
    simp [State.judgeSourceCommit, hchanged.mpr hnew, State.paused_eq_false.mpr hrun]
  · refine hrefuses .busy nofun ?_
    rw [← hchanged, Bool.not_eq_true] at hsame
    simp [State.judgeSourceCommit, hsame, State.claimsSource_eq_true.mpr hclaim]
  · refine hrefuses .soleConflict nofun ?_
    have hfree := State.claimsSource_eq_false.mpr (State.not_sourceClaimed_of_paused (k := k) hpaused)
    simp [State.judgeSourceCommit, State.sourceChanged, hchanged.mpr hnew, State.paused_eq_true.mpr hpaused, hfree,
      State.sourceBreaksSole_eq_true.mpr hconflict]

/-! ### LOAD (R150, R175) -/

/-- A LOAD of an entry copies its record, and changes nothing else but TSTAT (R150). -/
theorem exec_load_of_entry {s : State} {e : Selected} (hheld : s.held = false) (hsel : selectedEntry s.tsel = e)
    (he : e ≠ .noEntry) :
    exec .load s = .next { s with
      staging := s.loaded e, tstat := ⟨.ok, some .load⟩, reply := .answered .done 0 } := by
  have hj : s.judgeCommand .load = .ok := State.judgeLoad_of_entry hsel he
  have hperform : s.perform .load = { s with staging := s.loaded e } := by rw [State.perform, hsel]
  have hquiet : s.propagate (State.setTstat { s with staging := s.loaded e } ⟨.ok, some .load⟩) =
      State.setTstat { s with staging := s.loaded e } ⟨.ok, some .load⟩ :=
    State.propagate_same rfl (State.sreq_congr rfl rfl).symm
  rw [exec_load, State.registerDone_of_free hheld, State.tableCommand_done hj, hperform, hquiet]
  rfl

theorem SourceEntry.staged_eq (e : SourceEntry) :
    e.staged = ⟨e.ownership,
      0#8 ++ BitVec.ofBool e.seqKnown ++ e.lastSeq ++ 0#1 ++ e.state.code ++ e.barThreshold ++ tierCode e.timerTier
        ++ tierCode e.tier ++ e.quietReload,
      e.accepted ++ 0#4 ++ e.foreignStreak ++ e.quietRemaining,
      e.silences ++ e.gaps ++ e.duplicates ++ e.rejected⟩ := by
  rw [← e.staged_w1, ← e.staged_w2, ← e.staged_w3]
  rfl

/-- The state code 5, LOCAL, stands at its position (R38). -/
theorem stagedLocal_eq (o : LineSet) : stagedLocal o = ⟨o, 0x00050000#32, 0, 0⟩ := by
  have hcode : place 5#3 16 = 0x00050000#32 := by decide
  rw [stagedLocal, hcode]

theorem LineEntry.staged_eq (e : LineEntry) (r : Bool) (o : SourceSet) :
    e.staged r o = ⟨0#11 ++ e.lastEdge ++ 0#2 ++ e.repeatCount ++ BitVec.ofBool e.latch ++ BitVec.ofBool r ++ 0#1
      ++ e.priority ++ BitVec.ofBool e.masked ++ e.route.code ++ e.mode.code,
      0#7 ++ e.contributors, 0#7 ++ o, 0⟩ := by
  rw [← e.staged_w0 r o, ← place_sourceSet, ← place_sourceSet]
  rfl

theorem PinEntry.staged_eq (e : PinEntry) (v : Level) :
    e.staged v = ⟨0#14 ++ v.code ++ 0#3 ++ BitVec.ofNat 5 e.target.val ++ 0#5 ++ e.mode.code, 0, 0, 0⟩ := by
  rw [← e.staged_w0]
  rfl

theorem State.localOwnership_getLsbD {s : State} {l : LineId} :
    s.localOwnership.getLsbD l.val = true ↔ LocalOwns s l := by
  rw [State.localOwnership, lineSetOf_getLsbD, State.localOwns_eq_true]

theorem State.ownerSet_getLsbD_remote (s : State) (l : LineId) (k : RemoteId) :
    (s.ownerSet l).getLsbD k.val = (s.source k).ownership.getLsbD l.val := by
  have hk : k.val < 25 := Nat.lt_succ_of_lt k.isLt
  rw [State.ownerSet, sourceSetOf_getLsbD, State.owns_remote, decide_eq_true hk, Bool.true_and]

theorem State.ownerSet_getLsbD_local {s : State} {l : LineId} :
    (s.ownerSet l).getLsbD 24 = true ↔ LocalOwns s l := by
  rw [State.ownerSet, sourceSetOf_getLsbD, State.owns_local, decide_eq_true (by omega), Bool.true_and,
    State.localOwns_eq_true]

/-- Settles O34: the codes by evaluation, and each kind of entry by its record. -/
theorem loadShowsTheEntry : Obligations.LoadShowsTheEntry := by
  unfold Obligations.LoadShowsTheEntry
  refine ⟨by decide, by decide, by decide, by decide, by decide, by decide, by decide, by decide, fun _ => rfl,
    fun s hheld => ?_⟩
  intro loads
  have hloads : ∀ (e : Selected) (g : Staging), selectedEntry s.tsel = e → e ≠ .noEntry → s.loaded e = g →
      loads g := fun e g hsel he hg => hg ▸ exec_load_of_entry hheld hsel he
  refine ⟨fun k htable hindex => ?_, fun htable hindex => ?_, fun l htable hindex => ?_, fun p htable hindex => ?_,
    fun hout => ?_⟩
  · exact hloads _ _ (selectedEntry_source htable hindex) nofun (s.source k).staged_eq
  · exact ⟨s.localOwnership, hloads _ _ (selectedEntry_local htable hindex) nofun (stagedLocal_eq _),
      fun l => State.localOwnership_getLsbD⟩
  · exact ⟨(s.line l).requesting, s.ownerSet l,
      hloads _ _ (selectedEntry_line htable hindex) nofun ((s.line l).staged_eq _ _),
      LineEntry.requesting_eq_true, s.ownerSet_getLsbD_remote l, State.ownerSet_getLsbD_local⟩
  · refine ⟨s.pinLevel p, hloads _ _ (selectedEntry_pin htable hindex) nofun ((s.pin p).staged_eq _),
      fun n => State.pinLevel_sense, ?_⟩
    rintro rfl
    exact s.pinLevel_event
  · exact exec_tableInstr_refused .load hheld nofun (State.judgeLoad_of_noEntry (selectedEntry_none hout))

end Sys2Proof.Machine
end

