-- ==== Sys2Proof/Proofs/HeldReset.lean ====
section
/-! The reset sources and the state of the part while a reset is held (sections 10.3 and 10.4): how each reset starts,
over which holds, and when it is released; and the law that every block then stands in its reset state. While a reset is
held no event reaches a block, and of the events of a part at work it is said once that they start none (`HoldFrame`):
the law has to be shown of the reset sources, the pulse and the clock alone. Settles the law and the statements about
the reset sources. -/

namespace Sys2Proof.Machine

open Sys2Proof.Safety

/-! ### Holds and RSTOUT (R119, R166 to R168) -/

theorem State.rstout_eq_true {s : State} : s.rstout = true ↔ ∃ n, s.monitor = .tripped n := by
  cases hm : s.monitor <;> simp [State.rstout, hm]

theorem State.held_eq_true {s : State} :
    s.held = true ↔ s.powerHold ≠ none ∨ s.softHold ≠ none ∨ s.pinHold = true ∨ s.rstout = true := by
  rw [← Bool.not_eq_false, State.held_eq_false]
  simp only [not_and_or, Bool.not_eq_false, ne_eq]

theorem State.held_of_rstout {s : State} (h : s.rstout = true) : s.held = true :=
  State.held_eq_true.mpr (.inr (.inr (.inr h)))

theorem State.held_of_pinHold {s : State} (h : s.pinHold = true) : s.held = true :=
  State.held_eq_true.mpr (.inr (.inr (.inl h)))

/-! ### SOFT_RESET (R167) -/

theorem State.writeControl_of_softReset {s : State} {w : Word} (h : w.getLsbD 2 = true) :
    s.writeControl w = s.softResetNow :=
  if_pos h

/-- With no reset held, SOFT_RESET leaves its own hold as the only one. -/
theorem State.softResetNow_of_free {s : State} (h : s.held = false) :
    s.softResetNow = { State.reset with
      record := s.record, refclk := s.refclk, resetCause := s.resetCause ||| 0x4#4, softHold := some 4,
      resetLow := s.resetLow, reply := s.reply, pending := s.pending } := by
  obtain ⟨hpower, -, hpin, -⟩ := State.held_eq_false.mp h
  simp only [State.softResetNow, State.addCause, State.resetBlocks, hpower, hpin]
  rfl

/-- Settles O31: one write for all five commands, and the soft hold is the only one that it leaves. -/
theorem softResetTakesEffect : Obligations.SoftResetTakesEffect := by
  unfold Obligations.SoftResetTakesEffect
  intro s w c hheld hsoft hc
  rw [exec_controlWrite hheld hc, State.writeControl_of_softReset hsoft, State.softResetNow_of_free hheld]
  rfl

/-! ### RESET_N sampled low (R166, R168) -/

/-- A sample is taken in every state but two: REFCLK stands, or a power-on hold still runs (R164; log entry 11). -/
theorem State.sampleResetLow_of_taken {s : State} (hclk : s.refclk = true) (hpower : s.powerHeld = false) :
    s.sampleResetLow = s.resetByPin := by
  simp [State.sampleResetLow, hclk, hpower]

theorem State.sampleResetLow_of_stopped {s : State} (h : s.refclk = false) : s.sampleResetLow = s := by
  simp [State.sampleResetLow, h]

theorem State.sampleResetLow_of_powerHeld {s : State} (h : s.powerHeld = true) : s.sampleResetLow = s := by
  simp [State.sampleResetLow, h]

/-- A power-on hold at its release tick no longer shuts RESET_N out. -/
theorem State.powerHeld_of_ended {s : State} (h : s.powerHold = none ∨ s.powerHold = some 0) : s.powerHeld = false := by
  rcases h with h | h <;> simp [State.powerHeld, h]

/-- With no reset held a system reset starts, held by RESET_N alone. -/
theorem State.resetByPin_of_free {s : State} (h : s.held = false) :
    s.resetByPin = { State.reset with
      record := s.record, refclk := s.refclk, resetCause := s.resetCause ||| 0x2#4, pinHold := true, resetLow := true,
      reply := s.reply, pending := s.pending } := by
  obtain ⟨-, hsoft, hpin, -⟩ := State.held_eq_false.mp h
  simp only [State.resetByPin, h, Bool.false_eq_true, if_false, hpin, State.resetBlocks, hsoft]
  rfl

/-- Over another hold the blocks stay as they are. -/
theorem State.resetByPin_of_held {s : State} (h : s.held = true) :
    s.resetByPin = { s with
      resetCause := if s.pinHold then s.resetCause else s.resetCause ||| 0x2#4
      powerHold := none, pinHold := true, resetLow := true } := by
  simp only [State.resetByPin, h, if_true]
  rfl

/-- A reset that RESET_N holds is extended: PIN was set at its start. -/
theorem State.resetByPin_of_pinHeld {s : State} (hpin : s.pinHold = true) (hpower : s.powerHold = none) :
    s.resetByPin = { s with resetLow := true } := by
  rw [State.resetByPin_of_held (State.held_of_pinHold hpin), if_pos hpin, ← hpin, ← hpower]

/-- Settles O58: what RESET_N does is read off what is held at the sample. -/
theorem resetSourcesCombine : Obligations.ResetSourcesCombine := by
  unfold Obligations.ResetSourcesCombine
  refine ⟨fun _ => rfl, fun s hclk => ?_, fun s hclk hheld => ?_, fun s hclk hheld hpin hpower => ?_,
    fun s hclk hpin hpower => ?_, fun s n hpower => ?_⟩ <;> rw [exec_systemReset]
  · rw [State.sampleResetLow_of_stopped hclk]
  · obtain ⟨hpower, -⟩ := State.held_eq_false.mp hheld
    rw [State.sampleResetLow_of_taken hclk (State.powerHeld_of_ended (.inl hpower)), State.resetByPin_of_free hheld,
      hclk]
    rfl
  · rw [State.sampleResetLow_of_taken hclk (State.powerHeld_of_ended hpower), State.resetByPin_of_held hheld, hpin]
    rfl
  · rw [State.sampleResetLow_of_taken hclk (State.powerHeld_of_ended (.inl hpower)),
      State.resetByPin_of_pinHeld hpin hpower]
  · rw [State.sampleResetLow_of_powerHeld (by simp [State.powerHeld, hpower])]

/-! ### The release (R168, R170) -/

/-- RESET_N is high, every hold that is counted has run its time, and RSTOUT is deasserted. -/
def State.HoldsEnded (s : State) : Prop :=
  s.resetLow = false ∧ (s.powerHold = none ∨ s.powerHold = some 0) ∧ (s.softHold = none ∨ s.softHold = some 0) ∧
    s.rstout = false

theorem State.releaseDue_eq_true {s : State} : s.releaseDue = true ↔ s.held = true ∧ s.HoldsEnded := by
  unfold State.releaseDue State.HoldsEnded State.rstout
  cases s.monitor <;> simp [and_assoc]

theorem State.release_of_due {s : State} (h : s.releaseDue = true) :
    s.release = { s with powerHold := none, softHold := none, pinHold := false } :=
  if_pos h

/-- The release ends every hold. -/
theorem State.release_held {s : State} (h : s.releaseDue = true) : s.release.held = false := by
  obtain ⟨-, -, -, -, hrstout⟩ := State.releaseDue_eq_true.mp h
  rw [State.release_of_due h]
  exact State.held_eq_false.mpr ⟨rfl, rfl, rfl, hrstout⟩

/-- Settles O59. -/
theorem releaseWaitsForEveryHold : Obligations.ReleaseWaitsForEveryHold := by
  unfold Obligations.ReleaseWaitsForEveryHold
  intro s ended
  refine ⟨fun hheld hended => ?_, fun hnot => ?_, rfl, rfl⟩
  · have hdue := State.releaseDue_eq_true.mpr ⟨hheld, hended⟩
    exact ⟨s.release, rfl, State.release_held hdue, State.release_of_due hdue⟩
  · have hdue : ¬ s.releaseDue = true := fun hdue => by
      obtain ⟨hheld, hended⟩ := State.releaseDue_eq_true.mp hdue
      rcases hnot with hfree | hrunning
      · exact absurd hheld (hfree ▸ Bool.false_ne_true)
      · exact hrunning hended
    rw [exec_resetRelease, State.release_of_not_due (Bool.eq_false_iff.mpr hdue)]

/-! ### The events that start no reset -/

/-- The holds stay, and so does RSTOUT. A part that the change from `s` to `t` does not write is left out where one is
built: its field holds by unfolding. -/
structure HoldFrame (s t : State) : Prop where
  power : t.powerHold = s.powerHold := by rfl
  soft : t.softHold = s.softHold := by rfl
  pin : t.pinHold = s.pinHold := by rfl
  rstout : t.rstout = s.rstout := by rfl

theorem HoldFrame.refl (s : State) : HoldFrame s s := { }

theorem HoldFrame.trans {s t u : State} (h : HoldFrame s t) (h' : HoldFrame t u) : HoldFrame s u where
  power := h'.power.trans h.power
  soft := h'.soft.trans h.soft
  pin := h'.pin.trans h.pin
  rstout := h'.rstout.trans h.rstout

theorem HoldFrame.free {s t : State} (h : HoldFrame s t) (hheld : s.held = false) : t.held = false := by
  rw [State.held_eq_false] at hheld ⊢
  rwa [h.power, h.soft, h.pin, h.rstout]

theorem HoldFrame.mapSources (s : State) (f : RemoteId → SourceEntry → SourceEntry) : HoldFrame s (s.mapSources f) where
  power := s.mapSources_powerHold f
  soft := s.mapSources_softHold f
  pin := s.mapSources_pinHold f
  rstout := by simp only [State.rstout, State.mapSources_monitor]

theorem HoldFrame.mapLines (s : State) (f : LineId → LineEntry → LineEntry) : HoldFrame s (s.mapLines f) where
  power := s.mapLines_powerHold f
  soft := s.mapLines_softHold f
  pin := s.mapLines_pinHold f
  rstout := by simp only [State.rstout, State.mapLines_monitor]

theorem HoldFrame.setWarning (s : State) (b : Bool) : HoldFrame s (s.setWarning b) := { }

theorem State.sreqRises_rstout (s : State) : s.sreqRises.rstout = s.rstout := by
  unfold State.sreqRises
  cases hm : s.monitor with
  | idle =>
    dsimp only
    split
    · rfl
    · simp [State.rstout, hm]
  | counting n | warned left | tripped n => rfl

theorem State.sreqFalls_rstout (s : State) : s.sreqFalls.rstout = s.rstout := by
  unfold State.sreqFalls
  cases hm : s.monitor with
  | counting n | warned left => simp [State.rstout, hm]
  | idle | tripped n => rfl

/-- What an event passes on to the monitor does not end its pulse, nor start one (R117). -/
theorem HoldFrame.watchSreq (b s : State) : HoldFrame s (State.watchSreq b s) where
  power := by rw [State.watchSreq_eq]
  soft := by rw [State.watchSreq_eq]
  pin := by rw [State.watchSreq_eq]
  rstout := by
    unfold State.watchSreq
    split
    · exact s.sreqRises_rstout
    · exact s.sreqFalls_rstout
    · rfl
    · rfl

theorem HoldFrame.propagate {b s t : State} (h : HoldFrame s t) : HoldFrame s (State.propagate b t) := by
  have hsummary : HoldFrame t (State.watchSummary b t) := by
    rw [State.watchSummary_eq]
    exact { }
  exact (h.trans hsummary).trans (.watchSreq b _)

theorem HoldFrame.watchTake (s : State) : HoldFrame s s.watchTake where
  power := by rw [State.watchTake_eq]
  soft := by rw [State.watchTake_eq]
  pin := by rw [State.watchTake_eq]
  rstout := by
    unfold State.watchTake
    cases hm : s.monitor with
    | counting n | warned left => cases hs : s.sreq <;> simp [State.rstout, hm]
    | idle | tripped n => rfl

theorem HoldFrame.take (s : State) (l : LineId) : HoldFrame s (s.push l).watchTake := by
  refine HoldFrame.trans ?_ (.watchTake _)
  rw [State.push_eq]
  exact { }

/-- An EOS writes the stack alone, before its record (R94). -/
theorem State.eosEffect_frame (s : State) (w : Word) :
    (s.eosEffect w).1 = { s with stack := (s.eosEffect w).1.stack } := by
  unfold State.eosEffect
  cases s.eosSelected w with
  | none => rfl
  | some e =>
    dsimp only
    split
    · rfl
    · split
      · rfl
      · cases s.newestMatch e.line <;> rfl

theorem HoldFrame.eosEffect (s : State) (w : Word) : HoldFrame s (s.eosEffect w).1 := by
  rw [State.eosEffect_frame]
  exact { }

theorem HoldFrame.clearUrgent (s : State) (w : Word) : HoldFrame s (s.clearUrgent w) :=
  .propagate ((HoldFrame.mapLines s _).trans (.setWarning _ _))

/-- A write of the mode neither trips the monitor nor ends its pulse (R117). -/
theorem HoldFrame.monitorModeWrite (s : State) (old : DeadlineMode) : HoldFrame s (s.monitorModeWrite old) where
  power := by rw [State.monitorModeWrite_eq]
  soft := by rw [State.monitorModeWrite_eq]
  pin := by rw [State.monitorModeWrite_eq]
  rstout := by
    unfold State.monitorModeWrite
    cases hm : s.monitor with
    | tripped n => rfl
    | idle | counting n | warned left => dsimp only; split <;> simp [State.rstout, hm]

theorem HoldFrame.writeDeadline (s : State) (w : Word) : HoldFrame s (s.writeDeadline w) := by
  rw [State.writeDeadline_eq]
  exact .trans (t := s.deadlineStored w) { } (.monitorModeWrite _ _)

/-- A COMMIT writes the tables alone (R152). -/
theorem State.performCommit_frame (s : State) :
    s.performCommit = { s with
      sources := s.performCommit.sources, lines := s.performCommit.lines, pins := s.performCommit.pins } := by
  unfold State.performCommit
  cases selectedEntry s.tsel with
  | source k => rfl
  | localSource | noEntry => rfl
  | line l => simp only [State.commitLine]; split <;> rfl
  | pin p => simp only [State.commitPin]; cases s.staging.pinMode <;> rfl

theorem HoldFrame.onSelectedSource {s : State} {f : State → RemoteId → State} (h : ∀ k, HoldFrame s (f s k)) :
    HoldFrame s (s.onSelectedSource f) := by
  unfold State.onSelectedSource
  cases selectedEntry s.tsel with
  | source k => exact h k
  | localSource | line _ | pin _ | noEntry => exact .refl s

theorem HoldFrame.perform (s : State) (c : TableCommand) : HoldFrame s (s.perform c) := by
  cases c with
  | load => exact { }
  | commit =>
    show HoldFrame s s.performCommit
    rw [State.performCommit_frame]
    exact { }
  | bar => exact .onSelectedSource fun k => by unfold State.barSource; split <;> exact { }
  | unbar => exact .onSelectedSource fun k => by unfold State.unbarSource; split <;> exact { }
  | clearCounters => exact .onSelectedSource (f := fun s k => s.setSource k (s.source k).clearCounters) fun _ => { }

theorem HoldFrame.tableCommand (s : State) (c : TableCommand) : HoldFrame s (s.tableCommand c) := by
  by_cases hok : s.judgeCommand c = .ok
  · rw [State.tableCommand_done hok]
    exact .propagate ((HoldFrame.perform s c).trans { })
  · rw [State.tableCommand_refused rfl hok]
    exact { }

theorem HoldFrame.complete (s : State) : HoldFrame s s.complete := by
  unfold State.complete
  split
  · exact .refl s
  · split
    · exact .refl s
    · rw [State.departed_eq]
      exact .propagate { }

theorem HoldFrame.tierBoundary (s : State) (t : Tier) : HoldFrame s (s.tierBoundary t) := by
  unfold State.tierBoundary
  split
  · exact .refl s
  · exact .mapSources s _

theorem HoldFrame.quietExpiry (s : State) (k : RemoteId) : HoldFrame s (s.quietExpiry k) := by
  unfold State.quietExpiry
  split
  · exact .propagate { }
  · exact .refl s

theorem HoldFrame.closeUnitBoundary (s : State) : HoldFrame s s.closeUnitBoundary := by
  unfold State.closeUnitBoundary
  split <;> exact { }

theorem HoldFrame.closeTimerExpiry (s : State) (l : LineId) : HoldFrame s (s.closeTimerExpiry l) := by
  unfold State.closeTimerExpiry
  split
  · exact .propagate { }
  · exact .refl s

theorem HoldFrame.pinLevelChanged (s : State) (p : PinId) : HoldFrame s (s.pinLevelChanged p) := by
  unfold State.pinLevelChanged
  split <;> exact { }

theorem HoldFrame.adopt (s : State) (p : SenseId) (f : PinFilter) :
    HoldFrame s ((s.setFilter p f).pinLevelChanged (pinOfSense p)) :=
  .trans (t := s.setFilter p f) { } (.pinLevelChanged _ _)

theorem HoldFrame.settle (s : State) (p : SenseId) : HoldFrame s (s.settle p) := by
  unfold State.settle
  split
  · exact .propagate (.adopt s p _)
  · exact .refl s

theorem HoldFrame.transition (s : State) (p : SenseId) : HoldFrame s (s.transition p) := by
  unfold State.transition
  split
  · refine .propagate ?_
    split
    · exact (HoldFrame.adopt s p _).trans { }
    · exact .adopt s p _
  · exact .refl s

/-- A tick counts the pulse and leaves it for its end (R119). -/
theorem State.rstout_tick (s : State) {t : State} (h : t.monitor = s.monitor.tick) : t.rstout = s.rstout := by
  simp only [State.rstout, h]
  cases s.monitor <;> rfl

/-! ### The law while a reset is held (R123, R168, R170) -/

/-- With no reset held the law says nothing. -/
theorem heldInReset_of_free {s : State} (h : s.held = false) : HeldInReset s := fun hheld =>
  absurd hheld (h ▸ Bool.false_ne_true)

/-- A reset leaves every block, the monitor among them, in its reset state. -/
theorem heldInReset_of_reset {s : State} (hmonitor : s.monitor = .idle) (hmode : s.deadlineMode = .off)
    (hinterval : s.deadlineInterval = 0) (hblocks : s.monitorReset = s.resetBlocks) : HeldInReset s := fun _ =>
  ⟨by simp [timing, hmonitor], by simp [State.rstout, hmonitor], fun _ => ⟨hmode, hinterval⟩, hblocks⟩

/-- An event at work starts no reset, and one without effect while a reset is held leaves the blocks as they stand. -/
theorem HoldFrame.heldInReset {s t : State} (hframe : HoldFrame s t) (hsame : s.held = true → t = s)
    (h : HeldInReset s) : HeldInReset t := by
  cases hheld : s.held with
  | true => rwa [hsame hheld]
  | false => exact heldInReset_of_free (hframe.free hheld)

/-- A change of the holds and the inputs alone, which starts no reset. -/
theorem heldInReset_congr {s t : State} (h : HeldInReset s) (hheld : t.held = true → s.held = true)
    (hblocks : s.monitorReset = s.resetBlocks → t.monitorReset = t.resetBlocks)
    (htiming : timing t = timing s := by rfl) (hrstout : t.rstout = s.rstout := by rfl)
    (hmode : t.deadlineMode = s.deadlineMode := by rfl)
    (hinterval : t.deadlineInterval = s.deadlineInterval := by rfl) : HeldInReset t := by
  intro ht
  obtain ⟨hidle, hpulse, hoff, hreset⟩ := h (hheld ht)
  rw [htiming, hrstout, hmode, hinterval]
  exact ⟨hidle, hpulse, hoff, hblocks hreset⟩

theorem heldInReset_writeControl {s : State} (w : Word) (hheld : s.held = false) : HeldInReset (s.writeControl w) := by
  cases hsoft : w.getLsbD 2 with
  | true =>
    rw [State.writeControl_of_softReset hsoft]
    exact heldInReset_of_reset rfl rfl rfl rfl
  | false =>
    rw [State.writeControl_of_noReset hsoft]
    exact heldInReset_of_free (HoldFrame.free (.propagate { }) hheld)

/-- No interval runs while a reset is held; at work an expiry is a warning, or a trip in mode WARN_RESET, which keeps
the mode for the length of the pulse (R117, R119, R123). -/
theorem heldInReset_intervalExpiry {s : State} (h : HeldInReset s) : HeldInReset s.intervalExpiry := by
  by_cases hdue : s.intervalDue = true
  · have hfree : s.held = false := by
      by_contra hheld
      obtain ⟨htiming, -⟩ := h (Bool.not_eq_false _ ▸ hheld)
      rcases State.intervalDue_eq_true.mp hdue with hm | hm <;> simp [timing, hm] at htiming
    rcases State.intervalDue_eq_true.mp hdue with hm | hm
    · rw [State.intervalExpiry_of_counting hm]
      exact heldInReset_of_free (HoldFrame.free { rstout := by simp [State.rstout, hm] } hfree)
    · cases hmode : s.deadlineMode with
      | warnReset =>
        rw [State.intervalExpiry_of_trip hm hmode]
        exact fun _ => ⟨rfl, fun _ => hmode, nofun, rfl⟩
      | warn | off =>
        simp only [State.intervalExpiry, hdue, hm, hmode]
        exact heldInReset_of_free (HoldFrame.free { rstout := by simp [State.rstout, hm] } hfree)
  · rwa [State.intervalExpiry_of_not_due (Bool.not_eq_true _ ▸ hdue)]

/-- At the end of the pulse the monitor too takes its reset state (R123). -/
theorem heldInReset_pulseEnd {s : State} (h : HeldInReset s) : HeldInReset s.pulseEnd := by
  by_cases hdue : s.pulseDue = true
  · have htripped := State.pulseDue_eq_true.mp hdue
    obtain ⟨-, -, -, hblocks⟩ := h (State.held_of_rstout (State.rstout_eq_true.mpr ⟨0, htripped⟩))
    rw [State.pulseEnd_of_due htripped]
    exact heldInReset_of_reset rfl rfl rfl hblocks
  · rwa [State.pulseEnd_of_not_due (Bool.not_eq_true _ ▸ hdue)]

theorem heldInReset_heldTick {s : State} (hheld : s.held = true) (h : HeldInReset s) : HeldInReset s.heldTick :=
  heldInReset_congr h (fun _ => hheld)
    (congrArg fun u : State => { u with
      powerHold := s.powerHold.map (· - 1), softHold := s.softHold.map (· - 1), resetLow := false })
    (timing_tick s rfl) (s.rstout_tick rfl)

/-- RESET_N starts a reset in every block, or extends the one that is held. -/
theorem heldInReset_sampleResetLow {s : State} (h : HeldInReset s) : HeldInReset s.sampleResetLow := by
  by_cases hignored : s.refclk = false ∨ s.powerHeld = true
  · rwa [hignored.elim State.sampleResetLow_of_stopped State.sampleResetLow_of_powerHeld]
  · simp only [not_or, Bool.not_eq_false, Bool.not_eq_true] at hignored
    obtain ⟨hclk, hpower⟩ := hignored
    rw [State.sampleResetLow_of_taken hclk hpower]
    cases hheld : s.held with
    | true =>
      rw [State.resetByPin_of_held hheld]
      exact heldInReset_congr h (fun _ => hheld) (congrArg fun u : State => { u with
        resetCause := if s.pinHold then s.resetCause else s.resetCause ||| 0x2#4
        powerHold := none, pinHold := true, resetLow := true })
    | false =>
      rw [State.resetByPin_of_free hheld]
      exact heldInReset_of_reset rfl rfl rfl rfl

theorem heldInReset_release {s : State} (h : HeldInReset s) : HeldInReset s.release := by
  by_cases hdue : s.releaseDue = true
  · exact heldInReset_of_free (State.release_held hdue)
  · rwa [State.release_of_not_due (Bool.not_eq_true _ ▸ hdue)]

/-! ### Every step -/

theorem kept_heldInReset : Kept HeldInReset where
  pending _ q h := heldInReset_congr h id (congrArg fun u : State => { u with pending := q })
  reply _ r h := heldInReset_congr h id (congrArg fun u : State => { u with reply := r })
  refclk _ b h := heldInReset_congr h id (congrArg fun u : State => { u with refclk := b })
  enqueue _ _ hheld _ _ := heldInReset_of_free hheld
  retry _ hheld _ := heldInReset_of_free (HoldFrame.free (.propagate { }) hheld)
  fault _ hheld _ := heldInReset_of_free (HoldFrame.free (.propagate { }) hheld)
  reportBase _ _ hheld _ := heldInReset_of_free hheld
  control _ w hheld _ := heldInReset_writeControl w hheld
  table s c hheld _ := heldInReset_of_free ((HoldFrame.tableCommand s c).free hheld)
  take s l hheld _ _ := heldInReset_of_free ((HoldFrame.take s l).free hheld)
  eos s w hheld _ := heldInReset_of_free (HoldFrame.free (.propagate ((HoldFrame.eosEffect s w).trans { })) hheld)
  urgent s w hheld _ := heldInReset_of_free ((HoldFrame.clearUrgent s w).free hheld)
  deadline s w hheld _ := heldInReset_of_free ((HoldFrame.writeDeadline s w).free hheld)
  flags _ _ hheld _ := heldInReset_of_free (HoldFrame.free (.propagate { }) hheld)
  enables _ _ hheld _ := heldInReset_of_free (HoldFrame.free (.propagate { }) hheld)
  log _ hheld _ := heldInReset_of_free hheld
  counts _ _ hheld _ := heldInReset_of_free hheld
  causes _ _ hheld _ := heldInReset_of_free hheld
  tsel _ _ hheld _ := heldInReset_of_free hheld
  staging _ _ hheld _ := heldInReset_of_free hheld
  complete s := (HoldFrame.complete s).heldInReset fun hheld => State.complete_of_none (.inl hheld)
  tierBoundary s t := (HoldFrame.tierBoundary s t).heldInReset fun hheld => if_pos hheld
  quietExpiry s k := (HoldFrame.quietExpiry s k).heldInReset fun hheld =>
    State.quietExpiry_of_not_due (by simp [State.quietExpiryDue, hheld])
  closeUnitBoundary s :=
    (HoldFrame.closeUnitBoundary s).heldInReset fun hheld => State.closeUnitBoundary_of_not_due (.inl hheld)
  closeTimerExpiry s l :=
    (HoldFrame.closeTimerExpiry s l).heldInReset fun hheld => State.closeTimerExpiry_of_not_due (.inl hheld)
  intervalExpiry _ := heldInReset_intervalExpiry
  pulseEnd _ := heldInReset_pulseEnd
  settle s p := (HoldFrame.settle s p).heldInReset fun hheld => State.settle_of_not_due (.inl hheld)
  transition s p := (HoldFrame.transition s p).heldInReset fun hheld => State.transition_of_not_due (.inl hheld)
  heldTick _ hheld h := heldInReset_heldTick hheld h
  runningTick s sns hheld _ := heldInReset_of_free (HoldFrame.free { rstout := s.rstout_tick rfl } hheld)
  powerOn _ _ := heldInReset_of_reset rfl rfl rfl rfl
  sampleResetLow _ := heldInReset_sampleResetLow
  release _ := heldInReset_release

/-- Settles O16: what the words of the law mean, on the fields; and the law is kept by every effect that a step is made
of. -/
theorem stepKeepsHeldInReset : Obligations.StepKeepsHeldInReset := by
  unfold Obligations.StepKeepsHeldInReset
  exact ⟨fun _ => ⟨State.rstout_eq_true, State.held_eq_true, rfl⟩, fun _ _ h hstep => kept_heldInReset.step h hstep⟩

end Sys2Proof.Machine
end

