-- ==== Sys2Proof/Proofs/WaitingQueue.lean ====
section
/-! No command reads or changes the waiting commands: what each effect does commutes with putting another queue into the
state (`State.withQueue`), so that the queue it leaves is the one it found. Settles the statement about the queue. -/

namespace Sys2Proof.Machine

/-! ### Another queue -/

/-- The state with other waiting commands. -/
def State.withQueue (s : State) (q : List Instr) : State := { s with pending := q }

section
variable (s : State) (q : List Instr)

/-- A choice between two effects whose test does not read the queue. -/
theorem State.ite_withQueue {c c' : Prop} [Decidable c] [Decidable c'] {x x' y y' : State} (hc : c' ↔ c)
    (hx : x' = x.withQueue q) (hy : y' = y.withQueue q) :
    (if c' then x' else y') = (if c then x else y).withQueue q := by
  by_cases h : c
  · rw [if_pos h, if_pos (hc.mpr h), hx]
  · rw [if_neg h, if_neg (mt hc.mp h), hy]

/-- Effects one after the other, none of which reads the queue. -/
theorem State.foldl_withQueue {α : Type} {f : State → α → State}
    (h : ∀ s a, f (s.withQueue q) a = (f s a).withQueue q) :
    ∀ (as : List α) (s : State), as.foldl f (s.withQueue q) = (as.foldl f s).withQueue q
  | [], _ => rfl
  | a :: as, s => by rw [List.foldl_cons, List.foldl_cons, h, State.foldl_withQueue h]

/-! ### What an event passes on -/

theorem State.watchSummary_withQueue (b : State) :
    State.watchSummary (b.withQueue q) (s.withQueue q) = (State.watchSummary b s).withQueue q :=
  State.ite_withQueue q .rfl rfl rfl

theorem State.watchSreq_withQueue (b : State) :
    State.watchSreq (b.withQueue q) (s.withQueue q) = (State.watchSreq b s).withQueue q := by
  have hb : (b.withQueue q).sreq = b.sreq := rfl
  have hs : (s.withQueue q).sreq = s.sreq := rfl
  have hm : (s.withQueue q).monitor = s.monitor := rfl
  unfold State.watchSreq State.sreqRises State.sreqFalls
  rw [hb, hs, hm]
  cases b.sreq <;> cases s.sreq
  · rfl
  · cases s.monitor with
    | idle => exact State.ite_withQueue q .rfl rfl rfl
    | counting n | warned left | tripped n => rfl
  · cases s.monitor <;> rfl
  · rfl

theorem State.propagate_withQueue (b : State) :
    State.propagate (b.withQueue q) (s.withQueue q) = (State.propagate b s).withQueue q := by
  rw [State.propagate, State.watchSummary_withQueue, State.watchSreq_withQueue]
  rfl

/-- An effect and what it passes on. -/
theorem State.propagate_withQueue_of {b t t' : State} (h : t' = t.withQueue q) :
    State.propagate (b.withQueue q) t' = (State.propagate b t).withQueue q := by
  rw [h, State.propagate_withQueue]

/-! ### The report path -/

theorem State.rejectForeign_withQueue (k : RemoteId) :
    (s.withQueue q).rejectForeign k = (s.rejectForeign k).withQueue q :=
  State.ite_withQueue q .rfl rfl rfl

theorem State.chargeReject_withQueue (w : Word) (r : RejectReason) :
    (s.withQueue q).chargeReject w r = (s.chargeReject w r).withQueue q := by
  cases r with
  | check | kind | unknownSource => rfl
  | vacant | barred => simp only [State.chargeReject]; cases wordRemote w <;> rfl
  | foreign =>
    simp only [State.chargeReject]
    cases wordRemote w with
    | none => rfl
    | some k => exact s.rejectForeign_withQueue q k

theorem State.logReject_withQueue (e : LogEntry) : (s.withQueue q).logReject e = (s.logReject e).withQueue q :=
  State.ite_withQueue q .rfl rfl rfl

theorem State.revive_withQueue (k : RemoteId) : (s.withQueue q).revive k = (s.revive k).withQueue q :=
  State.ite_withQueue q .rfl rfl rfl

theorem State.acceptWord_withQueue (k : RemoteId) (w : Word) :
    (s.withQueue q).acceptWord k w = (s.acceptWord k w).withQueue q := by
  unfold State.acceptWord
  rw [State.revive_withQueue]
  cases wordKind w with
  | state | refresh | noKind => rfl
  | release => exact State.ite_withQueue q .rfl rfl rfl

theorem State.applyWord_withQueue (e : QueueEntry) : (s.withQueue q).applyWord e = (s.applyWord e).withQueue q := by
  have hjudge : (s.withQueue q).judge e.word = s.judge e.word := rfl
  unfold State.applyWord
  rw [hjudge]
  cases s.judge e.word with
  | reject r => dsimp only; rw [State.chargeReject_withQueue, State.logReject_withQueue]
  | duplicate k => rfl
  | accept k => exact s.acceptWord_withQueue q k e.word

theorem State.complete_withQueue : (s.withQueue q).complete = s.complete.withQueue q := by
  have hqueue : (s.withQueue q).queue = s.queue := rfl
  unfold State.complete
  refine State.ite_withQueue q .rfl rfl ?_
  rw [hqueue]
  cases s.queue with
  | nil => rfl
  | cons e rest =>
    refine State.propagate_withQueue_of q ?_
    rw [State.applyWord_withQueue]
    rfl

theorem State.busFault_withQueue : (s.withQueue q).busFault = s.busFault.withQueue q := by
  have hfault : (s.withQueue q).countFault.raise flagBusFault = (s.countFault.raise flagBusFault).withQueue q := rfl
  rw [State.busFault, hfault, State.propagate_withQueue]
  rfl

theorem State.retry_withQueue : (s.withQueue q).retry = s.retry.withQueue q := by
  have hretry : (s.withQueue q).raise flagQueueRetry = (s.raise flagQueueRetry).withQueue q := rfl
  rw [State.retry, hretry, State.propagate_withQueue]
  rfl

theorem State.reportWrite_withQueue (a w : Word) :
    (s.withQueue q).reportWrite a w = (s.reportWrite a w).withQueue q := by
  have hterm : (s.withQueue q).termination ⟨false, a, true, 0xF#4, w⟩ = s.termination ⟨false, a, true, 0xF#4, w⟩ := rfl
  unfold State.reportWrite
  rw [hterm]
  cases s.termination ⟨false, a, true, 0xF#4, w⟩ with
  | none => rfl
  | some t =>
    cases t with
    | done => rfl
    | retry => exact s.retry_withQueue q
    | fault => exact s.busFault_withQueue q

/-! ### The quiet timers and the service unit -/

theorem State.tierBoundary_withQueue (t : Tier) : (s.withQueue q).tierBoundary t = (s.tierBoundary t).withQueue q :=
  State.ite_withQueue q .rfl rfl rfl

theorem State.quietExpiry_withQueue (k : RemoteId) : (s.withQueue q).quietExpiry k = (s.quietExpiry k).withQueue q :=
  State.ite_withQueue q .rfl (State.propagate_withQueue_of q rfl) rfl

theorem State.push_withQueue (l : LineId) : (s.withQueue q).push l = (s.push l).withQueue q :=
  State.ite_withQueue q .rfl rfl rfl

theorem State.watchTake_withQueue : (s.withQueue q).watchTake = s.watchTake.withQueue q := by
  have hm : (s.withQueue q).monitor = s.monitor := rfl
  unfold State.watchTake
  rw [hm]
  cases s.monitor <;> rfl

theorem State.take_withQueue : (s.withQueue q).take = s.take.withQueue q := by
  have hoffer : (s.withQueue q).offer = s.offer := rfl
  unfold State.take
  refine State.ite_withQueue q .rfl rfl ?_
  rw [hoffer]
  cases s.offer with
  | none => rfl
  | some l => dsimp only; rw [State.push_withQueue, State.watchTake_withQueue]; rfl

/-- An EOS does the same to the stack and has the same outcome. -/
theorem State.eosEffect_withQueue (w : Word) :
    (s.withQueue q).eosEffect w = ((s.eosEffect w).1.withQueue q, (s.eosEffect w).2) := by
  have hsel : (s.withQueue q).eosSelected w = s.eosSelected w := rfl
  have hlimit : (s.withQueue q).closeLimit = s.closeLimit := rfl
  unfold State.eosEffect
  rw [hsel, hlimit]
  cases s.eosSelected w with
  | none => rfl
  | some e =>
    have hmatch : (s.withQueue q).newestMatch e.line = s.newestMatch e.line := rfl
    dsimp only
    rw [hmatch]
    split
    · rfl
    · split
      · rfl
      · cases s.newestMatch e.line <;> rfl

theorem State.endOfService_withQueue (w : Word) : (s.withQueue q).endOfService w = (s.endOfService w).withQueue q := by
  unfold State.endOfService
  rw [State.eosEffect_withQueue]
  exact State.propagate_withQueue_of q rfl

theorem State.closeUnitBoundary_withQueue : (s.withQueue q).closeUnitBoundary = s.closeUnitBoundary.withQueue q :=
  State.ite_withQueue q .rfl rfl rfl

theorem State.closeTimerExpiry_withQueue (l : LineId) :
    (s.withQueue q).closeTimerExpiry l = (s.closeTimerExpiry l).withQueue q :=
  State.ite_withQueue q .rfl (State.propagate_withQueue_of q rfl) rfl

/-! ### The urgent path, the monitor and CONTROL -/

theorem State.clearUrgent_withQueue (w : Word) : (s.withQueue q).clearUrgent w = (s.clearUrgent w).withQueue q :=
  State.propagate_withQueue_of q rfl

theorem State.monitorModeWrite_withQueue (old : DeadlineMode) :
    (s.withQueue q).monitorModeWrite old = (s.monitorModeWrite old).withQueue q := by
  have hm : (s.withQueue q).monitor = s.monitor := rfl
  unfold State.monitorModeWrite
  rw [hm]
  cases s.monitor with
  | tripped n => rfl
  | idle | counting n | warned left => exact State.ite_withQueue q .rfl rfl rfl

theorem State.writeDeadline_withQueue (w : Word) : (s.withQueue q).writeDeadline w = (s.writeDeadline w).withQueue q :=
  State.monitorModeWrite_withQueue (s.deadlineStored w) q s.deadlineMode

theorem State.intervalExpiry_withQueue : (s.withQueue q).intervalExpiry = s.intervalExpiry.withQueue q := by
  have hm : (s.withQueue q).monitor = s.monitor := rfl
  have hmode : (s.withQueue q).deadlineMode = s.deadlineMode := rfl
  unfold State.intervalExpiry
  refine State.ite_withQueue q .rfl ?_ rfl
  rw [hm, hmode]
  cases s.monitor with
  | idle | counting n | tripped n => rfl
  | warned left => cases s.deadlineMode <;> rfl

theorem State.pulseEnd_withQueue : (s.withQueue q).pulseEnd = s.pulseEnd.withQueue q :=
  State.ite_withQueue q .rfl rfl rfl

theorem State.writeControl_withQueue (w : Word) : (s.withQueue q).writeControl w = (s.writeControl w).withQueue q := by
  cases hsoft : w.getLsbD 2 with
  | true =>
    rw [State.writeControl_of_softReset hsoft, State.writeControl_of_softReset hsoft]
    rfl
  | false =>
    rw [State.writeControl_of_noReset hsoft, State.writeControl_of_noReset hsoft]
    exact State.propagate_withQueue_of q rfl

/-! ### The table port and the records -/

theorem State.performCommit_withQueue : (s.withQueue q).performCommit = s.performCommit.withQueue q := by
  have hsel : selectedEntry (s.withQueue q).tsel = selectedEntry s.tsel := rfl
  unfold State.performCommit
  rw [hsel]
  cases selectedEntry s.tsel with
  | source k => rfl
  | localSource | noEntry => rfl
  | line l => exact State.ite_withQueue q .rfl rfl rfl
  | pin p =>
    have hmode : (s.withQueue q).staging.pinMode = s.staging.pinMode := rfl
    simp only [State.commitPin, hmode]
    cases s.staging.pinMode <;> rfl

theorem State.onSelectedSource_withQueue {f : State → RemoteId → State}
    (h : ∀ k, f (s.withQueue q) k = (f s k).withQueue q) :
    (s.withQueue q).onSelectedSource f = (s.onSelectedSource f).withQueue q := by
  have hsel : selectedEntry (s.withQueue q).tsel = selectedEntry s.tsel := rfl
  unfold State.onSelectedSource
  rw [hsel]
  cases selectedEntry s.tsel with
  | source k => exact h k
  | localSource | line _ | pin _ | noEntry => rfl

theorem State.perform_withQueue (c : TableCommand) : (s.withQueue q).perform c = (s.perform c).withQueue q := by
  cases c with
  | load => rfl
  | commit => exact s.performCommit_withQueue q
  | bar | unbar => exact s.onSelectedSource_withQueue q fun k => State.ite_withQueue q .rfl rfl rfl
  | clearCounters =>
    exact s.onSelectedSource_withQueue q (f := fun s k => s.setSource k (s.source k).clearCounters) fun _ => rfl

theorem State.tableCommand_withQueue (c : TableCommand) :
    (s.withQueue q).tableCommand c = (s.tableCommand c).withQueue q := by
  have hjudge : (s.withQueue q).judgeCommand c = s.judgeCommand c := rfl
  by_cases hok : s.judgeCommand c = .ok
  · rw [State.tableCommand_done hok, State.tableCommand_done (hjudge.trans hok), State.perform_withQueue]
    exact State.propagate_withQueue_of q rfl
  · rw [State.tableCommand_refused rfl hok, State.tableCommand_refused hjudge hok]
    rfl

theorem State.clearFlags_withQueue (w : Word) : (s.withQueue q).clearFlags w = (s.clearFlags w).withQueue q :=
  State.propagate_withQueue_of q rfl

theorem State.writeEnables_withQueue (w : Word) : (s.withQueue q).writeEnables w = (s.writeEnables w).withQueue q :=
  State.propagate_withQueue_of q rfl

theorem State.writeEffect_withQueue (r : Register) (w : Word) :
    (s.withQueue q).writeEffect r w = (s.writeEffect r w).withQueue q := by
  cases r with
  | control => exact s.writeControl_withQueue q w
  | eos => exact s.endOfService_withQueue q w
  | urgent => exact s.clearUrgent_withQueue q w
  | deadlineCtrl => exact s.writeDeadline_withQueue q w
  | eventFlags => exact s.clearFlags_withQueue q w
  | eventEnable => exact s.writeEnables_withQueue q w
  | tcmd =>
    simp only [State.writeEffect, State.writeCommand]
    cases commandOf w with
    | none => rfl
    | some c => exact s.tableCommand_withQueue q c
  | reportBase | counts | resetCause | tsel | tdata0 | tdata1 | tdata2 | tdata3 => rfl
  | ident | status | flow | take | pending | inservice | deadlineView | logWord | logPop | stack _ => rfl

theorem State.popLog_withQueue : (s.withQueue q).popLog = s.popLog.withQueue q :=
  State.ite_withQueue q .rfl rfl rfl

/-- A write of the register window acts by an effect that does not read the queue. -/
theorem State.registerDone_withQueue {f : State → State} (h : f (s.withQueue q) = (f s).withQueue q) :
    (s.withQueue q).registerDone f = (s.registerDone f).withQueue q :=
  State.ite_withQueue q .rfl rfl (congrArg (fun u : State => u.answer .done 0) h)

theorem State.registerWrite_withQueue (r : Register) (w : Word) :
    (s.withQueue q).registerWrite r w = (s.registerWrite r w).withQueue q :=
  State.ite_withQueue q .rfl rfl (State.ite_withQueue q .rfl (s.busFault_withQueue q)
    (congrArg (fun u : State => u.answer .done 0) (s.writeEffect_withQueue q r w)))

/-! ### The sense block, the resets and the tick -/

theorem State.pinLevelChanged_withQueue (p : PinId) :
    (s.withQueue q).pinLevelChanged p = (s.pinLevelChanged p).withQueue q :=
  State.ite_withQueue q .rfl rfl rfl

theorem State.settle_withQueue (p : SenseId) : (s.withQueue q).settle p = (s.settle p).withQueue q := by
  have hadopt := State.pinLevelChanged_withQueue (s.setFilter p (s.filter p).adopt) q (pinOfSense p)
  exact State.ite_withQueue q .rfl (State.propagate_withQueue_of q hadopt) rfl

theorem State.transition_withQueue (p : SenseId) : (s.withQueue q).transition p = (s.transition p).withQueue q := by
  have hadopt := State.pinLevelChanged_withQueue (s.setFilter p (s.filter p).adopt) q (pinOfSense p)
  exact State.ite_withQueue q .rfl (State.propagate_withQueue_of q (State.ite_withQueue q .rfl
    (congrArg (fun u : State => u.pinPulse (pinOfSense p)) hadopt) hadopt)) rfl

theorem State.sampleResetLow_withQueue : (s.withQueue q).sampleResetLow = s.sampleResetLow.withQueue q := by
  refine State.ite_withQueue q .rfl rfl ?_
  have hheld : (s.withQueue q).held = s.held := rfl
  unfold State.resetByPin
  rw [hheld]
  cases s.held <;> rfl

theorem State.release_withQueue : (s.withQueue q).release = s.release.withQueue q :=
  State.ite_withQueue q .rfl rfl rfl

theorem State.takePins_withQueue : (s.withQueue q).takePins = s.takePins.withQueue q :=
  State.foldl_withQueue q (fun s p => by rw [State.settle_withQueue, State.transition_withQueue]) _ s

theorem State.takeQuiet_withQueue : (s.withQueue q).takeQuiet = s.takeQuiet.withQueue q := by
  simp only [State.takeQuiet, State.tierBoundary_withQueue]
  exact State.foldl_withQueue q (fun s k => s.quietExpiry_withQueue q k) _ _

theorem State.takeClose_withQueue : (s.withQueue q).takeClose = s.takeClose.withQueue q := by
  simp only [State.takeClose, State.closeUnitBoundary_withQueue]
  exact State.foldl_withQueue q (fun s l => s.closeTimerExpiry_withQueue q l) _ _

theorem State.catchUp_withQueue : (s.withQueue q).catchUp = s.catchUp.withQueue q := by
  simp only [State.catchUp_eq, State.takePins_withQueue, State.takeQuiet_withQueue, State.takeClose_withQueue]
  generalize s.takePins.takeQuiet.takeClose = t
  have hcomplete : (if (t.withQueue q).overdue then (t.withQueue q).complete else t.withQueue q) =
      (if t.overdue then t.complete else t).withQueue q :=
    State.ite_withQueue q .rfl (t.complete_withQueue q) rfl
  rw [hcomplete, State.intervalExpiry_withQueue, State.pulseEnd_withQueue, State.release_withQueue]

theorem State.tick_withQueue (sns : BitVec 8) : (s.withQueue q).tick sns = (s.tick sns).withQueue q := by
  unfold State.tick
  rw [State.catchUp_withQueue]
  exact State.ite_withQueue q .rfl rfl (State.ite_withQueue q .rfl rfl rfl)

end

/-! ### Every command -/

/-- With another queue a command answers the same state with that queue. -/
theorem exec_withQueue {c : Instr} {s t : State} (q : List Instr) (h : exec c s = .next t) :
    exec c (s.withQueue q) = .next (t.withQueue q) := by
  cases c with
  | admission a w => cases h; exact congrArg _ (s.reportWrite_withQueue q a w)
  | faultAccess a =>
    have hterm : (s.withQueue q).termination a = s.termination a := rfl
    cases ht : s.termination a with
    | none =>
      rw [exec_faultAccess_unclaimed ht] at h
      cases h
      exact exec_faultAccess_unclaimed (hterm.trans ht)
    | some r =>
      cases r with
      | fault =>
        rw [exec_faultAccess_fault ht] at h
        cases h
        rw [exec_faultAccess_fault (hterm.trans ht), State.busFault_withQueue]
      | done | retry =>
        simp only [exec, execFaultAccess, hterm, ht] at h ⊢
        cases h
        rfl
  | reportBase w => cases h; exact congrArg _ (s.registerDone_withQueue q rfl)
  | applicationCompletion => cases h; exact congrArg _ (s.complete_withQueue q)
  | pauseSet w | pauseClear w | stackClear w | softReset w | closeLimitWrite w =>
    cases h; exact congrArg _ (s.registerDone_withQueue q (s.writeControl_withQueue q w))
  | quietExpiry k => cases h; exact congrArg _ (s.quietExpiry_withQueue q k)
  | load | commit | bar | unbar | clearCounters =>
    cases h; exact congrArg _ (s.registerDone_withQueue q (s.tableCommand_withQueue q _))
  | take => cases h; exact congrArg _ (s.take_withQueue q)
  | eos w => cases h; exact congrArg _ (s.registerDone_withQueue q (s.endOfService_withQueue q w))
  | closeTimerExpiry l => cases h; exact congrArg _ (s.closeTimerExpiry_withQueue q l)
  | urgentClear w | deadlineBitClear w =>
    cases h; exact congrArg _ (s.registerDone_withQueue q (s.clearUrgent_withQueue q w))
  | intervalExpiry => cases h; exact congrArg _ (s.intervalExpiry_withQueue q)
  | rstoutPulseEnd => cases h; exact congrArg _ (s.pulseEnd_withQueue q)
  | modeWrite w | recordClear w =>
    cases h; exact congrArg _ (s.registerDone_withQueue q (s.writeDeadline_withQueue q w))
  | filteredTransition p => cases h; exact congrArg _ (s.transition_withQueue q p)
  | settling p => cases h; exact congrArg _ (s.settle_withQueue q p)
  | eventFlagClear w => cases h; exact congrArg _ (s.registerDone_withQueue q (s.clearFlags_withQueue q w))
  | eventEnable w => cases h; exact congrArg _ (s.registerDone_withQueue q (s.writeEnables_withQueue q w))
  | logPop => cases h; exact congrArg _ (s.popLog_withQueue q)
  | checkClear w | faultClear w | resetCauseClear w => cases h; exact congrArg _ (s.registerDone_withQueue q rfl)
  | registerWrite i w => cases h; exact congrArg _ (s.registerWrite_withQueue q _ w)
  | powerOnReset | refclkStop | refclkStart => cases h; rfl
  | systemReset => cases h; exact congrArg _ (s.sampleResetLow_withQueue q)
  | resetRelease => cases h; exact congrArg _ (s.release_withQueue q)
  | tierBoundary t => cases h; exact congrArg _ (s.tierBoundary_withQueue q t)
  | closeUnitBoundary => cases h; exact congrArg _ (s.closeUnitBoundary_withQueue q)
  | tick sns => cases h; exact congrArg _ (s.tick_withQueue q sns)

/-- Settles O2: a command that does not read the queue leaves the one it found. -/
theorem commandsKeepAndIgnoreTheQueue : Obligations.CommandsKeepAndIgnoreTheQueue := by
  unfold Obligations.CommandsKeepAndIgnoreTheQueue
  intro c s
  obtain ⟨t, ht⟩ := exec_isNext c s
  have hsame : exec c s = .next (t.withQueue s.pending) := exec_withQueue s.pending ht
  have hkept : t = t.withQueue s.pending := Host.Outcome.next.inj (ht.symm.trans hsame)
  exact ⟨t, ht, (congrArg State.pending hkept).trans rfl, fun q => exec_withQueue q ht⟩

end Sys2Proof.Machine
end

