-- ==== Sys2Proof/Proofs/ResetState.lean ====
section
/-! The reset state (section 11.1, R172) and the start of each reset (R166 to R168). What a start leaves is read off the
law of a held reset (`HeldInReset`), which it begins: every block but the monitor stands in its reset state, and with the
blocks every register stands that shows only them. Settles the statements about reset. -/

namespace Sys2Proof.Machine

open Sys2Proof.Safety

/-! ### What no request and an empty stack leave to show -/

/-- No line, no bit. -/
theorem lineSetOf_eq_zero {p : LineId → Bool} (h : ∀ l, p l = false) : lineSetOf p = 0#32 := by
  apply BitVec.eq_of_getLsbD_eq
  intro i hi
  rw [lineSetOf_getLsbD p ⟨i, hi⟩, h, BitVec.getLsbD_zero]

section
variable {s : State} (h : ∀ l, (s.line l).requesting = false)
include h

theorem State.sreq_of_noRequest : s.sreq = false := by
  rw [← Bool.not_eq_true, State.sreq_eq_true]
  rintro ⟨l, hl⟩
  obtain ⟨-, hrequesting, -⟩ := State.deliverable_eq_true.mp hl
  exact Bool.false_ne_true ((h l).symm.trans hrequesting)

theorem State.urgentLine_of_noRequest (l : LineId) : s.urgentLine l = false := by
  simp [State.urgentLine, h]

theorem State.ureq_of_noRequest : s.ureq = s.warning := by
  simp [State.ureq, State.urgentLine_of_noRequest h]

theorem State.pendingWord_of_noRequest : s.pendingWord = 0 :=
  lineSetOf_eq_zero fun l => by simp [State.pendingLine, h]

theorem State.urgentWord_of_noRequest : s.urgentWord = placeBool s.warning 31 := by
  rw [State.urgentWord, lineSetOf_eq_zero fun l => by rw [State.urgentLine_of_noRequest h, Bool.and_false]]
  exact BitVec.zero_or

theorem State.takeWord_of_noRequest : s.takeWord = emptyRecord s.depth := by
  rw [State.takeWord, State.offer_eq_none.mpr (State.sreq_of_noRequest h)]

end

theorem State.inserviceWord_of_nil {s : State} (h : s.stack = []) : s.inserviceWord = 0 :=
  lineSetOf_eq_zero fun l => by simp [State.inStack, h]

/-! ### The reset column of section 11.1 (R172) -/

/-- The value that section 11.1 gives each register right after a power-on reset. -/
def resetValue : Register → Word
  | .ident => 0x3224A101
  | .control => 1
  | .status => 3
  | .take => 0x001F003F
  | .eos => 0x3F00
  | .resetCause => 1
  | .reportBase | .flow | .counts | .pending | .inservice | .urgent | .deadlineCtrl | .deadlineView | .eventFlags
  | .eventEnable | .tsel | .tcmd | .tdata0 | .tdata1 | .tdata2 | .tdata3 | .logWord | .logPop | .stack _ => 0

/-- The reset column by A[6:2]. -/
theorem resetValue_registerAt (i : BitVec 5) :
    resetValue (registerAt i) =
      if i = 0x00#5 then 0x3224A101 else if i = 0x01#5 then 1 else if i = 0x02#5 then 3
      else if i = 0x05#5 then 0x001F003F else if i = 0x06#5 then 0x3F00 else if i = 0x0D#5 then 1 else 0 := by
  revert i
  decide

theorem registerAt_eq_iff (i : BitVec 5) :
    (registerAt i = .deadlineCtrl ↔ i = 0x0B#5) ∧ (registerAt i = .deadlineView ↔ i = 0x0C#5) ∧
    (registerAt i = .resetCause ↔ i = 0x0D#5) := by
  revert i
  decide

theorem State.noRequest_of_reset {t : State} (h : t.lines = State.reset.lines) (l : LineId) :
    (t.line l).requesting = false := by
  rw [State.line_of_reset h]
  rfl

theorem State.takeWord_of_reset {t : State} (hlines : t.lines = State.reset.lines) (hstack : t.stack = []) :
    t.takeWord = 0x001F003F := by
  rw [State.takeWord_of_noRequest (State.noRequest_of_reset hlines), State.depth, hstack]
  rfl

/-- Right after a power-on reset every register shows the reset column. -/
theorem State.reset_registerValue (r : Register) : State.reset.registerValue r = resetValue r := by
  have hrequest := State.noRequest_of_reset (t := State.reset) rfl
  cases r with
  | status =>
    rw [State.registerValue, State.statusWord, State.sreq_of_noRequest hrequest, State.ureq_of_noRequest hrequest]
    rfl
  | take => exact State.takeWord_of_reset rfl rfl
  | pending => exact State.pendingWord_of_noRequest hrequest
  | inservice => exact State.inserviceWord_of_nil rfl
  | urgent => exact State.urgentWord_of_noRequest hrequest
  | stack k => exact State.stackWord_of_ge (s := State.reset) k.val.zero_le
  | ident | control | reportBase | flow | eos | counts | deadlineCtrl | deadlineView | resetCause | eventFlags
  | eventEnable | tsel | tcmd | tdata0 | tdata1 | tdata2 | tdata3 | logWord | logPop => rfl

/-! ### Blocks in their reset state -/

theorem State.source_of_reset {t : State} (h : t.sources = State.reset.sources) (k : RemoteId) :
    t.source k = SourceEntry.reset := by
  simp [State.source, h, State.reset]

theorem State.deadlineCtrlWord_of_off {s : State} (hmode : s.deadlineMode = .off) (hinterval : s.deadlineInterval = 0) :
    s.deadlineCtrlWord = 0 := by
  rw [State.deadlineCtrlWord, hmode, hinterval]
  rfl

section
variable {t : State} (h : t.monitorReset = t.resetBlocks)
include h

/-- Where every block but the monitor stands in its reset state, so does every table entry, and queue, stack and log are
empty (R22, R60, R62, R109, R126, R134, R145, R165). -/
theorem State.cleared_of_blocks :
    (∀ k, t.source k = SourceEntry.reset) ∧ (∀ l, t.line l = LineEntry.reset) ∧
    (∀ p, t.pin p = ⟨.off, 0⟩) ∧ (∀ n, t.filter n = ⟨.unset, none, false⟩) ∧
    t.queue = [] ∧ t.applying = false ∧ t.stack = [] ∧ t.log = [] ∧ t.warning = false ∧ t.timeBase = 0 := by
  have hsources : t.monitorReset.sources = t.resetBlocks.sources := congrArg State.sources h
  have hlines : t.monitorReset.lines = t.resetBlocks.lines := congrArg State.lines h
  have hpins : t.pins = Vector.replicate 9 ⟨.off, 0⟩ := congrArg State.pins h
  have hfilters : t.filters = Vector.replicate 8 ⟨.unset, none, false⟩ := congrArg State.filters h
  refine ⟨State.source_of_reset hsources, State.line_of_reset hlines, fun p => ?_, fun n => ?_, congrArg State.queue h,
    congrArg State.applying h, congrArg State.stack h, congrArg State.log h, congrArg State.warning h,
    congrArg State.timeBase h⟩
  · simp [State.pin, hpins]
  · simp [State.filter, hfilters]

/-- Three registers show more than the blocks of `resetBlocks`: DEADLINE_CTRL and DEADLINE_VIEW the monitor, which a trip
leaves TRIPPED, and RESET_CAUSE what survives a reset (R123, R169). -/
theorem State.registerValue_of_blocks {r : Register} (hview : r ≠ .deadlineView) (hcause : r ≠ .resetCause)
    (hctrl : r = .deadlineCtrl → t.deadlineMode = .off ∧ t.deadlineInterval = 0) :
    t.registerValue r = resetValue r := by
  have hblocks : t.monitorReset.registerValue r = t.resetBlocks.registerValue r :=
    congrArg (State.registerValue · r) h
  have hvalue : State.reset.registerValue r = resetValue r := State.reset_registerValue r
  cases r with
  | deadlineView => exact absurd rfl hview
  | resetCause => exact absurd rfl hcause
  | deadlineCtrl =>
    obtain ⟨hmode, hinterval⟩ := hctrl rfl
    exact State.deadlineCtrlWord_of_off hmode hinterval
  | take =>
    have hlines : t.monitorReset.lines = t.resetBlocks.lines := congrArg State.lines h
    exact State.takeWord_of_reset hlines (congrArg State.stack h)
  | ident | control | status | reportBase | flow | eos | counts | pending | inservice | urgent | eventFlags
  | eventEnable | tsel | tcmd | tdata0 | tdata1 | tdata2 | tdata3 | logWord | logPop | stack k =>
    exact hblocks.trans hvalue

end

/-! ### The start of a reset (R166 to R168) -/

/-- A reset that starts is held. -/
theorem held_of_resetStarts {s t : State} (h : ResetStarts s t) : t.held = true := by
  obtain h | ⟨hfree, w, hw, h⟩ | ⟨hfree, hclk, h⟩ | ⟨-, -, ht⟩ := h
  · cases h
    exact State.held_eq_true.mpr (.inl nofun)
  · rw [exec_softReset, State.registerDone_of_free hfree, State.writeControl_of_softReset hw] at h
    cases h
    exact State.held_eq_true.mpr (.inr (.inl nofun))
  · obtain ⟨hpower, -⟩ := State.held_eq_false.mp hfree
    rw [exec_systemReset, State.sampleResetLow_of_taken hclk (State.powerHeld_of_ended (.inl hpower))] at h
    cases h
    exact State.held_of_pinHold rfl
  · exact ht

/-- Each start is a command, and where no reset is held before it, it keeps the law of the held reset; a power-on reset
brings the law about under any other hold. -/
theorem heldInReset_of_resetStarts {s t : State} (h : ResetStarts s t) : HeldInReset t := by
  obtain h | ⟨hfree, w, -, h⟩ | ⟨hfree, -, h⟩ | ⟨hfree, h, -⟩ := h
  · cases h
    exact heldInReset_of_reset rfl rfl rfl rfl
  · exact kept_heldInReset.exec (heldInReset_of_free hfree) h
  · exact kept_heldInReset.exec (heldInReset_of_free hfree) h
  · exact kept_heldInReset.exec (heldInReset_of_free hfree) h

/-- Settles O3: a start of a reset leaves the blocks of `State.reset`, and what they show is the reset column. -/
theorem resetRegisterValues : Obligations.ResetRegisterValues := by
  unfold Obligations.ResetRegisterValues
  intro value cleared
  have hvalue : ∀ i, resetValue (registerAt i) = value i := resetValue_registerAt
  refine ⟨fun a hsel hwrite hlanes => ?_, State.cleared_of_blocks (t := State.reset) rfl, fun s t hstart => ?_⟩
  · rw [State.readValue_register rfl hsel hwrite hlanes, State.reset_registerValue, hvalue]
  · obtain ⟨-, -, hoff, hblocks⟩ := heldInReset_of_resetStarts hstart (held_of_resetStarts hstart)
    refine ⟨State.cleared_of_blocks hblocks, fun i hview hcause hctrl => ?_, fun _ => ?_⟩
    · obtain ⟨hctrlIff, hviewIff, hcauseIff⟩ := registerAt_eq_iff i
      rw [State.registerValue_of_blocks hblocks (mt hviewIff.mp hview) (mt hcauseIff.mp hcause) fun hr =>
        hoff (hctrl (hctrlIff.mp hr)), hvalue]
    · exact ⟨_, congrArg Host.Outcome.next (State.pulseEnd_of_due rfl), State.deadlineCtrlWord_of_off rfl rfl⟩

/-! ### The laws at reset -/

/-- Settles O4: the structures that carry a law over every step hold the law at reset too; the others are laws about the
reset tables, and no reset is held. -/
theorem invariantHoldsAtReset : Obligations.InvariantHoldsAtReset := by
  unfold Obligations.InvariantHoldsAtReset
  obtain ⟨hqueue, hengine⟩ := reportUnitLaw_queueAndEngine.reset
  obtain ⟨-, hclosings⟩ := stackLaw_closingsPending.reset
  exact {
    queue := hqueue
    engine := hengine
    log := reportUnitLaw_logBounded.reset
    stack := stackLaw_stackNested.reset
    closings := hclosings
    stacked := lineLaw_stackedLinesServed.reset rfl rfl
    lines := lineLaw_lineStateByMode.reset rfl rfl
    sources := sourcesConsistent_iff.mpr fun k => by
      rw [State.source_of_reset rfl]
      exact SourceEntry.consistent_reset
    members := fun l k hmember => by
      rw [State.line_of_reset rfl] at hmember
      simp [LineEntry.reset] at hmember
    local_ := lineLaw_localFollowsPins.reset rfl rfl
    sole := lineLaw_soleOneOwner.reset rfl rfl
    pins := pinsMatchLines_of_reset rfl
    monitor := monitorFollowsSreq_of_reset rfl rfl
    held := heldInReset_of_free rfl
    base := reportUnitLaw_baseAligned.reset }

end Sys2Proof.Machine
end

