-- ==== Sys2Proof/Proofs/FrontCommand.lean ====
section
/-! The step over the waiting queue (section 95): one equation of `step` for each shape of the queue. Settles the
statement that a step runs the command at the front. -/

namespace Sys2Proof.Machine

/-- On an empty queue the block idles (log entry 2). -/
theorem step_of_pending_nil {s : State} (hpending : s.pending = []) : step s = .next s := by
  simp only [step, hpending]

/-- The front command is gone from the queue before it runs. -/
theorem step_of_pending_cons {s : State} {c : Instr} {rest : List Instr} (hpending : s.pending = c :: rest) :
    step s = exec c { s with pending := rest } := by
  simp only [step, hpending]

/-- Settles O1: the two equations of `step`, one for each shape of the queue. -/
theorem stepRunsTheFrontCommand : Obligations.StepRunsTheFrontCommand := by
  unfold Obligations.StepRunsTheFrontCommand
  exact ⟨fun _ _ _ => step_of_pending_cons rfl, fun _ => step_of_pending_nil⟩

end Sys2Proof.Machine
end
